-- ==== Sys2Proof/Word.lean ====
section
/-! DEFINITION. Bytes and powered time, the plain units of the 3K60's manual. -/

namespace Sys2Proof

/-- A byte of a frame, a record or a key. -/
abbrev Byte := BitVec 8

/-- A run of bytes, first byte first. -/
abbrev Bytes := List Byte

/-- A moment or a span of powered time in microseconds, the finest unit of the manual (00_scope.md, Time). -/
abbrev Micros := Nat

/-- A moment of powered time to the millisecond (R166, R29). -/
abbrev Millis := Nat

end Sys2Proof
end

