-- ==== Sys2Proof/Syntax.lean ====
section
/-! DEFINITION. The commands of the block: one constructor per row of spec/opcode_table.json, with what
each carries. A request carries the tag and the body of its frame (09, section 9.1); a line event carries the
level only the outside knows. -/

namespace Sys2Proof

/-- What arrived on SDI between a fall of SEL_N and the next rise (09, section 9.1): whole bytes, then the bits
of an incomplete last byte. -/
structure Frame where
  bytes : Bytes
  rest : List Bool
  deriving DecidableEq, Repr

/-- The six record sets of R1. -/
inductive SetId where
  | lifecycle | cells | credentials | layout | binding | evidence
  deriving DecidableEq, Repr

/-- The two copies of a record set (R1). -/
inductive CopyId where
  | a | b
  deriving DecidableEq, Repr

/-- Where a full power loss cuts the nonvolatile writes of the command before it (R1, R168; log entry 9):
writes before number `write` stand, write number `write` is cut, later ones were not begun. A cut commit has
written whole the copies of the sets in `completed` and was writing the copy of `failing`. Where every set is
completed, `rewritten` says how far the commit's second writing of a copy came (R1, the number 2^32 − 1; log entry
38): none, it was not begun; else these sets were rewritten whole and the other ones it rewrites were being written.
A cut write of the settings record uses none of the three. -/
structure Cut where
  write : Nat
  completed : List SetId
  failing : Option SetId
  rewritten : Option (List SetId)
  deriving DecidableEq, Repr

/-- What a power-on finds failing its check without a cut write being the cause (R16, R168; log entry 10). -/
structure StoreDamage where
  settings : Bool
  lifecycleA : Bool
  lifecycleB : Bool
  deriving DecidableEq, Repr

/-- What a restore meets: the parts of the store that fail their check, and the frames that ended before its stages
had, in their order (R156, R157; log entry 49). -/
structure Restore where
  damage : StoreDamage
  held : List Frame
  deriving DecidableEq, Repr

/-- How far the WRITE phase that follows a BLANK LAYOUT cell comes within the step of its verify (R128, R130; log entry
18): to its end, to the write commit alone, or to neither. -/
inductive WriteProgress where
  | ended | committed | waiting
  deriving DecidableEq, Repr

/-- The result of a verify: whether the cell reads erased (R124), and how far the WRITE phase comes where one follows
(R130). -/
structure VerifyReading where
  erased : Bool
  write : WriteProgress
  deriving DecidableEq, Repr

/-- The commands, in the order of spec/opcode_table.json. -/
inductive Instr where
  | identify (tag : Byte) (body : Bytes)
  | status (tag : Byte) (body : Bytes)
  | flags (tag : Byte) (body : Bytes)
  | mask (tag : Byte) (body : Bytes)
  | opstate (tag : Byte) (body : Bytes)
  | readPolicy (tag : Byte) (body : Bytes)
  | provision (tag : Byte) (body : Bytes)
  | wipe (tag : Byte) (body : Bytes)
  | verify (tag : Byte) (body : Bytes)
  | enroll (tag : Byte) (body : Bytes)
  | remove (tag : Byte) (body : Bytes)
  | suspendSlot (tag : Byte) (body : Bytes)
  | restoreSlot (tag : Byte) (body : Bytes)
  | changeSecret (tag : Byte) (body : Bytes)
  | draftRange (tag : Byte) (body : Bytes)
  | readRanges (tag : Byte) (body : Bytes)
  | applyLayout (tag : Byte) (body : Bytes)
  | rekey (tag : Byte) (body : Bytes)
  | unlock (tag : Byte) (body : Bytes)
  | lock (tag : Byte) (body : Bytes)
  | lockAll (tag : Byte) (body : Bytes)
  | prebootDone (tag : Byte) (body : Bytes)
  | setPolicy (tag : Byte) (body : Bytes)
  | readScore (tag : Byte) (body : Bytes)
  | readTrail (tag : Byte) (body : Bytes)
  | standDown (tag : Byte) (body : Bytes)
  | bindPlatform (tag : Byte) (body : Bytes)
  | platformReport (tag : Byte) (body : Bytes)
  | suspend (tag : Byte) (body : Bytes)
  /-- A good request frame with kind code `code`, which names no request (R159). -/
  | unknownKind (code tag : Byte) (body : Bytes)
  /-- A faulty request frame, as it arrived (R155). -/
  | badFrame (frame : Frame)
  | provisionComplete
  | verifyComplete
  | enrollComplete
  | changeOldComplete
  | changeNewComplete
  | backoffDeadline
  | syncCompare
  /-- A rising edge on KL_ACK with KL_RES at this level: true is high, accepted (R71). -/
  | klAck (klRes : Bool)
  | ackTimeout
  | kpurgeFall
  | presRisingEdge
  /-- `dropFirst`: the grant drop reaches the supply unit before the evidence event reaches the evidence unit
  (R81 lets them arrive in any order). -/
  | beaconLost (dropFirst : Bool)
  /-- TAMP takes this level: true is open (high) (R87). -/
  | tampChange (isOpen : Bool)
  /-- `dropFirst` as for `beaconLost`. -/
  | tamperDeglitchEnd (dropFirst : Bool)
  | dormant
  | reportWindowDeadline
  | decayTick
  | arbiterGrant
  | resReadyRise
  | resReadyFall
  | driverAnswer
  | passStuck
  | passEnd
  | verifyResult (reading : VerifyReading)
  /-- Which supplies became good, and what the restore meets (R140, R16, R168, R156). -/
  | powerOn (vmain vaux : Bool) (restore : Restore)
  | reservoirTimeout
  /-- `settleFirst`: the settlement of a derivation in flight is taken before the grant-taking (R144 allows
  either). -/
  | vmainLoss (settleFirst : Bool)
  | vmainReturn
  /-- The write it cuts, if the loss falls in the latest command's nonvolatile writes (R1, R168). -/
  | fullPowerLoss (cut : Option Cut)
  | intentExpiry
  | grantExpiry
  | rstN
  /-- The deglitched level of PRES becomes low, or is taken for the first time at this level (R82). -/
  | presFallingChange (level : Bool)
  | vauxLoss
  | vauxReturn
  /-- VMAIN takes this level during STARTING (R143). -/
  | vmainChangeDuringStarting (good : Bool)
  | rstNRise
  deriving DecidableEq, Repr

end Sys2Proof
end

