-- ==== Sys2Proof/Config.lean ====
section
/-! DEFINITION. What the manual fixes once for the part (intervals, codes of identity) and the free values
of the model: constants without a body, which no proof can evaluate. -/

namespace Sys2Proof.Config

/-- FREE VALUE (log entry 11). The value a derivation of a secret with a salt produces (R19; the manual
gives its length, 32 bytes, and not its function). -/
opaque derive (secret salt : Bytes) : Vector Byte 32

/-- FREE VALUE (log entry 12). The `n`-th 16-byte draw of the internal random source (R3, R32, R35). -/
opaque random16 (n : Nat) : Vector Byte 16

/-- FREE VALUE (log entry 12). The `n`-th 32-byte draw of the internal random source (R4, R130). -/
opaque random32 (n : Nat) : Vector Byte 32

/-- FREE VALUE (log entry 13). The 16-byte integrity tag of a range key wrapped under a root (R7). -/
opaque wrapTag (root key : Bytes) : Vector Byte 16

/-- R19: a derivation lasts 150 ms. -/
def derivationTime : Micros := 150000
/-- R72: the acknowledgement wait, 10 ms. -/
def ackWait : Micros := 10000
/-- R74: KPURGE stays high for 20 µs. -/
def purgePulse : Micros := 20
/-- R82: the deglitch of PRES, 1 ms. -/
def presHold : Micros := 1000
/-- R84: the spacing of a valid beacon, 250 ms to 4 s. -/
def beaconMin : Micros := 250000
/-- R84: see `beaconMin`. -/
def beaconMax : Micros := 4000000
/-- R94: the report window, 60 s. -/
def reportWait : Micros := 60000000
/-- R122: the driver's answer window, 1.5 ms. -/
def answerWindow : Micros := 1500
/-- R122: an erase pass runs 2.0 ms. -/
def passTime : Micros := 2000
/-- R124: a verify lasts 0.5 ms. -/
def verifyTime : Micros := 500
/-- R142: the reservoir wait, 80 ms. -/
def reservoirLimit : Micros := 80000
/-- R147: a suspend intent lives 30 s. -/
def intentLife : Micros := 30000000
/-- One second of powered time. -/
def second : Micros := 1000000
/-- One minute of powered time. -/
def minute : Micros := 60000000
/-- R170: the top value of the powered-seconds counter, at which it saturates. -/
def topSeconds : Nat := 4294967295

end Sys2Proof.Config
end

