-- ==== Sys2Proof/Machine/Bytes.lean ====
section
/-! DEFINITION. The encodings of section 10: numbers most significant byte first, the check byte, the 16-bit
sum, and saturating counts (R173). -/

namespace Sys2Proof.Machine

/-- `n` modulo 256^width in `width` bytes, most significant byte first (10, second paragraph). -/
def be : (width : Nat) → (n : Nat) → Bytes
  | 0, _ => []
  | w + 1, n => BitVec.ofNat 8 (n / 256 ^ w) :: be w n

/-- A count that saturates at the top value of its field (R173). -/
def beSat (width n : Nat) : Bytes := be width (min n (256 ^ width - 1))

/-- The number that bytes write, most significant first. -/
def ofBe (bs : Bytes) : Nat := bs.foldl (fun n b => n * 256 + b.toNat) 0

/-- The sum of every byte, as R155 takes it. -/
def byteSum (bs : Bytes) : Nat := bs.foldl (fun n b => n + b.toNat) 0

/-- The byte that brings the sum of every byte to 0 modulo 256 (09, section 9.1; 10.6). -/
def checkByte (bs : Bytes) : Byte := BitVec.ofNat 8 (256 - byteSum bs % 256)

/-- Yes, on, good, true, high, open: 1; else 0 (section 10.1). -/
def flag (b : Bool) : Byte := if b then 1 else 0

/-- R168: the sum, modulo 65,536, of the bytes taken as 16-bit words. That the first byte of a word is the more
significant one is the model's choice (log entry 50). -/
def wordSum : Bytes → BitVec 16
  | hi :: lo :: rest => BitVec.ofNat 16 (hi.toNat * 256 + lo.toNat) + wordSum rest
  | _ => 0

end Sys2Proof.Machine
end

