-- ==== Sys2Proof/Machine/Policy.lean ====
section
/-! DEFINITION. The stored settings record (R168) and its byte layout (section 10.5). -/

namespace Sys2Proof.Machine

/-- The fields of the stored settings record, named as the manual names them (R168; Terms and abbreviations). -/
structure Settings where
  wBad : Nat
  wBeacon : Nat
  wTamper : Nat
  wDorm : Nat
  wForeign : Nat
  ta : Nat
  tl : Nat
  tw : Nat
  h : Nat
  d : Nat
  idc : Nat
  scoreWipe : Bool
  rUser : Nat
  beaconOn : Bool
  w : Nat
  tamperCode : Nat
  dormId : Nat
  p : Nat
  shadowL : Nat
  maxHold : Nat
  deriving DecidableEq, Repr

/-- The defaults of R168. -/
def Settings.defaults : Settings where
  wBad := 40
  wBeacon := 60
  wTamper := 200
  wDorm := 25
  wForeign := 300
  ta := 200
  tl := 800
  tw := 2000
  h := 50
  d := 8
  idc := 10
  scoreWipe := true
  rUser := 8
  beaconOn := false
  w := 10
  tamperCode := 2
  dormId := 30
  p := 4
  shadowL := 0
  maxHold := 120

/-- The 30 bytes of section 10.5. -/
def Settings.toBytes (c : Settings) : Bytes :=
  be 2 c.wBad ++ be 2 c.wBeacon ++ be 2 c.wTamper ++ be 2 c.wDorm ++ be 2 c.wForeign
    ++ be 2 c.ta ++ be 2 c.tl ++ be 2 c.tw
    ++ be 1 c.h ++ be 1 c.d ++ be 1 c.idc ++ [flag c.scoreWipe] ++ be 1 c.rUser
    ++ [flag c.beaconOn] ++ be 1 c.w ++ be 1 c.tamperCode ++ be 1 c.dormId ++ be 1 c.p
    ++ be 2 c.shadowL ++ be 1 c.maxHold ++ [0]

/-- The 16-bit check of R168. -/
def Settings.check (c : Settings) : BitVec 16 := wordSum c.toBytes

/-- R87: the deglitch time of a tamper code. -/
def deglitchTime (code : Nat) : Micros :=
  match code with
  | 1 => 2000
  | 2 => 8000
  | 3 => 32000
  | _ => 128000

end Sys2Proof.Machine
end

