-- ==== Sys2Proof/Machine/State.lean ====
section
/-! DEFINITION. The state of the 3K60: every register, record, queue, timer and line the manual gives the part,
as plain data, and the state right after a power-on of a factory part. -/

namespace Sys2Proof.Machine

/-- R2. -/
inductive Lifecycle where
  | unprovisioned | provisioned | wiping | disabled
  deriving DecidableEq, Repr

/-- The wipe journal (01, section 1.1): next cell 0 to 26, and the fault list, ascending. -/
structure Journal where
  next : Fin 27
  faults : List (Fin 26)
  deriving DecidableEq, Repr

/-- The lifecycle record (01, section 1.1). -/
structure LifecycleRecord where
  lifecycle : Lifecycle
  journal : Option Journal
  deriving DecidableEq, Repr

/-- A range key wrapped under the root: 32 enciphered bytes, held as the key they decipher to, and the 16-byte
integrity tag (R7; log entry 13). -/
structure WrappedKey where
  key : Bytes
  tag : Bytes
  deriving DecidableEq, Repr

/-- What a HOLDING cell holds: the root, the wipe code or a verifier as bytes, or a wrapped range key. -/
inductive CellContent where
  | plain (bytes : Bytes)
  | wrapped (key : WrappedKey)
  deriving DecidableEq, Repr

/-- A key cell in its cell state (01, section 1.3). What a FAULTED cell still holds is not used (log entry 14). -/
inductive Cell where
  | blank
  | holding (content : CellContent)
  | faulted
  deriving DecidableEq, Repr

/-- R17. -/
inductive SlotState where
  | empty | active | suspended
  deriving DecidableEq, Repr

/-- A credential slot (02, section 2.1). The role is ADMIN for slot 0 and USER for the others. -/
structure Slot where
  state : SlotState
  salt : Option Bytes
  access : BitVec 16
  resumeAllowed : Bool
  deriving DecidableEq, Repr

/-- R17: the EMPTY slot. -/
def Slot.none : Slot := ⟨.empty, .none, 0, false⟩

/-- The credential table's nonvolatile fields, with C and the open-attempt marker (R1, R20). -/
structure CredentialTable where
  slots : Vector Slot 8
  failures : Nat
  openAttempt : Bool
  deriving DecidableEq, Repr

/-- A stretch of blocks (R40). -/
structure Span where
  start : Nat
  length : Nat
  deriving DecidableEq, Repr

/-- The lock-on set, a subset of POWER, RESET and SUSPEND (03, section 3.1). -/
structure LockOn where
  power : Bool
  reset : Bool
  suspend : Bool
  deriving DecidableEq, Repr

/-- The locked-read response (03, section 3.1). -/
inductive LockedRead where
  | zero | refuse
  deriving DecidableEq, Repr

/-- R46. -/
inductive Health where
  | good | faulted
  deriving DecidableEq, Repr

/-- The editable fields of a range record (R42). -/
structure Editable where
  enabled : Bool
  extent : Option Span
  lockOn : LockOn
  response : LockedRead
  resumeEligible : Bool
  deriving DecidableEq, Repr

/-- The nonvolatile fields of a range record (03, section 3.1). -/
structure RangeRecord where
  edit : Editable
  rekeyPending : Bool
  health : Health
  deriving DecidableEq, Repr

/-- The active layout, with the capacity (R38). -/
structure Layout where
  capacity : Option Nat
  ranges : Vector RangeRecord 16
  deriving DecidableEq, Repr

/-- R98. -/
inductive Stage where
  | calm | alert | lockdown | wipe
  deriving DecidableEq, Repr

/-- R118. -/
inductive TrailKind where
  | badSecret | beaconLost | tamper | dormant | foreign | keylink
  | relief | stage | standDown | wipeStart | wipeDone
  deriving DecidableEq, Repr

/-- An entry of the evidence trail (R118); `time` in powered seconds. -/
structure TrailEntry where
  time : Nat
  kind : TrailKind
  contribution : Nat
  score : Nat
  stage : Stage
  deriving DecidableEq, Repr

/-- S, the stage, the trail (oldest first) and its append count (R98, R118). -/
structure Evidence where
  score : Nat
  stage : Stage
  trail : List TrailEntry
  appended : Nat
  deriving DecidableEq, Repr

/-- One copy of a record set (R1). `good`: the copy passes its 16-bit check. -/
structure Copy (α : Type) where
  seq : BitVec 32
  good : Bool
  commits : List (SetId × BitVec 32)
  content : α
  deriving DecidableEq, Repr

/-- A record set in its two copies (R1). -/
structure TwoCopies (α : Type) where
  a : Copy α
  b : Copy α
  deriving DecidableEq, Repr

/-- The stored settings record with its check, a single copy (R168). -/
structure StoredSettings where
  record : Settings
  check : BitVec 16
  deriving DecidableEq, Repr

/-- The nonvolatile store (R1, R168, R170). -/
structure Nvs where
  lifecycle : TwoCopies LifecycleRecord
  cells : TwoCopies (Vector Cell 26)
  credentials : TwoCopies CredentialTable
  layout : TwoCopies Layout
  binding : TwoCopies (Option Bytes)
  evidence : TwoCopies Evidence
  settings : StoredSettings
  seconds : Nat
  deriving DecidableEq, Repr

/-- The store as it stood before one write of the latest command; no sets means a write of the settings record
(the model's own, log entry 9). -/
structure WriteImage where
  before : Nvs
  sets : List SetId
  deriving DecidableEq, Repr

/-- What a derivation is for, with what its completion needs (R19, R3, R32, R35). `selfForm`: CHANGE_NEW of the
self form. -/
inductive Work where
  | provision (capacity : Nat) (wipeCode : Bytes)
  | verify
  | enroll (access : BitVec 16) (resumeAllowed : Bool)
  | changeOld (newSecret : Bytes)
  | changeNew (selfForm : Bool)
  deriving DecidableEq, Repr

/-- The in-flight record of the derivation unit (R19). -/
structure Derivation where
  work : Work
  slot : Fin 8
  startedAt : Micros
  secret : Bytes
  salt : Bytes
  deriving DecidableEq, Repr

/-- A read gate and a write gate; true is OPEN. -/
structure Gates where
  read : Bool
  write : Bool
  deriving DecidableEq, Repr

/-- Both gates CLOSED. -/
def Gates.closed : Gates := ⟨false, false⟩

/-- The shadow's view (R57). -/
inductive View where
  | shown | hidden
  deriving DecidableEq, Repr

/-- R62. -/
inductive MirrorState where
  | empty | loading | loaded | clearing
  deriving DecidableEq, Repr

/-- A mirror record of engine slots 0 to 15 (R62). -/
structure MirrorRecord where
  state : MirrorState
  gates : Gates
  deriving DecidableEq, Repr

/-- The mirror record of engine slot 16 (R62); it is never CLEARING. -/
structure ShadowMirror where
  state : MirrorState
  view : View
  length : Option Nat
  deriving DecidableEq, Repr

/-- The extent of a LOAD (R48): start and length, or for range 0 the capacity and the enabled spans in ascending
order of start. -/
inductive Extent where
  | span (s : Span)
  | wholeDrive (capacity : Nat) (spans : List Span)
  deriving DecidableEq, Repr

/-- A transfer with its content (04, section 4.1). -/
inductive Transfer where
  | load (range : Fin 16) (key : Bytes) (gates : Gates) (response : LockedRead) (extent : Extent)
  | gates (range : Fin 16) (gates : Gates)
  | clear (range : Fin 16)
  | shadow (view : View) (length : Nat)
  deriving DecidableEq, Repr

/-- The in-flight record of the key link unit (R70). KL_STB is high exactly while it exists. -/
structure InFlight where
  slot : Fin 17
  transfer : Transfer
  rose : Micros
  rejoin : Bool
  deriving DecidableEq, Repr

/-- R73. -/
inductive LinkState where
  | running | stopped
  deriving DecidableEq, Repr

/-- What the beacon watch holds while WATCHING (R83); no level until the line has held one (R82). `changed`: the moment
of the start or of the last change of the deglitched level, from which 1 ms must pass before the next (R82; log entry
17). -/
structure BeaconWatch where
  level : Option Bool
  changed : Micros
  reference : Option Micros
  deadline : Micros
  deriving DecidableEq, Repr

/-- The tamper state with the moment its timing began (R87). -/
inductive TamperState where
  | off
  | armed
  | opening (since : Micros)
  | tripped
  | closing (since : Micros)
  deriving DecidableEq, Repr

/-- R94. -/
inductive ReportWindow where
  | none
  | waiting (deadline : Micros)
  | matched
  | foreign
  deriving DecidableEq, Repr

/-- R120. -/
inductive Owner where
  | layout | wipe
  deriving DecidableEq, Repr

/-- The phase of a cell job, with the start of the step; for a pass, whether the driver has answered and whether the
pass was judged stuck; for WRITE, whether the write commit is made (07, R121 to R124, R128, R130). -/
inductive Phase where
  | waiting
  | pass (start : Micros) (answered stuck : Bool)
  | verify (start : Micros)
  | write (committed : Bool)
  deriving DecidableEq, Repr

/-- The job record (R120). -/
structure Job where
  owner : Owner
  cell : Fin 26
  p : Nat
  round : Nat
  good : Nat
  stuckRun : Nat
  phase : Phase
  deriving DecidableEq, Repr

/-- The LAYOUT claim: the range to work next, and the lowest range this operation has left FAULTED (R127, R129,
R131). -/
structure LayoutWork where
  next : Fin 16
  faulted : Option (Fin 16)
  deriving DecidableEq, Repr

/-- R139. -/
inductive Mode where
  | off | starting | active | aux
  deriving DecidableEq, Repr

/-- R147: hold in minutes and intent expiry. -/
structure Intent where
  hold : Nat
  expiry : Micros
  deriving DecidableEq, Repr

/-- R149. -/
structure Grant where
  range : Fin 16
  gates : Gates
  expiry : Micros
  deriving DecidableEq, Repr

/-- R153. -/
inductive DropCause where
  | expiry | tamper | beaconLost | stageRise
  deriving DecidableEq, Repr

/-- R153. -/
structure ResumeReport where
  taken : Nat
  dropCause : Option DropCause
  consumed : BitVec 16
  deriving DecidableEq, Repr

/-- R166: the kinds that start an operation; STARTUP names no request (R133). -/
inductive OpKind where
  | provision | verify | enroll | changeSecret | applyLayout | rekey | startup | wipe
  deriving DecidableEq, Repr

/-- R166. -/
inductive OpState where
  | idle | running | ended
  deriving DecidableEq, Repr

/-- R166. -/
inductive OpOutcome where
  | accepted | wrongSecret | aborted | superseded | complete | completeWithFaults | rootFault
  deriving DecidableEq, Repr

/-- An operation record (R166). -/
structure OpRecord where
  kind : Option OpKind
  state : OpState
  outcome : Option OpOutcome
  detail : Option Nat
  startedAt : Option Millis
  endedAt : Option Millis
  unseen : Bool
  deriving DecidableEq, Repr

/-- The IDLE record. -/
def OpRecord.idle : OpRecord := ⟨.none, .idle, .none, .none, .none, .none, false⟩

/-- The faults that stop the machine: none, for the manual names none (every fault it names is an effect). -/
inductive Fault where
  deriving DecidableEq, Repr

/-- The refusals. `notModelled` would be an arm of exec without a meaning; no command raises it. -/
inductive Refusal where
  /-- Raised by an arm of exec that has no meaning yet; none is left. Safe. -/
  | notModelled (mnemonic : String)
  deriving DecidableEq, Repr

/-- The state of the part. -/
structure State where
  /-- The commands that wait, first in first out. -/
  pending : List Instr
  /-- Powered time (R170). -/
  now : Micros
  life : LifecycleRecord
  cells : Vector Cell 26
  cred : CredentialTable
  layout : Layout
  /-- The binding token (R93). -/
  binding : Option Bytes
  evid : Evidence
  /-- The stored settings record as the blocks use it. -/
  settings : Settings
  nvs : Nvs
  /-- The model's own (log entry 9). -/
  writeImages : List WriteImage
  /-- The model's own (log entry 12). -/
  draws : Nat
  /-- The volatile root copy (R8). -/
  rootCopy : Option Bytes
  derivation : Option Derivation
  /-- The backoff deadline (R29). -/
  backoff : Option Millis
  /-- The verifications this cycle (R31). -/
  verified : BitVec 8
  gates : Vector Gates 16
  draft : Option (Vector Editable 16)
  /-- The shadow's desired state (R57). -/
  shadow : View
  mirror : Vector MirrorRecord 16
  mirrorShadow : ShadowMirror
  /-- The sync queue, head first (R64). -/
  queue : List (Fin 17)
  inFlight : Option InFlight
  /-- KPURGE: the moment it rose while it is high (R74). -/
  kpurge : Option Micros
  linkState : LinkState
  faultRun : Nat
  /-- The line TAMP: true is open. -/
  tampOpen : Bool
  /-- The beacon watch; none is OFF (R83). -/
  beacon : Option BeaconWatch
  tamper : TamperState
  /-- The dormancy count in powered time (R90). -/
  dormancyCount : Micros
  /-- The satisfied mark (R90). -/
  satisfied : Bool
  window : ReportWindow
  /-- The decay count in powered time (R111). -/
  decayCount : Micros
  job : Option Job
  /-- The WIPE claim (R127). -/
  wipeClaim : Bool
  /-- The LAYOUT claim (R127). -/
  layoutWork : Option LayoutWork
  resReady : Bool
  mode : Mode
  vmain : Bool
  vaux : Bool
  /-- The start of the reservoir wait while it runs (R142). -/
  reservoirWait : Option Micros
  intent : Option Intent
  /-- The set of resume grants (R149), listed in ascending range order, which is the model's choice (log entry 46). -/
  grants : List Grant
  report : ResumeReport
  /-- The line RST_N is low. -/
  rstLow : Bool
  /-- The reply buffer (R156). -/
  reply : Option Bytes
  /-- The previous-frame-fault flag (R155). -/
  frameFault : Bool
  /-- The indicator latches, bit by code (R162, section 10.1). -/
  latched : BitVec 10
  /-- The indicator masks (R164). -/
  masks : BitVec 10
  credOp : OpRecord
  layoutOp : OpRecord
  wipeOp : OpRecord
  /-- The policy check mark (R161). -/
  policyDefaulted : Bool
  deriving DecidableEq, Repr

/-- R39: a record of the default layout; range 0 alone is enabled. -/
def RangeRecord.default (enabled : Bool) : RangeRecord :=
  ⟨⟨enabled, none, ⟨true, true, true⟩, .refuse, false⟩, false, .good⟩

/-- R39: the default layout for a capacity (R4), or without one (R13). -/
def Layout.default (capacity : Option Nat) : Layout :=
  ⟨capacity, Vector.ofFn fun k => RangeRecord.default (k.val == 0)⟩

/-- R17, R20: no slot, C = 0, the marker clear. -/
def CredentialTable.factory : CredentialTable := ⟨Vector.replicate 8 Slot.none, 0, false⟩

/-- R98: S = 0, CALM, an empty trail. -/
def Evidence.factory : Evidence := ⟨0, .calm, [], 0⟩

/-- Two good copies of one content, numbers 0 (R16: a factory part is delivered with both copies good). -/
def TwoCopies.factory {α : Type} (x : α) : TwoCopies α := ⟨⟨0, true, [], x⟩, ⟨0, true, [], x⟩⟩

/-- R168: the defaults with a good check. -/
def StoredSettings.factory : StoredSettings := ⟨.defaults, Settings.defaults.check⟩

/-- The store of a factory part. -/
def Nvs.factory : Nvs where
  lifecycle := .factory ⟨.unprovisioned, none⟩
  cells := .factory (Vector.replicate 26 .blank)
  credentials := .factory .factory
  layout := .factory (.default none)
  binding := .factory none
  evidence := .factory .factory
  settings := .factory
  seconds := 0

/-- R62: an EMPTY mirror record. -/
def MirrorRecord.none : MirrorRecord := ⟨.empty, .closed⟩

/-- R62: the EMPTY record of slot 16. -/
def ShadowMirror.none : ShadowMirror := ⟨.empty, .shown, Option.none⟩

/-- The state right after the power-on from OFF of a factory part (R140 stages 1 to 4 done, the reservoir wait of
stage 5 begun), VMAIN and VAUX good, RES_READY not yet true, the tamper loop closed and RST_N high (log
entry 1). -/
def State.reset : State where
  pending := []
  now := 0
  life := ⟨.unprovisioned, none⟩
  cells := Vector.replicate 26 .blank
  cred := .factory
  layout := .default none
  binding := none
  evid := .factory
  settings := .defaults
  nvs := .factory
  writeImages := []
  draws := 0
  rootCopy := none
  derivation := none
  backoff := none
  verified := 0
  gates := Vector.replicate 16 .closed
  draft := none
  shadow := .shown
  mirror := Vector.replicate 16 .none
  mirrorShadow := .none
  queue := []
  inFlight := none
  kpurge := none
  linkState := .running
  faultRun := 0
  tampOpen := false
  beacon := none
  tamper := .armed
  dormancyCount := 0
  satisfied := false
  window := .none
  decayCount := 0
  job := none
  wipeClaim := false
  layoutWork := none
  resReady := false
  mode := .starting
  vmain := true
  vaux := true
  reservoirWait := some 0
  intent := none
  grants := []
  report := ⟨0, none, 0⟩
  rstLow := false
  reply := none
  frameFault := false
  latched := 0
  masks := 0
  credOp := .idle
  layoutOp := .idle
  wipeOp := .idle
  policyDefaulted := false

end Sys2Proof.Machine
end

