-- ==== Sys2Proof/Machine/Store.lean ====
section
/-! DEFINITION. The nonvolatile store: commits over two copies, commits cut by power loss, and what a restore takes
(R1), and the in-place settings record (R168). -/

namespace Sys2Proof.Machine

variable {α : Type}

/-- Whether some copy passes its check. -/
def TwoCopies.anyGood (t : TwoCopies α) : Bool := t.a.good || t.b.good

/-- The set's higher number: that of a good copy, the higher of two (R1). Where neither copy is good the manual gives
no number to count from (R16); the model takes the higher of the two (log entry 39). -/
def TwoCopies.higher (t : TwoCopies α) : BitVec 32 :=
  if t.a.good == t.b.good then (if t.a.seq < t.b.seq then t.b.seq else t.a.seq)
  else if t.b.good then t.b.seq else t.a.seq

/-- The number a commit gives the set (R1); 2^32 − 1 is followed by 0. -/
def TwoCopies.nextSeq (t : TwoCopies α) : BitVec 32 := t.higher + 1

/-- The copy a commit writes: the one that does not hold the higher number, a failing one first (R1). Of two good copies
with equal numbers it is B, which is the model's choice (log entry 44). -/
def TwoCopies.target (t : TwoCopies α) : CopyId :=
  if !t.a.good then .a else if !t.b.good then .b else if t.a.seq < t.b.seq then .a else .b

/-- The set stands at number 2^32 − 1 (R1). -/
def TwoCopies.atTop (t : TwoCopies α) : Bool := t.higher == BitVec.allOnes 32

/-- A commit writes both copies of the set: at number 2^32 − 1 it rewrites the other copy before it ends (R1), and
where no copy is good it writes new copies (R16). -/
def TwoCopies.twice (t : TwoCopies α) : Bool := t.atTop || !t.anyGood

/-- One of the two copies. -/
def TwoCopies.get (t : TwoCopies α) : CopyId → Copy α
  | .a => t.a
  | .b => t.b

/-- One of the two copies replaced. -/
def TwoCopies.put (t : TwoCopies α) (c : Copy α) : CopyId → TwoCopies α
  | .a => { t with a := c }
  | .b => { t with b := c }

/-- The other copy. -/
def otherCopy : CopyId → CopyId
  | .a => .b
  | .b => .a

/-- A copy that fails its check. -/
def Copy.broken (c : Copy α) : Copy α := { c with good := false }

/-- A copy that is found failing beside a good one: its number counts no more (log entry 39). -/
def TwoCopies.fail (t : TwoCopies α) (i : CopyId) : TwoCopies α :=
  let beside := t.get (otherCopy i)
  t.put (if beside.good then { (t.get i).broken with seq := beside.seq } else (t.get i).broken) i

/-- A completed commit of new content (R1, R16). -/
def TwoCopies.write (t : TwoCopies α) (commits : List (SetId × BitVec 32)) (x : α) : TwoCopies α :=
  let c : Copy α := ⟨t.nextSeq, true, commits, x⟩
  if t.twice then ⟨c, c⟩ else t.put c t.target

/-- The copy that was being written when power failed fails its check; the other stays (R1). -/
def TwoCopies.cut (t : TwoCopies α) : TwoCopies α := t.put (t.get t.target).broken t.target

/-- The copy a restore takes before it looks at commit lists: the good one with the higher number, A when the
numbers are equal (R1). -/
def TwoCopies.first (t : TwoCopies α) : CopyId :=
  if t.a.good && (!t.b.good || !(t.a.seq < t.b.seq)) then .a else if t.b.good then .b else .a

/-- A copy whose commit list a restore has settled: the list is not judged again (log entry 8). -/
def Copy.listed (c : Copy α) : Copy α := { c with commits := [] }

/-- R1: the restore takes the other copy, and the copy it rejects is not taken again (log entry 8). -/
def TwoCopies.reject (t : TwoCopies α) : TwoCopies α :=
  let other := otherCopy t.first
  (t.fail t.first).put (t.get other).listed other

/-- R1: the other copy taken, where it is good; a set that holds one good copy keeps that copy (log entry 8). -/
def TwoCopies.rejectBeside (t : TwoCopies α) : TwoCopies α :=
  if (t.get (otherCopy t.first)).good then t.reject else t.put (t.get t.first).listed t.first

/-- The content in force. -/
def TwoCopies.taken (t : TwoCopies α) : α := (t.get t.first).content

/-- The number each set stands at: that of the copy a restore first takes, where one is good; else the number the lists
of the other sets are held against (log entry 39). -/
def Nvs.takenSeq (n : Nvs) : SetId → BitVec 32
  | .lifecycle => n.lifecycle.higher
  | .cells => n.cells.higher
  | .credentials => n.credentials.higher
  | .layout => n.layout.higher
  | .binding => n.binding.higher
  | .evidence => n.evidence.higher

/-- The commit list a restore checks in this set: that of the copy it has taken. A set none of whose copies is good has
no copy taken, and none of its lists is checked (R1, R16). -/
def TwoCopies.takenList (t : TwoCopies α) : List (SetId × BitVec 32) :=
  if t.anyGood then (t.get t.first).commits else []

/-- The commit lists a restore checks, set by set (R1). -/
def Nvs.takenCommits (n : Nvs) : SetId → List (SetId × BitVec 32)
  | .lifecycle => n.lifecycle.takenList
  | .cells => n.cells.takenList
  | .credentials => n.credentials.takenList
  | .layout => n.layout.takenList
  | .binding => n.binding.takenList
  | .evidence => n.evidence.takenList

/-- The number the next commit gives a set. -/
def Nvs.nextSeq (n : Nvs) (id : SetId) : BitVec 32 := n.takenSeq id + 1

/-- The six sets. -/
def allSets : List SetId := [.lifecycle, .cells, .credentials, .layout, .binding, .evidence]

/-- Whether some copy of a set passes its check. -/
def Nvs.anyGood (n : Nvs) : SetId → Bool
  | .lifecycle => n.lifecycle.anyGood
  | .cells => n.cells.anyGood
  | .credentials => n.credentials.anyGood
  | .layout => n.layout.anyGood
  | .binding => n.binding.anyGood
  | .evidence => n.evidence.anyGood

/-- The taken copy of a set comes from before the commit that gave the set a number: that copy carries one less, or two
less where the newer of the two copies from before has failed its check since (R1; log entry 8). -/
def stoodBefore (taken given : BitVec 32) : Bool := taken == given - 1 || taken == given - 2

/-- A commit list belongs to a commit that was cut when the copy taken of a set it names is from before that commit (R1;
log entry 8). -/
def Nvs.cutList (n : Nvs) (commits : List (SetId × BitVec 32)) : Bool :=
  commits.any fun (id, k) => stoodBefore (n.takenSeq id) k

/-- Whether a cut commit wrote the copy a restore first takes of this set. -/
def Nvs.rejected (n : Nvs) (id : SetId) : Bool :=
  allSets.any fun j =>
    n.cutList (n.takenCommits j) && (n.takenCommits j).any (· == (id, n.takenSeq id))

/-- The store after a restore has chosen a copy of every set (R1). A lifecycle record whose one good copy is a cut
commit's has no good copy left (R16; log entry 8). -/
def Nvs.settled (n : Nvs) : Nvs :=
  { n with
    lifecycle := if n.rejected .lifecycle then n.lifecycle.reject else n.lifecycle
    cells := if n.rejected .cells then n.cells.rejectBeside else n.cells
    credentials := if n.rejected .credentials then n.credentials.rejectBeside else n.credentials
    layout := if n.rejected .layout then n.layout.rejectBeside else n.layout
    binding := if n.rejected .binding then n.binding.rejectBeside else n.binding
    evidence := if n.rejected .evidence then n.evidence.rejectBeside else n.evidence }

/-- R168: whether the settings record passes its check. -/
def StoredSettings.good (r : StoredSettings) : Bool := r.check == r.record.check

/-- R168: a settings record that fails its check. -/
def StoredSettings.broken (r : StoredSettings) : StoredSettings :=
  { r with check := r.record.check + 1 }

/-- R168: the record with its check. -/
def StoredSettings.of (c : Settings) : StoredSettings := ⟨c, c.check⟩

/-- The powered-seconds counter (R170). -/
def State.seconds (s : State) : Nat := min (s.now / Config.second) Config.topSeconds

/-- Powered time to the millisecond (R170). -/
def State.millis (s : State) : Millis := s.now / 1000

/-- One nonvolatile commit of the present working content of these sets, with the present counter (R1, R170). -/
def State.commit (sets : List SetId) (s : State) : State :=
  let n := s.nvs
  let list := sets.map fun id => (id, n.nextSeq id)
  { s with
    nvs := { n with
      lifecycle := if SetId.lifecycle ∈ sets then n.lifecycle.write list s.life else n.lifecycle
      cells := if SetId.cells ∈ sets then n.cells.write list s.cells else n.cells
      credentials := if SetId.credentials ∈ sets then n.credentials.write list s.cred else n.credentials
      layout := if SetId.layout ∈ sets then n.layout.write list s.layout else n.layout
      binding := if SetId.binding ∈ sets then n.binding.write list s.binding else n.binding
      evidence := if SetId.evidence ∈ sets then n.evidence.write list s.evid else n.evidence
      seconds := s.seconds }
    writeImages := s.writeImages ++ [⟨n, sets⟩] }

/-- R168: the settings record written in place with a new check; the counter is saved with it (log entry 24). -/
def State.writeSettings (c : Settings) (s : State) : State :=
  { s with
    settings := c
    nvs := { s.nvs with settings := .of c, seconds := s.seconds }
    writeImages := s.writeImages ++ [⟨s.nvs, []⟩] }

/-- Each command starts with no write of its own (log entry 9). -/
def State.begin (s : State) : State := { s with writeImages := [] }

/-- One set of a cut commit while some set's first writing is not completed, or no second writing has begun: its
copy was completed, was being written, or was not yet reached; the other copy stays good (R1). -/
def firstWriting (cut : Cut) (id : SetId) (before after : TwoCopies α) : TwoCopies α :=
  if cut.completed.contains id then before.put (after.get before.target) before.target
  else if cut.failing == some id then before.cut
  else before

/-- One set of a cut commit in its second writing (R1; log entry 38): the copy the first writing left alone was
rewritten, or was being written. A set written once is completed. -/
def secondWriting (rewritten : List SetId) (id : SetId) (before after : TwoCopies α) : TwoCopies α :=
  if before.twice && !rewritten.contains id then after.put (after.get (otherCopy before.target)).broken (otherCopy before.target)
  else after

/-- One set of a cut commit (R1). -/
def cutSet (cut : Cut) (sets : List SetId) (id : SetId) (before after : TwoCopies α) : TwoCopies α :=
  if !sets.contains id then before
  else
    match cut.rewritten with
    | none => firstWriting cut id before after
    | some l =>
      if sets.all cut.completed.contains then secondWriting l id before after else firstWriting cut id before after

/-- Some set stands at 2^32 − 1, so that a commit takes effect with the rewriting of its first copy (R1). -/
def Nvs.someAtTop (n : Nvs) (sets : List SetId) : Bool :=
  sets.any fun id => n.anyGood id && n.takenSeq id == BitVec.allOnes 32

/-- A cut commit came so far that a restore reads its new values: every first writing completed and, where a set stands
at 2^32 − 1, the second writing begun (R1). -/
def cutReached (cut : Cut) (image : WriteImage) : Bool :=
  image.sets.all cut.completed.contains && (cut.rewritten.isSome || !image.before.someAtTop image.sets)

/-- What a cut write leaves in the store, from the store before it and after it (R1, R168). -/
def cutWrite (cut : Cut) (image : WriteImage) (after : Nvs) : Nvs :=
  let n := image.before
  if image.sets.isEmpty then { n with settings := after.settings.broken }
  else
    { n with
      lifecycle := cutSet cut image.sets .lifecycle n.lifecycle after.lifecycle
      cells := cutSet cut image.sets .cells n.cells after.cells
      credentials := cutSet cut image.sets .credentials n.credentials after.credentials
      layout := cutSet cut image.sets .layout n.layout after.layout
      binding := cutSet cut image.sets .binding n.binding after.binding
      evidence := cutSet cut image.sets .evidence n.evidence after.evidence
      seconds := if cutReached cut image then after.seconds else n.seconds }

/-- The store a full power loss leaves: as it stands, or with a write of the latest command cut and the later ones
not begun. A cut that names no write of that command cuts nothing (log entry 9). -/
def State.nvsAfterLoss (s : State) : Option Cut → Nvs
  | none => s.nvs
  | some cut =>
    match s.writeImages.drop cut.write with
    | [] => s.nvs
    | [image] => cutWrite cut image s.nvs
    | image :: later :: _ => cutWrite cut image later.before

end Sys2Proof.Machine
end

