-- ==== Sys2Proof/Machine/Flags.lean ====
section
/-! DEFINITION. Indicators and their masks, the attention line, the operation records' common moves and the status
summary (R158, R162 to R166). -/

namespace Sys2Proof.Machine

/-- The ten indicators (R162). -/
inductive Indicator where
  | badSecret | beaconLost | tamper | dormant | foreign | stageRise
  | keylinkFault | settingsDefaulted | reservoirShort | eraseFault
  deriving DecidableEq, Repr

/-- Code and bit of an indicator (section 10.1). -/
def Indicator.code : Indicator → Nat
  | .badSecret => 0
  | .beaconLost => 1
  | .tamper => 2
  | .dormant => 3
  | .foreign => 4
  | .stageRise => 5
  | .keylinkFault => 6
  | .settingsDefaulted => 7
  | .reservoirShort => 8
  | .eraseFault => 9

/-- The bit set of one member (section 10). -/
def single (n k : Nat) : BitVec n := 1#n <<< k

/-- R162: an indicator is latched; a latch already set stays set. -/
def State.latch (i : Indicator) (s : State) : State :=
  { s with latched := s.latched ||| single 10 i.code }

/-- An operation record is ENDED and unseen. -/
def OpRecord.drawsAttention (r : OpRecord) : Bool := r.state == .ended && r.unseen

/-- At least one unmasked indicator is latched (R158, R165). -/
def State.indicatorItem (s : State) : Bool := s.latched &&& ~~~s.masks != 0

/-- At least one operation record is ENDED with its unseen marker set (R158, R165). -/
def State.endedItem (s : State) : Bool :=
  s.credOp.drawsAttention || s.layoutOp.drawsAttention || s.wipeOp.drawsAttention

/-- ATTN_N is driven low (R165): in ACTIVE while a cause holds; released in every other mode (R145). -/
def State.attention (s : State) : Bool :=
  s.mode == .active && (s.indicatorItem || s.endedItem)

/-- Section 10.1. -/
def Lifecycle.code : Lifecycle → Nat
  | .unprovisioned => 0
  | .provisioned => 1
  | .wiping => 2
  | .disabled => 3

/-- Section 10.1. -/
def Stage.code : Stage → Nat
  | .calm => 0
  | .alert => 1
  | .lockdown => 2
  | .wipe => 3

/-- The status summary's two bytes as one field (R158, section 10.2). -/
def State.summary (s : State) : Nat :=
  s.life.lifecycle.code * 2 ^ 14
    + s.evid.stage.code * 2 ^ 12
    + (s.mode == .starting).toNat * 2 ^ 11
    + s.indicatorItem.toNat * 2 ^ 10
    + s.endedItem.toNat * 2 ^ 9
    + s.frameFault.toNat * 2 ^ 8
    + (s.latched.getLsbD Indicator.keylinkFault.code).toNat * 2 ^ 7
    + (s.verified != 0).toNat * 2 ^ 6

/-- R166: starting work overwrites the record whole; its unseen marker is clear. -/
def OpRecord.start (kind : OpKind) (detail : Option Nat) (at_ : Millis) : OpRecord :=
  ⟨some kind, .running, none, detail, some at_, none, false⟩

/-- R166: the end of the work sets the outcome, ended-at and the unseen marker. -/
def OpRecord.finish (outcome : OpOutcome) (detail : Option Nat) (at_ : Millis) (r : OpRecord) : OpRecord :=
  { r with state := .ended, outcome := some outcome, detail := detail, endedAt := some at_, unseen := true }

end Sys2Proof.Machine
end

