-- ==== Sys2Proof/Machine/Ops.lean ====
section
/-! DEFINITION. The operations the blocks share: powered time and due moments, the key cells, desired states and
the sync queue, the purge, grants, the evidence score, failure resolutions and the wipe start. -/

namespace Sys2Proof.Machine

/-! ### Powered time -/

/-- The 16 ranges in ascending order. -/
def allRanges : List (Fin 16) := [0, 1, 2, 3, 4, 5, 6, 7, 8, 9, 10, 11, 12, 13, 14, 15]

/-- The decay state (R111). -/
inductive DecayState where
  | off | stopped | held | running
  deriving DecidableEq, Repr

/-- R111. -/
def State.decayState (s : State) : DecayState :=
  if s.settings.idc = 0 then .off
  else if s.evid.stage = .lockdown ∨ s.evid.stage = .wipe then .stopped
  else if s.mode = .active ∨ s.mode = .aux then .running
  else .held

/-- The dormancy state (R90). -/
inductive DormancyState where
  | off | idle | counting | satisfied
  deriving DecidableEq, Repr

/-- R90: the state follows from the mode, the lifecycle, Id and the mark. Where Id is 0 and OFF and IDLE both hold, it is
OFF, which is the model's choice (log entry 45). -/
def State.dormancyState (s : State) : DormancyState :=
  if s.settings.dormId = 0 then .off
  else if s.mode ≠ .active ∨ s.life.lifecycle ≠ .provisioned then .idle
  else if s.satisfied then .satisfied
  else .counting

/-- Powered time runs on to a moment, and with it the counts that run (R170, R90, R111). -/
def State.runTo (t : Micros) (s : State) : State :=
  if s.now < t then
    { s with
      now := t
      dormancyCount := if s.dormancyState = .counting then s.dormancyCount + (t - s.now) else s.dormancyCount
      decayCount := if s.decayState = .running then s.decayCount + (t - s.now) else s.decayCount }
  else s

/-- When the DORMANT event falls due (R90). -/
def State.dormantMoment (s : State) : Option Micros :=
  if s.dormancyState = .counting then
    some (s.now + (s.settings.dormId * Config.minute - s.dormancyCount))
  else none

/-- When the decay timer ticks (R111). -/
def State.decayMoment (s : State) : Option Micros :=
  if s.decayState = .running then some (s.now + (s.settings.idc * Config.minute - s.decayCount)) else none

/-- Whether the tamper watch runs (R88). -/
def Mode.tamperRuns : Mode → Bool
  | .active => true
  | .aux => true
  | .off => false
  | .starting => false

/-- When a tamper timing reaches the deglitch time (R87). -/
def State.tamperMoment (s : State) : Option Micros :=
  if s.mode.tamperRuns then
    match s.tamper with
    | .opening since => some (since + deglitchTime s.settings.tamperCode)
    | .closing since => some (since + deglitchTime s.settings.tamperCode)
    | .off => none
    | .armed => none
    | .tripped => none
  else none

/-- When the report window's deadline falls (R94). -/
def State.windowMoment (s : State) : Option Micros :=
  match s.window with
  | .waiting deadline => some deadline
  | .none => none
  | .matched => none
  | .foreign => none

/-- When the step of the cell job in progress next comes to a moment of its own: the end of the answer window
while neither answer nor judgement has come, else the end of the pass or verify (R122, R124). -/
def State.jobMoment (s : State) : Option Micros :=
  match s.job with
  | none => none
  | some j =>
    match j.phase with
    | .pass start answered stuck =>
      some (start + (if answered || stuck then Config.passTime else Config.answerWindow))
    | .verify start => some (start + Config.verifyTime)
    | .waiting => none
    | .write _ => none

/-- R65: the conditions under which the key link unit takes the head slot. -/
def State.syncReady (s : State) : Bool :=
  s.mode == .active && s.inFlight.isNone && s.kpurge.isNone && s.linkState == .running
    && s.life.lifecycle != .disabled && !s.queue.isEmpty

/-- R127: the engine holds no job and a claim is present. -/
def State.grantReady (s : State) : Bool :=
  s.mode != .off && s.life.lifecycle != .disabled && s.job.isNone
    && (s.wipeClaim || s.layoutWork.isSome)

/-- R130: the engine's job stands in WRITE. -/
def State.inWrite (s : State) : Bool :=
  match s.job with
  | none => false
  | some j =>
    match j.phase with
    | .write _ => true
    | .waiting => false
    | .pass _ _ _ => false
    | .verify _ => false

/-- Every moment at which something of the part falls due. What the manual does at once (R65, R127) and what WRITE has
left to do (R130) is due now. -/
def State.moments (s : State) : List Micros :=
  (s.derivation.map fun d => d.startedAt + Config.derivationTime).toList
    ++ (s.inFlight.map fun f => f.rose + Config.ackWait).toList
    ++ (s.kpurge.map fun t => t + Config.purgePulse).toList
    ++ (s.beacon.map BeaconWatch.deadline).toList
    ++ s.tamperMoment.toList ++ s.dormantMoment.toList ++ s.windowMoment.toList
    ++ s.decayMoment.toList ++ s.jobMoment.toList
    ++ (s.reservoirWait.map fun t => t + Config.reservoirLimit).toList
    ++ (s.intent.map Intent.expiry).toList ++ s.grants.map Grant.expiry
    ++ (if s.syncReady || s.grantReady || s.inWrite then [s.now] else [])

/-- A timed event: powered time runs on to its moment, if that is still ahead, and the event acts there. What falls due
on the way comes where the queue brings it (log entry 4). -/
def State.atMoment (t : Micros) (f : State → State) (s : State) : State := f (s.runTo t)

/-- A timed event whose moment may be absent; without one it cannot come (log entry 5). -/
def State.atMoment? (t : Option Micros) (f : State → State) (s : State) : State :=
  match t with
  | none => s
  | some t => s.atMoment t f

/-- What the part does while no command waits: one microsecond of powered time passes where nothing is due by then;
in OFF, and while something is due, it idles (log entry 3). -/
def State.tick (s : State) : State :=
  let s := s.begin
  if s.mode ≠ .off ∧ s.moments.all (s.now < ·) then s.runTo (s.now + 1) else s

/-! ### Key cells -/

/-- The cell of a credential slot's verifier (01, section 1.3). -/
def verifierCell (k : Fin 8) : Fin 26 := ⟨2 + k.val, by omega⟩

/-- The cell of a range's key (01, section 1.3). -/
def rangeCell (k : Fin 16) : Fin 26 := ⟨10 + k.val, by omega⟩

/-- R6: a key cell takes a write only in BLANK. -/
def writeKeyCell (c : Fin 26) (x : CellContent) (cells : Vector Cell 26) : Vector Cell 26 :=
  if cells[c] = .blank then cells.set c (.holding x) else cells

/-- R6: a check cell takes a write in any state. -/
def writeCheckCell (c : Fin 26) (x : CellContent) (cells : Vector Cell 26) : Vector Cell 26 :=
  cells.set c (.holding x)

/-- R7: the comparison of a verifier or the wipe code; a cell that is not HOLDING compares unequal. -/
def Cell.compare (c : Cell) (value : Bytes) : Bool :=
  match c with
  | .holding (.plain b) => b == value
  | .holding (.wrapped _) => false
  | .blank => false
  | .faulted => false

/-- The root in cell 0, if it holds one. -/
def State.rootInCell (s : State) : Option Bytes :=
  match s.cells[(0 : Fin 26)] with
  | .holding (.plain b) => some b
  | .holding (.wrapped _) => none
  | .blank => none
  | .faulted => none

/-- A range key wrapped under a root (R4, R130). -/
def wrapKey (root key : Bytes) : CellContent := .wrapped ⟨key, (Config.wrapTag root key).toList⟩

/-- R7: the unwrap of a range key; no key where the cell is not HOLDING or the tag does not match. -/
def unwrapKey (root : Bytes) (c : Cell) : Option Bytes :=
  match c with
  | .holding (.wrapped w) => if w.tag = (Config.wrapTag root w.key).toList then some w.key else none
  | .holding (.plain _) => none
  | .blank => none
  | .faulted => none

/-! ### Desired states, the mirror and the sync queue -/

/-- A gate is OPEN: the desired state is loaded (R48). -/
def Gates.anyOpen (g : Gates) : Bool := g.read || g.write

/-- Some range has a gate OPEN. -/
def State.anyGateOpen (s : State) : Bool := allRanges.any fun k => s.gates[k].anyOpen

/-- The engine slot of a range (03, section 3.1). -/
def rangeSlot (k : Fin 16) : Fin 17 := ⟨k.val, by omega⟩

/-- The engine slot of the shadow (R48). -/
def shadowSlot : Fin 17 := 16

/-- The range of an engine slot; none for slot 16. -/
def slotRange (j : Fin 17) : Option (Fin 16) := if h : j.val < 16 then some ⟨j.val, h⟩ else none

/-- The 17 engine slots in ascending order. -/
def allSlots : List (Fin 17) := [0, 1, 2, 3, 4, 5, 6, 7, 8, 9, 10, 11, 12, 13, 14, 15, 16]

/-- R64: a slot is handed to the key link unit: it stays where it stands in the queue, sets the rejoin mark of its
own transfer in flight, or joins at the tail. Hand-ons are not queued out of ACTIVE or in DISABLED (R76, R79; log
entry 22). -/
def State.handOn (j : Fin 17) (s : State) : State :=
  if s.mode ≠ .active ∨ s.life.lifecycle = .disabled then s
  else if j ∈ s.queue then s
  else
    match s.inFlight with
    | some f =>
      if f.slot = j then { s with inFlight := some { f with rejoin := true } }
      else { s with queue := s.queue ++ [j] }
    | none => { s with queue := s.queue ++ [j] }

/-- Slots handed on one after the other (R48). -/
def State.handOnAll (js : List (Fin 17)) (s : State) : State := js.foldl (fun s j => s.handOn j) s

/-- R8: the root copy is dropped when the last open gate closes and no resume grant exists. -/
def State.dropRootIfClosed (hadOpen : Bool) (s : State) : State :=
  if hadOpen && !s.anyGateOpen && s.grants.isEmpty then { s with rootCopy := none } else s

/-- The slots whose desired state differs between two sets of gates and two views, ascending, 16 last (R48). -/
def changedSlots (g g' : Vector Gates 16) (v v' : View) : List (Fin 17) :=
  (allRanges.filter fun k => g[k] ≠ g'[k]).map rangeSlot ++ (if v = v' then [] else [shadowSlot])

/-- The range table takes new gates and a new desired view, drops the root copy by R8, and hands on the slots that
changed (R48). -/
def State.changeDesired (g : Vector Gates 16) (v : View) (s : State) : State :=
  State.handOnAll (changedSlots s.gates g s.shadow v)
    (State.dropRootIfClosed s.anyGateOpen { s with gates := g, shadow := v })

/-- Both gates of every range CLOSED. -/
def allClosed : Vector Gates 16 := Vector.replicate 16 Gates.closed

/-- R52: every gate closes and the shadow is desired shown. -/
def State.closeAll (s : State) : State := s.changeDesired allClosed .shown

/-- The transfer a comparison chooses for a range slot (R66). -/
inductive RangeChoice where
  | nothing | load | gates | clear
  deriving DecidableEq, Repr

/-- R66. -/
def chooseRange (want : Gates) (m : MirrorRecord) : RangeChoice :=
  if want.anyOpen then
    if m.state = .empty then .load else if m.gates = want then .nothing else .gates
  else if m.state = .empty then .nothing else .clear

/-- R67: whether a SHADOW transfer is chosen. -/
def shadowDiffers (view : View) (length : Nat) (m : ShadowMirror) : Bool :=
  m.state == .empty || m.view != view || m.length != some length

/-- A slot's desired state differs from its mirror record, a LOADING or CLEARING record counting as differing
(R73, R77, R80). -/
def State.differs (j : Fin 17) (s : State) : Bool :=
  match slotRange j with
  | some k =>
    s.mirror[k].state == .loading || s.mirror[k].state == .clearing
      || chooseRange s.gates[k] s.mirror[k] != .nothing
  | none => s.mirrorShadow.state == .loading || shadowDiffers s.shadow s.settings.shadowL s.mirrorShadow

/-- R73, R74, R77: every slot that differs and is not already queued joins the tail, ascending. -/
def State.enqueueDiffering (s : State) : State :=
  if s.mode ≠ .active ∨ s.life.lifecycle = .disabled then s
  else { s with queue := s.queue ++ allSlots.filter fun j => s.differs j && !s.queue.contains j }

/-- R80: whether a slot is settled. -/
def State.settled (j : Fin 17) (s : State) : Bool :=
  !s.queue.contains j && !(s.inFlight.map (·.slot == j)).getD false && !s.differs j

/-- Every mirror record EMPTY (R62). -/
def emptyMirror : Vector MirrorRecord 16 := Vector.replicate 16 MirrorRecord.none

/-- R74: a purge. A cause that finds KPURGE high is served by the pulse in progress; out of ACTIVE the pulse is not
driven (log entry 21). -/
def State.purge (s : State) : State :=
  if s.kpurge.isSome then s
  else
    { s with
      kpurge := if s.mode = .active then some s.now else none
      inFlight := none
      mirror := emptyMirror
      mirrorShadow := .none
      queue := []
      rootCopy := none }

/-! ### Supplies -/

/-- R150: every grant is dropped; with the last of them goes the root copy (R9), and the drop is the report's cause
(R153). An empty set is left as it is. -/
def State.dropGrants (cause : DropCause) (s : State) : State :=
  if s.grants.isEmpty then s
  else { s with grants := [], rootCopy := none, report := { s.report with dropCause := some cause } }

/-- R107, R108, R10: every grant dropped and a live suspend intent cleared. -/
def State.withdrawSuspend (s : State) : State := { s.dropGrants .stageRise with intent := none }

/-! ### The evidence score -/

/-- R118: an entry joins at the newest end; the oldest leaves a full trail; its time is never below the newest's. -/
def Evidence.append (time : Nat) (kind : TrailKind) (contribution score : Nat) (stage : Stage)
    (e : Evidence) : Evidence :=
  let time := match e.trail.getLast? with
    | some newest => max time newest.time
    | none => time
  let kept := if 24 ≤ e.trail.length then e.trail.drop (e.trail.length - 23) else e.trail
  { e with trail := kept ++ [⟨time, kind, contribution, score, stage⟩], appended := min 65535 (e.appended + 1) }

/-- R103: the stage after an increase of S. -/
def evaluate (c : Settings) (score : Nat) (stage : Stage) : Stage :=
  if stage = .wipe then .wipe
  else if c.tw ≤ score ∧ c.scoreWipe then .wipe
  else if c.tl ≤ score then .lockdown
  else if c.ta ≤ score ∧ stage = .calm then .alert
  else stage

/-- R104: the levels passed from one stage up to another, in rising order. -/
def passed (old new : Stage) : List Stage :=
  [Stage.alert, .lockdown, .wipe].filter fun l => old.code < l.code && l.code ≤ new.code

/-- R101, R104: the stage rises to what R103 gives, with one STAGE entry for each level entered. -/
def Evidence.rise (c : Settings) (time : Nat) (e : Evidence) : Evidence × List Stage :=
  let new := evaluate c e.score e.stage
  let levels := passed e.stage new
  (levels.foldl (fun e l => e.append time .stage 0 e.score l) { e with stage := new }, levels)

/-- R101: an evidence event changes the score, appends its entry with the stage before the evaluation and, where
the score rose, raises the stage. -/
def Evidence.take (c : Settings) (time : Nat) (kind : TrailKind) (contribution : Nat) (e : Evidence) :
    Evidence × List Stage :=
  let score := min 4095 (e.score + contribution)
  let e' := Evidence.append time kind contribution score e.stage { e with score := score }
  if e.score < score then e'.rise c time else (e', [])

/-- R105: ALERT falls to CALM when S = 0 or S + H < Ta, with a STAGE entry. -/
def Evidence.fall (c : Settings) (time : Nat) (e : Evidence) : Evidence :=
  if e.stage = .alert ∧ (e.score = 0 ∨ e.score + c.h < c.ta) then
    Evidence.append time .stage 0 e.score .calm { e with stage := .calm }
  else e

/-- R100: the lifecycle states in which the evidence unit takes events. -/
def Lifecycle.takesEvidence : Lifecycle → Bool
  | .provisioned => true
  | .wiping => true
  | .unprovisioned => false
  | .disabled => false

/-! ### The CREDENTIAL record and failure resolutions -/

/-- R37: the CREDENTIAL record becomes ENDED; its detail stays. -/
def State.endCred (outcome : OpOutcome) (s : State) : State :=
  { s with credOp := s.credOp.finish outcome s.credOp.detail s.millis }

/-- R37: the CREDENTIAL record is overwritten RUNNING with the slot as detail. -/
def State.startCred (kind : OpKind) (slot : Fin 8) (s : State) : State :=
  { s with credOp := .start kind (some slot.val) s.millis }

/-- R29: the delay after a failure that leaves C, in milliseconds; none below 4. -/
def backoffDelay (c : Nat) : Option Millis :=
  if c < 4 then none else some (min (2 ^ (c - 4)) 1024 * 1000)

/-- R29: a failure resolution with C of at least 4 sets the deadline from this moment. -/
def State.setBackoff (s : State) : State :=
  match backoffDelay s.cred.failures with
  | none => s
  | some delay => { s with backoff := some (s.millis + delay) }

/-- R24: the contribution of a failed attempt. -/
def State.badSecretWeight (s : State) : Nat := s.settings.wBad * min s.cred.failures 8

/-- R20: C is raised by one, saturating at 255. -/
def raiseFailures (c : CredentialTable) : CredentialTable :=
  { c with failures := min 255 (c.failures + 1) }

/-- R20: VERIFY and CHANGE_OLD are counted. -/
def Work.counted : Work → Bool
  | .verify => true
  | .changeOld _ => true
  | .provision _ _ => false
  | .enroll _ _ => false
  | .changeNew _ => false

/-- An event taken with the stage already WIPE: it is recorded and enters no stage (R102). -/
def State.recordInWipe (kind : TrailKind) (contribution : Nat) (extra : List SetId) (s : State) : State :=
  State.commit (extra ++ [.evidence])
    { s with evid := (s.evid.take s.settings s.seconds kind contribution).1 }

/-- R26: a wipe start abandons a derivation; a counted one is settled by a failure resolution in WIPING. -/
def State.abandonInWipe (s : State) : State :=
  match s.derivation with
  | none => s
  | some d =>
    let s := { s with derivation := none }
    if d.work.counted then
      let s := { s with cred := { s.cred with openAttempt := false } }
      let s := s.recordInWipe .badSecret s.badSecretWeight [.credentials]
      (s.setBackoff.latch .badSecret).endCred .superseded
    else s.endCred .superseded

/-! ### The wipe start -/

/-- R128: a wipe start with the LAYOUT operation RUNNING. With no LAYOUT job in the engine the operation ends SUPERSEDED
with the range it would have worked next. A job in WRITE ends here with that range: its write commit stands where it is
made and is skipped where it is not. A job still at its erase goes on. -/
def State.supersedeLayout (s : State) : State :=
  match s.layoutWork with
  | none => s
  | some w =>
    if s.inWrite then
      { s with
        job := none
        layoutWork := none
        layoutOp := s.layoutOp.finish .superseded (some w.next.val) s.millis }
    else if (s.job.map (·.owner == .layout)).getD false then s
    else
      { s with
        layoutWork := none
        layoutOp := s.layoutOp.finish .superseded (some w.next.val) s.millis }

/-- R94: a WAITING report window becomes NONE at a wipe start. -/
def ReportWindow.stopWaiting : ReportWindow → ReportWindow
  | .waiting _ => .none
  | .none => .none
  | .matched => .matched
  | .foreign => .foreign

/-- R10: what the lifecycle unit sets off after the wipe-start commit. -/
def State.wipeStartActions (s : State) : State :=
  let s := s.purge.closeAll
  let s := { s with verified := 0 }
  let s := s.withdrawSuspend
  let s := { s with window := s.window.stopWaiting, dormancyCount := 0, decayCount := 0 }
  let s := { s with wipeOp := .start .wipe none s.millis, wipeClaim := true }
  s.supersedeLayout.abandonInWipe

/-- R10: the wipe-start commit: lifecycle WIPING, the journal at cell 0, stage WIPE, a WIPE_START entry, with
whatever else its cause writes in it (R109). -/
def State.wipeStartCommit (extra : List SetId) (s : State) : State :=
  State.commit (extra ++ [.lifecycle, .evidence])
    { s with
      life := ⟨.wiping, some ⟨0, []⟩⟩
      evid := Evidence.append s.seconds .wipeStart 0 s.evid.score .wipe { s.evid with stage := .wipe } }

/-- R107: entry to ALERT. -/
def State.enterAlert (s : State) : State := s.withdrawSuspend

/-- R108: entry to LOCKDOWN. -/
def State.enterLockdown (s : State) : State :=
  let s := s.purge.closeAll
  let s := { s with verified := 0, decayCount := 0 }
  s.withdrawSuspend

/-- R107, R108: the effects of one level below WIPE. -/
def State.enterStage (s : State) : Stage → State
  | .alert => s.enterAlert
  | .lockdown => s.enterLockdown
  | .calm => s
  | .wipe => s

/-- R101, R104, R109: a change of the score and its levels is committed, in the wipe-start commit where WIPE is
reached; then STAGE_RISE is latched and the effects are handed on in rising order. -/
def State.settleRise (levels : List Stage) (extra : List SetId) (s : State) : State :=
  if levels.contains .wipe then
    (levels.foldl State.enterStage ((s.wipeStartCommit extra).latch .stageRise)).wipeStartActions
  else if levels.isEmpty then s.commit (extra ++ [.evidence])
  else levels.foldl State.enterStage ((s.commit (extra ++ [.evidence])).latch .stageRise)

/-- R100, R101: the evidence unit takes or declines an event; `extra` are the sets its source writes in the same
commit. -/
def State.takeEvidence (kind : TrailKind) (contribution : Nat) (extra : List SetId) (s : State) : State :=
  if s.life.lifecycle.takesEvidence then
    let (e, levels) := s.evid.take s.settings s.seconds kind contribution
    State.settleRise levels extra { s with evid := e }
  else if extra.isEmpty then s
  else s.commit extra

/-- R24: the failure resolution: the marker cleared and the BAD_SECRET event in one commit, then the deadline and
the indicator. -/
def State.failureResolution (s : State) : State :=
  let s := { s with cred := { s.cred with openAttempt := false } }
  ((s.takeEvidence .badSecret s.badSecretWeight [.credentials]).setBackoff).latch .badSecret

/-- R25, R5, R32, R36: RST_N or a loss of VMAIN abandons the derivation in flight. -/
def State.abandonDerivation (s : State) : State :=
  match s.derivation with
  | none => s
  | some d =>
    let s := { s with derivation := none }
    if d.work.counted then s.failureResolution.endCred .aborted else s.endCred .aborted

/-- R81: an event of the sense unit without a grant drop: the indicator and the evidence event. -/
def State.senseEvent (i : Indicator) (kind : TrailKind) (weight : Nat) (s : State) : State :=
  (s.latch i).takeEvidence kind weight []

/-- R81: TAMPER and BEACON_LOST also drop every grant; `dropFirst` says whether that is taken first. -/
def State.theftEvent (i : Indicator) (kind : TrailKind) (weight : Nat) (cause : DropCause) (dropFirst : Bool)
    (s : State) : State :=
  if dropFirst then (s.dropGrants cause).senseEvent i kind weight
  else (s.senseEvent i kind weight).dropGrants cause

/-! ### The LAYOUT operation -/

/-- The lowest range at or above `from_` whose record carries a rekey-pending mark (R129). -/
def lowestMarked (from_ : Nat) (l : Layout) : Option (Fin 16) :=
  allRanges.find? fun k => from_ ≤ k.val && l.ranges[k].rekeyPending

/-- R46: the operation starts over every mark that stands, from the lowest; without a mark nothing starts. -/
def State.startLayout (kind : OpKind) (s : State) : State :=
  match lowestMarked 0 s.layout with
  | none => s
  | some k =>
    { s with
      layoutOp := .start kind (some k.val) s.millis
      layoutWork := some ⟨k, none⟩ }

/-- The gates of one range replaced. -/
def gatesWith (g : Vector Gates 16) (k : Fin 16) (x : Gates) : Vector Gates 16 := g.set k x

end Sys2Proof.Machine
end

