-- ==== Sys2Proof/Machine/Frames.lean ====
section
/-! DEFINITION. Frames on the command link, the check order's first four steps and the replies (R2, R154 to
R159). -/

namespace Sys2Proof.Machine

/-- The outcome of a step: the part never stops, so every meaning answers a next state. -/
abbrev Result := Host.Outcome State Fault Refusal

/-! ### Judging a frame -/

/-- What a frame is judged as (R154, R155). -/
inductive Judgement where
  | empty | read | fault
  | request (kind tag : Byte) (body : Bytes)
  deriving DecidableEq, Repr

/-- The request fields of a run of whole bytes, where R155 finds no fault in it. -/
def requestFields (bytes : Bytes) : Option (Byte × Byte × Bytes) :=
  match bytes with
  | kind :: tag :: hi :: lo :: rest =>
    if bytes.length < 5 ∨ 245 < bytes.length then none
    else if bytes.length ≠ 5 + (hi.toNat * 256 + lo.toNat) then none
    else if byteSum bytes % 256 ≠ 0 then none
    else some (kind, tag, rest.dropLast)
  | _ => none

/-- R154: an empty frame, a read frame (every bit a one), a request frame, or a frame fault (R155). -/
def judgeFrame (f : Frame) : Judgement :=
  if f.bytes.isEmpty && f.rest.isEmpty then .empty
  else if f.bytes.all (· == 0xFF) && f.rest.all id then .read
  else if !f.rest.isEmpty then .fault
  else match requestFields f.bytes with
    | some (kind, tag, body) => .request kind tag body
    | none => .fault

/-- The request frame of a kind, a tag and a body (09, section 9.1). -/
def requestFrame (kind tag : Byte) (body : Bytes) : Bytes :=
  let bytes := kind :: tag :: be 2 body.length ++ body
  bytes ++ [checkByte bytes]

/-! ### Request kinds -/

/-- The 29 request kinds (R159). -/
inductive Kind where
  | identify | status | flags | mask | opstate | readPolicy | provision | wipe
  | verify | enroll | remove | suspendSlot | restoreSlot | changeSecret
  | draftRange | readRanges | applyLayout | rekey | unlock | lock | lockAll | prebootDone
  | setPolicy | readScore | readTrail | standDown | bindPlatform | platformReport | suspend
  deriving DecidableEq, Repr

/-- Section 10.1. -/
def Kind.code : Kind → Byte
  | .identify => 0x01
  | .status => 0x02
  | .flags => 0x03
  | .mask => 0x04
  | .opstate => 0x05
  | .readPolicy => 0x06
  | .provision => 0x10
  | .wipe => 0x11
  | .verify => 0x20
  | .enroll => 0x21
  | .remove => 0x22
  | .suspendSlot => 0x23
  | .restoreSlot => 0x24
  | .changeSecret => 0x25
  | .draftRange => 0x30
  | .readRanges => 0x31
  | .applyLayout => 0x32
  | .rekey => 0x33
  | .unlock => 0x34
  | .lock => 0x35
  | .lockAll => 0x36
  | .prebootDone => 0x37
  | .setPolicy => 0x40
  | .readScore => 0x41
  | .readTrail => 0x42
  | .standDown => 0x43
  | .bindPlatform => 0x44
  | .platformReport => 0x45
  | .suspend => 0x50

/-- The 29 kinds, in the order of their codes. -/
def allKinds : List Kind :=
  [.identify, .status, .flags, .mask, .opstate, .readPolicy, .provision, .wipe, .verify, .enroll, .remove,
    .suspendSlot, .restoreSlot, .changeSecret, .draftRange, .readRanges, .applyLayout, .rekey, .unlock, .lock,
    .lockAll, .prebootDone, .setPolicy, .readScore, .readTrail, .standDown, .bindPlatform, .platformReport, .suspend]

/-- The kind that a code names, if any (R159, section 10.1). -/
def kindOf (code : Byte) : Option Kind := allKinds.find? fun k => k.code == code

/-- R2: the kinds that a lifecycle state admits. -/
def Lifecycle.admits (l : Lifecycle) (k : Kind) : Bool :=
  match l with
  | .unprovisioned =>
    [Kind.identify, .status, .flags, .mask, .opstate, .readTrail, .readScore, .readPolicy, .setPolicy,
      .provision].contains k
  | .provisioned => k != .provision
  | .wiping =>
    [Kind.identify, .status, .flags, .mask, .opstate, .readTrail, .readScore, .readPolicy].contains k
  | .disabled => [Kind.identify, .status, .flags, .opstate, .readTrail].contains k

/-! ### Replies -/

/-- The eleven outcomes (R159). -/
inductive ReplyCode where
  | done | started | busy | notReady | wrongState | notPermitted | tooSoon | badValue | overlap
  | badFrame | unknownKind
  deriving DecidableEq, Repr

/-- Section 10.1. -/
def ReplyCode.code : ReplyCode → Byte
  | .done => 0x00
  | .started => 0x01
  | .busy => 0x02
  | .notReady => 0x03
  | .wrongState => 0x04
  | .notPermitted => 0x05
  | .tooSoon => 0x06
  | .badValue => 0x07
  | .overlap => 0x08
  | .badFrame => 0x09
  | .unknownKind => 0x0A

/-- What the owning block answers: the outcome, the reply body, and the state after the request's effects. -/
structure Answer where
  code : ReplyCode
  body : Bytes
  state : State

/-- A refusal without an effect (R159). -/
def refuse (code : ReplyCode) (s : State) : Answer := ⟨code, [], s⟩

/-- The bytes of a reply (09, section 9.1). -/
def replyBytes (kind tag : Byte) (code : ReplyCode) (summary : Nat) (body : Bytes) : Bytes :=
  let bytes := kind :: tag :: code.code :: be 2 summary ++ be 2 body.length ++ body
  bytes ++ [checkByte bytes]

/-- R155, R156, R158: the reply is built after the request's effects, with the previous-frame-fault flag as it
stands, and replaces the one held; the flag is cleared as it is built. -/
def answer (kind tag : Byte) (a : Answer) : State :=
  { a.state with
    reply := some (replyBytes kind tag a.code a.state.summary a.body)
    frameFault := false }

/-- R155: a frame fault sets the flag and puts a BAD_FRAME reply, whose summary shows the flag, in the buffer. -/
def State.frameFaultReply (s : State) : State :=
  let s := { s with frameFault := true }
  { s with reply := some (replyBytes 0 0 .badFrame s.summary []) }

/-- R154, R157: frames are judged in ACTIVE and STARTING while RST_N is high. -/
def State.judgesFrames (s : State) : Bool := (s.mode == .active || s.mode == .starting) && !s.rstLow

/-- R156: the check order's steps 3 and 4 (R159), then the owning block's steps. -/
def checkOrder (k : Kind) (owner : State → Answer) (s : State) : Answer :=
  if s.mode = .starting ∧ k ≠ .identify ∧ k ≠ .status then refuse .notReady s
  else if s.life.lifecycle.admits k then owner s
  else refuse .wrongState s

/-- A request frame of a kind arrives (R154 to R159). A body above 240 bytes makes a frame above 245 bytes, which
is a frame fault (R155). -/
def request (k : Kind) (tag : Byte) (body : Bytes) (owner : State → Answer) (s : State) : Result :=
  let s := s.begin
  .next
    (if !s.judgesFrames then s
     else if 240 < body.length then s.frameFaultReply
     else answer k.code tag (checkOrder k owner s))

/-- An event of the part or its lines. -/
def event (f : State → State) (s : State) : Result := .next (f s.begin)

/-! ### The line SDO -/

/-- What the line SDO carries (R154): it is high-impedance, or driven with whole bytes and the bits of an incomplete
last one. -/
inductive Sdo where
  | highImpedance
  | driven (out : Frame)
  deriving DecidableEq, Repr

/-- As much of a run of bytes as a frame clocks out, most significant bit first (09, section 9.1), with 0xFF after its
end. -/
def clockedOut (out : Bytes) (f : Frame) : Frame where
  bytes := (out ++ List.replicate f.bytes.length 0xFF).take f.bytes.length
  rest := ((List.range 8).map fun i => ((out[f.bytes.length]?).getD 0xFF).getLsbD (7 - i)).take f.rest.length

/-- SDO while SEL_N is high (none), or through a frame of which this arrives on SDI (R154, R156, R157, R145): the present
reply in a read frame, and 0xFF after it and while none is ready; 0xFF in a request frame; nothing driven while SEL_N
is high or where no frame is judged. The whole frame decides what it is (log entry 43). -/
def State.sdo (s : State) : Option Frame → Sdo
  | none => .highImpedance
  | some f =>
    if !s.judgesFrames then .highImpedance
    else .driven (clockedOut (if judgeFrame f = .read then s.reply.getD [] else []) f)

end Sys2Proof.Machine
end

