-- ==== Sys2Proof/Machine/Operands.lean ====
section
/-! DEFINITION. The request bodies of section 10.3, judged by R171 and R172. -/

namespace Sys2Proof.Machine

/-- A secret is 8 to 64 bytes (R171). -/
def goodSecret (b : Bytes) : Bool := 8 ≤ b.length && b.length ≤ 64

/-- A yes/no or on/off byte (R171). -/
def readFlag (b : Byte) : Option Bool :=
  if b = 0 then some false else if b = 1 then some true else none

/-- A slot index byte, 0 to 7. -/
def readSlot (b : Byte) : Option (Fin 8) := if h : b.toNat < 8 then some ⟨b.toNat, h⟩ else none

/-- A user slot index byte, 1 to 7. -/
def readUserSlot (b : Byte) : Option (Fin 8) := if b = 0 then none else readSlot b

/-- A range index byte, 0 to 15. -/
def readRange (b : Byte) : Option (Fin 16) := if h : b.toNat < 16 then some ⟨b.toNat, h⟩ else none

/-- The first byte of a body as a slot index; a body without it names no slot (log entry 19). -/
def bodySlot (body : Bytes) : Option (Fin 8) := body.head?.bind readSlot

/-- The first byte of a body as a user slot index. -/
def bodyUserSlot (body : Bytes) : Option (Fin 8) := body.head?.bind readUserSlot

/-- The first byte of a body as a range index. -/
def bodyRange (body : Bytes) : Option (Fin 16) := body.head?.bind readRange

/-- A list, a count byte and that many one-byte entries (section 10), with what follows it. -/
def readList : Bytes → Option (Bytes × Bytes)
  | [] => none
  | n :: rest => if n.toNat ≤ rest.length then some (rest.take n.toNat, rest.drop n.toNat) else none

/-- Entries as a set of range indices; none if one is above 15 or named twice (R171). -/
def readRangeSet : Bytes → Option (BitVec 16)
  | [] => some 0
  | b :: rest =>
    match readRange b, readRangeSet rest with
    | some k, some set => if set.getLsbD k.val then none else some (set ||| single 16 k.val)
    | some _, none => none
    | none, _ => none

/-- Entries as a set of indicator codes; one named twice is taken as named once (R171). -/
def readIndicatorSet : Bytes → Option (BitVec 10)
  | [] => some 0
  | b :: rest =>
    match readIndicatorSet rest with
    | some set => if b.toNat < 10 then some (set ||| single 10 b.toNat) else none
    | none => none

/-! ### PROVISION, ENROLL, CHANGE_SECRET -/

/-- R3: capacity, wipe code and secret. -/
structure ProvisionBody where
  capacity : Nat
  wipeCode : Bytes
  secret : Bytes
  deriving DecidableEq, Repr

/-- R3, section 10.3. -/
def readProvision (body : Bytes) : Option ProvisionBody :=
  let capacity := ofBe (body.take 6)
  let secret := body.drop 22
  if capacity % 8 = 0 ∧ 65536 ≤ capacity ∧ capacity ≤ 2 ^ 48 - 8 ∧ goodSecret secret then
    some ⟨capacity, (body.drop 6).take 16, secret⟩
  else none

/-- R32: resume-allowed flag, access list and secret, after the slot byte. -/
structure EnrollBody where
  resumeAllowed : Bool
  access : BitVec 16
  secret : Bytes
  deriving DecidableEq, Repr

/-- R32, section 10.3. -/
def readEnroll : Bytes → Option EnrollBody
  | _ :: r :: rest =>
    match readFlag r, readList rest with
    | some resumeAllowed, some (list, secret) =>
      match readRangeSet list with
      | some access => if goodSecret secret then some ⟨resumeAllowed, access, secret⟩ else none
      | none => none
    | _, _ => none
  | _ => none

/-- R35: the form and the slot that decide the earlier checks, and the bytes after them. -/
structure ChangeHead where
  selfForm : Bool
  slot : Fin 8
  rest : Bytes
  deriving DecidableEq, Repr

/-- R35 condition 2: form 1 (self) names slot 0 to 7, form 2 (admin) names slot 1 to 7. -/
def readChangeHead : Bytes → Option ChangeHead
  | form :: slot :: rest =>
    if form = 1 then (readSlot slot).map fun k => ⟨true, k, rest⟩
    else if form = 2 then (readUserSlot slot).map fun k => ⟨false, k, rest⟩
    else none
  | _ => none

/-- R35 condition 8 for the self form: old secret (with its length byte) and new secret. -/
def readSelfSecrets : Bytes → Option (Bytes × Bytes)
  | [] => none
  | n :: rest =>
    let old := rest.take n.toNat
    let new := rest.drop n.toNat
    if n.toNat ≤ rest.length ∧ goodSecret old ∧ goodSecret new then some (old, new) else none

/-! ### Ranges -/

/-- R43: the fields after the range byte, judged against the capacity. -/
def readEditable (k : Fin 16) (capacity : Option Nat) : Bytes → Option Editable
  | en :: lockOn :: response :: resume :: extent =>
    match readFlag en, readFlag response, readFlag resume with
    | some enabled, some refuses, some resumeEligible =>
      let edit (extent : Option Span) : Editable :=
        ⟨enabled, extent, ⟨lockOn.getLsbD 0, lockOn.getLsbD 1, lockOn.getLsbD 2⟩,
          if refuses then .refuse else .zero, resumeEligible⟩
      let span : Span := ⟨ofBe (extent.take 6), ofBe (extent.drop 6)⟩
      if 8 ≤ lockOn.toNat then none
      else if k = 0 then (if enabled ∧ extent = [] then some (edit none) else none)
      else if enabled then
        if extent.length = 12 ∧ span.start % 8 = 0 ∧ span.length % 8 = 0 ∧ 8 ≤ span.length
            ∧ span.start + span.length ≤ capacity.getD 0 then
          some (edit (some span))
        else none
      else if extent.length = 12 ∨ extent = [] then some (edit none)
      else none
    | _, _, _ => none
  | _ => none

/-- R49 condition 2: the gates named and the ranges named, 1 to 16, none twice. -/
structure GateBody where
  read : Bool
  write : Bool
  ranges : BitVec 16
  deriving DecidableEq, Repr

/-- The body of UNLOCK and LOCK (section 10.3). -/
def readGateBody : Bytes → Option GateBody
  | named :: rest =>
    match readList rest with
    | some (list, []) =>
      match readRangeSet list with
      | some ranges =>
        if list = [] then none
        else if named = 1 then some ⟨true, false, ranges⟩
        else if named = 2 then some ⟨false, true, ranges⟩
        else if named = 3 then some ⟨true, true, ranges⟩
        else none
      | none => none
    | _ => none
  | [] => none

/-! ### MASK and SET_POLICY -/

/-- R164: true is SET; the list's indicators. -/
def readMask : Bytes → Option (Bool × BitVec 10)
  | action :: rest =>
    match readList rest with
    | some (list, []) =>
      match readIndicatorSet list with
      | some set =>
        if 10 < list.length then none
        else if action = 1 then some (true, set)
        else if action = 2 then some (false, set)
        else none
      | none => none
    | _ => none
  | [] => none

/-- A field clamped to a range (R172). -/
def clamp (lo hi n : Nat) : Nat := max lo (min hi n)

/-- R115, R172: the policy record of a SET_POLICY, its fields clamped or the whole refused with BAD_VALUE; the
overlap test of L is made apart (R59). -/
def readPolicyBody (body : Bytes) : Option Settings :=
  let n (offset width : Nat) : Nat := ofBe ((body.drop offset).take width)
  let ta := n 10 2
  let tl := n 12 2
  let tw := n 14 2
  let rUser := n 20 1
  let l := n 26 2
  if body.length ≠ 30 then none
  else if ta < 1 ∨ 4095 < ta ∨ tl < 1 ∨ 4095 < tl ∨ tw < 1 ∨ 4095 < tw ∨ tl < ta ∨ tw < tl then none
  else if 16 < rUser then none
  else if l % 8 ≠ 0 ∨ 32768 < l then none
  else if 1 < n 19 1 ∨ 1 < n 21 1 then none
  else
    some
      { wBad := clamp 0 1023 (n 0 2)
        wBeacon := clamp 0 1023 (n 2 2)
        wTamper := clamp 0 1023 (n 4 2)
        wDorm := clamp 0 1023 (n 6 2)
        wForeign := clamp 0 1023 (n 8 2)
        ta := ta
        tl := tl
        tw := tw
        h := n 16 1
        d := n 17 1
        idc := n 18 1
        scoreWipe := n 19 1 == 1
        rUser := rUser
        beaconOn := n 21 1 == 1
        w := clamp 2 255 (n 22 1)
        tamperCode := clamp 0 4 (n 23 1)
        dormId := n 24 1
        p := clamp 1 15 (n 25 1)
        shadowL := l
        maxHold := clamp 1 240 (n 28 1) }

/-! ### Authority -/

/-- Slot 0 is in the verifications this cycle (R31). -/
def State.adminVerified (s : State) : Bool := s.verified.getLsbD 0

/-- The backoff deadline is absent or reached (R21, R35). -/
def State.backoffOver (s : State) : Bool :=
  match s.backoff with
  | none => true
  | some deadline => deadline ≤ s.millis

/-- The eight slots in ascending order. -/
def allSlotIndices : List (Fin 8) := [0, 1, 2, 3, 4, 5, 6, 7]

/-- Some one slot in the verifications whose access list holds every named range (R49 condition 3). -/
def State.accessTo (ranges : BitVec 16) (s : State) : Bool :=
  allSlotIndices.any fun k => s.verified.getLsbD k.val && ranges &&& ~~~s.cred.slots[k].access == 0

/-- A slot in the verifications with resume-allowed on (R18). -/
def State.resumeAuthority (s : State) : Bool :=
  allSlotIndices.any fun k => s.verified.getLsbD k.val && s.cred.slots[k].resumeAllowed

/-- The derivation unit holds a derivation naming this slot (R33). -/
def State.derivationNames (k : Fin 8) (s : State) : Bool := (s.derivation.map (·.slot == k)).getD false

end Sys2Proof.Machine
end

