-- ==== Sys2Proof/Machine/Layouts.lean ====
section
/-! DEFINITION. The reply bodies of section 10.4 and the key link transfers of section 10.6, byte by byte. -/

namespace Sys2Proof.Machine

/-! ### Encodings of section 10.1 -/

/-- Section 10.1. -/
def Cell.code : Cell → Byte
  | .blank => 0
  | .holding _ => 1
  | .faulted => 2

/-- Section 10.1. -/
def SlotState.code : SlotState → Byte
  | .empty => 0
  | .active => 1
  | .suspended => 2

/-- Section 10.1: 0 USER, 1 ADMIN; slot 0 is ADMIN. -/
def roleCode (k : Fin 8) : Byte := if k = 0 then 1 else 0

/-- Section 10.1. -/
def TamperState.code : TamperState → Byte
  | .off => 0
  | .armed => 1
  | .opening _ => 2
  | .tripped => 3
  | .closing _ => 4

/-- Section 10.1. -/
def DormancyState.code : DormancyState → Byte
  | .off => 0
  | .idle => 1
  | .counting => 2
  | .satisfied => 3

/-- Section 10.1. -/
def ReportWindow.code : ReportWindow → Byte
  | .none => 0
  | .waiting _ => 1
  | .matched => 2
  | .foreign => 3

/-- Section 10.1. -/
def Owner.code : Owner → Byte
  | .layout => 1
  | .wipe => 2

/-- Section 10.1. -/
def Phase.code : Phase → Byte
  | .waiting => 0
  | .pass _ _ _ => 1
  | .verify _ => 2
  | .write _ => 3

/-- Section 10.1. -/
def DecayState.code : DecayState → Byte
  | .off => 0
  | .stopped => 1
  | .held => 2
  | .running => 3

/-- Section 10.1. -/
def LinkState.code : LinkState → Byte
  | .running => 0
  | .stopped => 1

/-- Section 10.1; OFF and AUX answer no request. -/
def Mode.code : Mode → Byte
  | .starting => 1
  | .active => 2
  | .off => 0
  | .aux => 0

/-- Section 10.1. -/
def dropCauseCode : Option DropCause → Byte
  | none => 0
  | some .expiry => 1
  | some .tamper => 2
  | some .beaconLost => 3
  | some .stageRise => 4

/-- Section 10.1: the request kinds' codes and STARTUP 0xF0. -/
def OpKind.code : OpKind → Byte
  | .provision => 0x10
  | .wipe => 0x11
  | .verify => 0x20
  | .enroll => 0x21
  | .changeSecret => 0x25
  | .applyLayout => 0x32
  | .rekey => 0x33
  | .startup => 0xF0

/-- Section 10.1. -/
def OpState.code : OpState → Byte
  | .idle => 0
  | .running => 1
  | .ended => 2

/-- Section 10.1. -/
def OpOutcome.code : OpOutcome → Byte
  | .accepted => 1
  | .wrongSecret => 2
  | .aborted => 3
  | .superseded => 4
  | .complete => 5
  | .completeWithFaults => 6
  | .rootFault => 7

/-- Section 10.1. -/
def View.code : View → Byte
  | .shown => 0
  | .hidden => 1

/-- Section 10.1. -/
def LockedRead.code : LockedRead → Byte
  | .zero => 0
  | .refuse => 1

/-- Section 10.1: bit 0 POWER, bit 1 RESET, bit 2 SUSPEND. -/
def LockOn.code (l : LockOn) : Byte := BitVec.ofNat 8 (l.power.toNat + 2 * l.reset.toNat + 4 * l.suspend.toNat)

/-- Section 10.1. -/
def Health.code : Health → Byte
  | .good => 0
  | .faulted => 1

/-- Section 10.1. -/
def TrailKind.code : TrailKind → Byte
  | .badSecret => 1
  | .beaconLost => 2
  | .tamper => 3
  | .dormant => 4
  | .foreign => 5
  | .keylink => 6
  | .relief => 7
  | .stage => 8
  | .standDown => 9
  | .wipeStart => 10
  | .wipeDone => 11

/-- Whole seconds from now to a moment, rounded down (R96); 0 once it is reached. That the seconds to an intent expiry and
to a grant expiry (R153) are rounded down too is the model's choice (log entry 48). -/
def State.secondsTo (t : Micros) (s : State) : Nat := (t - s.now) / Config.second

/-- Powered time to the millisecond in 6 bytes (section 10); the seconds saturate (R170). -/
def stamp (t : Millis) : Bytes := be 4 (min (t / 1000) Config.topSeconds) ++ be 2 (t % 1000)

/-- An optional field; an absent one reads 0 (R173). -/
def optional (width : Nat) : Option Nat → Bytes
  | some n => beSat width n
  | none => be width 0

/-! ### IDENTIFY, STATUS -/

/-- R160, section 10.4. -/
def identifyBody (s : State) : Bytes :=
  be 2 0x4B57 ++ be 2 0x3C60 ++ [1] ++ be 2 240 ++ be 2 512
    ++ [BitVec.ofNat 8 s.life.lifecycle.code]
    ++ s.cells.toList.map Cell.code
    ++ (match s.life.journal with
        | none => [0, 0, 0]
        | some j => [1, BitVec.ofNat 8 j.next.val, BitVec.ofNat 8 j.faults.length]
            ++ j.faults.map fun c => BitVec.ofNat 8 c.val)

/-- The credential record of STATUS (R161). -/
def credentialRecord (s : State) : Bytes :=
  (allSlotIndices.flatMap fun k =>
      let slot := s.cred.slots[k]
      [slot.state.code, roleCode k] ++ be 2 slot.access.toNat ++ [flag slot.resumeAllowed])
    ++ be 1 s.verified.toNat ++ be 1 s.cred.failures
    ++ beSat 4 (match s.backoff with
        | none => 0
        | some deadline => deadline - s.millis)

/-- The link record of STATUS (R161). -/
def linkRecord (s : State) : Bytes := [s.linkState.code] ++ be 1 s.faultRun ++ be 1 s.queue.length

/-- The sense record of STATUS (R96). -/
def senseRecord (s : State) : Bytes :=
  (match s.beacon with
    | none => [0, 0, 0]
    | some b => [1, flag (b.level == some true)] ++ beSat 1 (s.secondsTo b.deadline))
    ++ [s.tamper.code, flag s.tampOpen, s.dormancyState.code]
    ++ beSat 1 (if s.dormancyState = .counting then s.dormancyCount / Config.minute else 0)
    ++ [flag s.binding.isSome, s.window.code]
    ++ beSat 1 (match s.window with
        | .waiting deadline => s.secondsTo deadline
        | .none => 0
        | .matched => 0
        | .foreign => 0)

/-- The erase record of STATUS (R138); every field reads 0 while the owner is NONE (section 10.4). -/
def eraseRecord (s : State) : Bytes :=
  match s.job with
  | none => be 8 0
  | some j => [j.owner.code] ++ be 1 j.cell.val ++ [j.phase.code] ++ be 1 j.round ++ be 1 j.good
      ++ be 1 j.stuckRun ++ be 1 j.p ++ [flag s.resReady]

/-- The supply record of STATUS (R153); the order of its grants is that of State.grants (log entry 46). -/
def supplyRecord (s : State) : Bytes :=
  [s.mode.code, flag s.vmain, flag s.vaux, flag s.resReady]
    ++ (match s.intent with
        | none => [0, 0, 0]
        | some i => [1] ++ be 1 i.hold ++ beSat 1 (s.secondsTo i.expiry))
    ++ be 1 s.grants.length
    ++ (s.grants.flatMap fun g =>
        be 1 g.range.val ++ [flag g.gates.read, flag g.gates.write] ++ beSat 2 (s.secondsTo g.expiry))
    ++ be 1 s.report.taken ++ [dropCauseCode s.report.dropCause] ++ be 2 s.report.consumed.toNat

/-- R161, section 10.4. -/
def statusBody (s : State) : Bytes :=
  credentialRecord s ++ linkRecord s ++ senseRecord s ++ eraseRecord s ++ supplyRecord s
    ++ [flag s.policyDefaulted]

/-! ### OPSTATE, READ_RANGES, READ_SCORE, READ_TRAIL -/

/-- R167, section 10.4. -/
def opstateBody (selector : Nat) (r : OpRecord) : Bytes :=
  be 1 selector
    ++ [(r.kind.map OpKind.code).getD 0, r.state.code, (r.outcome.map OpOutcome.code).getD 0]
    ++ be 1 (r.detail.isSome.toNat + 2 * r.startedAt.isSome.toNat + 4 * r.endedAt.isSome.toNat)
    ++ optional 1 r.detail
    ++ (match r.startedAt with
        | some t => stamp t
        | none => be 6 0)
    ++ (match r.endedAt with
        | some t => stamp t
        | none => be 6 0)
    ++ [flag r.unseen]

/-- The reported states of a range (R60). -/
inductive Reported where
  | locked | unlocked | partial_ | syncing
  deriving DecidableEq, Repr

/-- R60. -/
def State.reported (k : Fin 16) (s : State) : Reported :=
  let g := s.gates[k]
  if !s.settled (rangeSlot k) then .syncing
  else if !g.read && !g.write then .locked
  else if g.read && g.write then .unlocked
  else .partial_

/-- Section 10.1. -/
def Reported.code : Reported → Byte
  | .locked => 0
  | .unlocked => 1
  | .partial_ => 2
  | .syncing => 3

/-- R60: the shadow reports SHOWN, HIDDEN or SYNCING. -/
def State.shadowReported (s : State) : Byte := if s.settled shadowSlot then s.shadow.code else 3

/-- The extent fields of a range record; 0 when absent (section 10.4). -/
def extentBytes : Option Span → Bytes
  | some x => be 6 x.start ++ be 6 x.length
  | none => be 12 0

/-- A range record of READ_RANGES (section 10.4) with the fields after the extent given by the selector. -/
def rangeRecordBytes (k : Fin 16) (e : Editable) (g : Gates) (mark : Bool) (health reported : Byte) : Bytes :=
  be 1 k.val ++ [flag e.enabled] ++ extentBytes e.extent ++ [flag g.read, flag g.write, e.lockOn.code,
    e.response.code, flag e.resumeEligible, flag mark, health, reported]

/-- R61, section 10.4; selector 0 is ACTIVE. The draft-present mark is given with DRAFT (log entry 20). -/
def rangesBody (selDraft : Bool) (s : State) : Bytes :=
  [flag selDraft, flag (selDraft && s.draft.isSome)] ++ be 6 (s.layout.capacity.getD 0)
    ++ be 2 s.settings.shadowL ++ [s.shadow.code, s.shadowReported]
    ++ allRanges.flatMap fun k =>
        let r := s.layout.ranges[k]
        if selDraft then
          let e := match s.draft with
            | some d => d[k]
            | none => r.edit
          rangeRecordBytes k e .closed false 0 0
        else rangeRecordBytes k r.edit s.gates[k] r.rekeyPending r.health.code (s.reported k).code

/-- R117: the threshold next above the stage less S. -/
def State.margin (s : State) : Option Int :=
  match s.evid.stage with
  | .calm => some ((s.settings.ta : Int) - s.evid.score)
  | .alert => some ((s.settings.tl : Int) - s.evid.score)
  | .lockdown => if s.settings.scoreWipe then some ((s.settings.tw : Int) - s.evid.score) else none
  | .wipe => none

/-- R117: in ALERT, the largest S at which the stage falls. -/
def State.fallPoint (s : State) : Option Nat :=
  match s.evid.stage with
  | .alert => some (if s.settings.h < s.settings.ta then s.settings.ta - s.settings.h - 1 else 0)
  | .calm => none
  | .lockdown => none
  | .wipe => none

/-- R117, section 10.4. -/
def scoreBody (s : State) : Bytes :=
  let newest := s.evid.trail.getLast?.map TrailEntry.time
  be 2 s.evid.score ++ be 1 s.evid.stage.code ++ [flag s.settings.scoreWipe]
    ++ be 1 (s.margin.isSome.toNat + 2 * s.fallPoint.isSome.toNat + 4 * newest.isSome.toNat)
    ++ be 2 (BitVec.ofInt 16 (s.margin.getD 0)).toNat
    ++ optional 2 s.fallPoint
    ++ [s.decayState.code]
    ++ beSat 2 (if s.decayState = .running then
        (s.settings.idc * Config.minute - s.decayCount) / Config.second else 0)
    ++ optional 4 newest

/-- A trail entry in 10 bytes (section 10.4). -/
def TrailEntry.toBytes (e : TrailEntry) : Bytes :=
  beSat 4 e.time ++ [e.kind.code] ++ be 2 e.contribution ++ be 2 e.score ++ be 1 e.stage.code

/-- R119, section 10.4. -/
def trailBody (page : Nat) (s : State) : Bytes :=
  let entries := (s.evid.trail.drop (8 * page)).take 8
  be 1 s.evid.trail.length ++ be 2 s.evid.appended ++ be 1 entries.length
    ++ entries.flatMap TrailEntry.toBytes

/-! ### Key link transfers -/

/-- A transfer as it is clocked out on KL_D (section 10.6, R174). -/
def Transfer.bytes (t : Transfer) : Bytes :=
  let bytes : Bytes := match t with
    | .load k key g response extent =>
      [0x01] ++ be 1 k.val ++ key ++ [flag g.read, flag g.write, response.code]
        ++ (match extent with
            | .span x => be 6 x.start ++ be 6 x.length
            | .wholeDrive capacity spans =>
              be 6 capacity ++ be 1 spans.length
                ++ spans.flatMap fun x => be 6 x.start ++ be 6 x.length)
    | .gates k g => [0x02] ++ be 1 k.val ++ [flag g.read, flag g.write]
    | .clear k => [0x03] ++ be 1 k.val
    | .shadow view length => [0x04, 16, view.code] ++ be 2 length
  bytes ++ [checkByte bytes]

/-- A transfer's bits in the order in which they are clocked, most significant bit of each byte first (section 10.6). -/
def Transfer.bits (t : Transfer) : List Bool :=
  t.bytes.flatMap fun b => (List.range 8).map fun i => b.getLsbD (7 - i)

/-- The bits a step clocks out on KL_D, one per KL_CLK: those of the transfer that it starts (R70, R174; log entry 16). -/
def clockedOnKlD (before after : State) : List Bool :=
  match before.inFlight, after.inFlight with
  | none, some f => f.transfer.bits
  | none, none => []
  | some _, _ => []

/-- The levels of the key link's outputs. -/
structure KeyLinkLines where
  klStb : Bool
  kpurge : Bool
  klClk : Bool
  klD : Bool
  deriving DecidableEq, Repr

/-- The levels in a state: KL_STB is high while a transfer is in flight (R70), KPURGE through its pulse (R74), and KL_CLK
and KL_D are low between transfers, in AUX and in DISABLED (R174), and so while the engine's answer is awaited (log entry
47). -/
def State.keyLinkLines (s : State) : KeyLinkLines := ⟨s.inFlight.isSome, s.kpurge.isSome, false, false⟩

end Sys2Proof.Machine
end

