-- ==== Sys2Proof/Machine/Credentials.lean ====
section
/-! DEFINITION. The requests and completions of Credentials and Verification (R17 to R37). -/

namespace Sys2Proof.Machine

/-- R20: the counted update: C raised and the marker set in one commit. -/
def State.countAttempt (s : State) : State :=
  State.commit [.credentials]
    { s with cred := { raiseFailures s.cred with openAttempt := true } }

/-- The salt a derivation of a slot uses. -/
def State.slotSalt (k : Fin 8) (s : State) : Bytes := s.cred.slots[k].salt.getD []

/-- A derivation starts (R19). -/
def State.startDerivation (work : Work) (k : Fin 8) (secret salt : Bytes) (s : State) : State :=
  { s with derivation := some ⟨work, k, s.now, secret, salt⟩ }

/-- VERIFY (R21, R22). -/
def execVerify (tag : Byte) (body : Bytes) (s : State) : Result :=
  request .verify tag body (fun s =>
    match bodySlot body with
    | none => refuse .badValue s
    | some k =>
      if s.evid.stage = .lockdown ∧ k ≠ 0 then refuse .notPermitted s
      else if s.cred.slots[k].state ≠ .active then refuse .wrongState s
      else if !s.backoffOver then refuse .tooSoon s
      else if s.derivation.isSome then refuse .busy s
      else if !goodSecret (body.drop 1) then refuse .badValue s
      else
        ⟨.started, [],
          ((s.countAttempt).startDerivation .verify k (body.drop 1) (s.slotSalt k)).startCred .verify k⟩) s

/-- R23, R36: a correct secret settles the attempt: C = 0, the marker cleared, the deadline removed. -/
def State.clearFailures (s : State) : State :=
  { s with cred := { s.cred with failures := 0, openAttempt := false }, backoff := none }

/-- R113: relief with fraction R sixteenths, its entry where S was above 0, and the fall test. -/
def Evidence.relieve (c : Settings) (time r : Nat) (e : Evidence) : Evidence :=
  let score := e.score - e.score * r / 16
  let e' := { e with score := score }
  let e' := if 0 < e.score then e'.append time .relief 0 score e.stage else e'
  e'.fall c time

/-- R113: the relief fraction of a slot. -/
def State.reliefFraction (k : Fin 8) (s : State) : Nat := if k = 0 then 16 else s.settings.rUser

/-- R23: a verification: the slot joins the set and the dormancy timer is SATISFIED (R91). -/
def State.verifySlot (k : Fin 8) (s : State) : State :=
  let s := if s.dormancyState = .counting then { s with dormancyCount := 0 } else s
  { s with verified := s.verified ||| single 8 k.val, satisfied := true }

/-- R23: the success of a VERIFY by the stage at completion. -/
def State.verifySuccess (k : Fin 8) (s : State) : State :=
  let s := s.clearFailures
  match s.evid.stage with
  | .calm | .alert =>
    let e := s.evid.relieve s.settings s.seconds (s.reliefFraction k)
    let sets := if e = s.evid then [SetId.credentials] else [.credentials, .evidence]
    ((State.commit sets { s with evid := e }).verifySlot k).endCred .accepted
  | .lockdown | .wipe =>
    let s := s.commit [.credentials]
    if k = 0 then (s.verifySlot k).endCred .accepted else s.endCred .superseded

/-- VERIFY_COMPLETE (R23, R24). -/
def execVerifyComplete (s : State) : Result :=
  event (fun s =>
    match s.derivation with
    | none => s
    | some d =>
      match d.work with
      | .verify =>
        s.atMoment (d.startedAt + Config.derivationTime) fun s =>
          let s := { s with derivation := none }
          if s.cells[verifierCell d.slot].compare (Config.derive d.secret d.salt).toList then
            s.verifySuccess d.slot
          else s.failureResolution.endCred .wrongSecret
      | .provision _ _ => s
      | .enroll _ _ => s
      | .changeOld _ => s
      | .changeNew _ => s) s

/-- ENROLL (R32, section 2.8). -/
def execEnroll (tag : Byte) (body : Bytes) (s : State) : Result :=
  request .enroll tag body (fun s =>
    match bodyUserSlot body with
    | none => refuse .badValue s
    | some k =>
      if !s.adminVerified then refuse .notPermitted s
      else if s.evid.stage = .lockdown then refuse .notPermitted s
      else if s.cred.slots[k].state ≠ .empty then refuse .wrongState s
      else if s.derivation.isSome then refuse .busy s
      else match readEnroll body with
        | none => refuse .badValue s
        | some e =>
          let salt := (Config.random16 s.draws).toList
          let s' := { s with draws := s.draws + 1 }
          ⟨.started, [],
            (s'.startDerivation (.enroll e.access e.resumeAllowed) k e.secret salt).startCred .enroll k⟩) s

/-- One slot record replaced. -/
def CredentialTable.setSlot (k : Fin 8) (x : Slot) (c : CredentialTable) : CredentialTable :=
  { c with slots := c.slots.set k x }

/-- ENROLL_COMPLETE (R32): the verifier and the slot record in one commit; SUPERSEDED in LOCKDOWN. -/
def execEnrollComplete (s : State) : Result :=
  event (fun s =>
    match s.derivation with
    | none => s
    | some d =>
      match d.work with
      | .enroll access resumeAllowed =>
        s.atMoment (d.startedAt + Config.derivationTime) fun s =>
          let s := { s with derivation := none }
          if s.evid.stage = .lockdown then s.endCred .superseded
          else
            let cells := writeCheckCell (verifierCell d.slot) (.plain (Config.derive d.secret d.salt).toList) s.cells
            let cred := s.cred.setSlot d.slot ⟨.active, some d.salt, access, resumeAllowed⟩
            (State.commit [.cells, .credentials] { s with cells := cells, cred := cred }).endCred .accepted
      | .provision _ _ => s
      | .verify => s
      | .changeOld _ => s
      | .changeNew _ => s) s

/-- A slot leaves the verifications this cycle (R31). -/
def State.unverify (k : Fin 8) (s : State) : State := { s with verified := s.verified &&& ~~~single 8 k.val }

/-- R33, R34: a user slot's record is committed with a new state. -/
def State.commitSlot (k : Fin 8) (x : Slot) (s : State) : State :=
  State.commit [.credentials] { s with cred := s.cred.setSlot k x }

/-- The checks that REMOVE, SUSPEND_SLOT and RESTORE_SLOT share (section 2.8): slot index, authority, LOCKDOWN where
the request gives access, slot state, busy, body length. -/
def manageSlot (body : Bytes) (givesAccess : Bool) (states : List SlotState) (act : Fin 8 → State → State)
    (s : State) : Answer :=
  match bodyUserSlot body with
  | none => refuse .badValue s
  | some k =>
    if !s.adminVerified then refuse .notPermitted s
    else if givesAccess ∧ s.evid.stage = .lockdown then refuse .notPermitted s
    else if !states.contains s.cred.slots[k].state then refuse .wrongState s
    else if s.derivationNames k then refuse .busy s
    else if body.length ≠ 1 then refuse .badValue s
    else ⟨.done, [], act k s⟩

/-- REMOVE (R33). -/
def execRemove (tag : Byte) (body : Bytes) (s : State) : Result :=
  request .remove tag body
    (manageSlot body false [.active, .suspended] fun k s => (s.commitSlot k .none).unverify k) s

/-- SUSPEND_SLOT (R34). -/
def execSuspendSlot (tag : Byte) (body : Bytes) (s : State) : Result :=
  request .suspendSlot tag body
    (manageSlot body false [.active] fun k s =>
      (s.commitSlot k { s.cred.slots[k] with state := .suspended }).unverify k) s

/-- RESTORE_SLOT (R34). -/
def execRestoreSlot (tag : Byte) (body : Bytes) (s : State) : Result :=
  request .restoreSlot tag body
    (manageSlot body true [.suspended] fun k s =>
      s.commitSlot k { s.cred.slots[k] with state := .active }) s

/-- R35, conditions 3 to 7. -/
def State.changeRefusal (h : ChangeHead) (s : State) : Option ReplyCode :=
  if !h.selfForm ∧ !s.adminVerified then some .notPermitted
  else if s.evid.stage = .lockdown ∧ !(h.selfForm ∧ h.slot = 0) then some .notPermitted
  else if s.cred.slots[h.slot].state = .empty then some .wrongState
  else if h.selfForm ∧ s.cred.slots[h.slot].state = .suspended then some .wrongState
  else if !s.backoffOver then some .tooSoon
  else if s.derivation.isSome then some .busy
  else none

/-- CHANGE_SECRET (R35): the self form tests the old secret first, the admin form sets the new one. -/
def execChangeSecret (tag : Byte) (body : Bytes) (s : State) : Result :=
  request .changeSecret tag body (fun s =>
    match readChangeHead body with
    | none => refuse .badValue s
    | some h =>
      match s.changeRefusal h with
      | some code => refuse code s
      | none =>
        if h.selfForm then
          match readSelfSecrets h.rest with
          | none => refuse .badValue s
          | some (old, new) =>
            ⟨.started, [],
              ((s.countAttempt).startDerivation (.changeOld new) h.slot old (s.slotSalt h.slot)).startCred
                .changeSecret h.slot⟩
        else if !goodSecret h.rest then refuse .badValue s
        else
          let salt := (Config.random16 s.draws).toList
          let s' := { s with draws := s.draws + 1 }
          ⟨.started, [],
            (s'.startDerivation (.changeNew false) h.slot h.rest salt).startCred .changeSecret h.slot⟩) s

/-- CHANGE_OLD_COMPLETE (R36): a wrong old secret is counted; a correct one clears C and starts CHANGE_NEW, but for
a user slot found in LOCKDOWN. -/
def execChangeOldComplete (s : State) : Result :=
  event (fun s =>
    match s.derivation with
    | none => s
    | some d =>
      match d.work with
      | .changeOld new =>
        s.atMoment (d.startedAt + Config.derivationTime) fun s =>
          let s := { s with derivation := none }
          if s.cells[verifierCell d.slot].compare (Config.derive d.secret d.salt).toList then
            let s := s.clearFailures.commit [.credentials]
            if s.evid.stage = .lockdown ∧ d.slot ≠ 0 then s.endCred .superseded
            else
              let salt := (Config.random16 s.draws).toList
              State.startDerivation (.changeNew true) d.slot new salt { s with draws := s.draws + 1 }
          else s.failureResolution.endCred .wrongSecret
      | .provision _ _ => s
      | .verify => s
      | .enroll _ _ => s
      | .changeNew _ => s) s

/-- CHANGE_NEW_COMPLETE (R36): the new verifier and salt in one commit; SUPERSEDED in LOCKDOWN unless the request is
the self form naming slot 0. -/
def execChangeNewComplete (s : State) : Result :=
  event (fun s =>
    match s.derivation with
    | none => s
    | some d =>
      match d.work with
      | .changeNew selfForm =>
        s.atMoment (d.startedAt + Config.derivationTime) fun s =>
          let s := { s with derivation := none }
          if s.evid.stage = .lockdown ∧ !(selfForm ∧ d.slot = 0) then s.endCred .superseded
          else
            let cells := writeCheckCell (verifierCell d.slot) (.plain (Config.derive d.secret d.salt).toList) s.cells
            let cred := s.cred.setSlot d.slot { s.cred.slots[d.slot] with salt := some d.salt }
            (State.commit [.cells, .credentials] { s with cells := cells, cred := cred }).endCred .accepted
      | .provision _ _ => s
      | .verify => s
      | .enroll _ _ => s
      | .changeOld _ => s) s

/-- BACKOFF_DEADLINE (R29): powered time reaches the deadline, which stays in the record as reached (log entry
30). -/
def execBackoffDeadline (s : State) : Result :=
  event (fun s =>
    match s.backoff with
    | none => s
    | some deadline =>
      if s.mode = .off ∨ s.backoffOver then s else s.atMoment (deadline * 1000) id) s

end Sys2Proof.Machine
end

