-- ==== Sys2Proof/Machine/Erase.lean ====
section
/-! DEFINITION. The erase engine: grants, passes, verifies and the ends of cell jobs (R12 to R14, R120 to R131,
R136). -/

namespace Sys2Proof.Machine

/-! ### Steps of a cell job -/

/-- R121: the next step of a job is a verify when the good passes have reached P, else a pass. -/
def Job.nextStep (now : Micros) (j : Job) : Job :=
  { j with phase := if j.p ≤ j.good then .verify now else .pass now false false }

/-- R121: the phase WAITING is entered; the next step starts at once while RES_READY is true. -/
def State.waitForStep (j : Job) (s : State) : State :=
  { s with job := some (if s.resReady then j.nextStep s.now else { j with phase := .waiting }) }

/-- R120: a job begins in round 1. -/
def Job.fresh (owner : Owner) (cell : Fin 26) (p : Nat) : Job := ⟨owner, cell, p, 1, 0, 0, .waiting⟩

/-- R136: the next cell of the wipe, from the journal. -/
def LifecycleRecord.nextCell (r : LifecycleRecord) : Option (Fin 26) :=
  r.journal.bind fun j => if h : j.next.val < 26 then some ⟨j.next.val, h⟩ else none

/-- R127, R129: the arbiter grants the wipe's next cell, else the LAYOUT operation's next range. -/
def State.grantJob (s : State) : State :=
  if s.wipeClaim then
    match s.life.nextCell with
    | some c => s.waitForStep (.fresh .wipe c s.settings.p)
    | none => s
  else
    match s.layoutWork with
    | some w =>
      State.waitForStep (.fresh .layout (rangeCell w.next) s.settings.p)
        { s with layoutOp := { s.layoutOp with detail := some w.next.val } }
    | none => s

/-! ### The ends of wipe jobs -/

/-- The cell state a job leaves (R124). -/
def endedCell (faulted : Bool) : Cell := if faulted then .faulted else .blank

/-- The fault list is kept ascending, without duplicates (01, section 1.1). -/
def insertFault (c : Fin 26) : List (Fin 26) → List (Fin 26)
  | [] => [c]
  | x :: rest => if c < x then c :: x :: rest else if c = x then x :: rest else x :: insertFault c rest

/-- R12: the journal after a cell. -/
def Journal.advance (c : Fin 26) (faulted : Bool) (j : Journal) : Journal :=
  ⟨⟨c.val + 1, by omega⟩, if faulted then insertFault c j.faults else j.faults⟩

/-- R12: a cell before the last. -/
def State.endWipeCell (c : Fin 26) (journal : Journal) (s : State) : State :=
  let s := State.commit [.cells, .lifecycle] { s with life := { s.life with journal := some journal } }
  { s with job := none, wipeOp := { s.wipeOp with detail := some c.val } }

/-- R13: the wipe-end commit to UNPROVISIONED, and the WIPE record. -/
def State.endWipeUnprovisioned (journal : Journal) (s : State) : State :=
  let e := Evidence.append s.seconds .wipeDone 0 0 .calm { s.evid with score := 0, stage := .calm }
  let s := State.commit allSets
    { s with
      life := ⟨.unprovisioned, some journal⟩
      cred := .factory
      backoff := none
      layout := .default none
      binding := none
      evid := e }
  let op := match journal.faults with
    | [] => s.wipeOp.finish .complete none s.millis
    | c :: _ => s.wipeOp.finish .completeWithFaults (some c.val) s.millis
  { s with job := none, wipeClaim := false, draft := none, decayCount := 0, wipeOp := op }

/-- R79: the key link unit goes silent; the mirror is left as it stands. -/
def State.silenceLink (s : State) : State := { s with inFlight := none, queue := [], kpurge := none }

/-- R14: the wipe-end commit to DISABLED, and the WIPE record. That a standing backoff deadline is not removed here (R29)
is the model's choice (log entry 52). -/
def State.endWipeDisabled (journal : Journal) (s : State) : State :=
  let s := State.commit [.cells, .lifecycle, .evidence]
    { s with
      life := ⟨.disabled, some journal⟩
      evid := Evidence.append s.seconds .wipeDone 0 s.evid.score .wipe s.evid }
  State.silenceLink
    { s with
      job := none
      wipeClaim := false
      wipeOp := s.wipeOp.finish .rootFault (some 0) s.millis }

/-- R12 to R14: the end of a WIPE job on a cell. -/
def State.endWipeJob (c : Fin 26) (faulted : Bool) (s : State) : State :=
  let journal := (s.life.journal.getD ⟨0, []⟩).advance c faulted
  let s : State := { s with cells := s.cells.set c (endedCell faulted) }
  if c.val < 25 then s.endWipeCell c journal
  else if s.cells[(0 : Fin 26)] = .faulted then s.endWipeDisabled journal
  else s.endWipeUnprovisioned journal

/-! ### The ends of LAYOUT jobs -/

/-- R128, R129, R131: after the last commit of the job on a range: SUPERSEDED where a wipe holds the claim, else the
next marked range above, else the end of the operation. -/
def State.afterRange (k : Fin 16) (faulted : Bool) (s : State) : State :=
  let s := { s with job := none }
  if s.wipeClaim then
    { s with layoutWork := none, layoutOp := s.layoutOp.finish .superseded (some k.val) s.millis }
  else
    let lowest := (s.layoutWork.bind LayoutWork.faulted).or (if faulted then some k else none)
    match lowestMarked (k.val + 1) s.layout with
    | some n =>
      { s with layoutWork := some ⟨n, lowest⟩, layoutOp := { s.layoutOp with detail := some n.val } }
    | none =>
      let op := match lowest with
        | none => s.layoutOp.finish .complete (some k.val) s.millis
        | some f => s.layoutOp.finish .completeWithFaults (some f.val) s.millis
      { s with layoutWork := none, layoutOp := op }

/-- R130: the new key of a range is drawn, wrapped and committed with the mark cleared and the health GOOD; without a
root there is no key to wrap under, and the write is skipped (log entry 25). -/
def State.writeRangeKey (k : Fin 16) (s : State) : State :=
  match s.rootCopy.or s.rootInCell with
  | none => s
  | some root =>
    let key := (Config.random32 s.draws).toList
    let ranges := s.layout.ranges.set k { s.layout.ranges[k] with rekeyPending := false, health := .good }
    State.commit [.cells, .layout]
      { s with
        draws := s.draws + 1
        cells := writeKeyCell (rangeCell k) (wrapKey root key) s.cells
        layout := { s.layout with ranges := ranges } }

/-- R130: a LAYOUT job that ends BLANK: the cell's own commit, then the write, skipped under a wipe (R128). -/
def State.endLayoutBlank (k : Fin 16) (s : State) : State :=
  let s := State.commit [.cells] { s with cells := s.cells.set (rangeCell k) .blank }
  (if s.wipeClaim then s else s.writeRangeKey k).afterRange k false

/-- R131: a LAYOUT job that ends FAULTED. -/
def State.endLayoutFaulted (k : Fin 16) (s : State) : State :=
  let ranges := s.layout.ranges.set k { s.layout.ranges[k] with health := .faulted }
  let s := State.commit [.cells, .layout]
    { s with
      cells := s.cells.set (rangeCell k) .faulted
      layout := { s.layout with ranges := ranges } }
  s.afterRange k true

/-- The range whose cell this is. -/
def cellRange (c : Fin 26) : Option (Fin 16) :=
  if h : 10 ≤ c.val then some ⟨c.val - 10, by omega⟩ else none

/-- R125: a job ends; one that ends FAULTED latches ERASE_FAULT. A LAYOUT job is on a range's cell. -/
def State.endJob (j : Job) (faulted : Bool) (s : State) : State :=
  let s := match j.owner with
    | .wipe => s.endWipeJob j.cell faulted
    | .layout =>
      match cellRange j.cell with
      | some k => if faulted then s.endLayoutFaulted k else s.endLayoutBlank k
      | none => { s with job := none }
  if faulted then s.latch .eraseFault else s

/-! ### The WRITE phase -/

/-- R130: what is left of a job's WRITE phase: its commit where it is not yet made, and the end of its range. -/
def State.finishWrite (s : State) : State :=
  match s.job with
  | none => s
  | some j =>
    match j.phase, cellRange j.cell with
    | .write committed, some k => (if committed then s else s.writeRangeKey k).afterRange k false
    | .write _, none => s
    | .waiting, _ => s
    | .pass _ _ _, _ => s
    | .verify _, _ => s

/-- R128, R130: a LAYOUT job ends BLANK and stands in WRITE, its commit made or not yet begun. -/
def State.enterWrite (j : Job) (k : Fin 16) (committed : Bool) (s : State) : State :=
  let s := State.commit [.cells] { s with cells := s.cells.set (rangeCell k) .blank }
  let s := if committed then s.writeRangeKey k else s
  { s with job := some { j with phase := .write committed } }

/-- R125, R130: a job ends BLANK, and WRITE comes as far as the operand says; where a wipe holds the claim there is no
WRITE (R128). -/
def State.endJobBlank (j : Job) (write : WriteProgress) (s : State) : State :=
  match j.owner, cellRange j.cell, write with
  | .layout, some k, .committed => if s.wipeClaim then s.endJob j false else s.enterWrite j k true
  | .layout, some k, .waiting => if s.wipeClaim then s.endJob j false else s.enterWrite j k false
  | .layout, some _, .ended => s.endJob j false
  | .layout, none, _ => s.endJob j false
  | .wipe, _, _ => s.endJob j false

/-- ARBITER_GRANT (R127): at once whenever the engine holds no job and a claim is present (log entry 7); a job that
stands in WRITE ends first (log entry 18). -/
def execArbiterGrant (s : State) : Result :=
  event (fun s =>
    let s := s.finishWrite
    if s.grantReady then s.grantJob else s) s

/-! ### Events of a step -/

/-- R121: a pass or a verify is cut short; WRITE is neither. -/
def Phase.cutShort : Phase → Phase
  | .waiting => .waiting
  | .pass _ _ _ => .waiting
  | .verify _ => .waiting
  | .write committed => .write committed

/-- RES_READY_FALL (R121, R122): a pass or verify in progress is cut short; a judgement already made stands. -/
def execResReadyFall (s : State) : Result :=
  event (fun s =>
    { s with resReady := false, job := s.job.map fun j => { j with phase := j.phase.cutShort } }) s

/-- DRIVER_ANSWER (R122): counts within 1.5 ms of the start of a pass not judged stuck; else disregarded. -/
def execDriverAnswer (s : State) : Result :=
  event (fun s =>
    match s.job with
    | none => s
    | some j =>
      match j.phase with
      | .pass start _ stuck =>
        if stuck ∨ start + Config.answerWindow < s.now then s
        else { s with job := some { j with phase := .pass start true false } }
      | .waiting => s
      | .verify _ => s
      | .write _ => s) s

/-- R122, R123: a pass is judged stuck; the third in a row ends the job FAULTED. -/
def State.judgeStuck (j : Job) (start : Micros) (s : State) : State :=
  let j := { j with stuckRun := j.stuckRun + 1, phase := .pass start false true }
  if 3 ≤ j.stuckRun then s.endJob j true else { s with job := some j }

/-- PASS_STUCK (R122): no answer when 1.5 ms have passed. -/
def execPassStuck (s : State) : Result :=
  event (fun s =>
    match s.job with
    | none => s
    | some j =>
      match j.phase with
      | .pass start false false => s.atMoment (start + Config.answerWindow) (State.judgeStuck j start)
      | .pass _ true _ => s
      | .pass _ false true => s
      | .waiting => s
      | .verify _ => s
      | .write _ => s) s

/-- R122: an answered pass that was not judged stuck is good. -/
def Job.passed (answered stuck : Bool) (j : Job) : Job :=
  if answered && !stuck then { j with good := j.good + 1, stuckRun := 0 } else j

/-- PASS_END (R122): 2.0 ms from the start of the pass; one neither answered nor judged stuck is judged first. -/
def execPassEnd (s : State) : Result :=
  event (fun s =>
    match s.job with
    | none => s
    | some j =>
      match j.phase with
      | .pass start answered stuck =>
        if answered || stuck then
          s.atMoment (start + Config.passTime) (State.waitForStep (j.passed answered stuck))
        else s
      | .waiting => s
      | .verify _ => s
      | .write _ => s) s

/-- R124: what a verify reads: a cell that was BLANK before the job reads erased at its first verify, whatever the
operand says (log entry 5). -/
def State.readsErased (j : Job) (reading : VerifyReading) (s : State) : Bool :=
  reading.erased || (j.round == 1 && s.cells[j.cell] == .blank)

/-- R124: the result of a verify. -/
def State.verifyJob (j : Job) (reading : VerifyReading) (s : State) : State :=
  if s.readsErased j reading then s.endJobBlank j reading.write
  else if j.round = 1 then s.waitForStep { j with round := 2, good := 0, stuckRun := 0 }
  else s.endJob j true

/-- VERIFY_RESULT (R124): 0.5 ms from the start of the verify. -/
def execVerifyResult (reading : VerifyReading) (s : State) : Result :=
  event (fun s =>
    match s.job with
    | none => s
    | some j =>
      match j.phase with
      | .verify start => s.atMoment (start + Config.verifyTime) (fun s => s.verifyJob j reading)
      | .pass _ _ _ => s
      | .waiting => s
      | .write _ => s) s

end Sys2Proof.Machine
end

