-- ==== Sys2Proof/Machine/KeyLink.lean ====
section
/-! DEFINITION. The key link unit's steps: comparison, acknowledgement, timeout and the fall of KPURGE (R62 to
R80). -/

namespace Sys2Proof.Machine

/-! ### Comparison -/

/-- R68: no LOAD, GATES or SHADOW-hidden transfer may be sent. -/
def State.restricted (s : State) : Bool :=
  s.evid.stage == .lockdown || s.evid.stage == .wipe || s.life.lifecycle == .wiping
    || s.life.lifecycle == .disabled

/-- The gates a comparison takes as desired for a range (R66, R68). -/
def State.wantGates (k : Fin 16) (s : State) : Gates := if s.restricted then .closed else s.gates[k]

/-- The view a comparison takes as desired (R67, R68). -/
def State.wantView (s : State) : View := if s.restricted then .shown else s.shadow

/-- A span placed in ascending order of start. -/
def insertSpan (x : Span) : List Span → List Span
  | [] => [x]
  | y :: rest => if x.start < y.start then x :: y :: rest else y :: insertSpan x rest

/-- R48: the start and length of every enabled range 1 to 15, in ascending order of start. -/
def Layout.spans (l : Layout) : List Span :=
  (allRanges.filterMap fun (k : Fin 16) =>
    if k ≠ 0 ∧ l.ranges[k].edit.enabled then l.ranges[k].edit.extent else none).foldr insertSpan []

/-- The extent of a LOAD (R48). -/
def State.loadExtent (k : Fin 16) (s : State) : Extent :=
  if k = 0 then .wholeDrive (s.layout.capacity.getD 0) s.layout.spans
  else .span (s.layout.ranges[k].edit.extent.getD ⟨0, 0⟩)

/-- R70: a transfer is clocked out and KL_STB rises (log entry 16). -/
def State.send (j : Fin 17) (t : Transfer) (s : State) : State :=
  { s with inFlight := some ⟨j, t, s.now, false⟩ }

/-- The state of one range's mirror record replaced (R70). -/
def State.markMirror (k : Fin 16) (x : MirrorState) (s : State) : State :=
  { s with mirror := s.mirror.set k { s.mirror[k] with state := x } }

/-- R7, R69: a failed unwrap marks the range FAULTED, committed at once, and closes its gates. -/
def State.unwrapFailed (k : Fin 16) (s : State) : State :=
  let ranges := s.layout.ranges.set k { s.layout.ranges[k] with health := .faulted }
  let s := State.commit [.layout] { s with layout := { s.layout with ranges := ranges } }
  s.changeDesired (gatesWith s.gates k .closed) s.shadow

/-- R69: a LOAD is built with the root copy, taken from cell 0 where none is held (R8). It carries the extent and the
locked-read response that the active layout gives as it is built (R48; log entry 40). -/
def State.buildLoad (k : Fin 16) (s : State) : State :=
  let root := s.rootCopy.or s.rootInCell
  let s := { s with rootCopy := root }
  match root.bind fun r => unwrapKey r s.cells[rangeCell k] with
  | none => s.unwrapFailed k
  | some key =>
    (s.markMirror k .loading).send (rangeSlot k)
      (.load k key (s.wantGates k) s.layout.ranges[k].edit.response (s.loadExtent k))

/-- R66: the comparison of a range slot. -/
def State.compareRange (k : Fin 16) (s : State) : State :=
  match chooseRange (s.wantGates k) s.mirror[k] with
  | .nothing => s
  | .load => s.buildLoad k
  | .gates => s.send (rangeSlot k) (.gates k (s.wantGates k))
  | .clear => (s.markMirror k .clearing).send (rangeSlot k) (.clear k)

/-- R67: the comparison of slot 16. -/
def State.compareShadow (s : State) : State :=
  if shadowDiffers s.wantView s.settings.shadowL s.mirrorShadow then
    let m := s.mirrorShadow
    let m := if m.state = .empty then { m with state := .loading } else m
    State.send shadowSlot (.shadow s.wantView s.settings.shadowL) { s with mirrorShadow := m }
  else s

/-- R65: a slot that has left the queue is compared. -/
def State.compareSlot (j : Fin 17) (s : State) : State :=
  match slotRange j with
  | some k => s.compareRange k
  | none => s.compareShadow

/-- SYNC_COMPARE (R65): the head slot leaves the queue and is compared at once (log entry 7). -/
def execSyncCompare (s : State) : Result :=
  event (fun s =>
    match s.queue with
    | [] => s
    | j :: rest => if s.syncReady then State.compareSlot j { s with queue := rest } else s) s

/-! ### Acknowledgement -/

/-- R71: the mirror takes the transferred state. -/
def State.acceptTransfer (t : Transfer) (s : State) : State :=
  match t with
  | .load k _ g _ _ => { s with mirror := s.mirror.set k ⟨.loaded, g⟩ }
  | .gates k g => { s with mirror := s.mirror.set k ⟨.loaded, g⟩ }
  | .clear k => { s with mirror := s.mirror.set k .none }
  | .shadow view length => { s with mirrorShadow := ⟨.loaded, view, some length⟩ }

/-- R71: acceptance, the mirror change and the rejoin are one event. -/
def State.accept (f : InFlight) (s : State) : State :=
  let s := s.acceptTransfer f.transfer
  { s with
    inFlight := none
    faultRun := 0
    queue := if f.rejoin then s.queue ++ [f.slot] else s.queue }

/-- R72, R73: the key link fault. -/
def State.linkFault (s : State) : State :=
  let s := (State.purge { s with inFlight := none }).closeAll
  let s := State.takeEvidence .keylink 0 [] (State.latch .keylinkFault { s with verified := 0 })
  let run := min 3 (s.faultRun + 1)
  { s with faultRun := run, linkState := if run = 3 then .stopped else s.linkState }

/-- KL_ACK (R71, R72): accepted or refused while a transfer is in flight, in ACTIVE and with KPURGE low; else
disregarded. -/
def execKlAck (klRes : Bool) (s : State) : Result :=
  event (fun s =>
    match s.inFlight with
    | none => s
    | some f =>
      if s.mode ≠ .active ∨ s.kpurge.isSome then s
      else if klRes then s.accept f
      else s.linkFault) s

/-- ACK_TIMEOUT (R72): 10 ms after the rise of KL_STB without an acknowledgement. -/
def execAckTimeout (s : State) : Result :=
  event (fun s => s.atMoment? (s.inFlight.map fun f => f.rose + Config.ackWait) State.linkFault) s

/-- KPURGE_FALL (R74): 20 µs after its rise; the slots that differ join the queue. -/
def execKpurgeFall (s : State) : Result :=
  event (fun s =>
    s.atMoment? (s.kpurge.map fun t => t + Config.purgePulse) fun s =>
      State.enqueueDiffering { s with kpurge := none }) s

end Sys2Proof.Machine
end

