-- ==== Sys2Proof/Machine/Lifecycle.lean ====
section
/-! DEFINITION. PROVISION and its completion (R3, R4) and the WIPE request (R134, R135). -/

namespace Sys2Proof.Machine

/-- PROVISION (R3): busy, then values; a salt is drawn and the derivation starts. -/
def execProvision (tag : Byte) (body : Bytes) (s : State) : Result :=
  request .provision tag body (fun s =>
    if s.derivation.isSome then refuse .busy s
    else match readProvision body with
      | none => refuse .badValue s
      | some p =>
        let s' : State :=
          { s with
            derivation := some ⟨.provision p.capacity p.wipeCode, 0, s.now, p.secret,
              (Config.random16 s.draws).toList⟩
            draws := s.draws + 1 }
        ⟨.started, [], s'.startCred .provision 0⟩) s

/-- R4: slot 0 as PROVISION writes it. -/
def adminSlot (salt : Bytes) : Slot := ⟨.active, some salt, BitVec.allOnes 16, false⟩

/-- R4: the provisioning commit. Cell 10 left FAULTED by an earlier wipe is not written, and range 0 is marked. -/
def State.provisionCommit (capacity : Nat) (wipeCode : Bytes) (d : Derivation) (s : State) : State :=
  let root := (Config.random32 s.draws).toList
  let key := (Config.random32 (s.draws + 1)).toList
  let layout := Layout.default (some capacity)
  let layout :=
    if s.cells[rangeCell 0] = .faulted then
      { layout with ranges := layout.ranges.set 0 { RangeRecord.default true with rekeyPending := true } }
    else layout
  let cells := writeKeyCell 0 (.plain root) s.cells
  let cells := writeCheckCell 1 (.plain wipeCode) cells
  let cells := writeCheckCell (verifierCell 0) (.plain (Config.derive d.secret d.salt).toList) cells
  let cells := writeKeyCell (rangeCell 0) (wrapKey root key) cells
  State.commit [.lifecycle, .cells, .credentials, .layout, .evidence]
    { s with
      draws := s.draws + 2
      cells := cells
      cred := ⟨(Vector.replicate 8 Slot.none).set 0 (adminSlot d.salt), 0, false⟩
      backoff := none
      layout := layout
      evid := .factory
      life := ⟨.provisioned, none⟩ }

/-- PROVISION_COMPLETE (R4): the commit, the CREDENTIAL record's end, the LAYOUT operation where range 0 is marked
(R133), and the dormancy timer counting from 0 (R91). -/
def execProvisionComplete (s : State) : Result :=
  event (fun s =>
    match s.derivation with
    | none => s
    | some d =>
      match d.work with
      | .provision capacity wipeCode =>
        s.atMoment (d.startedAt + Config.derivationTime) fun s =>
          let s := { s with derivation := none }
          let s := (s.provisionCommit capacity wipeCode d).endCred .accepted
          State.startLayout .provision { s with dormancyCount := 0, satisfied := false }
      | .verify => s
      | .enroll _ _ => s
      | .changeOld _ => s
      | .changeNew _ => s) s

/-- A wipe start caused by a WIPE request (R10, R134): the commit, STAGE_RISE (R104), the actions. -/
def State.startWipe (s : State) : State := ((s.wipeStartCommit []).latch .stageRise).wipeStartActions

/-- R135: a wrong wipe code is counted in one commit with its BAD_SECRET event; then the deadline and the
indicator. -/
def State.countWrongCode (s : State) : State :=
  let s := { s with cred := raiseFailures s.cred }
  ((s.takeEvidence .badSecret s.badSecretWeight [.credentials]).setBackoff).latch .badSecret

/-- WIPE (R134): the admin form has no body, the code form the 16-byte wipe code. -/
def execWipe (tag : Byte) (body : Bytes) (s : State) : Result :=
  request .wipe tag body (fun s =>
    if body = [] then
      if s.adminVerified then ⟨.started, [], s.startWipe⟩ else refuse .notPermitted s
    else if body.length ≠ 16 then refuse .badValue s
    else if s.derivation.isSome then refuse .busy s
    else if s.cells[(1 : Fin 26)].compare body then ⟨.started, [], s.startWipe⟩
    else ⟨.notPermitted, [], s.countWrongCode⟩) s

end Sys2Proof.Machine
end

