-- ==== Sys2Proof/Machine/Ranges.lean ====
section
/-! DEFINITION. The requests of Locking Ranges and the Shadow Area (R38 to R61) and REKEY (R132). -/

namespace Sys2Proof.Machine

/-! ### Geometry -/

/-- R41: each span begins before the other ends. -/
def Span.overlaps (x y : Span) : Bool := x.start < y.start + y.length && y.start < x.start + x.length

/-- R41: the span that takes part in the overlap test under a number: an enabled range 1 to 15, or the shadow area as
16 when L is above 0. -/
def testSpan (edits : Vector Editable 16) (shadowL : Nat) (j : Fin 17) : Option Span :=
  match slotRange j with
  | none => if 0 < shadowL then some ⟨0, shadowL⟩ else none
  | some k => if k ≠ 0 ∧ edits[k].enabled then edits[k].extent else none

/-- R41: whether two numbers overlap. -/
def pairOverlaps (edits : Vector Editable 16) (shadowL : Nat) (i j : Fin 17) : Bool :=
  match testSpan edits shadowL i, testSpan edits shadowL j with
  | some x, some y => x.overlaps y
  | some _, none => false
  | none, _ => false

/-- R41: the lowest overlapping pair: smallest first number, then smallest second number. -/
def lowestOverlap (edits : Vector Editable 16) (shadowL : Nat) : Option (Fin 17 × Fin 17) :=
  allSlots.findSome? fun i =>
    (allSlots.find? fun j => i < j && pairOverlaps edits shadowL i j).map fun j => (i, j)

/-- R59: the lowest enabled range of the active layout that a shadow length overlaps. -/
def lowestUnderShadow (edits : Vector Editable 16) (shadowL : Nat) : Option (Fin 17) :=
  allSlots.find? fun i => i < shadowSlot && pairOverlaps edits shadowL i shadowSlot

/-- The OVERLAP refusal with the named pair (section 10.4). -/
def refuseOverlap (pair : Fin 17 × Fin 17) (s : State) : Answer :=
  ⟨.overlap, be 1 pair.1.val ++ be 1 pair.2.val, s⟩

/-- The editable fields of the active layout (R42). -/
def Layout.edits (l : Layout) : Vector Editable 16 := l.ranges.map RangeRecord.edit

/-! ### The draft -/

/-- DRAFT_RANGE (R43). -/
def execDraftRange (tag : Byte) (body : Bytes) (s : State) : Result :=
  request .draftRange tag body (fun s =>
    match bodyRange body with
    | none => refuse .badValue s
    | some k =>
      if !s.adminVerified then refuse .notPermitted s
      else match readEditable k s.layout.capacity (body.drop 1) with
        | none => refuse .badValue s
        | some e => ⟨.done, [], { s with draft := some ((s.draft.getD s.layout.edits).set k e) }⟩) s

/-- READ_RANGES (R61): selector 0 is ACTIVE, 1 is DRAFT. -/
def execReadRanges (tag : Byte) (body : Bytes) (s : State) : Result :=
  request .readRanges tag body (fun s =>
    if body = [0] then ⟨.done, rangesBody false s, s⟩
    else if body = [1] then ⟨.done, rangesBody true s, s⟩
    else refuse .badValue s) s

/-! ### Applying a layout -/

/-- The enabled field differs, or both are enabled and start or length differs (R45). -/
def geometryDiffers (draft active : Editable) : Bool :=
  draft.enabled != active.enabled || (draft.enabled && active.enabled && draft.extent != active.extent)

/-- Some range 1 to 15 is changed in its enabled field, start or length (R45). -/
def anyGeometryDiffers (draft active : Vector Editable 16) : Bool :=
  allRanges.any fun k => k ≠ 0 && geometryDiffers draft[k] active[k]

/-- R45: the range is changed. -/
def rangeChanged (draft active : Vector Editable 16) (k : Fin 16) : Bool :=
  geometryDiffers draft[k] active[k] || draft[k].lockOn != active[k].lockOn
    || (k = 0 && anyGeometryDiffers draft active)

/-- R45: the layout the apply commits: the draft installed, and the mark set on every range 1 to 15 whose geometry
changed. -/
def applyDraft (draft : Vector Editable 16) (l : Layout) : Layout :=
  { l with
    ranges := Vector.ofFn fun k =>
      let r := l.ranges[k]
      { r with
        edit := draft[k]
        rekeyPending := r.rekeyPending || (k ≠ 0 && geometryDiffers draft[k] r.edit) } }

/-- R45: the gates of every changed range close. -/
def closeChanged (draft : Vector Editable 16) (l : Layout) (g : Vector Gates 16) : Vector Gates 16 :=
  Vector.ofFn fun k => if rangeChanged draft l.edits k then .closed else g[k]

/-- R44, R45: STARTED with the LAYOUT operation where a mark stands, else DONE. -/
def startOrDone (s : State) : Answer :=
  if (lowestMarked 0 s.layout).isSome then ⟨.started, [], s.startLayout .applyLayout⟩ else ⟨.done, [], s⟩

/-- R45: the taken APPLY_LAYOUT of a draft: the commit, the closings, the draft absent. -/
def State.applyLayout (draft : Vector Editable 16) (s : State) : State :=
  let g := closeChanged draft s.layout s.gates
  let s := State.commit [.layout] { s with layout := applyDraft draft s.layout, draft := none }
  s.changeDesired g s.shadow

/-- APPLY_LAYOUT (R44, R45). -/
def execApplyLayout (tag : Byte) (body : Bytes) (s : State) : Result :=
  request .applyLayout tag body (fun s =>
    if !s.adminVerified then refuse .notPermitted s
    else if s.layoutOp.state = .running then refuse .busy s
    else if body ≠ [] then refuse .badValue s
    else match s.draft with
      | none => startOrDone s
      | some draft =>
        match lowestOverlap draft s.settings.shadowL with
        | some pair => refuseOverlap pair s
        | none => startOrDone (s.applyLayout draft)) s

/-- R132: the mark of a range is committed with its gates closed. -/
def State.rekeyRange (k : Fin 16) (s : State) : State :=
  let ranges := s.layout.ranges.set k { s.layout.ranges[k] with rekeyPending := true }
  let s := State.commit [.layout] { s with layout := { s.layout with ranges := ranges } }
  s.changeDesired (gatesWith s.gates k .closed) s.shadow

/-- REKEY (R132). -/
def execRekey (tag : Byte) (body : Bytes) (s : State) : Result :=
  request .rekey tag body (fun s =>
    match bodyRange body with
    | none => refuse .badValue s
    | some k =>
      if !s.adminVerified then refuse .notPermitted s
      else if !s.layout.ranges[k].edit.enabled then refuse .wrongState s
      else if s.layoutOp.state = .running then refuse .busy s
      else if body.length ≠ 1 then refuse .badValue s
      else ⟨.started, [], (s.rekeyRange k).startLayout .rekey⟩) s

/-! ### Gates -/

/-- R48: enabled, not rekey-pending and GOOD. -/
def RangeRecord.usable (r : RangeRecord) : Bool := r.edit.enabled && !r.rekeyPending && r.health == .good

/-- R49 condition 5. -/
def State.allUsable (ranges : BitVec 16) (s : State) : Bool :=
  allRanges.all fun k => !ranges.getLsbD k.val || s.layout.ranges[k].usable

/-- R49: each named gate of each named range OPEN. -/
def openNamed (b : GateBody) (g : Vector Gates 16) : Vector Gates 16 :=
  Vector.ofFn fun k =>
    if b.ranges.getLsbD k.val then ⟨g[k].read || b.read, g[k].write || b.write⟩ else g[k]

/-- R50: each named gate of each named range CLOSED. -/
def closeNamed (b : GateBody) (g : Vector Gates 16) : Vector Gates 16 :=
  Vector.ofFn fun k =>
    if b.ranges.getLsbD k.val then ⟨g[k].read && !b.read, g[k].write && !b.write⟩ else g[k]

/-- The stage is CALM or ALERT (R49, R58). -/
def Stage.open_ (x : Stage) : Bool := x == .calm || x == .alert

/-- UNLOCK (R49). -/
def execUnlock (tag : Byte) (body : Bytes) (s : State) : Result :=
  request .unlock tag body (fun s =>
    match readGateBody body with
    | none => refuse .badValue s
    | some b =>
      if !s.accessTo b.ranges then refuse .notPermitted s
      else if !s.evid.stage.open_ then refuse .wrongState s
      else if !s.allUsable b.ranges then refuse .wrongState s
      else ⟨.done, [], s.changeDesired (openNamed b s.gates) s.shadow⟩) s

/-- LOCK (R50). -/
def execLock (tag : Byte) (body : Bytes) (s : State) : Result :=
  request .lock tag body (fun s =>
    match readGateBody body with
    | none => refuse .badValue s
    | some b => ⟨.done, [], s.changeDesired (closeNamed b s.gates) s.shadow⟩) s

/-- LOCK_ALL (R51). -/
def execLockAll (tag : Byte) (body : Bytes) (s : State) : Result :=
  request .lockAll tag body (fun s =>
    if body ≠ [] then refuse .badValue s
    else ⟨.done, [], State.closeAll { s with verified := 0 }⟩) s

/-- PREBOOT_DONE (R58). -/
def execPrebootDone (tag : Byte) (body : Bytes) (s : State) : Result :=
  request .prebootDone tag body (fun s =>
    if s.verified = 0 then refuse .notPermitted s
    else if !s.evid.stage.open_ then refuse .wrongState s
    else if body ≠ [] then refuse .badValue s
    else ⟨.done, [], s.changeDesired s.gates .hidden⟩) s

end Sys2Proof.Machine
end

