-- ==== Sys2Proof/Machine/Reporting.lean ====
section
/-! DEFINITION. The requests of Command Link and Reporting (R160 to R169), UNKNOWN_KIND and BAD_FRAME. -/

namespace Sys2Proof.Machine

/-- A request that carries no body and answers DONE with a reply body, changing nothing. -/
def readOnly (body : Bytes) (reply : State → Bytes) (s : State) : Answer :=
  if body ≠ [] then refuse .badValue s else ⟨.done, reply s, s⟩

/-- IDENTIFY (R160). -/
def execIdentify (tag : Byte) (body : Bytes) (s : State) : Result :=
  request .identify tag body (readOnly body identifyBody) s

/-- STATUS (R161). -/
def execStatus (tag : Byte) (body : Bytes) (s : State) : Result :=
  request .status tag body (readOnly body statusBody) s

/-- FLAGS (R163): both sets, and the latches returned are cleared. -/
def execFlags (tag : Byte) (body : Bytes) (s : State) : Result :=
  request .flags tag body (fun s =>
    if body ≠ [] then refuse .badValue s
    else ⟨.done, be 2 s.latched.toNat ++ be 2 s.masks.toNat, { s with latched := 0 }⟩) s

/-- MASK (R164). -/
def execMask (tag : Byte) (body : Bytes) (s : State) : Result :=
  request .mask tag body (fun s =>
    match readMask body with
    | none => refuse .badValue s
    | some (set, named) =>
      let masks := if set then s.masks ||| named else s.masks &&& ~~~named
      ⟨.done, be 2 masks.toNat, { s with masks := masks }⟩) s

/-- OPSTATE (R167): the record as it stands, and its unseen marker is cleared. -/
def execOpstate (tag : Byte) (body : Bytes) (s : State) : Result :=
  request .opstate tag body (fun s =>
    if body = [0] then
      ⟨.done, opstateBody 0 s.credOp, { s with credOp := { s.credOp with unseen := false } }⟩
    else if body = [1] then
      ⟨.done, opstateBody 1 s.layoutOp, { s with layoutOp := { s.layoutOp with unseen := false } }⟩
    else if body = [2] then
      ⟨.done, opstateBody 2 s.wipeOp, { s with wipeOp := { s.wipeOp with unseen := false } }⟩
    else refuse .badValue s) s

/-- READ_POLICY (R169). -/
def execReadPolicy (tag : Byte) (body : Bytes) (s : State) : Result :=
  request .readPolicy tag body (readOnly body fun s => s.settings.toBytes) s

/-- UNKNOWN_KIND (R159): refused at step 2 in every mode and lifecycle state in which frames are judged. A code
that names a kind spells that kind's own command, so it is disregarded here (log entry 5). -/
def execUnknownKind (code tag : Byte) (body : Bytes) (s : State) : Result :=
  event (fun s =>
    if !s.judgesFrames || (kindOf code).isSome then s
    else if 240 < body.length then s.frameFaultReply
    else answer code tag (refuse .unknownKind s)) s

/-- R156, R157: what becomes of a frame that was held in STARTING until the restore stages had ended: a request is
answered, NOT_READY for every kind but IDENTIFY and STATUS (R159). A fault among the held frames takes its turn with
them (log entry 49). -/
def State.answerHeld (s : State) (f : Frame) : State :=
  if !s.judgesFrames then s
  else match judgeFrame f with
    | .empty => s
    | .read => s
    | .fault => s.frameFaultReply
    | .request code tag body =>
      match kindOf code with
      | none => answer code tag (refuse .unknownKind s)
      | some k => answer code tag (checkOrder k (readOnly body (if k = .identify then identifyBody else statusBody)) s)

/-- BAD_FRAME (R155): the frame is judged, and a fault is answered BAD_FRAME. A frame that is empty, a read frame
or a good request is no fault, so it is disregarded here (log entry 5). -/
def execBadFrame (frame : Frame) (s : State) : Result :=
  event (fun s => if s.judgesFrames && judgeFrame frame == .fault then s.frameFaultReply else s) s

end Sys2Proof.Machine
end

