-- ==== Sys2Proof/Machine/Scores.lean ====
section
/-! DEFINITION. The requests and the tick of The Evidence Score and Response Stages (R98 to R119), with SET_POLICY's
effects on the watches (R86, R89, R92). -/

namespace Sys2Proof.Machine

/-! ### The watches under a new policy -/

/-- R83: the beacon watch starts afresh. -/
def freshBeacon (w : Nat) (now : Micros) : BeaconWatch := ⟨none, now, none, now + w * Config.second⟩

/-- R86. -/
def State.beaconPolicy (old : Settings) (s : State) : State :=
  let c := s.settings
  match s.beacon with
  | none =>
    if c.beaconOn ∧ !old.beaconOn ∧ s.mode.tamperRuns then { s with beacon := some (freshBeacon c.w s.now) } else s
  | some b =>
    if !c.beaconOn then { s with beacon := none }
    else if c.w ≠ old.w then { s with beacon := some { b with deadline := s.now + c.w * Config.second } }
    else s

/-- R87: a level of TAMP is read by the running watch. -/
def TamperState.read (isOpen : Bool) (now : Micros) : TamperState → TamperState
  | .off => .off
  | .armed => if isOpen then .opening now else .armed
  | .opening since => if isOpen then .opening since else .armed
  | .tripped => if isOpen then .tripped else .closing now
  | .closing since => if isOpen then .tripped else .closing since

/-- R88, R89: a timing in progress begins again. -/
def TamperState.retime (now : Micros) : TamperState → TamperState
  | .off => .off
  | .armed => .armed
  | .opening _ => .opening now
  | .tripped => .tripped
  | .closing _ => .closing now

/-- R89. -/
def State.tamperPolicy (old : Settings) (s : State) : State :=
  let code := s.settings.tamperCode
  if code = old.tamperCode then s
  else if code = 0 then { s with tamper := .off }
  else if old.tamperCode = 0 then { s with tamper := TamperState.armed.read s.tampOpen s.now }
  else { s with tamper := s.tamper.retime s.now }

/-- R92: any change of Id discards the count. -/
def State.dormancyPolicy (old : Settings) (s : State) : State :=
  if s.settings.dormId = old.dormId then s else { s with dormancyCount := 0 }

/-- R116: any change of Idc starts the decay count from 0. -/
def State.decayPolicy (old : Settings) (s : State) : State :=
  if s.settings.idc = old.idc then s else { s with decayCount := 0 }

/-- R59: a changed L hands slot 16 on. -/
def State.shadowPolicy (old : Settings) (s : State) : State :=
  if s.settings.shadowL = old.shadowL then s else s.handOn shadowSlot

/-- R116: the stage is evaluated again with S unchanged: a rise, or the fall test, in a commit of its own. -/
def State.reevaluate (s : State) : State :=
  let rise := s.evid.rise s.settings s.seconds
  if rise.2 ≠ [] then State.settleRise rise.2 [] { s with evid := rise.1 }
  else
    let e := s.evid.fall s.settings s.seconds
    if e = s.evid then s else State.commit [.evidence] { s with evid := e }

/-- A taken SET_POLICY (R115): the record is written, and every block works under it. -/
def State.setPolicy (c : Settings) (s : State) : State :=
  let old := s.settings
  let s := s.writeSettings c
  let s := ((((s.beaconPolicy old).tamperPolicy old).dormancyPolicy old).decayPolicy old).shadowPolicy old
  s.reevaluate

/-- SET_POLICY (R115, R172). -/
def execSetPolicy (tag : Byte) (body : Bytes) (s : State) : Result :=
  request .setPolicy tag body (fun s =>
    if s.life.lifecycle = .provisioned ∧ !s.adminVerified then refuse .notPermitted s
    else if s.evid.stage = .lockdown then refuse .notPermitted s
    else match readPolicyBody body with
      | none => refuse .badValue s
      | some c =>
        let under := if s.life.lifecycle = .provisioned then lowestUnderShadow s.layout.edits c.shadowL else none
        match under with
        | some k => refuseOverlap (k, shadowSlot) s
        | none => ⟨.done, [], s.setPolicy c⟩) s

/-! ### Reading, standing down, decay -/

/-- READ_SCORE (R117). -/
def execReadScore (tag : Byte) (body : Bytes) (s : State) : Result :=
  request .readScore tag body (readOnly body scoreBody) s

/-- READ_TRAIL (R119). -/
def execReadTrail (tag : Byte) (body : Bytes) (s : State) : Result :=
  request .readTrail tag body (fun s =>
    match body with
    | [page] => if page.toNat ≤ 2 then ⟨.done, trailBody page.toNat s, s⟩ else refuse .badValue s
    | _ => refuse .badValue s) s

/-- R114: S = 0, CALM and the STAND_DOWN entry in one commit; the decay timer from 0 (R111). -/
def State.standDown (s : State) : State :=
  let e := Evidence.append s.seconds .standDown 0 0 .calm { s.evid with score := 0, stage := .calm }
  { State.commit [.evidence] { s with evid := e } with decayCount := 0 }

/-- STAND_DOWN (R114). -/
def execStandDown (tag : Byte) (body : Bytes) (s : State) : Result :=
  request .standDown tag body (fun s =>
    if !s.adminVerified then refuse .notPermitted s
    else if s.evid.stage ≠ .lockdown then refuse .wrongState s
    else if body ≠ [] then refuse .badValue s
    else ⟨.done, [], s.standDown⟩) s

/-- R112: the decay step, with the fall test in the same commit; nothing is written where S or D is 0. -/
def State.decay (s : State) : State :=
  let step := min s.evid.score s.settings.d
  if step = 0 then s
  else
    State.commit [.evidence]
      { s with evid := Evidence.fall s.settings s.seconds { s.evid with score := s.evid.score - step } }

/-- DECAY_TICK (R111, R112): the count reaches a full Idc and starts again from 0. -/
def execDecayTick (s : State) : Result :=
  event (fun s => s.atMoment? s.decayMoment fun s => State.decay { s with decayCount := 0 }) s

end Sys2Proof.Machine
end

