-- ==== Sys2Proof/Machine/Sense.lean ====
section
/-! DEFINITION. The steps of the sense unit: the watches' events, BIND_PLATFORM and PLATFORM_REPORT (R81 to R97). -/

namespace Sys2Proof.Machine

/-! ### Platform binding -/

/-- R93: form 1 (BIND) with a token of 16 bytes, or form 2 (CLEAR) without one. -/
def readBind : Bytes → Option (Option Bytes)
  | form :: token =>
    if form = 1 ∧ token.length = 16 then some (some token)
    else if form = 2 ∧ token = [] then some none
    else none
  | [] => none

/-- R94: BIND makes a NONE or WAITING window MATCHED. -/
def ReportWindow.bind : ReportWindow → ReportWindow
  | .none => .matched
  | .waiting _ => .matched
  | .matched => .matched
  | .foreign => .foreign

/-- R93, R94: the token is committed and the window follows. -/
def State.bindPlatform (token : Option Bytes) (s : State) : State :=
  let s := State.commit [.binding] { s with binding := token }
  { s with window := if token.isSome then s.window.bind else s.window.stopWaiting }

/-- BIND_PLATFORM (R93, R94). -/
def execBindPlatform (tag : Byte) (body : Bytes) (s : State) : Result :=
  request .bindPlatform tag body (fun s =>
    if !s.adminVerified then refuse .notPermitted s
    else if s.evid.stage = .lockdown then refuse .notPermitted s
    else match readBind body with
      | none => refuse .badValue s
      | some token => ⟨.done, [], s.bindPlatform token⟩) s

/-- R94, R95: FOREIGN is raised, once for this entry to ACTIVE. -/
def State.raiseForeign (s : State) : State :=
  State.senseEvent .foreign .foreign s.settings.wForeign { s with window := .foreign }

/-- R95: a report settles a WAITING window. -/
def State.settleReport (token : Bytes) (s : State) : State :=
  match s.window with
  | .waiting _ => if s.binding = some token then { s with window := .matched } else s.raiseForeign
  | .none => s
  | .matched => s
  | .foreign => s

/-- PLATFORM_REPORT (R95): the reply gives the window state after the report. -/
def execPlatformReport (tag : Byte) (body : Bytes) (s : State) : Result :=
  request .platformReport tag body (fun s =>
    if body.length ≠ 0 ∧ body.length ≠ 16 then refuse .badValue s
    else
      let s := s.settleReport body
      ⟨.done, [s.window.code], s⟩) s

/-- REPORT_WINDOW_DEADLINE (R94). -/
def execReportWindowDeadline (s : State) : Result :=
  event (fun s => s.atMoment? s.windowMoment State.raiseForeign) s

/-! ### The presence beacon -/

/-- R84: an edge follows the reference by at least 250 ms and at most 4 s. -/
def validBeacon (reference : Option Micros) (edge : Micros) : Bool :=
  match reference with
  | none => false
  | some t => t + Config.beaconMin ≤ edge && edge ≤ t + Config.beaconMax

/-- R82: the deglitched level can change: the line may have held a level for 1 ms since the last change or the start. -/
def BeaconWatch.held (now : Micros) (b : BeaconWatch) : Bool := b.changed + Config.presHold ≤ now

/-- R84: the watch takes a rising edge. -/
def BeaconWatch.edge (w : Nat) (now : Micros) (b : BeaconWatch) : BeaconWatch where
  level := some true
  changed := now
  reference := some now
  deadline := if validBeacon b.reference now then now + w * Config.second else b.deadline

/-- PRES_RISING_EDGE (R84): the deglitched level changes from low to high; an edge within 1 ms of the change before it
cannot arise (R82; log entry 17). -/
def execPresRisingEdge (s : State) : Result :=
  event (fun s =>
    match s.beacon with
    | none => s
    | some b =>
      if b.level = some false ∧ b.held s.now then { s with beacon := some (b.edge s.settings.w s.now) } else s) s

/-- PRES_FALLING_CHANGE (R82): the deglitched level becomes low, or is taken for the first time after a start; within
1 ms of the change or the start before it, it cannot arise (log entry 17). -/
def execPresFallingChange (level : Bool) (s : State) : Result :=
  event (fun s =>
    match s.beacon with
    | none => s
    | some b =>
      if (b.level = none ∨ (b.level = some true ∧ level = false)) ∧ b.held s.now then
        { s with beacon := some { b with level := some level, changed := s.now } }
      else s) s

/-- R85: the window has run out: the deadline moves on by W and the event is handed on. -/
def State.beaconOut (b : BeaconWatch) (dropFirst : Bool) (s : State) : State :=
  let s := { s with beacon := some { b with deadline := b.deadline + s.settings.w * Config.second } }
  s.theftEvent .beaconLost .beaconLost s.settings.wBeacon .beaconLost dropFirst

/-- BEACON_LOST (R85). -/
def execBeaconLost (dropFirst : Bool) (s : State) : Result :=
  event (fun s =>
    match s.beacon with
    | none => s
    | some b => s.atMoment b.deadline (State.beaconOut b dropFirst)) s

/-! ### The tamper loop -/

/-- R87, R88: the watch, where it runs, takes the level TAMP reads. -/
def State.readTamp (s : State) : State :=
  if s.mode.tamperRuns then { s with tamper := s.tamper.read s.tampOpen s.now } else s

/-- TAMP_CHANGE (R87): the line changes at this moment; in STARTING and OFF the watch does not read it (R88). -/
def execTampChange (isOpen : Bool) (s : State) : Result :=
  event (fun s => State.readTamp { s with tampOpen := isOpen }) s

/-- R87: a timing has reached the deglitch time. -/
def State.tamperTimed (dropFirst : Bool) (s : State) : State :=
  match s.tamper with
  | .opening _ =>
    State.theftEvent .tamper .tamper s.settings.wTamper .tamper dropFirst { s with tamper := .tripped }
  | .closing _ => { s with tamper := .armed }
  | .off => s
  | .armed => s
  | .tripped => s

/-- TAMPER_DEGLITCH_END (R87). -/
def execTamperDeglitchEnd (dropFirst : Bool) (s : State) : Result :=
  event (fun s => s.atMoment? s.tamperMoment (State.tamperTimed dropFirst)) s

/-! ### Dormancy -/

/-- DORMANT (R90): the count reaches a full Id and starts again from 0. -/
def execDormant (s : State) : Result :=
  event (fun s =>
    s.atMoment? s.dormantMoment fun s =>
      State.senseEvent .dormant .dormant s.settings.wDorm { s with dormancyCount := 0 }) s

end Sys2Proof.Machine
end

