-- ==== Sys2Proof/Machine/Supply.lean ====
section
/-! DEFINITION. The steps of the supply unit: power-on and restore, STARTING and its end, the losses of supplies,
SUSPEND, intent and grants, and RST_N (R15, R16, R28, R139 to R153). -/

namespace Sys2Proof.Machine

/-! ### Entry to OFF -/

/-- R146: every volatile value is lost; the store, powered time's source, and the levels of the lines that the part
does not drive stay (log entry 32). -/
def State.enterOff (s : State) : State :=
  { State.reset with
    pending := s.pending
    now := s.now
    life := s.life
    cells := s.cells
    cred := s.cred
    layout := s.layout
    binding := s.binding
    evid := s.evid
    settings := s.settings
    nvs := s.nvs
    draws := s.draws
    tampOpen := s.tampOpen
    tamper := .off
    resReady := s.resReady
    mode := .off
    vmain := false
    vaux := false
    reservoirWait := none
    rstLow := s.rstLow }

/-! ### RST_N -/

/-- R53: the gates of every range whose lock-on set a test selects close. -/
def closeLockOn (selects : Editable → Bool) (l : Layout) (g : Vector Gates 16) : Vector Gates 16 :=
  Vector.ofFn fun k => if selects l.ranges[k].edit then .closed else g[k]

/-- R73: a STOPPED link becomes RUNNING and the slots that differ join the queue (log entry 26). -/
def State.restartLink (s : State) : State :=
  if s.linkState = .stopped then
    State.enqueueDiffering { s with linkState := .running, faultRun := 0 }
  else { s with faultRun := 0 }

/-- R79: a reset that finds the part DISABLED starts the mirror EMPTY (log entry 42). -/
def State.emptySilentMirror (s : State) : State :=
  if s.life.lifecycle = .disabled then { s with mirror := emptyMirror, mirrorShadow := .none } else s

/-- The effects of the falling edge of RST_N in ACTIVE (R53, R148, R157, R164, R73, R79, R25). That a counted
derivation's failure resolution comes after the closings and hand-ons is the model's choice (log entry 51). -/
def State.resetEffects (s : State) : State :=
  let s := s.changeDesired (closeLockOn (fun e => e.lockOn.reset) s.layout s.gates) .shown
  let s :=
    { s with
      draft := none
      verified := 0
      intent := none
      reply := none
      frameFault := false
      masks := 0 }
  s.emptySilentMirror.restartLink.abandonDerivation

/-- RST_N (R53, R143): taken at its falling edge in ACTIVE, disregarded in every other mode. -/
def execRstN (s : State) : Result :=
  event (fun s =>
    if s.rstLow then s
    else
      let s := { s with rstLow := true }
      if s.mode = .active then s.resetEffects else s) s

/-- RST_N_RISE (R157): the line is high and frames are judged again; the first of them is treated as the first since a
power-on, with no reply held and the flag clear. Without the line low there is no rise (log entry 5). -/
def execRstNRise (s : State) : Result :=
  event (fun s => if s.rstLow then { s with rstLow := false, reply := none, frameFault := false } else s) s

/-! ### STARTING and its end -/

/-- R83: the watch starts afresh at an entry to ACTIVE or AUX with the enable on. -/
def State.startBeacon (s : State) : State :=
  { s with beacon := if s.settings.beaconOn then some (freshBeacon s.settings.w s.now) else none }

/-- R88: the tamper watch runs on at the end of STARTING: a timing begins again, and the level is read. -/
def State.resumeTamper (s : State) : State := State.readTamp { s with tamper := s.tamper.retime s.now }

/-- R143: the entry to AUX at the end of STARTING. The reply and the flag stay as they are, for a VMAIN lost in STARTING
is no event of its own (R143) and R157 empties them at a loss of VMAIN (log entry 41). -/
def State.enterAux (s : State) : State := State.resumeTamper (State.startBeacon { s with mode := .aux })

/-- R56: the gates with every grant's range reopened, where it is enabled, unmarked and GOOD. -/
def reopen (l : Layout) (grants : List Grant) (g : Vector Gates 16) : Vector Gates 16 :=
  grants.foldl (fun g x => if l.ranges[x.range].usable then gatesWith g x.range x.gates else g) g

/-- R56, R152, R153: at the entry to ACTIVE every grant is consumed. -/
def State.consumeGrants (s : State) : State :=
  let consumed := s.grants.foldl (fun set x => set ||| single 16 x.range.val) 0
  let grants := s.grants
  let s := { s with grants := [], satisfied := !grants.isEmpty, report := { s.report with consumed := consumed } }
  if grants.isEmpty then s else s.changeDesired (reopen s.layout grants s.gates) .hidden

/-- R94: the report window of this entry to ACTIVE. -/
def State.openWindow (s : State) : State :=
  { s with
    window :=
      if s.life.lifecycle = .provisioned ∧ s.binding.isSome then .waiting (s.now + Config.reportWait) else .none }

/-- The entry to ACTIVE (R143, R30, R73, R77, R83, R88, R91, R94, R152); a line RST_N found low is then taken as a
falling edge. -/
def State.enterActive (s : State) : State :=
  let s := { s with mode := .active, linkState := .running, faultRun := 0, dormancyCount := 0, backoff := none }
  let s := s.setBackoff.consumeGrants.enqueueDiffering
  let s := s.startBeacon.resumeTamper.openWindow
  if s.rstLow then s.resetEffects else s

/-- R143: STARTING ends by the level of VMAIN. -/
def State.endStarting (s : State) : State :=
  let s := { s with reservoirWait := none }
  if s.vmain then s.enterActive else s.enterAux

/-- R57, R83, R142, R157: the entry to STARTING, with the reservoir wait. -/
def State.beginStarting (s : State) : State :=
  { s with
    mode := .starting
    shadow := .shown
    masks := 0
    beacon := none
    reservoirWait := some s.now }

/-- R142: the reservoir wait ends as it begins where RES_READY is true. -/
def State.endIfReady (s : State) : State := if s.resReady then s.endStarting else s

/-- R141, R142: the entry to STARTING from AUX, without a restore. -/
def State.enterStarting (s : State) : State := s.beginStarting.endIfReady

/-- RES_READY_RISE (R121, R142): a waiting erase step starts, and a reservoir wait ends. -/
def execResReadyRise (s : State) : Result :=
  event (fun s =>
    if s.resReady then s
    else
      let s := { s with resReady := true }
      let s := match s.job with
        | none => s
        | some j => if j.phase = .waiting then s.waitForStep j else s
      if s.mode = .starting ∧ s.reservoirWait.isSome then s.endStarting else s) s

/-- RESERVOIR_TIMEOUT (R142): 80 ms from the start of the wait. -/
def execReservoirTimeout (s : State) : Result :=
  event (fun s =>
    s.atMoment? (s.reservoirWait.map fun t => t + Config.reservoirLimit) fun s =>
      (s.latch .reservoirShort).endStarting) s

/-! ### Power-on and restore -/

/-- The copies of a set, those found failing their checks marked so. -/
def TwoCopies.found {α : Type} (t : TwoCopies α) : Bool → Bool → TwoCopies α
  | true, true => ⟨t.a.broken, t.b.broken⟩
  | true, false => t.fail .a
  | false, true => t.fail .b
  | false, false => t

/-- What a power-on finds failing its check (log entry 10). -/
def damaged (d : StoreDamage) (n : Nvs) : Nvs :=
  { n with
    settings := if d.settings then n.settings.broken else n.settings
    lifecycle := n.lifecycle.found d.lifecycleA d.lifecycleB }

/-- R140 stage 2, R168: the stored settings record as the blocks use it. -/
def State.restoreSettings (s : State) : State :=
  if s.nvs.settings.good then { s with settings := s.nvs.settings.record }
  else State.latch .settingsDefaulted { s.writeSettings .defaults with policyDefaulted := true }

/-- R1: every set as a restore takes it. -/
def State.restoreSets (s : State) : State :=
  let n := s.nvs.settled
  { s with
    nvs := n
    life := n.lifecycle.taken
    cells := n.cells.taken
    cred := n.credentials.taken
    layout := n.layout.taken
    binding := n.binding.taken
    evid := n.evidence.taken }

/-- Some cell is HOLDING (R16). -/
def anyHolding (cells : Vector Cell 26) : Bool :=
  cells.toList.any fun c => match c with
    | .holding _ => true
    | .blank => false
    | .faulted => false

/-- The FAULTED cells, ascending (R16). -/
def faultedCells (cells : Vector Cell 26) : List (Fin 26) :=
  (List.finRange 26).filter fun c => cells[c] = .faulted

/-- R16: the commit of a part that lost its lifecycle record; a rise to WIPE latches STAGE_RISE (R104). -/
def State.lifecycleLost (s : State) : State :=
  let rises := s.evid.stage != .wipe
  let wiping (next : Fin 27) (faults : List (Fin 26)) : State :=
    { s with
      life := ⟨.wiping, some ⟨next, faults⟩⟩
      evid := Evidence.append s.seconds .wipeStart 0 s.evid.score .wipe { s.evid with stage := .wipe } }
  let s :=
    if s.cells[(0 : Fin 26)] ≠ .faulted then wiping 0 []
    else if anyHolding s.cells then wiping 1 [0]
    else
      { s with
        life := ⟨.disabled, some ⟨26, faultedCells s.cells⟩⟩
        evid := { s.evid with stage := .wipe } }
  let s := s.commit [.lifecycle, .evidence]
  if rises then s.latch .stageRise else s

/-- R28: a set open-attempt marker is settled as a failure resolution; no deadline is set. -/
def State.resolveMarker (s : State) : State :=
  if s.cred.openAttempt then { s.failureResolution with backoff := none } else s

/-- R15: WIPING: the wipe goes on from the journal's next cell. -/
def State.resumeWipe (s : State) : State :=
  let detail := match s.life.journal with
    | none => none
    | some j => if j.next.val = 0 then none else some (j.next.val - 1)
  { s with wipeOp := .start .wipe detail s.millis, wipeClaim := true }

/-- R15: what the restore does by the restored lifecycle state. -/
def State.restoreActions (s : State) : State :=
  match s.life.lifecycle with
  | .unprovisioned => s
  | .provisioned =>
    let s := s.resolveMarker
    if s.life.lifecycle = .provisioned then s.startLayout .startup else s
  | .wiping => s.resumeWipe.resolveMarker
  | .disabled => s

/-- R140 stage 3. -/
def State.restore (s : State) : State :=
  let s := s.restoreSets
  (if s.nvs.lifecycle.anyGood then s else s.lifecycleLost).restoreActions

/-- R88: the tamper state at a power-on from OFF. -/
def State.startTamper (s : State) : State :=
  { s with tamper := if s.settings.tamperCode = 0 then .off else .armed }

/-- R140: the engine begins a job as soon as the restore hands it a claim. -/
def State.grantIfReady (s : State) : State := if s.grantReady then s.grantJob else s

/-- R140: a power-on from OFF, stage by stage, to the reservoir wait or the end of STARTING. The frames held through the
restore stages are answered at their end (R156, R157), before a reservoir wait that ends as it begins ends STARTING
(log entry 49). -/
def State.powerOn (vmain vaux : Bool) (r : Restore) (s : State) : State :=
  let s :=
    { s.enterOff with
      nvs := damaged r.damage s.nvs
      now := s.nvs.seconds * Config.second
      mode := .starting
      vmain := vmain
      vaux := vaux }
  let s := s.restoreSettings.startTamper.restore.grantIfReady.reevaluate.beginStarting
  (r.held.foldl State.answerHeld s).endIfReady

/-- No part of the store fails its check. -/
def noDamage : StoreDamage := ⟨false, false, false⟩

/-- A restore that meets neither damage nor a frame. -/
def plainRestore : Restore := ⟨noDamage, []⟩

/-- POWER_ON (R139, R140): one supply or both become good in OFF. -/
def execPowerOn (vmain vaux : Bool) (r : Restore) (s : State) : Result :=
  event (fun s => if s.mode = .off ∧ (vmain ∨ vaux) then s.powerOn vmain vaux r else s) s

/-! ### Losses and returns -/

/-- R149: a grant for each open, resume-eligible range, listed in ascending range order (log entry 46). -/
def State.grantsFor (i : Intent) (s : State) : List Grant :=
  allRanges.filterMap fun (k : Fin 16) =>
    if s.gates[k].anyOpen ∧ s.layout.ranges[k].edit.resumeEligible then
      some ⟨k, s.gates[k], s.now + i.hold * Config.minute⟩
    else none

/-- R144, R54, R55, R9: a live intent gives the grants and closes every gate; without one the POWER lock-on ranges
close. The root copy stays only beside a grant. -/
def State.takeGrants (s : State) : State :=
  match s.intent with
  | some i =>
    let grants := s.grantsFor i
    { s with
      intent := none
      grants := grants
      gates := allClosed
      rootCopy := if grants.isEmpty then none else s.rootCopy
      report := { s.report with taken := grants.length, dropCause := none } }
  | none =>
    { s with
      gates := closeLockOn (fun e => e.lockOn.power) s.layout s.gates
      rootCopy := none
      report := { s.report with taken := 0, dropCause := none } }

/-- R76: the engine has lost its power; no pulse, and one in progress ends. -/
def State.emptyEngine (s : State) : State :=
  { s with mirror := emptyMirror, mirrorShadow := .none, queue := [], inFlight := none, kpurge := none }

/-- R144: the loss of VMAIN with VAUX good: into AUX. `settleFirst`: the failure resolution of a derivation in flight
is taken before the grant-taking. -/
def State.loseMain (settleFirst : Bool) (s : State) : State :=
  let s := State.emptyEngine { s with mode := .aux, vmain := false }
  let s := if settleFirst then s.abandonDerivation else s
  let s := s.takeGrants
  let s :=
    { s with
      draft := none
      verified := 0
      window := .none
      dormancyCount := 0
      satisfied := false
      reply := none
      frameFault := false }
  let s := s.startBeacon
  if settleFirst then s else s.abandonDerivation

/-- A level of VMAIN during STARTING (R143); with both supplies lost the part is OFF (R139). Else only the level changes:
the reply and the previous-frame-fault flag stay (log entry 41). -/
def State.mainInStarting (good : Bool) (s : State) : State :=
  if good || s.vaux then { s with vmain := good } else s.enterOff

/-- VMAIN_LOSS (R144, R139). -/
def execVmainLoss (settleFirst : Bool) (s : State) : Result :=
  event (fun s =>
    match s.mode with
    | .active => if s.vaux then s.loseMain settleFirst else s.enterOff
    | .starting => s.mainInStarting false
    | .aux => s
    | .off => s) s

/-- VMAIN_RETURN (R141): in AUX the part enters STARTING without a restore; in OFF it is a power-on (log entry
31). -/
def execVmainReturn (s : State) : Result :=
  event (fun s =>
    match s.mode with
    | .aux => State.enterStarting { s with vmain := true }
    | .starting => s.mainInStarting true
    | .active => s
    | .off => s.powerOn true false plainRestore) s

/-- VMAIN_CHANGE_DURING_STARTING (R143): only the reading at the end of STARTING counts. -/
def execVmainChangeDuringStarting (good : Bool) (s : State) : Result :=
  event (fun s => if s.mode = .starting then s.mainInStarting good else s) s

/-- VAUX_LOSS (R139): nothing in ACTIVE; AUX, and STARTING without VMAIN, lose everything. -/
def execVauxLoss (s : State) : Result :=
  event (fun s =>
    if s.mode = .off then s
    else if s.mode ≠ .aux ∧ s.vmain then { s with vaux := false }
    else s.enterOff) s

/-- VAUX_RETURN (R139): nothing but the level; in OFF it is a power-on (log entry 31). -/
def execVauxReturn (s : State) : Result :=
  event (fun s => if s.mode = .off then s.powerOn false true plainRestore else { s with vaux := true }) s

/-- FULL_POWER_LOSS (R146): both supplies together. `cut` names the write of the command before that power failed in
(R1, R168; log entry 9). -/
def execFullPowerLoss (cut : Option Cut) (s : State) : Result :=
  .next
    (if s.mode = .off then s.begin
     else State.enterOff { s with nvs := s.nvsAfterLoss cut })

/-! ### SUSPEND, intent and grants -/

/-- R147, R55: the intent is recorded, and the SUSPEND lock-on ranges that are not resume-eligible close. -/
def State.takeSuspend (hold : Nat) (s : State) : State :=
  let s := { s with intent := some ⟨hold, s.now + Config.intentLife⟩ }
  s.changeDesired (closeLockOn (fun e => e.lockOn.suspend && !e.resumeEligible) s.layout s.gates) s.shadow

/-- SUSPEND (R147): the reply gives the clamped hold, 30 and the level of VAUX. -/
def execSuspend (tag : Byte) (body : Bytes) (s : State) : Result :=
  request .suspend tag body (fun s =>
    if !s.resumeAuthority then refuse .notPermitted s
    else if s.evid.stage ≠ .calm then refuse .wrongState s
    else match body with
      | [b] =>
        let hold := clamp 1 s.settings.maxHold b.toNat
        ⟨.done, be 1 hold ++ be 1 (Config.intentLife / Config.second) ++ [flag s.vaux], s.takeSuspend hold⟩
      | _ => refuse .badValue s) s

/-- INTENT_EXPIRY (R148). -/
def execIntentExpiry (s : State) : Result :=
  event (fun s => s.atMoment? (s.intent.map Intent.expiry) fun s => { s with intent := none }) s

/-- R151: every grant that carries this expiry is dropped. -/
def State.dropExpired (t : Micros) (s : State) : State :=
  let rest := s.grants.filter fun g => g.expiry ≠ t
  if rest.isEmpty then s.dropGrants .expiry else { s with grants := rest }

/-- GRANT_EXPIRY (R151): counted in AUX and in STARTING, where alone grants stand. -/
def execGrantExpiry (s : State) : Result :=
  event (fun s =>
    match s.grants with
    | [] => s
    | g :: _ => s.atMoment g.expiry (State.dropExpired g.expiry)) s

end Sys2Proof.Machine
end

