-- ==== Sys2Proof/Machine/Dispatch.lean ====
section
/-! DEFINITION. One arm per command: each calls its meaning. -/

namespace Sys2Proof.Machine

def exec (i : Instr) (s : State) : Host.Outcome State Fault Refusal :=
  match i with
  | .identify tag body => Sys2Proof.Machine.execIdentify tag body s
  | .status tag body => Sys2Proof.Machine.execStatus tag body s
  | .flags tag body => Sys2Proof.Machine.execFlags tag body s
  | .mask tag body => Sys2Proof.Machine.execMask tag body s
  | .opstate tag body => Sys2Proof.Machine.execOpstate tag body s
  | .readPolicy tag body => Sys2Proof.Machine.execReadPolicy tag body s
  | .provision tag body => Sys2Proof.Machine.execProvision tag body s
  | .wipe tag body => Sys2Proof.Machine.execWipe tag body s
  | .verify tag body => Sys2Proof.Machine.execVerify tag body s
  | .enroll tag body => Sys2Proof.Machine.execEnroll tag body s
  | .remove tag body => Sys2Proof.Machine.execRemove tag body s
  | .suspendSlot tag body => Sys2Proof.Machine.execSuspendSlot tag body s
  | .restoreSlot tag body => Sys2Proof.Machine.execRestoreSlot tag body s
  | .changeSecret tag body => Sys2Proof.Machine.execChangeSecret tag body s
  | .draftRange tag body => Sys2Proof.Machine.execDraftRange tag body s
  | .readRanges tag body => Sys2Proof.Machine.execReadRanges tag body s
  | .applyLayout tag body => Sys2Proof.Machine.execApplyLayout tag body s
  | .rekey tag body => Sys2Proof.Machine.execRekey tag body s
  | .unlock tag body => Sys2Proof.Machine.execUnlock tag body s
  | .lock tag body => Sys2Proof.Machine.execLock tag body s
  | .lockAll tag body => Sys2Proof.Machine.execLockAll tag body s
  | .prebootDone tag body => Sys2Proof.Machine.execPrebootDone tag body s
  | .setPolicy tag body => Sys2Proof.Machine.execSetPolicy tag body s
  | .readScore tag body => Sys2Proof.Machine.execReadScore tag body s
  | .readTrail tag body => Sys2Proof.Machine.execReadTrail tag body s
  | .standDown tag body => Sys2Proof.Machine.execStandDown tag body s
  | .bindPlatform tag body => Sys2Proof.Machine.execBindPlatform tag body s
  | .platformReport tag body => Sys2Proof.Machine.execPlatformReport tag body s
  | .suspend tag body => Sys2Proof.Machine.execSuspend tag body s
  | .unknownKind code tag body => Sys2Proof.Machine.execUnknownKind code tag body s
  | .badFrame frame => Sys2Proof.Machine.execBadFrame frame s
  | .provisionComplete => Sys2Proof.Machine.execProvisionComplete s
  | .verifyComplete => Sys2Proof.Machine.execVerifyComplete s
  | .enrollComplete => Sys2Proof.Machine.execEnrollComplete s
  | .changeOldComplete => Sys2Proof.Machine.execChangeOldComplete s
  | .changeNewComplete => Sys2Proof.Machine.execChangeNewComplete s
  | .backoffDeadline => Sys2Proof.Machine.execBackoffDeadline s
  | .syncCompare => Sys2Proof.Machine.execSyncCompare s
  | .klAck klRes => Sys2Proof.Machine.execKlAck klRes s
  | .ackTimeout => Sys2Proof.Machine.execAckTimeout s
  | .kpurgeFall => Sys2Proof.Machine.execKpurgeFall s
  | .presRisingEdge => Sys2Proof.Machine.execPresRisingEdge s
  | .beaconLost dropFirst => Sys2Proof.Machine.execBeaconLost dropFirst s
  | .tampChange isOpen => Sys2Proof.Machine.execTampChange isOpen s
  | .tamperDeglitchEnd dropFirst => Sys2Proof.Machine.execTamperDeglitchEnd dropFirst s
  | .dormant => Sys2Proof.Machine.execDormant s
  | .reportWindowDeadline => Sys2Proof.Machine.execReportWindowDeadline s
  | .decayTick => Sys2Proof.Machine.execDecayTick s
  | .arbiterGrant => Sys2Proof.Machine.execArbiterGrant s
  | .resReadyRise => Sys2Proof.Machine.execResReadyRise s
  | .resReadyFall => Sys2Proof.Machine.execResReadyFall s
  | .driverAnswer => Sys2Proof.Machine.execDriverAnswer s
  | .passStuck => Sys2Proof.Machine.execPassStuck s
  | .passEnd => Sys2Proof.Machine.execPassEnd s
  | .verifyResult reading => Sys2Proof.Machine.execVerifyResult reading s
  | .powerOn vmain vaux restore => Sys2Proof.Machine.execPowerOn vmain vaux restore s
  | .reservoirTimeout => Sys2Proof.Machine.execReservoirTimeout s
  | .vmainLoss settleFirst => Sys2Proof.Machine.execVmainLoss settleFirst s
  | .vmainReturn => Sys2Proof.Machine.execVmainReturn s
  | .fullPowerLoss cut => Sys2Proof.Machine.execFullPowerLoss cut s
  | .intentExpiry => Sys2Proof.Machine.execIntentExpiry s
  | .grantExpiry => Sys2Proof.Machine.execGrantExpiry s
  | .rstN => Sys2Proof.Machine.execRstN s
  | .presFallingChange level => Sys2Proof.Machine.execPresFallingChange level s
  | .vauxLoss => Sys2Proof.Machine.execVauxLoss s
  | .vauxReturn => Sys2Proof.Machine.execVauxReturn s
  | .vmainChangeDuringStarting good => Sys2Proof.Machine.execVmainChangeDuringStarting good s
  | .rstNRise => Sys2Proof.Machine.execRstNRise s

end Sys2Proof.Machine
end

