-- ==== Sys2Proof/WellFormed.lean ====
section
/-! DEFINITION. The commands that spell what their row of the table says; what the part makes of an ill-formed one is
in log entries 5, 9 and 33. -/

namespace Sys2Proof

namespace Machine

/-- The kind, tag and body of a command that is a request frame; none for the other commands. -/
def requestOf : Instr → Option (Kind × Byte × Bytes)
  | .identify tag body => some (.identify, tag, body)
  | .status tag body => some (.status, tag, body)
  | .flags tag body => some (.flags, tag, body)
  | .mask tag body => some (.mask, tag, body)
  | .opstate tag body => some (.opstate, tag, body)
  | .readPolicy tag body => some (.readPolicy, tag, body)
  | .provision tag body => some (.provision, tag, body)
  | .wipe tag body => some (.wipe, tag, body)
  | .verify tag body => some (.verify, tag, body)
  | .enroll tag body => some (.enroll, tag, body)
  | .remove tag body => some (.remove, tag, body)
  | .suspendSlot tag body => some (.suspendSlot, tag, body)
  | .restoreSlot tag body => some (.restoreSlot, tag, body)
  | .changeSecret tag body => some (.changeSecret, tag, body)
  | .draftRange tag body => some (.draftRange, tag, body)
  | .readRanges tag body => some (.readRanges, tag, body)
  | .applyLayout tag body => some (.applyLayout, tag, body)
  | .rekey tag body => some (.rekey, tag, body)
  | .unlock tag body => some (.unlock, tag, body)
  | .lock tag body => some (.lock, tag, body)
  | .lockAll tag body => some (.lockAll, tag, body)
  | .prebootDone tag body => some (.prebootDone, tag, body)
  | .setPolicy tag body => some (.setPolicy, tag, body)
  | .readScore tag body => some (.readScore, tag, body)
  | .readTrail tag body => some (.readTrail, tag, body)
  | .standDown tag body => some (.standDown, tag, body)
  | .bindPlatform tag body => some (.bindPlatform, tag, body)
  | .platformReport tag body => some (.platformReport, tag, body)
  | .suspend tag body => some (.suspend, tag, body)
  | _ => none

end Machine

/-- A request's body fits a frame (R155). An unknown kind's code names no kind (R159). A faulty frame is one (R155). A
power-on has a supply (R139), and what it holds is a request or a fault (R154, R156). The copy that was being written was not completed, and a second writing comes after every
first one (R1). -/
def Instr.wellFormed (i : Instr) : Bool :=
  match Machine.requestOf i with
  | some (_, _, body) => body.length ≤ 240
  | none =>
    match i with
    | .unknownKind code _ body => body.length ≤ 240 && (Machine.kindOf code).isNone
    | .badFrame frame => Machine.judgeFrame frame == .fault
    | .powerOn vmain vaux restore =>
      (vmain || vaux) && restore.held.all fun f => Machine.judgeFrame f != .empty && Machine.judgeFrame f != .read
    | .fullPowerLoss (some cut) =>
      (cut.failing.all fun id => !cut.completed.contains id) && (cut.rewritten.isNone || cut.failing.isNone)
    | _ => true

end Sys2Proof
end

