-- ==== Sys2Proof/Safety.lean ====
section
/-! DEFINITION. The terms claims are stated in: the laws that every step keeps, and short names for what a request
meets and leaves. -/

namespace Sys2Proof.Machine

/-! ### Laws of the state -/

/-- R64, R74, R76, R73, R142: the sync queue never holds a slot twice nor the slot in flight; out of ACTIVE the link is
idle, its queue empty in STARTING by log entry 22; no transfer is in flight while KPURGE is high or the link is STOPPED;
the reservoir wait runs in STARTING alone. -/
def State.LinkLaw (s : State) : Prop :=
  s.queue.Nodup
    ∧ (∀ f ∈ s.inFlight, f.slot ∉ s.queue)
    ∧ (s.mode ≠ .active → s.queue = [] ∧ s.inFlight = none ∧ s.kpurge = none)
    ∧ (s.kpurge.isSome → s.inFlight = none)
    ∧ (s.linkState = .stopped → s.inFlight = none)
    ∧ (s.reservoirWait.isSome → s.mode = .starting)

/-- R99: the stage is WIPE exactly when the lifecycle is WIPING or DISABLED. -/
def State.StageLaw (s : State) : Prop :=
  s.evid.stage = .wipe ↔ (s.life.lifecycle = .wiping ∨ s.life.lifecycle = .disabled)

/-- R68: a LOAD, a GATES or a SHADOW-hidden transfer. -/
def Transfer.gives : Transfer → Bool
  | .load _ _ _ _ _ => true
  | .gates _ _ => true
  | .clear _ => false
  | .shadow view _ => view == .hidden

/-- R38, R57, R68, R108: while the stage is LOCKDOWN or WIPE, or the lifecycle WIPING or DISABLED, every gate is CLOSED,
the shadow is desired shown, no grant and no intent stands, and nothing that gives access is in flight. -/
def State.WithdrawnLaw (s : State) : Prop :=
  s.restricted →
    s.gates = allClosed ∧ s.shadow = .shown ∧ s.grants = [] ∧ s.intent = none
      ∧ ∀ f ∈ s.inFlight, f.transfer.gives = false

/-- R148 to R150: an intent stands only in ACTIVE and CALM, grants only in AUX and STARTING and CALM, at most one for a
range and each with a gate OPEN. -/
def State.GrantLaw (s : State) : Prop :=
  (s.intent.isSome → s.mode = .active ∧ s.evid.stage = .calm)
    ∧ (s.grants ≠ [] → (s.mode = .aux ∨ s.mode = .starting) ∧ s.evid.stage = .calm)
    ∧ (s.grants.map Grant.range).Nodup
    ∧ ∀ g ∈ s.grants, g.gates.anyOpen

/-- A gate of `g` is OPEN that `h` holds CLOSED. -/
def Gates.exceed (g h : Gates) : Bool := (g.read && !h.read) || (g.write && !h.write)

/-- The gates that a transfer leaves in a range's mirror record when it is accepted (R71). -/
def Transfer.leaves : Transfer → Option (Fin 16 × Gates)
  | .load k _ g _ _ => some (k, g)
  | .gates k g => some (k, g)
  | .clear k => some (k, .closed)
  | .shadow _ _ => none

/-- R80: while the range table holds a gate closed, the mirror shows it open only while the slot is queued or in flight;
with what carries the law from step to step: a transfer in flight is that of its slot, and one that would leave a gate
open that is now closed carries the rejoin mark (R64); an EMPTY or LOADING record's gates are CLOSED (R62); out of
ACTIVE every range record is EMPTY (R76). -/
def State.MirrorLaw (s : State) : Prop :=
  (∀ k : Fin 16, s.life.lifecycle ≠ .disabled → s.mirror[k].gates.exceed s.gates[k] →
      rangeSlot k ∈ s.queue ∨ ∃ f ∈ s.inFlight, f.slot = rangeSlot k)
    ∧ (∀ f ∈ s.inFlight, (f.transfer.leaves.map fun x => x.1) = slotRange f.slot)
    ∧ (∀ f ∈ s.inFlight, ∀ x ∈ f.transfer.leaves, x.2.exceed s.gates[x.1] → f.rejoin = true)
    ∧ (∀ k : Fin 16, (s.mirror[k].state = .empty ∨ s.mirror[k].state = .loading) → s.mirror[k].gates = .closed)
    ∧ (s.mode ≠ .active → s.mirror = emptyMirror)

/-- R19, R25, R26, R2: a derivation is in flight only in ACTIVE; that of PROVISION only in UNPROVISIONED, the others
only in PROVISIONED. -/
def State.DerivationLaw (s : State) : Prop :=
  ∀ d ∈ s.derivation, s.mode = .active ∧
    s.life.lifecycle = (match d.work with
      | .provision _ _ => .unprovisioned
      | .verify => .provisioned
      | .enroll _ _ => .provisioned
      | .changeOld _ => .provisioned
      | .changeNew _ => .provisioned)

/-- R127, R136: the WIPE claim stands only in WIPING, and a WIPE job only beside the claim. -/
def State.ClaimLaw (s : State) : Prop :=
  (s.wipeClaim = true → s.life.lifecycle = .wiping)
    ∧ ∀ j ∈ s.job, j.owner = .wipe → s.wipeClaim = true

/-- R12, R15, R136: in WIPING the journal names one of the 26 cells as next, and a WIPE job works the cell it names. -/
def State.JournalLaw (s : State) : Prop :=
  (s.life.lifecycle = .wiping → ∃ j, s.life.journal = some j ∧ j.next.val < 26)
    ∧ ∀ job ∈ s.job, job.owner = .wipe → ∃ j, s.life.journal = some j ∧ j.next.val = job.cell.val

/-- The laws that rule out the states no run reaches, as far as the statements need it. -/
def State.Lawful (s : State) : Prop :=
  s.LinkLaw ∧ s.WithdrawnLaw ∧ s.GrantLaw ∧ s.MirrorLaw ∧ s.DerivationLaw ∧ s.ClaimLaw

/-- R98, R118: S within 0 to 4095, at most 24 entries whose times never decrease, an append count within 16 bits. -/
def Evidence.Bounded (e : Evidence) : Prop :=
  e.score ≤ 4095 ∧ e.trail.length ≤ 24 ∧ e.appended ≤ 65535
    ∧ e.trail.Pairwise fun x y => x.time ≤ y.time

/-- R98, R118, R20: the bounds in both copies of the sets that carry them. -/
def Nvs.Bounded (n : Nvs) : Prop :=
  n.evidence.a.content.Bounded ∧ n.evidence.b.content.Bounded
    ∧ n.credentials.a.content.failures ≤ 255 ∧ n.credentials.b.content.failures ≤ 255

/-- R98, R118, R20, R73: the bounds of S, the trail, C and the fault run, in the state and in every store a power loss
can leave. -/
def State.BoundsLaw (s : State) : Prop :=
  s.evid.Bounded ∧ s.cred.failures ≤ 255 ∧ s.faultRun ≤ 3 ∧ s.nvs.Bounded
    ∧ ∀ w ∈ s.writeImages, w.before.Bounded

/-- R120 to R124, R130: round 1 or 2, fewer than 3 stuck passes in a row, a pass only below P good ones, a verify at P,
WRITE only in a LAYOUT job on a range's cell. -/
def Job.Lawful (j : Job) : Prop :=
  (j.round = 1 ∨ j.round = 2) ∧ j.stuckRun < 3 ∧ j.good ≤ j.p ∧ 0 < j.p
    ∧ (∀ start answered stuck, j.phase = .pass start answered stuck → j.good < j.p ∧ ¬(answered ∧ stuck))
    ∧ (∀ start, j.phase = .verify start → j.good = j.p)
    ∧ (∀ committed, j.phase = .write committed → j.owner = .layout ∧ (cellRange j.cell).isSome)

/-- R115, R168, R120: the pass count is not 0, neither in the policy in use nor in a settings record of the store, as it
stands or as a cut could leave it. -/
def State.PassLaw (s : State) : Prop :=
  0 < s.settings.p ∧ 0 < s.nvs.settings.record.p ∧ ∀ w ∈ s.writeImages, 0 < w.before.settings.record.p

/-! ### Names for statements -/

/-- The part judges and answers requests of a kind: ACTIVE, RST_N high, the kind admitted (R157, R159 steps 1 to
4). -/
def State.Admits (k : Kind) (s : State) : Prop :=
  s.mode = .active ∧ s.rstLow = false ∧ s.life.lifecycle.admits k = true

/-- The state with the reply of a request in the buffer, built from it, and the previous-frame-fault flag clear (R155,
R156, R158). -/
def State.replied (k : Kind) (tag : Byte) (code : ReplyCode) (body : Bytes) (s : State) : State :=
  { s with
    reply := some (replyBytes k.code tag code s.summary body)
    frameFault := false }

/-- A slot index as its byte. -/
def slotByte (k : Fin 8) : Byte := BitVec.ofNat 8 k.val

/-- A range index as its byte. -/
def rangeByte (k : Fin 16) : Byte := BitVec.ofNat 8 k.val

/-- The state at the moment a timed event acts: powered time has run on to it (log entry 4). -/
def State.reaching (t : Micros) (s : State) : State := s.begin.runTo t

/-! ### The store -/

/-- What a restore takes from the store, set by set (R1). -/
structure Contents where
  life : LifecycleRecord
  cells : Vector Cell 26
  cred : CredentialTable
  layout : Layout
  binding : Option Bytes
  evid : Evidence
  deriving DecidableEq, Repr

/-- The contents a restore takes from a store (R1). -/
def Nvs.contents (n : Nvs) : Contents :=
  let n := n.settled
  ⟨n.lifecycle.taken, n.cells.taken, n.credentials.taken, n.layout.taken, n.binding.taken, n.evidence.taken⟩

/-- The working contents of a state. -/
def State.contents (s : State) : Contents := ⟨s.life, s.cells, s.cred, s.layout, s.binding, s.evid⟩

/-- Every set has a good copy, and no list names a number above its set's, nor a number below 3 of a set about to pass its
last number: a store that no cut commit has left behind (R1). -/
def Nvs.Whole (n : Nvs) : Prop :=
  ∀ id : SetId, n.anyGood id
    ∧ ∀ x ∈ n.takenCommits id, x.2 ≤ n.takenSeq x.1 ∧ (3 ≤ x.2 ∨ n.takenSeq x.1 < 4294967293)

/-- Every set is far from its last sequence number (R1). -/
def Nvs.Early (n : Nvs) : Prop := ∀ id : SetId, n.takenSeq id < 4294967000

/-- R1, R168: the store is whole, a restore would take from it what the blocks use, and the settings record stands there
with its check. -/
def State.StoreLaw (s : State) : Prop :=
  s.nvs.Whole ∧ s.nvs.contents = s.contents ∧ s.nvs.settings = .of s.settings

/-- R99, of what a restore takes from a store. -/
def Nvs.StageLaw (n : Nvs) : Prop :=
  n.contents.evid.stage = .wipe ↔ (n.contents.life.lifecycle = .wiping ∨ n.contents.life.lifecycle = .disabled)

end Sys2Proof.Machine
end

