-- ==== Sys2Proof/Certificates/Slice0/Obligations.lean ====
section
/-! DEFINITION. The statements for the provers. Each says what a command does by the rules it cites; a command's next
state is given whole, so that what it leaves unchanged is said with it. -/

open Sys2Proof Sys2Proof.Machine

/-! ### The queue and the step -/

/-- Each command is one step, whole and indivisible (spec 95, What each step holds). The queue of waiting commands is
the model's own (log entry 29): a step takes the one at its front, and it acts on the state with the queue's rest. -/
def Obligations.StepRunsTheFrontCommand : Prop :=
  ∀ (c : Instr) (rest : List Instr) (s : State),
    s.pending = c :: rest → step s = exec c { s with pending := rest }

/-- The model's choice (log entry 3): with no command waiting, a microsecond passes unless the part is OFF or something
is due. R170, R90, R111: where powered time runs on to a moment, the dormancy count runs with it while COUNTING and the
decay count while RUNNING; a moment already past leaves it where it is (log entry 4). -/
def Obligations.EmptyQueuePassesAMicrosecond : Prop :=
  (∀ s : State, s.pending = [] →
    (s.mode ≠ .off → (∀ t ∈ s.begin.moments, s.now < t) → step s = .next (s.reaching (s.now + 1)))
      ∧ ((s.mode = .off ∨ ∃ t ∈ s.begin.moments, t ≤ s.now) → step s = .next s.begin))
  ∧
  (∀ (t : Micros) (s : State),
      s.reaching t =
        { s.begin with
          now := max s.now t
          dormancyCount := s.dormancyCount + if s.dormancyState = .counting then t - s.now else 0
          decayCount := s.decayCount + if s.decayState = .running then t - s.now else 0 }
      ∧ s.begin = { s with writeImages := [] })

/-- No command stops the part, and none touches the queue of commands. That a command which cannot arise in the present
state is disregarded, and so answers a next state too, is the model's choice (log entry 5, DESIGN CHOICE). -/
def Obligations.EveryCommandAnswersANextState : Prop :=
  ∀ (c : Instr) (s : State), ∃ t : State, exec c s = .next t ∧ t.pending = s.pending

/-! ### Frames and the check order -/

/-- A request frame as section 9.1 lays it out is judged as the request it carries; every reply's bytes are the fields
of section 9.1 with the codes of section 10.1, those of the 29 request kinds among them, they sum to 0 modulo 256, and
its length is 8 and the body's. A number is sent most significant byte first (section 10). A transfer on KL_D carries
the fields of section 10.6, and its bytes sum to 0 modulo 256. R174, R70, R74: a step that starts a transfer clocks out
its bits, most significant first, and no other step clocks any; KL_CLK and KL_D are low in every state, as between
transfers, in AUX and in DISABLED, which for the wait on the engine's answer is the model's reading (log entry 47). -/
def Obligations.FramesCarryTheirFields : Prop :=
  (∀ (kind tag : Byte) (body : Bytes), body.length ≤ 240 →
      judgeFrame ⟨requestFrame kind tag body, []⟩ = .request kind tag body)
  ∧
  (∀ (kind tag : Byte) (code : ReplyCode) (summary : Nat) (body : Bytes),
      byteSum (replyBytes kind tag code summary body) % 256 = 0
        ∧ (replyBytes kind tag code summary body).length = body.length + 8
        ∧ (replyBytes kind tag code summary body).dropLast =
          [kind, tag, code.code] ++ be 2 summary ++ be 2 body.length ++ body)
  ∧
  ([ReplyCode.done, .started, .busy, .notReady, .wrongState, .notPermitted, .tooSoon, .badValue, .overlap, .badFrame,
      .unknownKind].map ReplyCode.code = [0, 1, 2, 3, 4, 5, 6, 7, 8, 9, 10]
    ∧ (let kinds : List Kind :=
          [.identify, .status, .flags, .mask, .opstate, .readPolicy, .provision, .wipe, .verify, .enroll, .remove,
            .suspendSlot, .restoreSlot, .changeSecret, .draftRange, .readRanges, .applyLayout, .rekey, .unlock, .lock,
            .lockAll, .prebootDone, .setPolicy, .readScore, .readTrail, .standDown, .bindPlatform, .platformReport,
            .suspend]
      kinds.map Kind.code =
          [0x01, 0x02, 0x03, 0x04, 0x05, 0x06, 0x10, 0x11, 0x20, 0x21, 0x22, 0x23, 0x24, 0x25, 0x30, 0x31, 0x32, 0x33,
            0x34, 0x35, 0x36, 0x37, 0x40, 0x41, 0x42, 0x43, 0x44, 0x45, 0x50]
        ∧ ∀ k : Kind, k ∈ kinds)
    ∧ (∀ width n, (be width n).length = width ∧ ofBe (be width n) = n % 256 ^ width)
    ∧ ofBe [] = 0 ∧ ∀ (bytes : Bytes) (b : Byte), ofBe (bytes ++ [b]) = ofBe bytes * 256 + b.toNat)
  ∧
  (∀ t : Transfer, byteSum t.bytes % 256 = 0
      ∧ t.bytes.dropLast = match t with
        | .load k key g response (.span x) =>
          [0x01, rangeByte k] ++ key ++ [flag g.read, flag g.write, response.code]
            ++ be 6 x.start ++ be 6 x.length
        | .load k key g response (.wholeDrive capacity spans) =>
          [0x01, rangeByte k] ++ key ++ [flag g.read, flag g.write, response.code]
            ++ be 6 capacity ++ be 1 spans.length ++ spans.flatMap fun x => be 6 x.start ++ be 6 x.length
        | .gates k g => [0x02, rangeByte k, flag g.read, flag g.write]
        | .clear k => [0x03, rangeByte k]
        | .shadow view length => [0x04, 16, view.code] ++ be 2 length)
  ∧
  (∀ t : Transfer, t.bits.length = 8 * t.bytes.length
      ∧ ∀ i, i < 8 * t.bytes.length → t.bits[i]? = (t.bytes[i / 8]?).map fun b => b.getLsbD (7 - i % 8))
  ∧
  (∀ before after : State,
      (before.inFlight = none → ∀ f, after.inFlight = some f → clockedOnKlD before after = f.transfer.bits)
      ∧ ((before.inFlight ≠ none ∨ after.inFlight = none) → clockedOnKlD before after = []))
  ∧
  (∀ s : State, s.keyLinkLines = ⟨s.inFlight.isSome, s.kpurge.isSome, false, false⟩)

/-- R2, R159 steps 3 and 4, R154, R155, R157: what becomes of a request that the check order stops before its owner;
and the kinds that each lifecycle state admits. -/
def Obligations.RequestsStoppedBeforeTheirOwner : Prop :=
  (∀ k : Kind,
      (Lifecycle.unprovisioned.admits k = true ↔
        k ∈ [Kind.identify, .status, .flags, .mask, .opstate, .readTrail, .readScore, .readPolicy, .setPolicy, .provision])
      ∧ (Lifecycle.provisioned.admits k = true ↔ k ≠ .provision)
      ∧ (Lifecycle.wiping.admits k = true ↔
        k ∈ [Kind.identify, .status, .flags, .mask, .opstate, .readTrail, .readScore, .readPolicy])
      ∧ (Lifecycle.disabled.admits k = true ↔ k ∈ [Kind.identify, .status, .flags, .opstate, .readTrail]))
  ∧
  ∀ (c : Instr) (k : Kind) (tag : Byte) (body : Bytes) (s : State),
    requestOf c = some (k, tag, body) →
      (s.mode = .starting → s.rstLow = false → body.length ≤ 240 → k ≠ .identify → k ≠ .status →
        exec c s = .next (s.begin.replied k tag .notReady []))
      ∧ (s.mode = .active → s.rstLow = false → body.length ≤ 240 → s.life.lifecycle.admits k = false →
        exec c s = .next (s.begin.replied k tag .wrongState []))
      ∧ (s.judgesFrames = true → 240 < body.length →
        exec c s = .next
          { s.begin with
            frameFault := true
            reply := some (replyBytes 0 0 .badFrame { s.begin with frameFault := true }.summary []) })
      ∧ (s.judgesFrames = false → exec c s = .next s.begin)

/-- R155: a faulty frame is answered BAD_FRAME, kind and tag 0, with the flag set in its summary. R159 step 2: a code
that names no kind is refused in every mode and lifecycle state that judges frames, kind and tag echoed. R154, R156,
R157, R145: a read frame of whole bytes collects the present reply from its first byte, then 0xFF, and changes nothing;
any other frame that is judged reads 0xFF; SDO is high-impedance while SEL_N is high and where no frame is judged. That
the whole frame decides is the model's reading (log entry 43). -/
def Obligations.FaultyAndUnknownFramesAreAnswered : Prop :=
  (∀ (f : Frame) (s : State), s.judgesFrames = true → judgeFrame f = .fault →
      exec (.badFrame f) s = .next
        { s.begin with
          frameFault := true
          reply := some (replyBytes 0 0 .badFrame { s.begin with frameFault := true }.summary []) })
  ∧
  (∀ (code tag : Byte) (body : Bytes) (s : State),
      s.judgesFrames = true → (∀ k : Kind, k.code ≠ code) → body.length ≤ 240 →
        exec (.unknownKind code tag body) s = .next
          { s.begin with
            frameFault := false
            reply := some (replyBytes code tag .unknownKind s.summary []) })
  ∧
  (∀ (f : Frame) (s : State),
      s.sdo none = .highImpedance
      ∧ (s.judgesFrames = true ↔ ((s.mode = .active ∨ s.mode = .starting) ∧ s.rstLow = false))
      ∧ (s.judgesFrames = false → s.sdo (some f) = .highImpedance)
      ∧ (s.judgesFrames = true → f.bytes ≠ [] → (∀ b ∈ f.bytes, b = 0xFF) → f.rest = [] →
        judgeFrame f = .read
          ∧ s.sdo (some f) = .driven
            ⟨((s.reply.getD []) ++ List.replicate f.bytes.length 0xFF).take f.bytes.length, []⟩
          ∧ exec (.badFrame f) s = .next s.begin)
      ∧ (s.judgesFrames = true → judgeFrame f ≠ .read → f.rest.length < 8 →
        s.sdo (some f) = .driven ⟨List.replicate f.bytes.length 0xFF, List.replicate f.rest.length true⟩))

/-! ### Reports -/

/-- R160, R161, R169, R117, R119, R61: the reports answer DONE and change nothing but the reply; a page above 2 is
refused. Their bodies are those of section 10.4 with the codes of section 10.1, field by field; R173: an absent field
reads 0 and a count saturates. That READ_RANGES with ACTIVE reads 0 for the draft is the model's reading (log entry
20), and so are the order of the grant records (log entry 46) and the rounding of the seconds to an intent expiry and a
grant expiry (log entry 48). -/
def Obligations.ReportsReadTheState : Prop :=
  (∀ (tag : Byte) (s : State),
      (s.judgesFrames = true →
        exec (.identify tag []) s = .next (s.begin.replied .identify tag .done (identifyBody s))
          ∧ exec (.status tag []) s = .next (s.begin.replied .status tag .done (statusBody s)))
      ∧ (s.Admits .readPolicy →
        exec (.readPolicy tag []) s = .next (s.begin.replied .readPolicy tag .done s.settings.toBytes))
      ∧ (s.Admits .readScore →
        exec (.readScore tag []) s = .next (s.begin.replied .readScore tag .done (scoreBody s))))
  ∧
  (∀ (tag : Byte) (s : State),
      (s.Admits .readTrail → ∀ page : Byte,
        exec (.readTrail tag [page]) s = .next
          (if page.toNat ≤ 2 then s.begin.replied .readTrail tag .done (trailBody page.toNat s)
           else s.begin.replied .readTrail tag .badValue []))
      ∧ (s.Admits .readRanges →
        exec (.readRanges tag [0]) s = .next (s.begin.replied .readRanges tag .done (rangesBody false s))
          ∧ exec (.readRanges tag [1]) s = .next (s.begin.replied .readRanges tag .done (rangesBody true s))))
  ∧
  (∀ s : State,
      identifyBody s =
        [0x4B, 0x57, 0x3C, 0x60, 1, 0x00, 0xF0, 0x02, 0x00] ++ be 1 s.life.lifecycle.code
          ++ s.cells.toList.map Cell.code
          ++ (match s.life.journal with
            | none => [0, 0, 0]
            | some j => [1] ++ be 1 j.next.val ++ be 1 j.faults.length ++ j.faults.flatMap fun c => be 1 c.val)
      ∧ (identifyBody s).length = 39 + ((s.life.journal.map fun j => j.faults.length).getD 0)
      ∧ statusBody s =
        ((List.finRange 8).flatMap fun (k : Fin 8) =>
          [s.cred.slots[k].state.code, if k = 0 then 1 else 0] ++ be 2 s.cred.slots[k].access.toNat ++ [flag s.cred.slots[k].resumeAllowed])
        ++ [s.verified] ++ be 1 s.cred.failures
        ++ be 4 (min ((s.backoff.map fun t => t - s.millis).getD 0) 4294967295)
        ++ [s.linkState.code] ++ be 1 s.faultRun ++ be 1 s.queue.length
        ++ (match s.beacon with
          | none => [0, 0, 0]
          | some b => [1, flag (b.level == some true)] ++ be 1 (min ((b.deadline - s.now) / 1000000) 255))
        ++ [s.tamper.code, flag s.tampOpen, s.dormancyState.code]
        ++ be 1 (min (if s.dormancyState = .counting then s.dormancyCount / 60000000 else 0) 255)
        ++ [flag s.binding.isSome, s.window.code]
        ++ (match s.window with
          | .waiting t => be 1 (min ((t - s.now) / 1000000) 255)
          | .none => [0]
          | .matched => [0]
          | .foreign => [0])
        ++ (match s.job with
          | none => [0, 0, 0, 0, 0, 0, 0, 0]
          | some j =>
            [j.owner.code] ++ be 1 j.cell.val ++ [j.phase.code]
              ++ be 1 j.round ++ be 1 j.good ++ be 1 j.stuckRun ++ be 1 j.p ++ [flag s.resReady])
        ++ [s.mode.code, flag s.vmain, flag s.vaux, flag s.resReady]
        ++ (match s.intent with
          | none => [0, 0, 0]
          | some i => [1] ++ be 1 i.hold ++ be 1 (min ((i.expiry - s.now) / 1000000) 255))
        ++ be 1 s.grants.length
        ++ (s.grants.flatMap fun g =>
          [rangeByte g.range, flag g.gates.read, flag g.gates.write]
            ++ be 2 (min ((g.expiry - s.now) / 1000000) 65535))
        ++ be 1 s.report.taken ++ [dropCauseCode s.report.dropCause]
        ++ be 2 s.report.consumed.toNat ++ [flag s.policyDefaulted]
      ∧ (statusBody s).length = 80 + 5 * s.grants.length)
  ∧
  (∀ s : State,
      let newest := s.evid.trail.getLast?.map TrailEntry.time
      scoreBody s =
        be 2 s.evid.score ++ be 1 s.evid.stage.code ++ [flag s.settings.scoreWipe]
          ++ be 1 ((if s.margin.isSome then 1 else 0) + (if s.fallPoint.isSome then 2 else 0)
            + if newest.isSome then 4 else 0)
          ++ be 2 (BitVec.ofInt 16 (s.margin.getD 0)).toNat ++ be 2 (min (s.fallPoint.getD 0) 65535)
          ++ [s.decayState.code]
          ++ be 2 (min (if s.decayState = .running then
              (s.settings.idc * 60000000 - s.decayCount) / 1000000 else 0) 65535)
          ++ be 4 (min (newest.getD 0) 4294967295)
      ∧ (scoreBody s).length = 16
      ∧ s.margin = (match s.evid.stage with
        | .calm => some ((s.settings.ta : Int) - s.evid.score)
        | .alert => some ((s.settings.tl : Int) - s.evid.score)
        | .lockdown => if s.settings.scoreWipe then some ((s.settings.tw : Int) - s.evid.score) else none
        | .wipe => none)
      ∧ (∀ n, s.fallPoint = some n → s.evid.stage = .alert
          ∧ ∀ score, (score = 0 ∨ score + s.settings.h < s.settings.ta) ↔ score ≤ n)
      ∧ (s.evid.stage = .alert → s.fallPoint.isSome = true)
      ∧ ∀ page, trailBody page s =
        be 1 s.evid.trail.length ++ be 2 s.evid.appended
          ++ be 1 ((s.evid.trail.drop (8 * page)).take 8).length
          ++ ((s.evid.trail.drop (8 * page)).take 8).flatMap fun e =>
            be 4 (min e.time 4294967295) ++ [e.kind.code] ++ be 2 e.contribution ++ be 2 e.score ++ be 1 e.stage.code)
  ∧
  (∀ s : State,
      let record (k : Fin 16) (e : Editable) (g : Gates) (mark : Bool) (health reported : Byte) : Bytes :=
        [rangeByte k, flag e.enabled]
          ++ (match e.extent with
            | some x => be 6 x.start ++ be 6 x.length
            | none => [0, 0, 0, 0, 0, 0, 0, 0, 0, 0, 0, 0])
          ++ [flag g.read, flag g.write, e.lockOn.code, e.response.code, flag e.resumeEligible, flag mark, health,
            reported]
      let head (selector draft : Byte) : Bytes :=
        [selector, draft] ++ be 6 (s.layout.capacity.getD 0) ++ be 2 s.settings.shadowL
          ++ [s.shadow.code, if s.settled 16 = false then 3 else s.shadow.code]
      rangesBody false s =
        head 0 0 ++ ((List.finRange 16).flatMap fun (k : Fin 16) =>
          let r := s.layout.ranges[k]
          let g := s.gates[k]
          record k r.edit g r.rekeyPending r.health.code
            (if s.settled (rangeSlot k) = false then 3
             else if g = ⟨false, false⟩ then 0
             else if g = ⟨true, true⟩ then 1
             else 2))
      ∧ rangesBody true s =
        head 1 (flag s.draft.isSome) ++ ((List.finRange 16).flatMap fun (k : Fin 16) =>
          record k (match s.draft with
            | some d => d[k]
            | none => s.layout.ranges[k].edit) ⟨false, false⟩ false 0 0)
      ∧ (rangesBody false s).length = 364 ∧ (rangesBody true s).length = 364)
  ∧
  (([Lifecycle.unprovisioned, .provisioned, .wiping, .disabled].map Lifecycle.code = [0, 1, 2, 3])
    ∧ [Stage.calm, .alert, .lockdown, .wipe].map Stage.code = [0, 1, 2, 3]
    ∧ [TrailKind.badSecret, .beaconLost, .tamper, .dormant, .foreign, .keylink, .relief, .stage, .standDown, .wipeStart,
        .wipeDone].map TrailKind.code = [1, 2, 3, 4, 5, 6, 7, 8, 9, 10, 11]
    ∧ (∀ b : Bool, flag b = if b then 1 else 0)
    ∧ (∀ content, [Cell.blank, .holding content, .faulted].map Cell.code = [0, 1, 2])
    ∧ [SlotState.empty, .active, .suspended].map SlotState.code = [0, 1, 2]
    ∧ [LinkState.running, .stopped].map LinkState.code = [0, 1]
    ∧ (∀ t, [TamperState.off, .armed, .opening t, .tripped, .closing t].map TamperState.code = [0, 1, 2, 3, 4])
    ∧ [DormancyState.off, .idle, .counting, .satisfied].map DormancyState.code = [0, 1, 2, 3]
    ∧ (∀ t, [ReportWindow.none, .waiting t, .matched, .foreign].map ReportWindow.code = [0, 1, 2, 3])
    ∧ [Owner.layout, .wipe].map Owner.code = [1, 2]
    ∧ (∀ t a b, [Phase.waiting, .pass t a b, .verify t, .write a].map Phase.code = [0, 1, 2, 3])
    ∧ [DecayState.off, .stopped, .held, .running].map DecayState.code = [0, 1, 2, 3]
    ∧ [Mode.starting, .active].map Mode.code = [1, 2]
    ∧ [none, some DropCause.expiry, some .tamper, some .beaconLost, some .stageRise].map dropCauseCode = [0, 1, 2, 3, 4]
    ∧ [View.shown, .hidden].map View.code = [0, 1] ∧ [LockedRead.zero, .refuse].map LockedRead.code = [0, 1]
    ∧ [Health.good, .faulted].map Health.code = [0, 1]
    ∧ (∀ b : BitVec 3, LockOn.code ⟨b.getLsbD 0, b.getLsbD 1, b.getLsbD 2⟩ = b.setWidth 8)
    ∧ [OpState.idle, .running, .ended].map OpState.code = [0, 1, 2]
    ∧ [OpOutcome.accepted, .wrongSecret, .aborted, .superseded, .complete, .completeWithFaults, .rootFault].map
        OpOutcome.code = [1, 2, 3, 4, 5, 6, 7]
    ∧ [OpKind.provision, .wipe, .verify, .enroll, .changeSecret, .applyLayout, .rekey, .startup].map OpKind.code
        = [0x10, 0x11, 0x20, 0x21, 0x25, 0x32, 0x33, 0xF0])

/-- R163: FLAGS answers both sets and clears exactly the latches it returned. R164: MASK sets or clears exactly the
named masks and answers the masks that result. R167: OPSTATE answers the record as it stands and clears its unseen
marker, and no other's; its body is that of section 10.4. R158, R165, R145: the status summary is the field of section
10.2, and ATTN_N is driven low in ACTIVE alone, while an unmasked indicator is latched or a record is ENDED and
unseen. -/
def Obligations.IndicatorsMasksAndRecordsAreRead : Prop :=
  (∀ (tag : Byte) (s : State), s.Admits .flags →
      exec (.flags tag []) s = .next
        (State.replied .flags tag .done (be 2 s.latched.toNat ++ be 2 s.masks.toNat)
          { s.begin with latched := 0 }))
  ∧
  (∀ (tag : Byte) (set : Bool) (list : Bytes) (s : State), s.Admits .mask →
      list.length ≤ 10 → (∀ b ∈ list, b.toNat < 10) →
      ∃ masks : BitVec 10,
        exec (.mask tag ((if set then 1 else 2) :: BitVec.ofNat 8 list.length :: list)) s = .next
          (State.replied .mask tag .done (be 2 masks.toNat) { s.begin with masks := masks })
        ∧ ∀ i : Fin 10,
          masks.getLsbD i.val = if BitVec.ofNat 8 i.val ∈ list then set else s.masks.getLsbD i.val)
  ∧
  (∀ (tag : Byte) (s : State), s.Admits .opstate →
      exec (.opstate tag [0]) s = .next (State.replied .opstate tag .done (opstateBody 0 s.credOp)
          { s.begin with credOp := { s.credOp with unseen := false } })
      ∧ exec (.opstate tag [1]) s = .next (State.replied .opstate tag .done (opstateBody 1 s.layoutOp)
          { s.begin with layoutOp := { s.layoutOp with unseen := false } })
      ∧ exec (.opstate tag [2]) s = .next (State.replied .opstate tag .done (opstateBody 2 s.wipeOp)
          { s.begin with wipeOp := { s.wipeOp with unseen := false } }))
  ∧
  (∀ (n : Nat) (r : OpRecord),
      let stamp (t : Option Millis) : Bytes :=
        be 4 (min (t.getD 0 / 1000) 4294967295) ++ be 2 (t.getD 0 % 1000)
      opstateBody n r =
        be 1 n
          ++ [(r.kind.map OpKind.code).getD 0, r.state.code, (r.outcome.map OpOutcome.code).getD 0]
          ++ be 1 ((if r.detail.isSome then 1 else 0) + (if r.startedAt.isSome then 2 else 0)
            + if r.endedAt.isSome then 4 else 0)
          ++ be 1 (min (r.detail.getD 0) 255) ++ stamp r.startedAt ++ stamp r.endedAt ++ [flag r.unseen]
      ∧ (opstateBody n r).length = 19)
  ∧
  (∀ s : State,
      let indicator : Bool := ∃ i : Fin 10, s.latched.getLsbD i.val = true ∧ s.masks.getLsbD i.val = false
      let ended : Bool := ∃ r ∈ [s.credOp, s.layoutOp, s.wipeOp], r.state = .ended ∧ r.unseen = true
      s.summary =
        s.life.lifecycle.code * 16384 + s.evid.stage.code * 4096 + (if s.mode = .starting then 2048 else 0)
          + (if indicator then 1024 else 0) + (if ended then 512 else 0) + (if s.frameFault then 256 else 0)
          + (if s.latched.getLsbD 6 then 128 else 0) + (if s.verified = 0 then 0 else 64)
      ∧ s.attention = (decide (s.mode = .active) && (indicator || ended)))

/-! ### Lifecycle -/

/-- R3: PROVISION draws a salt and starts a derivation for slot 0; with the derivation unit occupied it is refused
BUSY; a capacity, a wipe code or a secret out of its range is refused BAD_VALUE. That started-at is held to the
millisecond, where R3 speaks of powered seconds, is the model's choice (log entry 23). -/
def Obligations.ProvisionStartsADerivation : Prop :=
  (∀ (tag : Byte) (capacity : Nat) (code secret : Bytes) (s : State), s.Admits .provision →
    capacity % 8 = 0 → 65536 ≤ capacity → capacity ≤ 2 ^ 48 - 8 → code.length = 16 →
    8 ≤ secret.length → secret.length ≤ 64 →
    exec (.provision tag (be 6 capacity ++ code ++ secret)) s = .next
      (if s.derivation.isSome then s.begin.replied .provision tag .busy []
       else State.replied .provision tag .started []
        { s.begin with
          derivation := some ⟨.provision capacity code, 0, s.now, secret, (Config.random16 s.draws).toList⟩
          draws := s.draws + 1
          credOp := ⟨some .provision, .running, none, some 0, some s.millis, none, false⟩ }))
  ∧
  (∀ (tag : Byte) (body : Bytes) (s : State), s.Admits .provision → s.derivation = none → body.length ≤ 240 →
    let capacity := ofBe (body.take 6)
    (body.length < 30 ∨ 86 < body.length ∨ capacity % 8 ≠ 0 ∨ capacity < 65536 ∨ 2 ^ 48 - 8 < capacity) →
    exec (.provision tag body) s = .next (s.begin.replied .provision tag .badValue []))

/-- R4, R133, R91: the completion of a PROVISION derivation: one commit of lifecycle, cells, credential table, layout
and evidence. A FAULTED cell 10 is not written, and range 0 is marked and handed to the LAYOUT operation. Started-at is
held to the millisecond (log entry 23). -/
def Obligations.ProvisionCompletes : Prop :=
  ∀ (d : Derivation) (capacity : Nat) (code : Bytes) (s : State),
    s.derivation = some d → d.work = .provision capacity code →
    let r := s.reaching (d.startedAt + Config.derivationTime)
    let faulted : Bool := s.cells[(10 : Fin 26)] = .faulted
    let root := (Config.random32 s.draws).toList
    let key := (Config.random32 (s.draws + 1)).toList
    ∃ (cells : Vector Cell 26) (layout : Layout),
      exec .provisionComplete s = .next
        { State.commit [.lifecycle, .cells, .credentials, .layout, .evidence]
            { r with
              derivation := none
              draws := s.draws + 2
              cells := cells
              layout := layout
              life := ⟨.provisioned, none⟩
              cred :=
                { slots := (Vector.replicate 8 Slot.none).set 0 ⟨.active, some d.salt, BitVec.allOnes 16, false⟩
                  failures := 0
                  openAttempt := false }
              backoff := none
              evid := ⟨0, .calm, [], 0⟩ } with
          credOp :=
            { s.credOp with state := .ended, outcome := some .accepted, endedAt := some r.millis, unseen := true }
          layoutOp :=
            if faulted then ⟨some .provision, .running, none, some 0, some r.millis, none, false⟩ else s.layoutOp
          layoutWork := if faulted then some ⟨0, none⟩ else s.layoutWork
          dormancyCount := 0
          satisfied := false }
      ∧ cells[(1 : Fin 26)] = .holding (.plain code)
      ∧ cells[(2 : Fin 26)] = .holding (.plain (Config.derive d.secret d.salt).toList)
      ∧ cells[(0 : Fin 26)] = (if s.cells[(0 : Fin 26)] = .blank then .holding (.plain root) else s.cells[(0 : Fin 26)])
      ∧ cells[(10 : Fin 26)] =
        (if s.cells[(10 : Fin 26)] = .blank then .holding (wrapKey root key) else s.cells[(10 : Fin 26)])
      ∧ (∀ c : Fin 26, c ≠ 0 → c ≠ 1 → c ≠ 2 → c ≠ 10 → cells[c] = s.cells[c])
      ∧ layout.capacity = some capacity
      ∧ ∀ k : Fin 16, layout.ranges[k] =
          ⟨⟨k = 0, none, ⟨true, true, true⟩, .refuse, false⟩, k = 0 ∧ faulted, .good⟩

/-- R10, R99, R128: what a wipe start leaves, in PROVISIONED: lifecycle, journal and stage, the engine purged, every
gate closed, and everything that could give access withdrawn. R108, R52, R31: entry to LOCKDOWN purges, closes, shows
the shadow, empties the verifications, drops grants and intent and discards the decay count, and changes nothing else.
A job in WRITE ends at a wipe start, its operation SUPERSEDED with that range, and so does an operation without a job,
with the range it would have worked next. A LAYOUT job still at its erase goes on, its claim and its record with it.
R94: a WAITING report window becomes NONE, and no other window changes. R104: the wipe start latches STAGE_RISE. R26,
R24, R29: a derivation in flight is abandoned SUPERSEDED, a counted one by a failure resolution taken in WIPING. R74: a
cause that finds KPURGE high leaves the pulse, the mirror and the queue to it. That a WIPE record's started-at is held
to the millisecond is the model's choice (log entry 23), and so are what a cause while KPURGE is high leaves of the
queue (log entry 21), the purge before the closing, by which the queue holds exactly the slots that the closing changes
(log entry 6), and the end of a job in WRITE within the step of the wipe start (log entry 18). -/
def Obligations.StageEffectsWithdrawAccess : Prop :=
  (∀ s : State, s.life.lifecycle = .provisioned → s.evid.stage ≠ .wipe → s.kpurge = none →
      let t := s.startWipe
      t.life = ⟨.wiping, some ⟨0, []⟩⟩ ∧ t.evid.stage = .wipe
        ∧ (s.derivation = none →
            t.evid = Evidence.append s.seconds .wipeStart 0 s.evid.score .wipe { s.evid with stage := .wipe })
        ∧ t.gates = allClosed ∧ t.shadow = .shown ∧ t.verified = 0
        ∧ t.grants = [] ∧ t.intent = none ∧ t.derivation = none
        ∧ t.mirror = emptyMirror ∧ t.mirrorShadow = .none ∧ t.inFlight = none ∧ t.rootCopy = none
        ∧ t.kpurge = (if s.mode = .active then some s.now else none)
        ∧ t.wipeClaim = true
        ∧ t.wipeOp = ⟨some .wipe, .running, none, none, some s.millis, none, false⟩
        ∧ t.decayCount = 0 ∧ t.dormancyCount = 0
        ∧ t.cells = s.cells ∧ t.layout = s.layout ∧ t.binding = s.binding ∧ t.settings = s.settings
        ∧ t.masks = s.masks ∧ t.mode = s.mode
        ∧ ((∀ j committed, s.job = some j → j.phase ≠ .write committed) → t.job = s.job)
        ∧ (∀ j, s.job = some j → j.owner = .layout → (∀ committed, j.phase ≠ .write committed) →
            t.layoutWork = s.layoutWork ∧ t.layoutOp = s.layoutOp)
        ∧ t.window =
          (match s.window with
            | .waiting _ => .none
            | .none => .none
            | .matched => .matched
            | .foreign => .foreign)
        ∧ (∀ j committed w, s.job = some j → j.phase = .write committed → s.layoutWork = some w →
            t.job = none ∧ t.layoutWork = none
              ∧ t.layoutOp =
                { s.layoutOp with
                  state := .ended, outcome := some .superseded, detail := some w.next.val
                  endedAt := some s.millis, unseen := true })
        ∧ t.queue = (if s.mode = .active then changedSlots s.gates allClosed s.shadow .shown else [])
        ∧ t.report =
          (if s.grants = [] then s.report else { s.report with dropCause := some .stageRise })
        ∧ (∀ w, s.job = none → s.layoutWork = some w →
            t.layoutWork = none
              ∧ t.layoutOp =
                { s.layoutOp with
                  state := .ended, outcome := some .superseded, detail := some w.next.val
                  endedAt := some s.millis, unseen := true })
        ∧ (s.layoutWork = none → t.layoutWork = none ∧ t.layoutOp = s.layoutOp))
  ∧
  (∀ s : State, s.life.lifecycle = .provisioned → s.evid.stage ≠ .wipe →
      let t := s.startWipe
      let e := Evidence.append s.seconds .wipeStart 0 s.evid.score .wipe { s.evid with stage := .wipe }
      let wiped := State.commit [.lifecycle, .evidence] { s with life := ⟨.wiping, some ⟨0, []⟩⟩, evid := e }
      let superseded : OpRecord :=
        { s.credOp with state := .ended, outcome := some .superseded, endedAt := some s.millis, unseen := true }
      (s.derivation = none →
        t.nvs = wiped.nvs ∧ t.cred = s.cred ∧ t.backoff = s.backoff ∧ t.credOp = s.credOp
          ∧ t.latched = s.latched ||| 32)
      ∧ (∀ d, s.derivation = some d → d.work.counted = false →
        t.nvs = wiped.nvs ∧ t.evid = e ∧ t.cred = s.cred ∧ t.backoff = s.backoff ∧ t.credOp = superseded
          ∧ t.latched = s.latched ||| 32)
      ∧ (∀ d, s.derivation = some d → d.work.counted = true →
        let c := s.cred.failures
        let w := s.settings.wBad * min c 8
        let score := min 4095 (s.evid.score + w)
        t.cred = { s.cred with openAttempt := false }
          ∧ t.evid = Evidence.append s.seconds .badSecret w score .wipe { e with score := score }
          ∧ t.nvs = (State.commit [.credentials, .evidence] { wiped with cred := t.cred, evid := t.evid }).nvs
          ∧ t.backoff = (if c < 4 then s.backoff else some (s.millis + min (2 ^ (c - 4)) 1024 * 1000))
          ∧ t.credOp = superseded ∧ t.latched = s.latched ||| 32 ||| 1))
  ∧
  (∀ s : State, s.kpurge = none →
      let t := s.enterLockdown
      t.gates = allClosed ∧ t.shadow = .shown ∧ t.verified = 0 ∧ t.grants = [] ∧ t.intent = none
        ∧ t.mirror = emptyMirror ∧ t.mirrorShadow = .none ∧ t.inFlight = none ∧ t.rootCopy = none
        ∧ t.kpurge = (if s.mode = .active then some s.now else none) ∧ t.decayCount = 0
        ∧ t = { s with
          gates := allClosed, shadow := .shown, verified := 0, grants := [], intent := none
          mirror := emptyMirror, mirrorShadow := .none, inFlight := none, rootCopy := none
          kpurge := t.kpurge, queue := t.queue, decayCount := 0, report := t.report }
        ∧ t.queue =
          (if s.mode = .active ∧ s.life.lifecycle ≠ .disabled then changedSlots s.gates allClosed s.shadow .shown
           else [])
        ∧ t.report =
          (if s.grants = [] then s.report else { s.report with dropCause := some .stageRise }))
  ∧
  (∀ s : State, s.kpurge.isSome = true → ∀ t, (t = s.startWipe ∨ t = s.enterLockdown) →
      t.kpurge = s.kpurge ∧ t.mirror = s.mirror ∧ t.mirrorShadow = s.mirrorShadow
        ∧ t.gates = allClosed ∧ t.shadow = .shown ∧ t.verified = 0 ∧ t.grants = [] ∧ t.intent = none
        ∧ t.decayCount = 0 ∧ ∃ new, t.queue = s.queue ++ new)

/-- R134: both forms of WIPE: the conditions in their order, and the wipe start of a taken one. R135, R29: a wrong wipe
code raises C, adds a BAD_SECRET event of Wbad × min(C, 8) in one commit, sets the deadline where C is 4 or more and
latches BAD_SECRET; where the event raises no stage, nothing else changes; where it raises one, the rise is the event's
own (R101, R109) and the deadline and the indicator follow it. -/
def Obligations.WipeRequestStartsTheWipeOrIsCounted : Prop :=
  (∀ (tag : Byte) (code : Bytes) (s : State), s.Admits .wipe →
      exec (.wipe tag []) s = .next
        (if s.verified.getLsbD 0 then s.begin.startWipe.replied .wipe tag .started []
         else s.begin.replied .wipe tag .notPermitted [])
      ∧ (code.length = 16 →
        exec (.wipe tag code) s = .next
          (if s.derivation.isSome then s.begin.replied .wipe tag .busy []
           else if s.cells[(1 : Fin 26)] = .holding (.plain code) then
            s.begin.startWipe.replied .wipe tag .started []
           else s.begin.countWrongCode.replied .wipe tag .notPermitted []))
      ∧ (code ≠ [] → code.length ≠ 16 → code.length ≤ 240 →
        exec (.wipe tag code) s = .next (s.begin.replied .wipe tag .badValue [])))
  ∧
  (∀ s : State, s.life.lifecycle = .provisioned →
      let c := min 255 (s.cred.failures + 1)
      let w := s.settings.wBad * min c 8
      let score := min 4095 (s.evid.score + w)
      evaluate s.settings score s.evid.stage = s.evid.stage →
      s.countWrongCode =
        { State.commit [.credentials, .evidence]
            { s with
              cred := { s.cred with failures := c }
              evid := Evidence.append s.seconds .badSecret w score s.evid.stage { s.evid with score := score } } with
          backoff := if c < 4 then s.backoff else some (s.millis + min (2 ^ (c - 4)) 1024 * 1000)
          latched := s.latched ||| 1 })
  ∧
  (∀ s : State,
      let c := min 255 (s.cred.failures + 1)
      let u :=
        State.takeEvidence .badSecret (s.settings.wBad * min c 8) [.credentials]
          { s with cred := { s.cred with failures := c } }
      s.countWrongCode =
        { u with
          backoff := if c < 4 then u.backoff else some (s.millis + min (2 ^ (c - 4)) 1024 * 1000)
          latched := u.latched ||| 1 })

/-! ### Credentials -/

/-- R21, R22: the conditions of a VERIFY that names a slot, in their order, and what a taken VERIFY writes. -/
def Obligations.VerifyIsCountedAndStarted : Prop :=
  ∀ (tag : Byte) (k : Fin 8) (secret : Bytes) (s : State), s.Admits .verify → secret.length < 240 →
    exec (.verify tag (slotByte k :: secret)) s = .next
      (if s.evid.stage = .lockdown ∧ k ≠ 0 then s.begin.replied .verify tag .notPermitted []
       else if s.cred.slots[k].state ≠ .active then s.begin.replied .verify tag .wrongState []
       else if (∃ t ∈ s.backoff, s.millis < t) then s.begin.replied .verify tag .tooSoon []
       else if s.derivation.isSome then s.begin.replied .verify tag .busy []
       else if secret.length < 8 ∨ 64 < secret.length then s.begin.replied .verify tag .badValue []
       else State.replied .verify tag .started []
        { State.commit [.credentials]
            { s.begin with
              cred := { s.cred with failures := min 255 (s.cred.failures + 1), openAttempt := true } } with
          derivation := some ⟨.verify, k, s.now, secret, s.cred.slots[k].salt.getD []⟩
          credOp := ⟨some .verify, .running, none, some k.val, some s.millis, none, false⟩ })

/-- R23, R113, R91: a correct secret: in CALM and ALERT the slot joins the verifications with relief, its RELIEF entry
where S was above 0, and the fall test of R105 after it; in LOCKDOWN slot 0 joins without relief, and a user slot ends
SUPERSEDED. R24, R29: a wrong secret: the marker cleared and a BAD_SECRET event in one commit, the deadline where C is
4 or more, the indicator, and WRONG_SECRET; where the event raises no stage, nothing else changes; where it raises one,
the rise is the event's own (R101, R109). -/
def Obligations.VerificationsAreSettled : Prop :=
  (∀ (d : Derivation) (s : State), s.derivation = some d → d.work = .verify →
      s.cells[verifierCell d.slot] = .holding (.plain (Config.derive d.secret d.salt).toList) →
      let r := s.reaching (d.startedAt + Config.derivationTime)
      ∃ t : State, exec .verifyComplete s = .next t
        ∧ t.derivation = none ∧ t.backoff = none
        ∧ t.cred = { s.cred with failures := 0, openAttempt := false }
        ∧ ((s.evid.stage = .calm ∨ s.evid.stage = .alert) →
            let e := s.evid
            let score := e.score - e.score * (if d.slot = 0 then 16 else s.settings.rUser) / 16
            let relieved : Evidence :=
              if e.score = 0 then e
              else Evidence.append r.seconds .relief 0 score e.stage { e with score := score }
            t.verified = s.verified ||| single 8 d.slot.val ∧ t.satisfied = true
              ∧ t.evid =
                (if e.stage = .alert ∧ (score = 0 ∨ score + s.settings.h < s.settings.ta) then
                  Evidence.append r.seconds .stage 0 score .calm { relieved with stage := .calm }
                 else relieved)
              ∧ t.credOp.outcome = some .accepted)
        ∧ (s.evid.stage = .lockdown →
            t.evid = s.evid
              ∧ (d.slot = 0 → t.verified = s.verified ||| single 8 0 ∧ t.satisfied = true
                  ∧ t.credOp.outcome = some .accepted)
              ∧ (d.slot ≠ 0 → t.verified = s.verified ∧ t.satisfied = s.satisfied
                  ∧ t.credOp.outcome = some .superseded))
        ∧ t.credOp.state = .ended ∧ t.credOp.endedAt = some r.millis ∧ t.credOp.unseen = true
        ∧ t.credOp.detail = s.credOp.detail
        ∧ t.settings = s.settings ∧ t.cells = s.cells ∧ t.layout = s.layout ∧ t.gates = s.gates
        ∧ t.shadow = s.shadow ∧ t.life = s.life ∧ t.queue = s.queue ∧ t.mirror = s.mirror
        ∧ t.latched = s.latched ∧ t.masks = s.masks ∧ t.intent = s.intent ∧ t.rootCopy = s.rootCopy
        ∧ t.nvs =
          (State.commit (if t.evid = s.evid then [.credentials] else [.credentials, .evidence])
            { r with cred := t.cred, evid := t.evid }).nvs)
  ∧
  (∀ (d : Derivation) (s : State), s.derivation = some d → d.work = .verify →
      s.life.lifecycle = .provisioned →
      s.cells[verifierCell d.slot] ≠ .holding (.plain (Config.derive d.secret d.salt).toList) →
      let r := s.reaching (d.startedAt + Config.derivationTime)
      let c := s.cred.failures
      let w := s.settings.wBad * min c 8
      let score := min 4095 (s.evid.score + w)
      evaluate s.settings score s.evid.stage = s.evid.stage →
      exec .verifyComplete s = .next
        { State.commit [.credentials, .evidence]
            { r with
              derivation := none
              cred := { s.cred with openAttempt := false }
              evid :=
                Evidence.append r.seconds .badSecret w score s.evid.stage { s.evid with score := score } } with
          backoff := if c < 4 then s.backoff else some (r.millis + min (2 ^ (c - 4)) 1024 * 1000)
          latched := s.latched ||| 1
          credOp :=
            { s.credOp with
              state := .ended, outcome := some .wrongSecret, endedAt := some r.millis, unseen := true } })
  ∧
  (∀ (d : Derivation) (s : State), s.derivation = some d → d.work = .verify →
      s.cells[verifierCell d.slot] ≠ .holding (.plain (Config.derive d.secret d.salt).toList) →
      let r := s.reaching (d.startedAt + Config.derivationTime)
      let c := s.cred.failures
      let u :=
        State.takeEvidence .badSecret (s.settings.wBad * min c 8) [.credentials]
          { r with derivation := none, cred := { s.cred with openAttempt := false } }
      exec .verifyComplete s = .next
        { u with
          backoff := if c < 4 then u.backoff else some (r.millis + min (2 ^ (c - 4)) 1024 * 1000)
          latched := u.latched ||| 1
          credOp :=
            { s.credOp with
              state := .ended, outcome := some .wrongSecret, endedAt := some r.millis, unseen := true } })

/-- R29: the delay after a failure: none below 4, then doubling from 1 s to the cap of 1024 s. At the deadline's moment
nothing refuses any more; that the reached deadline stays in the record is the model's choice (log entry 30). -/
def Obligations.BackoffDoublesToItsCap : Prop :=
  (∀ c, c < 4 → backoffDelay c = none) ∧ backoffDelay 4 = some 1000
    ∧ (∀ c, 4 ≤ c → c < 14 → backoffDelay (c + 1) = (backoffDelay c).map (2 * ·))
    ∧ (∀ c, 14 ≤ c → backoffDelay c = some 1024000)
    ∧ ∀ (t : Millis) (s : State), s.backoff = some t → s.millis < t → s.mode ≠ .off →
        exec .backoffDeadline s = .next (s.reaching (t * 1000)) ∧ (s.reaching (t * 1000)).backoffOver = true

/-- R32: ENROLL's conditions in their order and its start, for a body as section 10.3 lays it out. -/
def Obligations.EnrollStartsADerivation : Prop :=
  ∀ (tag : Byte) (k : Fin 8) (resume : Bool) (ranges : List (Fin 16)) (secret : Bytes) (s : State),
    s.Admits .enroll → k ≠ 0 → ranges.Nodup → 8 ≤ secret.length → secret.length ≤ 64 →
    ∃ access : BitVec 16, (∀ j : Fin 16, access.getLsbD j.val = decide (j ∈ ranges)) ∧
    exec (.enroll tag
        (slotByte k :: flag resume :: BitVec.ofNat 8 ranges.length :: (ranges.map rangeByte ++ secret))) s = .next
      (if s.verified.getLsbD 0 = false then s.begin.replied .enroll tag .notPermitted []
       else if s.evid.stage = .lockdown then s.begin.replied .enroll tag .notPermitted []
       else if s.cred.slots[k].state ≠ .empty then s.begin.replied .enroll tag .wrongState []
       else if s.derivation.isSome then s.begin.replied .enroll tag .busy []
       else State.replied .enroll tag .started []
        { s.begin with
          draws := s.draws + 1
          derivation := some ⟨.enroll access resume, k, s.now, secret, (Config.random16 s.draws).toList⟩
          credOp := ⟨some .enroll, .running, none, some k.val, some s.millis, none, false⟩ })

/-- R32, R36: ENROLL's and CHANGE_NEW's completions write the verifier with the slot record in one commit, or end
SUPERSEDED in LOCKDOWN. -/
def Obligations.NewVerifiersAreCommitted : Prop :=
  ∀ (d : Derivation) (s : State), s.derivation = some d →
    let r := { s.reaching (d.startedAt + Config.derivationTime) with derivation := none }
    let cells := s.cells.set (2 + d.slot.val) (.holding (.plain (Config.derive d.secret d.salt).toList)) (by omega)
    let ended (o : OpOutcome) : OpRecord :=
      { s.credOp with state := .ended, outcome := some o, endedAt := some r.millis, unseen := true }
    (∀ access resume, d.work = .enroll access resume → exec .enrollComplete s = .next
      (if s.evid.stage = .lockdown then { r with credOp := ended .superseded }
       else
        { State.commit [.cells, .credentials]
            { r with
              cells := cells
              cred :=
                { s.cred with slots := s.cred.slots.set d.slot ⟨.active, some d.salt, access, resume⟩ } } with
          credOp := ended .accepted }))
    ∧ (∀ selfForm, d.work = .changeNew selfForm → exec .changeNewComplete s = .next
      (if s.evid.stage = .lockdown ∧ ¬(selfForm = true ∧ d.slot = 0) then { r with credOp := ended .superseded }
       else
        { State.commit [.cells, .credentials]
            { r with
              cells := cells
              cred :=
                { s.cred with
                  slots := s.cred.slots.set d.slot { s.cred.slots[d.slot] with salt := some d.salt } } } with
          credOp := ended .accepted }))

/-- R33, R34: REMOVE, SUSPEND_SLOT and RESTORE_SLOT of a user slot: their conditions in order, the slot record
committed, and the slot out of the verifications where it loses its access. -/
def Obligations.SlotsAreManaged : Prop :=
  ∀ (tag : Byte) (k : Fin 8) (s : State), k ≠ 0 →
    let x := s.cred.slots[k]
    let names : Bool := ∃ d ∈ s.derivation, d.slot = k
    let write (x : Slot) : State :=
      State.commit [.credentials] { s.begin with cred := { s.cred with slots := s.cred.slots.set k x } }
    let gone (t : State) : State := { t with verified := t.verified &&& ~~~single 8 k.val }
    (s.Admits .remove → exec (.remove tag [slotByte k]) s = .next
      (if s.verified.getLsbD 0 = false then s.begin.replied .remove tag .notPermitted []
       else if x.state = .empty then s.begin.replied .remove tag .wrongState []
       else if names then s.begin.replied .remove tag .busy []
       else (gone (write ⟨.empty, none, 0, false⟩)).replied .remove tag .done []))
    ∧ (s.Admits .suspendSlot → exec (.suspendSlot tag [slotByte k]) s = .next
      (if s.verified.getLsbD 0 = false then s.begin.replied .suspendSlot tag .notPermitted []
       else if x.state ≠ .active then s.begin.replied .suspendSlot tag .wrongState []
       else if names then s.begin.replied .suspendSlot tag .busy []
       else (gone (write { x with state := .suspended })).replied .suspendSlot tag .done []))
    ∧ (s.Admits .restoreSlot → exec (.restoreSlot tag [slotByte k]) s = .next
      (if s.verified.getLsbD 0 = false then s.begin.replied .restoreSlot tag .notPermitted []
       else if s.evid.stage = .lockdown then s.begin.replied .restoreSlot tag .notPermitted []
       else if x.state ≠ .suspended then s.begin.replied .restoreSlot tag .wrongState []
       else if names then s.begin.replied .restoreSlot tag .busy []
       else (write { x with state := .active }).replied .restoreSlot tag .done []))

/-- R35: both forms of CHANGE_SECRET: the conditions in their order; the self form is counted and tests the old secret,
the admin form draws a salt for the new one. A body that names no form or no slot of its form is refused BAD_VALUE.
R36: a correct old secret clears C, the marker and the deadline without relief or verification, and starts CHANGE_NEW
with a fresh salt, but for a user slot found in LOCKDOWN, which ends SUPERSEDED; a wrong one is a failure resolution as
that of a VERIFY (R24, R29), and the new secret is discarded. -/
def Obligations.ChangeSecretRunsItsTwoDerivations : Prop :=
  (∀ (tag : Byte) (k : Fin 8) (old new : Bytes) (s : State), s.Admits .changeSecret →
      (old.length + new.length ≤ 237 →
        exec (.changeSecret tag (1 :: slotByte k :: BitVec.ofNat 8 old.length :: (old ++ new))) s = .next
          (if s.evid.stage = .lockdown ∧ k ≠ 0 then s.begin.replied .changeSecret tag .notPermitted []
           else if s.cred.slots[k].state ≠ .active then s.begin.replied .changeSecret tag .wrongState []
           else if (∃ t ∈ s.backoff, s.millis < t) then s.begin.replied .changeSecret tag .tooSoon []
           else if s.derivation.isSome then s.begin.replied .changeSecret tag .busy []
           else if old.length < 8 ∨ 64 < old.length ∨ new.length < 8 ∨ 64 < new.length then
            s.begin.replied .changeSecret tag .badValue []
           else State.replied .changeSecret tag .started []
            { State.commit [.credentials]
                { s.begin with
                  cred := { s.cred with failures := min 255 (s.cred.failures + 1), openAttempt := true } } with
              derivation := some ⟨.changeOld new, k, s.now, old, s.cred.slots[k].salt.getD []⟩
              credOp := ⟨some .changeSecret, .running, none, some k.val, some s.millis, none, false⟩ }))
      ∧ (k ≠ 0 → new.length ≤ 238 →
        exec (.changeSecret tag (2 :: slotByte k :: new)) s = .next
          (if s.verified.getLsbD 0 = false then s.begin.replied .changeSecret tag .notPermitted []
           else if s.evid.stage = .lockdown then s.begin.replied .changeSecret tag .notPermitted []
           else if s.cred.slots[k].state = .empty then s.begin.replied .changeSecret tag .wrongState []
           else if (∃ t ∈ s.backoff, s.millis < t) then s.begin.replied .changeSecret tag .tooSoon []
           else if s.derivation.isSome then s.begin.replied .changeSecret tag .busy []
           else if new.length < 8 ∨ 64 < new.length then s.begin.replied .changeSecret tag .badValue []
           else State.replied .changeSecret tag .started []
            { s.begin with
              draws := s.draws + 1
              derivation := some ⟨.changeNew false, k, s.now, new, (Config.random16 s.draws).toList⟩
              credOp := ⟨some .changeSecret, .running, none, some k.val, some s.millis, none, false⟩ }))
      ∧ ∀ (form slot : Byte) (rest : Bytes), rest.length ≤ 238 →
        ((form ≠ 1 ∧ form ≠ 2) ∨ 8 ≤ slot.toNat ∨ (form = 2 ∧ slot = 0)) →
        exec (.changeSecret tag (form :: slot :: rest)) s = .next (s.begin.replied .changeSecret tag .badValue []))
  ∧
  (∀ (d : Derivation) (new : Bytes) (s : State), s.derivation = some d → d.work = .changeOld new →
      s.cells[verifierCell d.slot] ≠ .holding (.plain (Config.derive d.secret d.salt).toList) →
      let r := s.reaching (d.startedAt + Config.derivationTime)
      let c := s.cred.failures
      let u :=
        State.takeEvidence .badSecret (s.settings.wBad * min c 8) [.credentials]
          { r with derivation := none, cred := { s.cred with openAttempt := false } }
      exec .changeOldComplete s = .next
        { u with
          backoff := if c < 4 then u.backoff else some (r.millis + min (2 ^ (c - 4)) 1024 * 1000)
          latched := u.latched ||| 1
          credOp :=
            { s.credOp with
              state := .ended, outcome := some .wrongSecret, endedAt := some r.millis, unseen := true } })
  ∧
  (∀ (d : Derivation) (new : Bytes) (s : State), s.derivation = some d → d.work = .changeOld new →
      s.cells[verifierCell d.slot] = .holding (.plain (Config.derive d.secret d.salt).toList) →
      let r :=
        State.commit [.credentials]
          { s.reaching (d.startedAt + Config.derivationTime) with
            derivation := none
            cred := { s.cred with failures := 0, openAttempt := false }
            backoff := none }
      exec .changeOldComplete s = .next
        (if s.evid.stage = .lockdown ∧ d.slot ≠ 0 then
          { r with
            credOp :=
              { s.credOp with
                state := .ended, outcome := some .superseded, endedAt := some r.millis, unseen := true } }
         else
          { r with
            draws := s.draws + 1
            derivation := some ⟨.changeNew true, d.slot, r.now, new, (Config.random16 s.draws).toList⟩ }))

/-! ### Ranges and the shadow -/

/-- R43, R171: DRAFT_RANGE, with a body as section 10.3 lays it out: a range index out of 0 to 15 is refused BAD_VALUE,
then the lack of slot 0 NOT_PERMITTED; a taken one makes the draft present, from the active layout where absent (R42),
and puts the fields of the body in the range's entry and in no other. Range 0 is enabled and carries no extent; a
disabled range keeps none, whatever the body gives; an enabled one lies on 8-block granules within the capacity (R40).
Fields out of their values, a body without a range index among them, are refused BAD_VALUE, and a refusal changes
nothing. That a body of another length is judged with the field values, and one without its first byte with the range
index, is the model's reading (log entry 19). -/
def Obligations.DraftRangeTakesTheFields : Prop :=
  (∀ (tag : Byte) (k : Fin 16) (start length : Nat) (lockOn : BitVec 3) (refuses resume : Bool) (rest : Bytes)
      (s : State), s.Admits .draftRange →
      let body (enabled : Bool) (extent : Bytes) : Bytes :=
        [rangeByte k, flag enabled, lockOn.setWidth 8, flag refuses, flag resume] ++ extent
      let edit (enabled : Bool) (extent : Option Span) : Editable :=
        ⟨enabled, extent, ⟨lockOn.getLsbD 0, lockOn.getLsbD 1, lockOn.getLsbD 2⟩,
          if refuses then .refuse else .zero, resume⟩
      let takes (body : Bytes) (e : Editable) : Prop :=
        ∃ draft : Vector Editable 16,
          exec (.draftRange tag body) s = .next
            (State.replied .draftRange tag .done [] { s.begin with draft := some draft })
          ∧ draft[k] = e
          ∧ ∀ j : Fin 16, j ≠ k →
              draft[j] = match s.draft with
                | some d => d[j]
                | none => s.layout.ranges[j].edit
      let refused (code : ReplyCode) (body : Bytes) : Prop :=
        exec (.draftRange tag body) s = .next (s.begin.replied .draftRange tag code [])
      (rest.length ≤ 239 → s.verified.getLsbD 0 = false → refused .notPermitted (rangeByte k :: rest))
      ∧ (s.verified.getLsbD 0 = true →
        (k = 0 → takes (body true []) (edit true none)
          ∧ (rest ≠ [] → rest.length ≤ 235 → refused .badValue (body true rest))
          ∧ (rest.length ≤ 235 → refused .badValue (body false rest)))
        ∧ (k ≠ 0 →
          (rest.length = 12 ∨ rest = [] → takes (body false rest) (edit false none))
          ∧ (rest.length ≠ 12 → rest ≠ [] → rest.length ≤ 235 → refused .badValue (body false rest))
          ∧ (rest.length ≠ 12 → rest.length ≤ 235 → refused .badValue (body true rest))
          ∧ (start < 2 ^ 48 → length < 2 ^ 48 →
            let good : Prop := start % 8 = 0 ∧ length % 8 = 0 ∧ 8 ≤ length ∧ start + length ≤ s.layout.capacity.getD 0
            (good → takes (body true (be 6 start ++ be 6 length)) (edit true (some ⟨start, length⟩)))
            ∧ (¬good → refused .badValue (body true (be 6 start ++ be 6 length)))))))
  ∧
  (∀ (tag first enabled lockOn response resume : Byte) (rest : Bytes) (s : State), s.Admits .draftRange →
      (exec (.draftRange tag []) s = .next (s.begin.replied .draftRange tag .badValue []))
      ∧ (16 ≤ first.toNat → rest.length ≤ 239 →
        exec (.draftRange tag (first :: rest)) s = .next (s.begin.replied .draftRange tag .badValue []))
      ∧ (first.toNat < 16 → s.verified.getLsbD 0 = true →
        (rest.length < 4 →
          exec (.draftRange tag (first :: rest)) s = .next (s.begin.replied .draftRange tag .badValue []))
        ∧ ((1 < enabled.toNat ∨ 8 ≤ lockOn.toNat ∨ 1 < response.toNat ∨ 1 < resume.toNat) → rest.length ≤ 235 →
          exec (.draftRange tag ([first, enabled, lockOn, response, resume] ++ rest)) s = .next
            (s.begin.replied .draftRange tag .badValue []))))

/-- R41: two enabled ranges 1 to 15 overlap when each span begins before the other ends, and the shadow area takes part
as number 16, a span from 0 of length L, when L is above 0. The pair an OVERLAP refusal names overlaps, and no lower
pair does; it names none only when none overlaps. R59: the range that a shadow length overlaps is the lowest. -/
def Obligations.OverlapNamesTheLowestPair : Prop :=
  ∀ (edits : Vector Editable 16) (shadowL : Nat),
    (∀ i j : Fin 17, lowestOverlap edits shadowL = some (i, j) →
      i < j ∧ pairOverlaps edits shadowL i j = true
        ∧ ∀ i' j' : Fin 17, i' < j' → pairOverlaps edits shadowL i' j' = true → i < i' ∨ (i = i' ∧ j ≤ j'))
    ∧ (lowestOverlap edits shadowL = none →
      ∀ i j : Fin 17, i < j → pairOverlaps edits shadowL i j = false)
    ∧ (∀ i j : Fin 16, pairOverlaps edits shadowL (rangeSlot i) (rangeSlot j) = true ↔
      (i ≠ 0 ∧ j ≠ 0 ∧ edits[i].enabled = true ∧ edits[j].enabled = true
        ∧ ∃ x y, edits[i].extent = some x ∧ edits[j].extent = some y
          ∧ x.start < y.start + y.length ∧ y.start < x.start + x.length))
    ∧ (∀ i : Fin 16, pairOverlaps edits shadowL (rangeSlot i) 16 = true ↔
      (i ≠ 0 ∧ edits[i].enabled = true ∧ 0 < shadowL
        ∧ ∃ x, edits[i].extent = some x ∧ x.start < shadowL ∧ 0 < x.start + x.length))
    ∧ (∀ k, lowestUnderShadow edits shadowL = some k →
      k < 16 ∧ pairOverlaps edits shadowL k 16 = true ∧ ∀ i : Fin 17, i < k → pairOverlaps edits shadowL i 16 = false)
    ∧ (lowestUnderShadow edits shadowL = none → ∀ i : Fin 17, i < 16 → pairOverlaps edits shadowL i 16 = false)

/-- R44, R45, R46, R48: APPLY_LAYOUT: the conditions in their order. A taken one of a present draft commits the draft
as the active layout, where every range 1 to 15 whose geometry changed is marked and every range keeps its health;
every changed range is closed and its slot handed on, every other range keeps its gates, and the draft is absent. Of an
absent draft nothing is committed and no gate closes. Where a mark then stands, the reply is STARTED, the LAYOUT record
is overwritten with the lowest marked range as its detail and the present time, and its claim is set; else the reply is
DONE and the record is not touched. -/
def Obligations.ApplyLayoutInstallsTheDraft : Prop :=
  ∀ (tag : Byte) (s : State), s.Admits .applyLayout →
    let ended (u : State) : Prop :=
      (lowestMarked 0 u.layout = none →
        exec (.applyLayout tag []) s = .next (u.replied .applyLayout tag .done []))
      ∧ ∀ k, lowestMarked 0 u.layout = some k →
        exec (.applyLayout tag []) s = .next
          (State.replied .applyLayout tag .started []
            { u with
              layoutWork := some ⟨k, none⟩
              layoutOp := ⟨some .applyLayout, .running, none, some k.val, some s.millis, none, false⟩ })
    (s.verified.getLsbD 0 = false →
      exec (.applyLayout tag []) s = .next (s.begin.replied .applyLayout tag .notPermitted []))
    ∧ (s.verified.getLsbD 0 = true → s.layoutOp.state = .running →
      exec (.applyLayout tag []) s = .next (s.begin.replied .applyLayout tag .busy []))
    ∧ (s.verified.getLsbD 0 = true → s.layoutOp.state ≠ .running → s.draft = none → ended s.begin)
    ∧ ∀ draft, s.draft = some draft → s.verified.getLsbD 0 = true → s.layoutOp.state ≠ .running →
      (∀ i j, lowestOverlap draft s.settings.shadowL = some (i, j) →
        exec (.applyLayout tag []) s = .next
          (s.begin.replied .applyLayout tag .overlap [BitVec.ofNat 8 i.val, BitVec.ofNat 8 j.val]))
      ∧ (lowestOverlap draft s.settings.shadowL = none →
        ∃ (layout : Layout) (gates : Vector Gates 16),
          layout.capacity = s.layout.capacity
          ∧ (∀ k : Fin 16,
            let old := s.layout.ranges[k]
            let moved : Bool := draft[k].enabled ≠ old.edit.enabled
              ∨ (draft[k].enabled = true ∧ old.edit.enabled = true ∧ draft[k].extent ≠ old.edit.extent)
            let changed : Prop := moved ∨ draft[k].lockOn ≠ old.edit.lockOn
              ∨ (k = 0 ∧ ∃ j : Fin 16, j ≠ 0 ∧ geometryDiffers draft[j] s.layout.ranges[j].edit = true)
            layout.ranges[k] = ⟨draft[k], old.rekeyPending || (k ≠ 0 && moved), old.health⟩
              ∧ (changed → gates[k] = .closed) ∧ (¬changed → gates[k] = s.gates[k]))
          ∧ ended
            ((State.commit [.layout] { s.begin with layout := layout, draft := none }).changeDesired gates s.shadow))

/-- R132, R48: the conditions of a REKEY that names a range, in their order; a taken one commits the mark with the gates
closed, hands the range's slot on where a gate was open, and starts the LAYOUT operation at the lowest mark. -/
def Obligations.RekeyMarksTheRange : Prop :=
  ∀ (tag : Byte) (k : Fin 16) (s : State), s.Admits .rekey →
    (s.verified.getLsbD 0 = false →
      exec (.rekey tag [rangeByte k]) s = .next (s.begin.replied .rekey tag .notPermitted []))
    ∧ (s.verified.getLsbD 0 = true → s.layout.ranges[k].edit.enabled = false →
      exec (.rekey tag [rangeByte k]) s = .next (s.begin.replied .rekey tag .wrongState []))
    ∧ (s.verified.getLsbD 0 = true → s.layout.ranges[k].edit.enabled = true → s.layoutOp.state = .running →
      exec (.rekey tag [rangeByte k]) s = .next (s.begin.replied .rekey tag .busy []))
    ∧ (s.verified.getLsbD 0 = true → s.layout.ranges[k].edit.enabled = true → s.layoutOp.state ≠ .running →
      ∃ (layout : Layout) (gates : Vector Gates 16) (j : Fin 16),
        layout.capacity = s.layout.capacity
        ∧ layout.ranges[k] = { s.layout.ranges[k] with rekeyPending := true } ∧ gates[k] = .closed
        ∧ (∀ i : Fin 16, i ≠ k → layout.ranges[i] = s.layout.ranges[i] ∧ gates[i] = s.gates[i])
        ∧ layout.ranges[j].rekeyPending = true ∧ (∀ i : Fin 16, i < j → layout.ranges[i].rekeyPending = false)
        ∧ exec (.rekey tag [rangeByte k]) s = .next
          (State.replied .rekey tag .started []
            { (State.commit [.layout] { s.begin with layout := layout }).changeDesired gates s.shadow with
              layoutWork := some ⟨j, none⟩
              layoutOp := ⟨some .rekey, .running, none, some j.val, some s.millis, none, false⟩ }))

/-- R49: UNLOCK of a body as section 10.3 lays it out: its conditions in their order, and the named gates OPEN when it
is taken. -/
def Obligations.UnlockOpensTheNamedGates : Prop :=
  ∀ (tag : Byte) (read write : Bool) (ranges : List (Fin 16)) (s : State), s.Admits .unlock →
    (read ∨ write) → ranges ≠ [] → ranges.Nodup →
    ∃ gates : Vector Gates 16,
      (∀ k : Fin 16, gates[k] =
        if k ∈ ranges then ⟨s.gates[k].read || read, s.gates[k].write || write⟩ else s.gates[k]) ∧
      exec (.unlock tag
          (BitVec.ofNat 8 (read.toNat + 2 * write.toNat) :: BitVec.ofNat 8 ranges.length :: ranges.map rangeByte)) s
        = .next
        (if ¬∃ v : Fin 8, s.verified.getLsbD v.val = true
              ∧ ∀ k ∈ ranges, s.cred.slots[v].access.getLsbD k.val = true then
          s.begin.replied .unlock tag .notPermitted []
         else if s.evid.stage ≠ .calm ∧ s.evid.stage ≠ .alert then s.begin.replied .unlock tag .wrongState []
         else if ¬∀ k ∈ ranges, s.layout.ranges[k].edit.enabled = true
              ∧ s.layout.ranges[k].rekeyPending = false ∧ s.layout.ranges[k].health = .good then
          s.begin.replied .unlock tag .wrongState []
         else (s.begin.changeDesired gates s.shadow).replied .unlock tag .done [])

/-- R50: LOCK of a body as section 10.3 lays it out needs no authority and no stage; the named gates CLOSED, all else
as it was but what is handed on. -/
def Obligations.LockClosesTheNamedGates : Prop :=
  ∀ (tag : Byte) (read write : Bool) (ranges : List (Fin 16)) (s : State),
    s.mode = .active → s.rstLow = false → (read ∨ write) → ranges ≠ [] → ranges.Nodup →
    ∃ gates : Vector Gates 16,
      (∀ k : Fin 16, gates[k] =
        if k ∈ ranges then ⟨s.gates[k].read && !read, s.gates[k].write && !write⟩ else s.gates[k]) ∧
      exec (.lock tag
          (BitVec.ofNat 8 (read.toNat + 2 * write.toNat) :: BitVec.ofNat 8 ranges.length :: ranges.map rangeByte)) s
        = .next
        (if s.life.lifecycle ≠ .provisioned then s.begin.replied .lock tag .wrongState []
         else (s.begin.changeDesired gates s.shadow).replied .lock tag .done [])

/-- R51: LOCK_ALL closes every gate, empties the verifications and desires the shadow shown, in every stage and without
authority. -/
def Obligations.LockAllClosesEverything : Prop :=
  ∀ (tag : Byte) (s : State), s.mode = .active → s.rstLow = false →
    exec (.lockAll tag []) s = .next
      (if s.life.lifecycle ≠ .provisioned then s.begin.replied .lockAll tag .wrongState []
       else (State.changeDesired allClosed .shown { s.begin with verified := 0 }).replied .lockAll tag .done [])

/-- R58: PREBOOT_DONE's conditions in their order; the shadow is desired hidden and no gate changes. -/
def Obligations.PrebootDoneHidesTheShadow : Prop :=
  ∀ (tag : Byte) (s : State), s.mode = .active → s.rstLow = false →
    exec (.prebootDone tag []) s = .next
      (if s.life.lifecycle ≠ .provisioned then s.begin.replied .prebootDone tag .wrongState []
       else if s.verified = 0 then s.begin.replied .prebootDone tag .notPermitted []
       else if s.evid.stage ≠ .calm ∧ s.evid.stage ≠ .alert then
        s.begin.replied .prebootDone tag .wrongState []
       else (s.begin.changeDesired s.gates .hidden).replied .prebootDone tag .done [])

/-- R48, R64, R8: a change of desired states: the gates and the view are the new ones, each slot that changed waits in
the queue or carries the rejoin mark, slots that waited keep their places, those that join do so in ascending order
with slot 16 last, the transfer in flight takes the rejoin mark exactly where its slot changed and was not queued and
else stays as it was, the root copy goes with the last open gate where no grant stands, and nothing else changes.
Nothing is queued in AUX (R76) and in DISABLED (R79); that nothing is queued in STARTING either is the model's reading
(log entry 22). -/
def Obligations.DesiredStatesAreHandedOn : Prop :=
  ∀ (gates : Vector Gates 16) (view : View) (s : State),
    let t := s.changeDesired gates view
    t.gates = gates ∧ t.shadow = view
      ∧ (s.mode = .active → s.life.lifecycle ≠ .disabled →
        (∀ j ∈ changedSlots s.gates gates s.shadow view,
          j ∈ t.queue ∨ ∃ f, t.inFlight = some f ∧ f.slot = j ∧ f.rejoin = true)
        ∧ (∃ new, t.queue = s.queue ++ new ∧ new.Pairwise (· < ·)
          ∧ ∀ j, j ∈ new ↔ (j ∈ changedSlots s.gates gates s.shadow view ∧ j ∉ s.queue
            ∧ ∀ f, s.inFlight = some f → f.slot ≠ j))
        ∧ t.inFlight = s.inFlight.map fun f =>
          { f with rejoin := f.rejoin || decide (f.slot ∈ changedSlots s.gates gates s.shadow view ∧ f.slot ∉ s.queue) })
      ∧ (∀ k : Fin 16, rangeSlot k ∈ changedSlots s.gates gates s.shadow view ↔ s.gates[k] ≠ gates[k])
      ∧ (16 ∈ changedSlots s.gates gates s.shadow view ↔ s.shadow ≠ view)
      ∧ (changedSlots s.gates gates s.shadow view).Pairwise (· < ·)
      ∧ ((s.mode ≠ .active ∨ s.life.lifecycle = .disabled) → t.queue = s.queue ∧ t.inFlight = s.inFlight)
      ∧ t.rootCopy = (if s.anyGateOpen = true ∧ t.anyGateOpen = false ∧ s.grants = [] then none else s.rootCopy)
      ∧ t = { s with
        gates := gates, shadow := view, queue := t.queue, inFlight := t.inFlight, rootCopy := t.rootCopy }

/-! ### The evidence score -/

/-- R115, R116: SET_POLICY's authority and stage; where no range lies under the shadow and the stage stays CALM, the
record written whole with its check. R59: a range under the shadow is named by OVERLAP. A taken SET_POLICY acts at its
commit: on the beacon watch by R86, on the tamper watch by R89, on the dormancy and decay counts, and a changed L hands
slot 16 on (R59); then the stage is evaluated again with S unchanged, in a commit of its own, rising by R103 and R104
or falling by R105 (R116). That the write saves the powered-seconds counter is the model's choice (log entry 24). -/
def Obligations.SetPolicyWritesTheRecord : Prop :=
  ∀ (tag : Byte) (c : Settings) (s : State), s.Admits .setPolicy →
    readPolicyBody c.toBytes = some c →
    (s.life.lifecycle = .provisioned → s.verified.getLsbD 0 = false →
      exec (.setPolicy tag c.toBytes) s = .next (s.begin.replied .setPolicy tag .notPermitted []))
    ∧ (s.life.lifecycle = .unprovisioned ∨ s.verified.getLsbD 0 = true →
      s.evid.stage = .lockdown →
      exec (.setPolicy tag c.toBytes) s = .next (s.begin.replied .setPolicy tag .notPermitted []))
    ∧ (s.life.lifecycle = .unprovisioned ∨
        (s.verified.getLsbD 0 = true ∧ lowestUnderShadow s.layout.edits c.shadowL = none) →
      s.evid.stage = .calm → evaluate c s.evid.score .calm = .calm →
      ∃ t : State, exec (.setPolicy tag c.toBytes) s = .next t
        ∧ t.settings = c ∧ t.nvs.settings = ⟨c, c.check⟩ ∧ t.nvs.settings.good = true
        ∧ t.evid = s.evid ∧ t.gates = s.gates ∧ t.shadow = s.shadow ∧ t.verified = s.verified
        ∧ t.cells = s.cells ∧ t.cred = s.cred ∧ t.layout = s.layout ∧ t.life = s.life ∧ t.window = s.window
        ∧ t.decayCount = (if c.idc = s.settings.idc then s.decayCount else 0)
        ∧ t.dormancyCount = (if c.dormId = s.settings.dormId then s.dormancyCount else 0)
        ∧ ∃ r, t.reply = some r ∧ r[2]? = some ReplyCode.done.code)
    ∧ (s.life.lifecycle = .provisioned → s.verified.getLsbD 0 = true → s.evid.stage ≠ .lockdown →
      ∀ k, lowestUnderShadow s.layout.edits c.shadowL = some k →
        exec (.setPolicy tag c.toBytes) s = .next
          (s.begin.replied .setPolicy tag .overlap [BitVec.ofNat 8 k.val, 16]))
    ∧ (s.life.lifecycle = .unprovisioned ∨
        (s.verified.getLsbD 0 = true ∧ lowestUnderShadow s.layout.edits c.shadowL = none) →
      s.evid.stage ≠ .lockdown →
      ∃ u : State, exec (.setPolicy tag c.toBytes) s = .next (u.reevaluate.replied .setPolicy tag .done [])
        ∧ u =
          { s.begin with
            settings := c
            nvs := { s.nvs with settings := ⟨c, c.check⟩, seconds := s.seconds }
            writeImages := [⟨s.nvs, []⟩]
            beacon :=
              match s.beacon with
              | none =>
                if c.beaconOn = true ∧ s.settings.beaconOn = false then
                  some ⟨none, s.now, none, s.now + c.w * 1000000⟩
                else none
              | some b =>
                if c.beaconOn = false then none
                else some (if c.w = s.settings.w then b else { b with deadline := s.now + c.w * 1000000 })
            tamper :=
              if c.tamperCode = s.settings.tamperCode then s.tamper
              else if c.tamperCode = 0 then .off
              else if s.settings.tamperCode = 0 then (if s.tampOpen then .opening s.now else .armed)
              else match s.tamper with
                | .off => .off
                | .armed => .armed
                | .opening _ => .opening s.now
                | .tripped => .tripped
                | .closing _ => .closing s.now
            dormancyCount := if c.dormId = s.settings.dormId then s.dormancyCount else 0
            decayCount := if c.idc = s.settings.idc then s.decayCount else 0
            queue := u.queue
            inFlight := u.inFlight }
        ∧ (c.shadowL = s.settings.shadowL → u.queue = s.queue ∧ u.inFlight = s.inFlight)
        ∧ (c.shadowL ≠ s.settings.shadowL →
          (16 ∈ s.queue → u.queue = s.queue ∧ u.inFlight = s.inFlight)
          ∧ (16 ∉ s.queue → ∀ f, s.inFlight = some f → f.slot = 16 →
            u.queue = s.queue ∧ u.inFlight = some { f with rejoin := true })
          ∧ (16 ∉ s.queue → (∀ f, s.inFlight = some f → f.slot ≠ 16) →
            u.queue = s.queue ++ [16] ∧ u.inFlight = s.inFlight)))
    ∧ (let e := s.evid
      let stage := evaluate s.settings e.score e.stage
      (stage = e.stage → ¬(e.stage = .alert ∧ (e.score = 0 ∨ e.score + s.settings.h < s.settings.ta)) →
        s.reevaluate = s)
      ∧ (stage = e.stage → e.stage = .alert → (e.score = 0 ∨ e.score + s.settings.h < s.settings.ta) →
        s.reevaluate = State.commit [.evidence]
          { s with evid := Evidence.append s.seconds .stage 0 e.score .calm { e with stage := .calm } })
      ∧ (stage ≠ e.stage →
        s.reevaluate = State.settleRise (passed e.stage stage) []
          { s with
            evid :=
              (passed e.stage stage).foldl (fun x l => x.append s.seconds .stage 0 e.score l)
                { e with stage := stage } }))

/-- R172, R115: a taken policy record lies within the ranges of its fields, whatever was sent; and of any 30 bytes with
the layout of section 10.5 this is what becomes: the thresholds, R_user, L and the two switches within their ranges,
the record is taken with each other field clamped, the last byte disregarded; else it is refused whole. -/
def Obligations.PolicyFieldsAreClampedOrRefused : Prop :=
  (∀ (body : Bytes) (c : Settings), readPolicyBody body = some c →
    body.length = 30
      ∧ c.wBad ≤ 1023 ∧ c.wBeacon ≤ 1023 ∧ c.wTamper ≤ 1023 ∧ c.wDorm ≤ 1023 ∧ c.wForeign ≤ 1023
      ∧ 1 ≤ c.ta ∧ c.ta ≤ c.tl ∧ c.tl ≤ c.tw ∧ c.tw ≤ 4095 ∧ c.rUser ≤ 16
      ∧ c.h ≤ 255 ∧ c.d ≤ 255 ∧ c.idc ≤ 255 ∧ c.dormId ≤ 255
      ∧ 2 ≤ c.w ∧ c.w ≤ 255 ∧ c.tamperCode ≤ 4 ∧ 1 ≤ c.p ∧ c.p ≤ 15
      ∧ c.shadowL % 8 = 0 ∧ c.shadowL ≤ 32768 ∧ 1 ≤ c.maxHold ∧ c.maxHold ≤ 240
      ∧ readPolicyBody c.toBytes = some c)
  ∧
  (∀ (c : Settings) (last : Byte),
      (∀ n ∈ [c.wBad, c.wBeacon, c.wTamper, c.wDorm, c.wForeign, c.ta, c.tl, c.tw, c.shadowL], n < 65536) →
      (∀ n ∈ [c.h, c.d, c.idc, c.rUser, c.w, c.tamperCode, c.dormId, c.p, c.maxHold], n < 256) →
      readPolicyBody (c.toBytes.dropLast ++ [last]) =
        if 1 ≤ c.ta ∧ c.ta ≤ c.tl ∧ c.tl ≤ c.tw ∧ c.tw ≤ 4095 ∧ c.rUser ≤ 16 ∧ c.shadowL % 8 = 0 ∧ c.shadowL ≤ 32768 then
          some
            { c with
              wBad := min c.wBad 1023, wBeacon := min c.wBeacon 1023, wTamper := min c.wTamper 1023
              wDorm := min c.wDorm 1023, wForeign := min c.wForeign 1023
              w := max c.w 2, tamperCode := min c.tamperCode 4, p := max 1 (min c.p 15)
              maxHold := max 1 (min c.maxHold 240) }
        else none)
  ∧
  (∀ body : Bytes,
      (body.length ≠ 30 → readPolicyBody body = none)
        ∧ ∀ b : Byte, 1 < b.toNat → (body[19]? = some b ∨ body[21]? = some b) → readPolicyBody body = none)
  ∧
  (∀ c : Settings, c.toBytes.length = 30 ∧ c.toBytes =
      be 2 c.wBad ++ be 2 c.wBeacon ++ be 2 c.wTamper ++ be 2 c.wDorm ++ be 2 c.wForeign ++ be 2 c.ta ++ be 2 c.tl
        ++ be 2 c.tw ++ be 1 c.h ++ be 1 c.d ++ be 1 c.idc ++ [flag c.scoreWipe] ++ be 1 c.rUser ++ [flag c.beaconOn]
        ++ be 1 c.w ++ be 1 c.tamperCode ++ be 1 c.dormId ++ be 1 c.p ++ be 2 c.shadowL ++ be 1 c.maxHold ++ [0])

/-- R101, R103, R104: an evidence event in PROVISIONED: S saturates at 4095; the entry carries the contribution, the
new S and the stage before; where S rose, the stage is what the table of R103 gives, a STAGE entry for each level
passed, in rising order. R100: in UNPROVISIONED and DISABLED an event changes neither S nor the trail. R104, R107 to
R109: a rise latches STAGE_RISE, and the effects of each level entered follow in rising order: ALERT drops every grant
and the intent; a rise to WIPE is written in the wipe-start commit and starts the wipe. R118: an entry joins the trail
at the newest end, where the oldest of 24 leaves; its time is not below the newest entry's, and the append count
saturates at 65535. -/
def Obligations.EvidenceRaisesScoreAndStage : Prop :=
  (∀ (c : Settings) (time : Nat) (kind : TrailKind) (contribution : Nat) (e : Evidence),
    let score := min 4095 (e.score + contribution)
    let stage :=
      if e.score < score then
        (if e.stage = .wipe then .wipe
         else if c.tw ≤ score ∧ c.scoreWipe = true then .wipe
         else if c.tl ≤ score then .lockdown
         else if c.ta ≤ score ∧ e.stage = .calm then .alert
         else e.stage)
      else e.stage
    let own := Evidence.append time kind contribution score e.stage { e with score := score }
    (e.take c time kind contribution).1 =
      (passed e.stage stage).foldl (fun e l => e.append time .stage 0 score l) { own with stage := stage }
    ∧ (e.take c time kind contribution).2 = passed e.stage stage)
  ∧
  (∀ (old new l : Stage),
      (l ∈ passed old new ↔ (old.code < l.code ∧ l.code ≤ new.code))
        ∧ (passed old new).Pairwise (fun x y => x.code < y.code))
  ∧
  (∀ (kind : TrailKind) (contribution : Nat) (extra : List SetId) (s : State),
      let e := s.evid.take s.settings s.seconds kind contribution
      let u := State.commit (extra ++ [.evidence]) { s with evid := e.1 }
      let raised : State := { u with latched := u.latched ||| 32 }
      let wipe : State :=
        State.commit (extra ++ [.lifecycle, .evidence])
          { s with
            life := ⟨.wiping, some ⟨0, []⟩⟩
            evid := Evidence.append s.seconds .wipeStart 0 e.1.score .wipe { e.1 with stage := .wipe } }
      let wiped : State := { wipe with latched := wipe.latched ||| 32 }
      ((s.life.lifecycle = .unprovisioned ∨ s.life.lifecycle = .disabled) →
        s.takeEvidence kind contribution extra = if extra = [] then s else s.commit extra)
      ∧ ((s.life.lifecycle = .provisioned ∨ s.life.lifecycle = .wiping) →
        (e.2 = [] → s.takeEvidence kind contribution extra = u)
        ∧ (e.2 = [.alert] → s.takeEvidence kind contribution extra = raised.enterAlert)
        ∧ (e.2 = [.lockdown] → s.takeEvidence kind contribution extra = raised.enterLockdown)
        ∧ (e.2 = [.alert, .lockdown] → s.takeEvidence kind contribution extra = raised.enterAlert.enterLockdown)
        ∧ (e.2 = [.wipe] → s.takeEvidence kind contribution extra = wiped.wipeStartActions)
        ∧ (e.2 = [.lockdown, .wipe] → s.takeEvidence kind contribution extra = wiped.enterLockdown.wipeStartActions)
        ∧ (e.2 = [.alert, .lockdown, .wipe] →
          s.takeEvidence kind contribution extra = wiped.enterAlert.enterLockdown.wipeStartActions))
      ∧ s.enterAlert =
        { s with
          grants := []
          intent := none
          rootCopy := if s.grants = [] then s.rootCopy else none
          report := if s.grants = [] then s.report else { s.report with dropCause := some .stageRise } })
  ∧
  (∀ (time : Nat) (kind : TrailKind) (contribution score : Nat) (stage : Stage) (e : Evidence),
      let a := e.append time kind contribution score stage
      let entry : TrailEntry :=
        ⟨match e.trail.getLast? with
          | none => time
          | some newest => max time newest.time, kind, contribution, score, stage⟩
      (e.trail.length < 24 → a.trail = e.trail ++ [entry])
      ∧ (e.trail.length = 24 → a.trail = e.trail.tail ++ [entry])
      ∧ a.appended = min 65535 (e.appended + 1) ∧ a.score = e.score ∧ a.stage = e.stage)

/-- R114: STAND_DOWN's conditions in their order; S = 0, CALM and its entry in one commit, the decay count from 0, and
nothing reopened. -/
def Obligations.StandDownReturnsToCalm : Prop :=
  ∀ (tag : Byte) (s : State), s.mode = .active → s.rstLow = false →
    exec (.standDown tag []) s = .next
      (if s.life.lifecycle ≠ .provisioned then s.begin.replied .standDown tag .wrongState []
       else if s.verified.getLsbD 0 = false then s.begin.replied .standDown tag .notPermitted []
       else if s.evid.stage ≠ .lockdown then s.begin.replied .standDown tag .wrongState []
       else State.replied .standDown tag .done []
        { State.commit [.evidence]
            { s.begin with
              evid := Evidence.append s.seconds .standDown 0 0 .calm { s.evid with score := 0, stage := .calm } } with
          decayCount := 0 })

/-- R112, R105: at a tick S falls by min(S, D); where S or D is 0 nothing is written; in ALERT the fall test is made in
the same commit. R111: the decay timer is OFF with Idc 0, STOPPED in LOCKDOWN and WIPE, RUNNING in ACTIVE and AUX and
HELD in STARTING and OFF; a tick comes at a full Idc and starts the count again from 0, and none comes where it does
not run. -/
def Obligations.DecayTickLowersTheScore : Prop :=
  (∀ s : State,
    s.decayState =
      (if s.settings.idc = 0 then .off
       else match s.evid.stage, s.mode with
        | .lockdown, _ => .stopped
        | .wipe, _ => .stopped
        | _, .active => .running
        | _, .aux => .running
        | _, .starting => .held
        | _, .off => .held)
    ∧ (s.decayState ≠ .running → exec .decayTick s = .next s.begin))
  ∧
  ∀ s : State, s.decayState = .running →
    let r := { s.reaching (s.now + (s.settings.idc * Config.minute - s.decayCount)) with decayCount := 0 }
    let score := s.evid.score - min s.evid.score s.settings.d
    exec .decayTick s = .next
      (if s.evid.score = 0 ∨ s.settings.d = 0 then r
       else State.commit [.evidence]
        { r with
          evid :=
            if s.evid.stage = .alert ∧ (score = 0 ∨ score + s.settings.h < s.settings.ta) then
              Evidence.append r.seconds .stage 0 score .calm { s.evid with score := score, stage := .calm }
            else { s.evid with score := score } })

/-! ### Theft sensing -/

/-- R93 to R95: BIND_PLATFORM, without slot 0 among the verifications NOT_PERMITTED, and so in LOCKDOWN, else with
another body than a form and its token BAD_VALUE, commits the token and settles the window; PLATFORM_REPORT of another
length than 0 or 16 bytes is refused BAD_VALUE; a report and the deadline settle a WAITING window, and a wrong, empty
or missing report raises FOREIGN. -/
def Obligations.PlatformBindingAndReports : Prop :=
  ∀ (tag : Byte) (token : Bytes) (s : State),
    (s.Admits .bindPlatform → s.verified.getLsbD 0 = true → s.evid.stage ≠ .lockdown →
      (token.length = 16 → exec (.bindPlatform tag (1 :: token)) s = .next
        (State.replied .bindPlatform tag .done []
          { State.commit [.binding] { s.begin with binding := some token } with
            window := if s.window = .foreign then .foreign else .matched }))
      ∧ exec (.bindPlatform tag [2]) s = .next
        (State.replied .bindPlatform tag .done []
          { State.commit [.binding] { s.begin with binding := none } with
            window := match s.window with
              | .waiting _ => .none
              | .none => .none
              | .matched => .matched
              | .foreign => .foreign }))
    ∧ (∀ body : Bytes, s.Admits .bindPlatform → body.length ≤ 240 →
      ((s.verified.getLsbD 0 = false ∨ s.evid.stage = .lockdown) → exec (.bindPlatform tag body) s = .next
        (s.begin.replied .bindPlatform tag .notPermitted []))
      ∧ (s.verified.getLsbD 0 = true → s.evid.stage ≠ .lockdown → body ≠ [2] →
        (∀ bound : Bytes, body = 1 :: bound → bound.length ≠ 16) → exec (.bindPlatform tag body) s = .next
          (s.begin.replied .bindPlatform tag .badValue [])))
    ∧ (s.Admits .platformReport → token.length ≠ 0 → token.length ≠ 16 → token.length ≤ 240 →
      exec (.platformReport tag token) s = .next (s.begin.replied .platformReport tag .badValue []))
    ∧ (s.Admits .platformReport → (token.length = 0 ∨ token.length = 16) →
      (s.window = .none → exec (.platformReport tag token) s = .next
        (s.begin.replied .platformReport tag .done [0]))
      ∧ (s.window = .matched → exec (.platformReport tag token) s = .next
        (s.begin.replied .platformReport tag .done [2]))
      ∧ (s.window = .foreign → exec (.platformReport tag token) s = .next
        (s.begin.replied .platformReport tag .done [3]))
      ∧ ∀ t, s.window = .waiting t →
        (s.binding = some token → exec (.platformReport tag token) s = .next
          (State.replied .platformReport tag .done [2] { s.begin with window := .matched }))
        ∧ (s.binding ≠ some token →
          let u := State.takeEvidence .foreign s.settings.wForeign []
            { s.begin with window := .foreign, latched := s.latched ||| 16 }
          u.window = .foreign ∧
            exec (.platformReport tag token) s = .next (u.replied .platformReport tag .done [3])))
    ∧ ∀ t, s.window = .waiting t → exec .reportWindowDeadline s = .next
        (State.takeEvidence .foreign s.settings.wForeign []
          { s.reaching t with window := .foreign, latched := s.latched ||| 16 })

/-- R84: each rising edge while WATCHING: a valid beacon follows the reference edge by 250 ms to 4 s and moves the
deadline to W after it; any edge becomes the reference, and no other value changes but the level. R82: an edge needs
the level low before it and 1 ms since the last change of the level or the start of the watch; that the state holds
this 1 ms and that a command without it is disregarded are the model's choices (log entries 17 and 5). -/
def Obligations.RisingEdgesAreJudged : Prop :=
  ∀ (b : BeaconWatch) (s : State), s.beacon = some b →
    (b.level = some false → b.changed + 1000 ≤ s.now →
      exec .presRisingEdge s = .next
        { s.begin with
          beacon := some
            { level := some true
              changed := s.now
              reference := some s.now
              deadline :=
                match b.reference with
                | some t =>
                  if t + 250000 ≤ s.now ∧ s.now ≤ t + 4000000 then s.now + s.settings.w * 1000000 else b.deadline
                | none => b.deadline } })
    ∧ ((b.level ≠ some false ∨ s.now < b.changed + 1000) → exec .presRisingEdge s = .next s.begin)

/-- R85, R81: the running-out of the beacon window moves the deadline on by W, keeps the reference edge, latches the
indicator, drops every grant and hands the event on. R82: the deglitched level of PRES follows its falling changes, and
takes its first level, 1 ms or more after the change or the start before; that the state holds this 1 ms and that a
change within it is disregarded are the model's choices (log entries 17 and 5). R90: the dormancy count that reaches Id
raises DORMANT and starts again from 0; the timer is OFF with Id 0, IDLE out of ACTIVE or of PROVISIONED, and by the
mark SATISFIED or COUNTING; that it is OFF and not IDLE where both hold is the model's choice (log entry 45). -/
def Obligations.WatchesRaiseTheirEvents : Prop :=
  (∀ (b : BeaconWatch) (s : State), s.beacon = some b →
      let r :=
        { s.reaching b.deadline with
          beacon := some { b with deadline := b.deadline + s.settings.w * 1000000 } }
      exec (.beaconLost true) s = .next
          (State.takeEvidence .beaconLost s.settings.wBeacon [] ((r.dropGrants .beaconLost).latch .beaconLost))
        ∧ exec (.beaconLost false) s = .next
          ((State.takeEvidence .beaconLost s.settings.wBeacon [] (r.latch .beaconLost)).dropGrants .beaconLost))
  ∧
  (∀ s : State,
      (∀ b, s.beacon = some b → b.level = some true → b.changed + 1000 ≤ s.now →
        exec (.presFallingChange false) s = .next
          { s.begin with beacon := some { b with level := some false, changed := s.now } })
      ∧ (∀ b level, s.beacon = some b → b.level = none → b.changed + 1000 ≤ s.now →
        exec (.presFallingChange level) s = .next
          { s.begin with beacon := some { b with level := some level, changed := s.now } })
      ∧ (∀ b level, s.beacon = some b → s.now < b.changed + 1000 →
        exec (.presFallingChange level) s = .next s.begin)
      ∧ (s.dormancyState = .counting → exec .dormant s = .next
        (State.takeEvidence .dormant s.settings.wDorm []
          { s.reaching (s.now + (s.settings.dormId * 60000000 - s.dormancyCount)) with
            dormancyCount := 0
            latched := s.latched ||| 8 }))
      ∧ (s.dormancyState ≠ .counting → exec .dormant s = .next s.begin)
      ∧ s.dormancyState =
        (if s.settings.dormId = 0 then .off
         else if s.mode ≠ .active ∨ s.life.lifecycle ≠ .provisioned then .idle
         else if s.satisfied = true then .satisfied
         else .counting))

/-- R87, R88: the tamper watch's table, in ACTIVE and AUX; in STARTING and OFF the line is not read. The deglitch times
of the codes are 2, 8, 32 and 128 ms. -/
def Obligations.TamperLoopIsWatched : Prop :=
  [1, 2, 3, 4].map deglitchTime = [2000, 8000, 32000, 128000] ∧
  ∀ (isOpen : Bool) (s : State),
    let line := { s.begin with tampOpen := isOpen }
    ((s.mode = .active ∨ s.mode = .aux) → exec (.tampChange isOpen) s = .next
      { line with
        tamper := match s.tamper with
          | .off => .off
          | .armed => if isOpen then .opening s.now else .armed
          | .opening t => if isOpen then .opening t else .armed
          | .tripped => if isOpen then .tripped else .closing s.now
          | .closing t => if isOpen then .tripped else .closing t })
    ∧ ((s.mode = .starting ∨ s.mode = .off) → exec (.tampChange isOpen) s = .next line)
    ∧ ((s.mode = .active ∨ s.mode = .aux) → ∀ t dropFirst,
      let r := s.reaching (t + deglitchTime s.settings.tamperCode)
      (s.tamper = .closing t → exec (.tamperDeglitchEnd dropFirst) s = .next { r with tamper := .armed })
      ∧ (s.tamper = .opening t →
        exec (.tamperDeglitchEnd true) s = .next
            (State.takeEvidence .tamper s.settings.wTamper []
              ((State.dropGrants .tamper { r with tamper := .tripped }).latch .tamper))
          ∧ exec (.tamperDeglitchEnd false) s = .next
            ((State.takeEvidence .tamper s.settings.wTamper []
              (State.latch .tamper { r with tamper := .tripped })).dropGrants .tamper)))

/-! ### The key link -/

/-- R65 to R67, R70: a head slot is compared, out of LOCKDOWN, WIPE, WIPING and DISABLED, and the transfer of the table
is sent: nothing, CLEAR, GATES or SHADOW; a LOAD where the key unwraps. R69, R7: a failed unwrap sends nothing, marks
the range FAULTED and closes its gates. R68: in LOCKDOWN, WIPE and WIPING the comparison takes every range as closed
and the shadow as shown: CLEAR and SHADOW-shown alone are sent. R65: where the link is not free, the queue waits. The
LOAD carries the response the active layout gives at that moment, which is the model's choice (log entry 40). -/
def Obligations.HeadSlotIsComparedAndSent : Prop :=
  (∀ (j : Fin 17) (rest : List (Fin 17)) (s : State), s.queue = j :: rest →
      s.mode = .active → s.inFlight = none → s.kpurge = none → s.linkState = .running → s.restricted = false →
      let r := { s.begin with queue := rest }
      let sent (t : Transfer) : Option InFlight := some ⟨j, t, s.now, false⟩
      (∀ k : Fin 16, j = rangeSlot k →
        let m := s.mirror[k]
        (s.gates[k].anyOpen = false → m.state = .empty → exec .syncCompare s = .next r)
        ∧ (s.gates[k].anyOpen = false → m.state = .loaded → exec .syncCompare s = .next
          { r with
            mirror := s.mirror.set k { m with state := .clearing }
            inFlight := sent (.clear k) })
        ∧ (s.gates[k].anyOpen = true → m.state = .loaded → exec .syncCompare s = .next
          (if m.gates = s.gates[k] then r else { r with inFlight := sent (.gates k s.gates[k]) }))
        ∧ (s.gates[k].anyOpen = true → m.state = .empty → ∀ root key,
          s.rootCopy.or s.rootInCell = some root → s.cells[rangeCell k] = .holding (wrapKey root key) →
          exec .syncCompare s = .next
            { r with
              rootCopy := some root
              mirror := s.mirror.set k { m with state := .loading }
              inFlight := sent
                (.load k key s.gates[k] s.layout.ranges[k].edit.response (s.loadExtent k)) }))
      ∧ (j = 16 →
        let m := s.mirrorShadow
        let t : Transfer := .shadow s.shadow s.settings.shadowL
        (m.state = .empty → exec .syncCompare s = .next
          { r with mirrorShadow := { m with state := .loading }, inFlight := sent t })
        ∧ (m.state = .loaded → exec .syncCompare s = .next
          (if m.view = s.shadow ∧ m.length = some s.settings.shadowL then r else { r with inFlight := sent t }))))
  ∧
  (∀ (k : Fin 16) (rest : List (Fin 17)) (s : State), s.queue = rangeSlot k :: rest → rangeSlot k ∉ rest →
      s.mode = .active → s.inFlight = none → s.kpurge = none → s.linkState = .running → s.restricted = false →
      s.gates[k].anyOpen = true → s.mirror[k].state = .empty →
      (∀ root ∈ s.rootCopy.or s.rootInCell, unwrapKey root s.cells[rangeCell k] = none) →
      ∃ t : State, exec .syncCompare s = .next t
        ∧ t.inFlight = none ∧ t.queue = rest ++ [rangeSlot k] ∧ t.mirror = s.mirror
        ∧ t.layout.ranges[k] = { s.layout.ranges[k] with health := .faulted } ∧ t.gates[k] = .closed
        ∧ (∀ i : Fin 16, i ≠ k → t.layout.ranges[i] = s.layout.ranges[i] ∧ t.gates[i] = s.gates[i])
        ∧ t.nvs = (State.commit [.layout] { s.begin with layout := t.layout }).nvs
        ∧ t.faultRun = s.faultRun ∧ t.evid = s.evid ∧ t.latched = s.latched ∧ t.shadow = s.shadow
        ∧ t.cells = s.cells ∧ t.verified = s.verified)
  ∧
  (∀ (j : Fin 17) (rest : List (Fin 17)) (s : State), s.queue = j :: rest →
      s.mode = .active → s.inFlight = none → s.kpurge = none → s.linkState = .running → s.life.lifecycle ≠ .disabled →
      (s.evid.stage = .lockdown ∨ s.evid.stage = .wipe ∨ s.life.lifecycle = .wiping) →
      let r := { s.begin with queue := rest }
      let sent (t : Transfer) : Option InFlight := some ⟨j, t, s.now, false⟩
      (∀ k : Fin 16, j = rangeSlot k →
        exec .syncCompare s = .next
          (if s.mirror[k].state = .empty then r
           else
            { r with
              mirror := s.mirror.set k { s.mirror[k] with state := .clearing }
              inFlight := sent (.clear k) }))
      ∧ (j = 16 →
        let m := s.mirrorShadow
        let t : Transfer := .shadow .shown s.settings.shadowL
        (m.state = .empty → exec .syncCompare s = .next
          { r with mirrorShadow := { m with state := .loading }, inFlight := sent t })
        ∧ (m.state ≠ .empty → exec .syncCompare s = .next
          (if m.view = .shown ∧ m.length = some s.settings.shadowL then r else { r with inFlight := sent t }))))
  ∧
  (∀ s : State,
      (s.queue = [] ∨ s.mode ≠ .active ∨ s.inFlight ≠ none ∨ s.kpurge ≠ none ∨ s.linkState = .stopped
        ∨ s.life.lifecycle = .disabled) → exec .syncCompare s = .next s.begin)
  ∧
  (∀ (k : Fin 16) (s : State),
      (k = 0 → s.loadExtent k = .wholeDrive (s.layout.capacity.getD 0) s.layout.spans)
      ∧ (k ≠ 0 → ∀ x, s.layout.ranges[k].edit.extent = some x → s.loadExtent k = .span x)
      ∧ (s.layout.spans.Pairwise fun x y => x.start ≤ y.start)
      ∧ ∀ x, x ∈ s.layout.spans ↔
        ∃ i : Fin 16, i ≠ 0 ∧ s.layout.ranges[i].edit.enabled = true ∧ s.layout.ranges[i].edit.extent = some x)

/-- R71: an accepting edge: the mirror takes the transferred state, the fault run is 0, and a rejoin mark puts the slot
at the tail, in one event; an edge without a transfer in flight, out of ACTIVE or while KPURGE is high is
disregarded. -/
def Obligations.AcceptedTransfersReachTheMirror : Prop :=
  (∀ (f : InFlight) (s : State), s.inFlight = some f → s.mode = .active → s.kpurge = none →
      let r :=
        { s.begin with
          inFlight := none
          faultRun := 0
          queue := if f.rejoin then s.queue ++ [f.slot] else s.queue }
      exec (.klAck true) s = .next
        (match f.transfer with
          | .load k _ g _ _ => { r with mirror := s.mirror.set k ⟨.loaded, g⟩ }
          | .gates k g => { r with mirror := s.mirror.set k ⟨.loaded, g⟩ }
          | .clear k => { r with mirror := s.mirror.set k ⟨.empty, .closed⟩ }
          | .shadow view length => { r with mirrorShadow := ⟨.loaded, view, some length⟩ }))
  ∧
  (∀ (klRes : Bool) (s : State), (s.inFlight = none ∨ s.mode ≠ .active ∨ s.kpurge.isSome) →
      exec (.klAck klRes) s = .next s.begin)

/-- R72 to R74: a refusing edge and the end of the wait are one fault: purge, every gate closed, the verifications
empty, KEYLINK_FAULT latched, a KEYLINK entry that leaves S, the fault run up by one and STOPPED at 3. R100: in WIPING
the entry is written too, in UNPROVISIONED it is not, and nothing is committed. -/
def Obligations.LinkFaultsPurgeTheEngine : Prop :=
  (∀ (f : InFlight) (s : State), s.inFlight = some f → s.mode = .active → s.kpurge = none →
    s.life.lifecycle = .provisioned → s.evid.score ≤ 4095 →
    ∀ (c : Instr) (r : State), (c = .klAck false ∧ r = s.begin)
        ∨ (c = .ackTimeout ∧ r = s.reaching (f.rose + 10000)) →
    ∃ t : State, exec c s = .next t
      ∧ t.inFlight = none ∧ t.kpurge = some r.now ∧ t.mirror = emptyMirror ∧ t.mirrorShadow = .none
      ∧ t.gates = allClosed ∧ t.shadow = .shown ∧ t.rootCopy = none ∧ t.verified = 0
      ∧ t.latched = s.latched ||| 64
      ∧ t.evid = Evidence.append r.seconds .keylink 0 s.evid.score s.evid.stage s.evid
      ∧ t.faultRun = min 3 (s.faultRun + 1)
      ∧ t.linkState = (if 2 ≤ s.faultRun then .stopped else s.linkState)
      ∧ t.grants = s.grants ∧ t.intent = s.intent ∧ t.credOp = s.credOp ∧ t.layoutOp = s.layoutOp
      ∧ t.wipeOp = s.wipeOp ∧ t.job = s.job ∧ t.cells = s.cells ∧ t.layout = s.layout ∧ t.cred = s.cred)
  ∧
  (∀ (f : InFlight) (s : State), s.inFlight = some f → s.mode = .active → s.kpurge = none →
    (s.life.lifecycle = .unprovisioned ∨ (s.life.lifecycle = .wiping ∧ s.evid.score ≤ 4095)) →
    ∀ (c : Instr) (r : State), (c = .klAck false ∧ r = s.begin)
        ∨ (c = .ackTimeout ∧ r = s.reaching (f.rose + 10000)) →
    ∃ t : State, exec c s = .next t
      ∧ t.inFlight = none ∧ t.kpurge = some r.now ∧ t.mirror = emptyMirror ∧ t.mirrorShadow = .none
      ∧ t.gates = allClosed ∧ t.shadow = .shown ∧ t.rootCopy = none ∧ t.verified = 0
      ∧ t.latched = s.latched ||| 64
      ∧ (s.life.lifecycle = .unprovisioned → t.evid = s.evid ∧ t.nvs = s.nvs)
      ∧ (s.life.lifecycle = .wiping →
        t.evid = Evidence.append r.seconds .keylink 0 s.evid.score s.evid.stage s.evid
          ∧ t.nvs = (State.commit [.evidence] { r with evid := t.evid }).nvs)
      ∧ t.faultRun = min 3 (s.faultRun + 1)
      ∧ t.linkState = (if 2 ≤ s.faultRun then .stopped else s.linkState)
      ∧ t.life = s.life ∧ t.wipeClaim = s.wipeClaim ∧ t.job = s.job ∧ t.cells = s.cells ∧ t.wipeOp = s.wipeOp)

/-- R74: KPURGE falls 20 µs after its rise, and exactly the slots that differ and are not queued join the tail, in
ascending order. R66, R67, R73: a slot differs while its record is LOADING or CLEARING, and where the comparison would
send a transfer. -/
def Obligations.PulseEndsAndSlotsRejoin : Prop :=
  (∀ (rose : Micros) (s : State), s.kpurge = some rose → s.mode = .active → s.life.lifecycle ≠ .disabled →
    ∃ new : List (Fin 17),
      exec .kpurgeFall s = .next { s.reaching (rose + 20) with kpurge := none, queue := s.queue ++ new }
        ∧ new.Pairwise (· < ·) ∧ ∀ j, j ∈ new ↔ (s.differs j = true ∧ j ∉ s.queue))
  ∧
  (∀ s : State,
      (∀ k : Fin 16, s.differs (rangeSlot k) = true ↔
        (s.mirror[k].state = .loading ∨ s.mirror[k].state = .clearing
          ∨ (if s.gates[k].anyOpen = true then s.mirror[k].state = .empty ∨ s.mirror[k].gates ≠ s.gates[k]
             else s.mirror[k].state ≠ .empty)))
      ∧ (s.differs 16 = true ↔
        (s.mirrorShadow.state = .loading ∨ s.mirrorShadow.state = .empty ∨ s.mirrorShadow.view ≠ s.shadow
          ∨ s.mirrorShadow.length ≠ some s.settings.shadowL))
      ∧ ∀ j : Fin 17, s.settled j = true ↔
        (j ∉ s.queue ∧ (∀ f, s.inFlight = some f → f.slot ≠ j) ∧ s.differs j = false))

/-! ### The erase engine -/

/-- R127, R129, R136, R121: the arbiter grants the wipe's next cell first, else the LAYOUT operation's next range, and
the job's first step starts where RES_READY is true. R65 and R127 do at once what SYNC_COMPARE and ARBITER_GRANT command
(log entry 7). -/
def Obligations.ArbiterGrantsTheWipeFirst : Prop :=
  ∀ s : State, s.mode ≠ .off → s.life.lifecycle ≠ .disabled → s.job = none →
    let phase : Phase := if s.resReady then .pass s.now false false else .waiting
    0 < s.settings.p →
    (∀ (journal : Journal) (c : Fin 26), s.wipeClaim = true → s.life.journal = some journal → journal.next.val = c.val →
      exec .arbiterGrant s = .next { s.begin with job := some ⟨.wipe, c, s.settings.p, 1, 0, 0, phase⟩ })
    ∧ (∀ w : LayoutWork, s.wipeClaim = false → s.layoutWork = some w →
      exec .arbiterGrant s = .next
        { s.begin with
          job := some ⟨.layout, rangeCell w.next, s.settings.p, 1, 0, 0, phase⟩
          layoutOp := { s.layoutOp with detail := some w.next.val } })
    ∧ (s.wipeClaim = false → s.layoutWork = none → exec .arbiterGrant s = .next s.begin)

/-- R121 to R123: the steps of a cell job: the answer, the stuck judgement below the third, the end of a pass, the
falls and rises of RES_READY. R123, R124: the third stuck pass in a row, and a second verify that reads not erased,
end the job FAULTED; a first one begins round 2; a verify that reads erased ends it BLANK, and a cell that was BLANK
before the job reads erased at its first verify. R142: with no job, and at a rise with none that waits, an edge of
RES_READY out of STARTING changes the level alone, and so does a fall in STARTING; that a rise of a line already high
changes nothing is the model's choice (log entry 5). A LAYOUT job whose WRITE phase is left standing is stated with
the rekeys (log entry 18). -/
def Obligations.CellJobStepsAreJudged : Prop :=
  (∀ (j : Job) (s : State), s.job = some j →
      let next (j : Job) (t : State) : State :=
        { t with
          job := some
            { j with
              phase := if t.resReady = false then .waiting
                else if j.p ≤ j.good then .verify t.now else .pass t.now false false } }
      (∀ t a, j.phase = .pass t a false → s.now ≤ t + 1500 →
        exec .driverAnswer s = .next { s.begin with job := some { j with phase := .pass t true false } })
      ∧ (∀ t, j.phase = .pass t false false → j.stuckRun < 2 →
        exec .passStuck s = .next
          { s.reaching (t + 1500) with
            job := some { j with stuckRun := j.stuckRun + 1, phase := .pass t false true } })
      ∧ (∀ t, j.phase = .pass t true false →
        exec .passEnd s = .next (next { j with good := j.good + 1, stuckRun := 0 } (s.reaching (t + 2000))))
      ∧ (∀ t a, j.phase = .pass t a true →
        exec .passEnd s = .next (next j (s.reaching (t + 2000))))
      ∧ ((∀ committed, j.phase ≠ .write committed) →
        exec .resReadyFall s = .next { s.begin with resReady := false, job := some { j with phase := .waiting } })
      ∧ (∀ committed, j.phase = .write committed → exec .resReadyFall s = .next { s.begin with resReady := false })
      ∧ (s.resReady = false → s.mode ≠ .starting → j.phase = .waiting →
        exec .resReadyRise s = .next (next j { s.begin with resReady := true })))
  ∧
  (∀ s : State,
      (s.job = none → exec .resReadyFall s = .next { s.begin with resReady := false })
      ∧ (s.resReady = false → s.mode ≠ .starting → (∀ j, s.job = some j → j.phase ≠ .waiting) →
        exec .resReadyRise s = .next { s.begin with resReady := true })
      ∧ (s.resReady = true → exec .resReadyRise s = .next s.begin))
  ∧
  (∀ (j : Job) (s : State), s.job = some j →
      (∀ t, j.phase = .pass t false false → j.stuckRun = 2 →
        exec .passStuck s = .next
          (State.endJob { j with stuckRun := 3, phase := .pass t false true } true (s.reaching (t + 1500))))
      ∧ ∀ t, j.phase = .verify t →
        let r := s.reaching (t + 500)
        (∀ write, (write = .ended ∨ j.owner = .wipe ∨ s.wipeClaim = true) →
          exec (.verifyResult ⟨true, write⟩) s = .next (r.endJob j false))
        ∧ (∀ write, j.round = 2 → exec (.verifyResult ⟨false, write⟩) s = .next (r.endJob j true))
        ∧ (∀ write, j.round = 1 → s.cells[j.cell] = .blank →
          exec (.verifyResult ⟨false, write⟩) s = exec (.verifyResult ⟨true, write⟩) s)
        ∧ (∀ write, j.round = 1 → s.cells[j.cell] ≠ .blank → 0 < j.p → exec (.verifyResult ⟨false, write⟩) s = .next
          { r with
            job := some
              { j with
                round := 2, good := 0, stuckRun := 0
                phase := if s.resReady then .pass r.now false false else .waiting } }))

/-- R12 to R14, R125, R79: the end of a WIPE job: the journal with the cell's state in one commit, and after cell 25
the end of the wipe in UNPROVISIONED, or in DISABLED where cell 0 is FAULTED, in one commit too, with its WIPE_DONE
entry. The detail of a wipe with faults is the lowest cell of its fault list, which stays ascending. -/
def Obligations.WipeJobsEndInTheJournal : Prop :=
  ∀ (j : Job) (journal : Journal) (faulted : Bool) (s : State),
    j.owner = .wipe → s.life = ⟨.wiping, some journal⟩ → s.evid.stage = .wipe →
    let t := s.endJob j faulted
    let committed (sets : List SetId) : Nvs :=
      (State.commit sets
        { s with life := t.life, cells := t.cells, cred := t.cred, layout := t.layout, binding := t.binding
                 evid := t.evid }).nvs
    t.job = none
      ∧ t.cells = s.cells.set j.cell (if faulted then .faulted else .blank)
      ∧ t.latched = (if faulted then s.latched ||| 512 else s.latched)
      ∧ (∃ after : Journal, t.life.journal = some after ∧ after.next.val = j.cell.val + 1
          ∧ ∀ c, c ∈ after.faults ↔ (c ∈ journal.faults ∨ (faulted = true ∧ c = j.cell)))
      ∧ (j.cell ≠ 25 →
          t.nvs = committed [.cells, .lifecycle] ∧ t.life.lifecycle = .wiping ∧ t.wipeClaim = s.wipeClaim
            ∧ t.evid = s.evid ∧ t.wipeOp = { s.wipeOp with detail := some j.cell.val } ∧ t.layout = s.layout ∧ t.cred = s.cred)
      ∧ (j.cell = 25 → s.cells[(0 : Fin 26)] = .blank →
          t.nvs = committed [.lifecycle, .cells, .credentials, .layout, .binding, .evidence]
            ∧ t.life.lifecycle = .unprovisioned ∧ t.wipeClaim = false ∧ t.cred = .factory
            ∧ t.layout = .default none ∧ t.binding = none ∧ t.backoff = none ∧ t.draft = none
            ∧ t.evid = Evidence.append s.seconds .wipeDone 0 0 .calm { s.evid with score := 0, stage := .calm }
            ∧ t.settings = s.settings
            ∧ t.wipeOp.state = .ended ∧ t.wipeOp.endedAt = some s.millis ∧ t.wipeOp.unseen = true
            ∧ (journal.faults = [] → faulted = false →
                t.wipeOp.outcome = some .complete ∧ t.wipeOp.detail = none)
            ∧ (journal.faults ≠ [] ∨ faulted = true → t.wipeOp.outcome = some .completeWithFaults
                ∧ (journal.faults.Pairwise (· < ·) → ∀ after, t.life.journal = some after →
                  ∃ c ∈ after.faults, t.wipeOp.detail = some c.val ∧ ∀ x ∈ after.faults, c ≤ x)))
      ∧ (journal.faults.Pairwise (· < ·) → ∀ after, t.life.journal = some after → after.faults.Pairwise (· < ·))
      ∧ (j.cell = 25 → s.cells[(0 : Fin 26)] = .faulted →
          t.nvs = committed [.cells, .lifecycle, .evidence] ∧ t.life.lifecycle = .disabled ∧ t.wipeClaim = false
            ∧ t.evid = Evidence.append s.seconds .wipeDone 0 s.evid.score .wipe s.evid
            ∧ t.inFlight = none ∧ t.queue = [] ∧ t.kpurge = none
            ∧ t.mirror = s.mirror ∧ t.layout = s.layout ∧ t.cred = s.cred
            ∧ t.wipeOp.outcome = some .rootFault ∧ t.wipeOp.detail = some 0)

/-- R128 to R131: the end of a LAYOUT job on range k: a new key with the mark cleared and the health GOOD, or the cell
and the health FAULTED with the mark kept; under a wipe no key is written and the operation ends SUPERSEDED. The
operation goes on at the lowest mark above k; without one it ends COMPLETE with the last range worked, or
COMPLETE_WITH_FAULTS with the lowest range that ended FAULTED in it, which is the first. R130: a job left standing in
WRITE, its write commit made or not, is ended before the arbiter's next grant (log entry 18, the model's choice). -/
def Obligations.RekeysEndInTheRangeRecord : Prop :=
  (∀ (j : Job) (k : Fin 16) (w : LayoutWork) (s : State),
    j.owner = .layout → j.cell = rangeCell k → s.layoutWork = some w →
    (∀ t, t = s.endJob j true →
      t.cells = s.cells.set (rangeCell k) .faulted
        ∧ t.layout.ranges[k] = { s.layout.ranges[k] with health := .faulted }
        ∧ t.latched = s.latched ||| 512 ∧ t.job = none
        ∧ t.nvs = (State.commit [.cells, .layout] { s with cells := t.cells, layout := t.layout }).nvs
        ∧ (s.wipeClaim = true →
            t.layoutWork = none
              ∧ t.layoutOp =
                { s.layoutOp with
                  state := .ended, outcome := some .superseded, detail := some k.val
                  endedAt := some s.millis, unseen := true })
        ∧ (s.wipeClaim = false → lowestMarked (k.val + 1) s.layout = none →
            t.layoutWork = none
              ∧ t.layoutOp =
                { s.layoutOp with
                  state := .ended, outcome := some .completeWithFaults, detail := some (w.faulted.getD k).val
                  endedAt := some s.millis, unseen := true })
        ∧ (s.wipeClaim = false → ∀ n, lowestMarked (k.val + 1) s.layout = some n →
            t.layoutWork = some ⟨n, some (w.faulted.getD k)⟩
              ∧ t.layoutOp = { s.layoutOp with detail := some n.val }))
    ∧ (∀ t root, s.wipeClaim = false → s.rootCopy.or s.rootInCell = some root → t = s.endJob j false →
      t.cells = s.cells.set (rangeCell k) (.holding (wrapKey root (Config.random32 s.draws).toList))
        ∧ t.layout.ranges[k] = { s.layout.ranges[k] with rekeyPending := false, health := .good }
        ∧ t.rootCopy = s.rootCopy ∧ t.gates = s.gates ∧ t.job = none ∧ t.latched = s.latched
        ∧ t.nvs =
          (State.commit [.cells, .layout]
            { State.commit [.cells] { s with cells := s.cells.set (rangeCell k) .blank } with
              cells := t.cells, layout := t.layout }).nvs
        ∧ (lowestMarked (k.val + 1) s.layout = none → w.faulted = none →
            t.layoutWork = none
              ∧ t.layoutOp =
                { s.layoutOp with
                  state := .ended, outcome := some .complete, detail := some k.val
                  endedAt := some s.millis, unseen := true })
        ∧ (∀ f, lowestMarked (k.val + 1) s.layout = none → w.faulted = some f →
            t.layoutWork = none
              ∧ t.layoutOp =
                { s.layoutOp with
                  state := .ended, outcome := some .completeWithFaults, detail := some f.val
                  endedAt := some s.millis, unseen := true })
        ∧ ∀ n, lowestMarked (k.val + 1) s.layout = some n →
            t.layoutWork = some ⟨n, w.faulted⟩ ∧ t.layoutOp = { s.layoutOp with detail := some n.val })
    ∧ (∀ t, s.wipeClaim = true → t = s.endJob j false →
      t.cells = s.cells.set (rangeCell k) .blank ∧ t.layout = s.layout ∧ t.draws = s.draws
        ∧ t.nvs = (State.commit [.cells] { s with cells := t.cells }).nvs
        ∧ t.layoutWork = none
        ∧ t.layoutOp =
          { s.layoutOp with
            state := .ended, outcome := some .superseded, detail := some k.val
            endedAt := some s.millis, unseen := true }))
  ∧
  (∀ (j : Job) (k : Fin 16) (s : State),
    s.job = some j → j.owner = .layout → j.cell = rangeCell k → s.wipeClaim = false →
    let keyed (root : Bytes) (x : State) : State :=
      State.commit [.cells, .layout]
        { x with
          draws := s.draws + 1
          cells := s.cells.set (rangeCell k) (.holding (wrapKey root (Config.random32 s.draws).toList))
          layout :=
            { s.layout with
              ranges := s.layout.ranges.set k { s.layout.ranges[k] with rekeyPending := false, health := .good } } }
    (∀ start, j.phase = .verify start →
      let blank :=
        State.commit [.cells]
          { s.reaching (start + 500) with cells := s.cells.set (rangeCell k) .blank }
      exec (.verifyResult ⟨true, .waiting⟩) s = .next { blank with job := some { j with phase := .write false } }
        ∧ ∀ root, s.rootCopy.or s.rootInCell = some root →
          exec (.verifyResult ⟨true, .committed⟩) s = .next
            { keyed root blank with job := some { j with phase := .write true } })
    ∧ (∀ w root committed, j.phase = .write committed → s.layoutWork = some w → s.rootCopy.or s.rootInCell = some root →
      (committed = false → s.cells[rangeCell k] = .blank) →
      let u : State := if committed then s.begin else keyed root s.begin
      (lowestMarked (k.val + 1) s.layout = none → w.faulted = none →
        exec .arbiterGrant s = .next
          { u with
            job := none
            layoutWork := none
            layoutOp :=
              { s.layoutOp with
                state := .ended, outcome := some .complete, detail := some k.val
                endedAt := some s.millis, unseen := true } })
      ∧ (∀ f, lowestMarked (k.val + 1) s.layout = none → w.faulted = some f →
        exec .arbiterGrant s = .next
          { u with
            job := none
            layoutWork := none
            layoutOp :=
              { s.layoutOp with
                state := .ended, outcome := some .completeWithFaults, detail := some f.val
                endedAt := some s.millis, unseen := true } })
      ∧ ∀ n, lowestMarked (k.val + 1) s.layout = some n → s.mode ≠ .off → s.life.lifecycle ≠ .disabled →
        0 < s.settings.p →
        exec .arbiterGrant s = .next
          { u with
            job :=
              some ⟨.layout, rangeCell n, s.settings.p, 1, 0, 0,
                if s.resReady then .pass s.now false false else .waiting⟩
            layoutWork := some ⟨n, w.faulted⟩
            layoutOp := { s.layoutOp with detail := some n.val } }))
  ∧
  (∀ (n : Nat) (l : Layout),
      (∀ k : Fin 16, lowestMarked n l = some k ↔
        (n ≤ k.val ∧ l.ranges[k].rekeyPending = true
          ∧ ∀ i : Fin 16, n ≤ i.val → i < k → l.ranges[i].rekeyPending = false))
      ∧ (lowestMarked n l = none ↔ ∀ k : Fin 16, n ≤ k.val → l.ranges[k].rekeyPending = false))

/-! ### Supplies -/

/-- R140, R38, R146, R31, R9: a power-on from OFF, with nothing failing its check, RES_READY not true and no frame
held: STARTING begins with the committed records and the power-on values. R168, R161: after any power-on the settings
are the stored record, or, where it fails its check, the defaults, in the store too, with SETTINGS_DEFAULTED latched
and the policy check mark set; that this write saves the powered-seconds counter is the model's choice (log entry 24).
R15, R133, R127: in WIPING the wipe goes on from the journal's next cell, and in PROVISIONED the marked ranges are
LAYOUT work of kind STARTUP, each granted at once. R28: a set open-attempt marker is a failure resolution without a
deadline. R16: with no good lifecycle copy, the wipe from cell 0, or from cell 1 with cell 0 FAULTED, or DISABLED
where nothing is left to destroy; the sequence number of the new copies is the model's (log entry 39). R104: the rise
to WIPE latches STAGE_RISE, and that it does in the DISABLED case too is the model's reading (log entry 27). R142,
R121: with RES_READY true a granted job's first step begins, and the reservoir wait ends as it begins. R156, R157: the
frames that ended before the restore stages had ended are answered in their order from the restored state, with
NOT_READY for every kind but IDENTIFY and STATUS, and disregarded while RST_N is low; that they come before the end of
such a wait, and that a faulty one takes its turn among them, is the model's choice (log entry 49). -/
def Obligations.PowerOnRestoresTheStore : Prop :=
  (∀ (vmain vaux : Bool) (s : State), s.mode = .off → (vmain ∨ vaux) → s.resReady = false →
      s.nvs.settings.good = true → s.nvs.lifecycle.anyGood = true → s.nvs.settled = s.nvs →
      ∃ t : State, exec (.powerOn vmain vaux ⟨⟨false, false, false⟩, []⟩) s = .next t
        ∧ t.mode = .starting ∧ t.vmain = vmain ∧ t.vaux = vaux ∧ t.now = s.nvs.seconds * 1000000
        ∧ t.reservoirWait = some t.now
        ∧ t.settings = s.nvs.settings.record
        ∧ t.cells = s.nvs.cells.taken ∧ t.layout = s.nvs.layout.taken ∧ t.binding = s.nvs.binding.taken
        ∧ t.gates = allClosed ∧ t.shadow = .shown ∧ t.mirror = emptyMirror ∧ t.mirrorShadow = .none
        ∧ t.queue = [] ∧ t.inFlight = none ∧ t.kpurge = none ∧ t.rootCopy = none ∧ t.verified = 0
        ∧ t.draft = none ∧ t.derivation = none ∧ t.grants = [] ∧ t.intent = none ∧ t.backoff = none
        ∧ (t.wipeClaim = false → t.layoutWork = none → t.job = none) ∧ t.report = ⟨0, none, 0⟩ ∧ t.masks = 0 ∧ t.reply = none ∧ t.beacon = none
        ∧ t.window = .none
        ∧ t.tamper = (if s.nvs.settings.record.tamperCode = 0 then .off else .armed)
        ∧ t.credOp = .idle ∧ t.policyDefaulted = false
        ∧ t.cred = { s.nvs.credentials.taken with openAttempt := t.cred.openAttempt }
        ∧ ((s.nvs.credentials.taken.openAttempt = false ∨ s.nvs.lifecycle.taken.lifecycle = .unprovisioned
              ∨ s.nvs.lifecycle.taken.lifecycle = .disabled) →
            evaluate t.settings s.nvs.evidence.taken.score s.nvs.evidence.taken.stage
              = s.nvs.evidence.taken.stage → s.nvs.evidence.taken.stage ≠ .alert →
            t.life = s.nvs.lifecycle.taken ∧ t.evid = s.nvs.evidence.taken ∧ t.latched = 0
              ∧ t.wipeClaim = decide (s.nvs.lifecycle.taken.lifecycle = .wiping)
              ∧ (t.life.lifecycle = .provisioned →
                (lowestMarked 0 t.layout = none → t.layoutWork = none ∧ t.layoutOp = .idle)
                ∧ ∀ k, lowestMarked 0 t.layout = some k →
                  t.layoutWork = some ⟨k, none⟩
                    ∧ t.layoutOp = ⟨some .startup, .running, none, some k.val, some t.millis, none, false⟩
                    ∧ t.job = some ⟨.layout, rangeCell k, t.settings.p, 1, 0, 0, .waiting⟩)
              ∧ (t.life.lifecycle = .wiping → t.layoutWork = none ∧ t.layoutOp = .idle
                ∧ ∀ journal, t.life.journal = some journal →
                  t.wipeOp = ⟨some .wipe, .running, none,
                      if journal.next.val = 0 then none else some (journal.next.val - 1), some t.millis, none, false⟩
                    ∧ ∀ c : Fin 26, journal.next.val = c.val →
                      t.job = some ⟨.wipe, c, t.settings.p, 1, 0, 0, .waiting⟩)))
  ∧
  (∀ (vmain vaux : Bool) (s : State), s.mode = .off → (vmain ∨ vaux) → s.resReady = false →
      s.nvs.settings.good = true → s.nvs.lifecycle.anyGood = true → s.nvs.settled = s.nvs →
      (s.nvs.lifecycle.taken.lifecycle = .provisioned ∨ s.nvs.lifecycle.taken.lifecycle = .wiping) →
      s.nvs.credentials.taken.openAttempt = true →
      let c := s.nvs.settings.record
      let e := s.nvs.evidence.taken
      let w := c.wBad * min s.nvs.credentials.taken.failures 8
      let score := min 4095 (e.score + w)
      evaluate c score e.stage = e.stage → e.stage ≠ .alert →
      ∃ t : State, exec (.powerOn vmain vaux ⟨⟨false, false, false⟩, []⟩) s = .next t
        ∧ t.cred = { s.nvs.credentials.taken with openAttempt := false }
        ∧ t.evid = Evidence.append t.seconds .badSecret w score e.stage { e with score := score }
        ∧ t.backoff = none ∧ t.latched = 1 ∧ t.credOp = .idle ∧ t.life = s.nvs.lifecycle.taken
        ∧ t.nvs =
          (State.commit [.credentials, .evidence]
            { s with now := t.now, cred := t.cred, evid := t.evid }).nvs)
  ∧
  (∀ s : State,
      (s.cred.openAttempt = false → s.resolveMarker = s)
      ∧ (s.cred.openAttempt = true →
        let u :=
          State.takeEvidence .badSecret (s.settings.wBad * min s.cred.failures 8) [.credentials]
            { s with cred := { s.cred with openAttempt := false } }
        s.resolveMarker = { u with backoff := none, latched := u.latched ||| 1 }))
  ∧
  (∀ (vmain vaux : Bool) (d : StoreDamage) (held : List Frame) (s : State), s.mode = .off → (vmain ∨ vaux) →
      let n := (damaged d s.nvs).settled
      let cells := n.cells.taken
      n.lifecycle.anyGood = false →
      ∃ t : State, exec (.powerOn vmain vaux ⟨d, held⟩) s = .next t
        ∧ t.cells = cells ∧ t.evid.stage = .wipe ∧ t.nvs.lifecycle.taken = t.life ∧ t.nvs.lifecycle.anyGood = true
        ∧ (cells[(0 : Fin 26)] ≠ .faulted → t.life = ⟨.wiping, some ⟨0, []⟩⟩)
        ∧ (cells[(0 : Fin 26)] = .faulted → (∃ (c : Fin 26) (x : CellContent), cells[c] = .holding x) →
          t.life = ⟨.wiping, some ⟨1, [0]⟩⟩)
        ∧ (cells[(0 : Fin 26)] = .faulted → (¬∃ (c : Fin 26) (x : CellContent), cells[c] = .holding x) →
          t.life = ⟨.disabled, some ⟨26, (List.finRange 26).filter fun c => cells[c] = .faulted⟩⟩)
        ∧ t.wipeClaim = decide (t.life.lifecycle = .wiping)
        ∧ (n.credentials.taken.openAttempt = false →
          t.evid =
            if t.life.lifecycle = .wiping then
              Evidence.append t.seconds .wipeStart 0 n.evidence.taken.score .wipe
                { n.evidence.taken with stage := .wipe }
            else { n.evidence.taken with stage := .wipe })
        ∧ (n.evidence.taken.stage ≠ .wipe → t.latched.getLsbD 5 = true))
  ∧
  (∀ (vmain vaux : Bool) (d : StoreDamage) (held : List Frame) (s u : State), s.mode = .off → (vmain ∨ vaux) →
      exec (.powerOn vmain vaux ⟨d, []⟩) { s with resReady := false } = .next u →
      (s.resReady = false → exec (.powerOn vmain vaux ⟨d, held⟩) s = .next (held.foldl State.answerHeld u))
      ∧ (s.resReady = true → exec (.powerOn vmain vaux ⟨d, held⟩) s = .next
        (State.endStarting
          (held.foldl State.answerHeld
            { u with
              resReady := true
              job := u.job.map fun j =>
                { j with phase := if j.p ≤ j.good then .verify u.now else .pass u.now false false } }))))
  ∧
  (∀ (f : Frame) (s : State), s.mode = .starting →
      (s.rstLow = true → s.answerHeld f = s)
      ∧ ((judgeFrame f = .empty ∨ judgeFrame f = .read) → s.answerHeld f = s)
      ∧ (s.rstLow = false →
        (judgeFrame f = .fault → s.answerHeld f =
          { s with
            frameFault := true
            reply := some (replyBytes 0 0 .badFrame { s with frameFault := true }.summary []) })
        ∧ ∀ code tag body, judgeFrame f = .request code tag body →
          ((∀ k : Kind, k.code ≠ code) → s.answerHeld f =
            { s with reply := some (replyBytes code tag .unknownKind s.summary []), frameFault := false })
          ∧ ∀ k : Kind, k.code = code → s.answerHeld f =
            (if k ≠ .identify ∧ k ≠ .status then s.replied k tag .notReady []
             else if body ≠ [] then s.replied k tag .badValue []
             else if k = .identify then s.replied k tag .done (identifyBody s)
             else s.replied k tag .done (statusBody s))))
  ∧
  (∀ (vmain vaux : Bool) (r : Restore) (s : State), s.mode = .off → (vmain ∨ vaux) →
      let good := s.nvs.settings.good && !r.damage.settings
      ∃ t : State, exec (.powerOn vmain vaux r) s = .next t
        ∧ t.settings = (if good then s.nvs.settings.record else .defaults)
        ∧ t.nvs.settings = ⟨t.settings, t.settings.check⟩ ∧ t.nvs.settings.good = true
        ∧ t.policyDefaulted = !good ∧ t.latched.getLsbD 7 = !good)
  ∧
  (∀ s : State, s.nvs.settings.good = false →
      s.restoreSettings =
        { s with
          settings := Settings.defaults
          nvs := { s.nvs with settings := ⟨Settings.defaults, Settings.defaults.check⟩, seconds := s.seconds }
          writeImages := s.writeImages ++ [⟨s.nvs, []⟩]
          latched := s.latched ||| 128
          policyDefaulted := true })

/-- R142, R143: the end of the reservoir wait: at 80 ms RESERVOIR_SHORT is latched; a rise of RES_READY ends it
without; STARTING ends in ACTIVE or AUX by the level of VMAIN. R121: a cell job that waits starts its next step at that
rise. A RST_N that is low at the entry to ACTIVE acts as a fall there. R30, R73, R77, R91, R94, R152, R56: the entry to
ACTIVE with RST_N high: the backoff restarted in full, the link RUNNING, every grant consumed, its range reopened where
usable, slot 16 queued, and the window and dormancy anew. R83, R88: at either entry the beacon watch starts afresh, and
the tamper watch begins its timing again where TAMP reads what its state expects and takes the change of level where it
does not. That the entry to AUX changes nothing else is the model's reading (log entry 41). -/
def Obligations.StartingEndsAndActiveBegins : Prop :=
  (∀ (t : Micros) (s : State), s.mode = .starting → s.reservoirWait = some t →
      exec .reservoirTimeout s = .next
          (State.endStarting { s.reaching (t + 80000) with latched := s.latched ||| 256 })
      ∧ (s.job = none → s.resReady = false →
        exec .resReadyRise s = .next (State.endStarting { s.begin with resReady := true }))
      ∧ (s.vmain = true → s.endStarting.mode = .active)
      ∧ (s.vmain = false → s.endStarting.mode = .aux ∧ s.endStarting.grants = s.grants
          ∧ s.endStarting.gates = s.gates))
  ∧
  (∀ s : State,
      let waited : State := { s with reservoirWait := none }
      s.endStarting = (if s.vmain = true then waited.enterActive else waited.enterAux))
  ∧
  (∀ s : State, ∀ t, (t = s.enterAux ∨ (t = s.enterActive ∧ s.rstLow = false)) →
      t.beacon =
          (if s.settings.beaconOn = true then
            some ⟨none, s.now, none, s.now + s.settings.w * 1000000⟩ else none)
        ∧ t.tamper =
          (match s.tamper with
            | .off => .off
            | .armed => if s.tampOpen = true then .opening s.now else .armed
            | .opening _ => if s.tampOpen = true then .opening s.now else .armed
            | .tripped => if s.tampOpen = true then .tripped else .closing s.now
            | .closing _ => if s.tampOpen = true then .tripped else .closing s.now)
        ∧ (t = s.enterAux → t = { s with mode := .aux, beacon := t.beacon, tamper := t.tamper }))
  ∧
  (∀ (l : Layout) (grants : List Grant) (g : Vector Gates 16) (k : Fin 16),
      (grants.map Grant.range).Nodup →
      (∀ x ∈ grants, x.range = k →
        (reopen l grants g)[k] =
          if l.ranges[k].edit.enabled = true ∧ l.ranges[k].rekeyPending = false ∧ l.ranges[k].health = .good then
            x.gates else g[k])
      ∧ ((∀ x ∈ grants, x.range ≠ k) → (reopen l grants g)[k] = g[k]))
  ∧
  (∀ s : State, s.mode = .starting → s.rstLow = false → s.queue = [] → s.inFlight = none →
      s.mirror = emptyMirror → s.mirrorShadow = .none → s.life.lifecycle ≠ .disabled →
      let t := s.enterActive
      t.mode = .active ∧ t.backoff = (backoffDelay s.cred.failures).map (s.millis + ·)
        ∧ t.linkState = .running ∧ t.faultRun = 0 ∧ t.dormancyCount = 0
        ∧ t.grants = [] ∧ t.satisfied = !s.grants.isEmpty ∧ t.verified = s.verified
        ∧ (s.grants = [] → t.gates = s.gates ∧ t.shadow = s.shadow)
        ∧ (s.grants ≠ [] → t.shadow = .hidden ∧ t.gates = reopen s.layout s.grants s.gates)
        ∧ (∀ k : Fin 16, t.report.consumed.getLsbD k.val = decide (∃ g ∈ s.grants, g.range = k))
        ∧ (16 : Fin 17) ∈ t.queue ∧ t.queue.Nodup
        ∧ (∀ k : Fin 16, rangeSlot k ∈ t.queue ↔ (t.gates[k].anyOpen = true ∨ t.gates[k] ≠ s.gates[k]))
        ∧ t.window = (if s.life.lifecycle = .provisioned ∧ s.binding.isSome = true then .waiting (s.now + 60000000)
            else .none)
        ∧ t.layout = s.layout ∧ t.evid = s.evid ∧ t.cells = s.cells ∧ t.cred = s.cred ∧ t.masks = s.masks)
  ∧
  (∀ (t : Micros) (j : Job) (s : State), s.mode = .starting → s.reservoirWait = some t → s.resReady = false →
      s.job = some j → j.phase = .waiting →
      exec .resReadyRise s = .next
        (State.endStarting
          { s.begin with
            resReady := true
            job := some
              { j with phase := if j.p ≤ j.good then .verify s.now else .pass s.now false false } }))
  ∧
  (∀ s : State, s.rstLow = true →
      s.enterActive = State.resetEffects { State.enterActive { s with rstLow := false } with rstLow := true })

/-- R144, R149, R54, R55, R9, R76: the loss of VMAIN with VAUX good and no derivation in flight: grants under a live
intent and every gate closed, else the POWER lock-on ranges closed; the engine taken as empty; the volatile rest gone.
R25, R144: a derivation in flight is abandoned and settled besides, before the grant-taking or after it. -/
def Obligations.LossOfVmainEntersAux : Prop :=
  (∀ (settleFirst : Bool) (s : State), s.mode = .active → s.vaux = true → s.derivation = none →
    ∃ t : State, exec (.vmainLoss settleFirst) s = .next t
      ∧ t.mode = .aux ∧ t.vmain = false ∧ t.intent = none
      ∧ (∀ i, s.intent = some i →
          t.gates = allClosed
            ∧ (∀ g, g ∈ t.grants ↔ (g.gates = s.gates[g.range] ∧ s.gates[g.range].anyOpen = true
                ∧ s.layout.ranges[g.range].edit.resumeEligible = true
                ∧ g.expiry = s.now + i.hold * 60000000)))
      ∧ (s.intent = none → t.grants = s.grants
          ∧ ∀ k : Fin 16, t.gates[k] =
              if s.layout.ranges[k].edit.lockOn.power then Gates.closed else s.gates[k])
      ∧ t.report = ⟨if s.intent.isSome then t.grants.length else 0, none, s.report.consumed⟩
      ∧ (t.rootCopy = if s.intent.isSome ∧ t.grants ≠ [] then s.rootCopy else none)
      ∧ t.mirror = emptyMirror ∧ t.mirrorShadow = .none ∧ t.queue = [] ∧ t.inFlight = none ∧ t.kpurge = none
      ∧ t.verified = 0 ∧ t.draft = none ∧ t.window = .none ∧ t.satisfied = false ∧ t.dormancyCount = 0
      ∧ t.reply = none ∧ t.frameFault = false
      ∧ t.beacon = (if s.settings.beaconOn then some ⟨none, s.now, none, s.now + s.settings.w * 1000000⟩ else none)
      ∧ t.tamper = s.tamper ∧ t.decayCount = s.decayCount ∧ t.job = s.job ∧ t.evid = s.evid ∧ t.life = s.life
      ∧ t.layout = s.layout ∧ t.cred = s.cred ∧ t.nvs = s.nvs ∧ t.latched = s.latched ∧ t.masks = s.masks
      ∧ t.credOp = s.credOp ∧ t.layoutOp = s.layoutOp ∧ t.wipeOp = s.wipeOp ∧ t.shadow = s.shadow)
  ∧
  (∀ (d : Derivation) (s : State), s.mode = .active → s.vaux = true → s.derivation = some d →
    (∃ t : State, exec (.vmainLoss false) { s with derivation := none } = .next t
      ∧ exec (.vmainLoss false) s = .next (State.abandonDerivation { t with derivation := some d }))
    ∧ (let a :=
        State.abandonDerivation
          { s.begin with
            mode := .aux, vmain := false, mirror := emptyMirror, mirrorShadow := .none
            queue := [], inFlight := none, kpurge := none }
      ∃ t : State, exec (.vmainLoss true) { a with mode := .active } = .next t
        ∧ exec (.vmainLoss true) s = .next { t with writeImages := a.writeImages }))

/-- R141, R142, R139, R143, R146: the other supply events: the return of VMAIN in AUX, where with RES_READY true the
reservoir wait ends as it begins, the changes of VAUX, the levels of VMAIN during STARTING, and the losses that end in
OFF with what was last committed: of VAUX in AUX, of VMAIN with VAUX lost, of the last supply in STARTING, and of both
together. A loss of both may fall in a write of the command before it (R1, R168): the writes before that one stand, it
is cut, and the later ones were not begun (log entry 9). That a level of VMAIN during STARTING changes the level
alone, the reply and the previous-frame-fault flag kept at a loss, is the model's reading of R143 beside R155 and R157
(log entry 41). -/
def Obligations.SuppliesComeAndGo : Prop :=
  (∀ s : State,
    (s.mode = .aux → s.resReady = false → exec .vmainReturn s = .next
      { s.begin with
        vmain := true, mode := .starting, shadow := .shown, masks := 0, beacon := none
        reservoirWait := some s.now })
    ∧ (s.mode = .aux → s.resReady = true → exec .vmainReturn s = .next
      (State.endStarting
        { s.begin with
          vmain := true, mode := .starting, shadow := .shown, masks := 0, beacon := none
          reservoirWait := some s.now }))
    ∧ (s.mode = .active → s.vmain = true → exec .vauxLoss s = .next { s.begin with vaux := false })
    ∧ (s.mode ≠ .off → exec .vauxReturn s = .next { s.begin with vaux := true })
    ∧ (s.mode = .starting → ∀ good, (good = true ∨ s.vaux = true) →
      exec (.vmainChangeDuringStarting good) s = .next { s.begin with vmain := good })
    ∧ (s.mode = .aux → exec .vauxLoss s = .next s.begin.enterOff)
    ∧ (s.mode ≠ .off → exec (.fullPowerLoss none) s = .next s.enterOff)
    ∧ s.enterOff.mode = .off ∧ s.enterOff.nvs = s.nvs ∧ s.enterOff.grants = [] ∧ s.enterOff.rootCopy = none
    ∧ s.enterOff.gates = allClosed ∧ s.enterOff.queue = [] ∧ s.enterOff.latched = 0
    ∧ (∀ settleFirst, s.mode = .active → s.vaux = false →
      exec (.vmainLoss settleFirst) s = .next s.begin.enterOff)
    ∧ (s.mode = .starting → s.vaux = false →
      exec (.vmainChangeDuringStarting false) s = .next s.begin.enterOff)
    ∧ (s.mode = .starting → s.vmain = false → exec .vauxLoss s = .next s.begin.enterOff)
    ∧ (s.mode = .starting → s.vmain = true → exec .vauxLoss s = .next { s.begin with vaux := false }))
  ∧
  (∀ (cut : Cut) (s : State), s.mode ≠ .off →
    (∀ before image after, s.writeImages = before ++ image :: after → cut.write = before.length →
      exec (.fullPowerLoss (some cut)) s = .next
        (State.enterOff
          { s with
            nvs := cutWrite cut image (match after with
              | [] => s.nvs
              | later :: _ => later.before) }))
    ∧ (s.writeImages.length ≤ cut.write → exec (.fullPowerLoss (some cut)) s = .next s.enterOff)
    ∧ ∀ before after : Nvs,
      cutWrite cut ⟨before, []⟩ after = { before with settings := (cutWrite cut ⟨before, []⟩ after).settings }
        ∧ (cutWrite cut ⟨before, []⟩ after).settings.good = false)

/-- R147, R55, R148, R151: SUSPEND's conditions in their order and its intent; the lapse of the intent; the drop of
grants at their expiry. -/
def Obligations.SuspendIntentAndExpiries : Prop :=
  ∀ (tag hold : Byte) (s : State),
    let h := max 1 (min s.settings.maxHold hold.toNat)
    (s.Admits .suspend → exec (.suspend tag [hold]) s = .next
      (if ¬∃ k : Fin 8, s.verified.getLsbD k.val = true ∧ s.cred.slots[k].resumeAllowed = true then
        s.begin.replied .suspend tag .notPermitted []
       else if s.evid.stage ≠ .calm then s.begin.replied .suspend tag .wrongState []
       else (State.changeDesired
          (Vector.ofFn fun k : Fin 16 =>
            if s.layout.ranges[k].edit.lockOn.suspend = true ∧ s.layout.ranges[k].edit.resumeEligible = false then
              Gates.closed else s.gates[k])
          s.shadow { s.begin with intent := some ⟨h, s.now + 30000000⟩ }).replied .suspend tag .done
            [BitVec.ofNat 8 h, 30, flag s.vaux]))
    ∧ (∀ i, s.intent = some i → exec .intentExpiry s = .next { s.reaching i.expiry with intent := none })
    ∧ (∀ g rest, s.grants = g :: rest → (∀ x ∈ rest, x.expiry = g.expiry) →
      exec .grantExpiry s = .next
        { s.reaching g.expiry with
          grants := [], rootCopy := none, report := { s.report with dropCause := some .expiry } })

/-- R53, R143, R148, R157, R73, R78, R79: the falling edge of RST_N in ACTIVE; in the other modes only the level
changes. A STOPPED link becomes RUNNING and the slots that differ join the queue; in DISABLED the mirror starts EMPTY.
The rise ends the deafness to frames, with no reply held and the flag clear. R25, R5, R36: a derivation in flight is
abandoned and ends ABORTED, a counted one by a failure resolution; that this comes last, after the closings and
hand-ons, is the model's choice (log entry 51). That an edge of a line that already has its level changes nothing is
the model's choice (log entry 5). That the fault run becomes 0 on a RUNNING link too, and that nothing is queued there
again, is the model's choice (log entry 26), and that the mirror starts EMPTY at this edge is its reading (log entry
42). -/
def Obligations.ResetLineActsInActive : Prop :=
  (∀ s : State,
      (s.mode = .active → s.rstLow = false → s.derivation = none →
        ∃ (gates : Vector Gates 16) (new : List (Fin 17)),
          (∀ k : Fin 16, gates[k] = if s.layout.ranges[k].edit.lockOn.reset then Gates.closed else s.gates[k]) ∧
          let u := State.changeDesired gates .shown { s.begin with rstLow := true }
          let v : State :=
            { u with
              draft := none, verified := 0, intent := none, reply := none, frameFault := false, masks := 0
              faultRun := 0
              linkState := .running
              mirror := if s.life.lifecycle = .disabled then emptyMirror else s.mirror
              mirrorShadow := if s.life.lifecycle = .disabled then .none else s.mirrorShadow
              queue := u.queue ++ new }
          exec .rstN s = .next v
          ∧ (s.linkState = .running ∨ s.life.lifecycle = .disabled → new = [])
          ∧ (s.linkState = .stopped → s.life.lifecycle ≠ .disabled →
            new.Pairwise (· < ·) ∧ ∀ j, j ∈ new ↔ (v.differs j = true ∧ j ∉ u.queue)))
      ∧ (∀ d, s.mode = .active → s.rstLow = false → s.derivation = some d →
        ∃ t : State, exec .rstN { s with derivation := none } = .next t
          ∧ exec .rstN s = .next (State.abandonDerivation { t with derivation := some d }))
      ∧ (s.mode ≠ .active → s.rstLow = false → exec .rstN s = .next { s.begin with rstLow := true })
      ∧ (s.rstLow = true → exec .rstN s = .next s.begin
        ∧ exec .rstNRise s = .next { s.begin with rstLow := false, reply := none, frameFault := false })
      ∧ (s.rstLow = false → exec .rstNRise s = .next s.begin))
  ∧
  (∀ (d : Derivation) (s : State), s.derivation = some d →
      let r := { s with derivation := none }
      let u :=
        State.takeEvidence .badSecret (s.settings.wBad * min s.cred.failures 8) [.credentials]
          { r with cred := { s.cred with openAttempt := false } }
      s.abandonDerivation =
        (if d.work.counted then
          { u with
            backoff :=
              if s.cred.failures < 4 then u.backoff
              else some (s.millis + min (2 ^ (s.cred.failures - 4)) 1024 * 1000)
            latched := u.latched ||| 1
            credOp :=
              { s.credOp with
                state := .ended, outcome := some .aborted, endedAt := some s.millis, unseen := true } }
         else
          { r with
            credOp :=
              { s.credOp with
                state := .ended, outcome := some .aborted, endedAt := some s.millis, unseen := true } }))

/-! ### Laws that every step keeps -/

/-- The laws of the statements below hold in the reset state, a factory part just powered on (R140), whose line levels
are the model's choice (log entry 1): R64, R73, R74, R76, R142 (with log entry 22), R68, R80, R99, R98, R118, R136,
R148 to R150, and what a restore would take from its store (R1, R168). -/
def Obligations.LawsHoldAtReset : Prop :=
  State.reset.Lawful ∧ State.reset.StageLaw ∧ State.reset.BoundsLaw ∧ State.reset.nvs.Whole
    ∧ State.reset.nvs.contents = State.reset.contents ∧ State.reset.StoreLaw ∧ State.reset.nvs.StageLaw
    ∧ State.reset.PassLaw ∧ State.reset.JournalLaw

/-- R64, R142: the sync queue never holds a slot twice, nor the slot in flight; the reservoir wait runs in STARTING
alone. R76: out of ACTIVE the queue is empty, no transfer is in flight and KPURGE is low; that this holds of the queue
in STARTING too, until the entry to ACTIVE fills it (R77), is the model's reading (log entry 22). R72, R73, R74: no
transfer is in flight while KPURGE is high or the link is STOPPED. -/
def Obligations.StepsKeepTheLinkLaw : Prop :=
  ∀ s t : State, s.LinkLaw → step s = .next t → t.LinkLaw ∧ t.queue.length ≤ 17

/-- R99: in every mode but OFF, the stage is WIPE exactly when the lifecycle is WIPING or DISABLED; every step that
does not begin in OFF keeps it. It is carried over a power loss: whatever a loss would leave of the store after such a
step, cut or not (R1), says the same of what a restore takes; and a power-on from such a store meets the law again,
R16 included. A damage to one lifecycle copy alone, of which R16 says that R1 takes the other, is left out. R136, R12,
R15: WIPING is left only at the end of the WIPE job on cell 25, for UNPROVISIONED or DISABLED; the journal moves only
at the end of the job on the cell it names, to the cell after it; DISABLED is never left. Both hold through every
power loss: what a loss leaves of the lifecycle record, cut or not, is in WIPING the record before the step or after
it, and in DISABLED the record unchanged; and through a power-on whose lifecycle copies are undamaged, which takes and
leaves the record as the store held it. -/
def Obligations.StepsKeepTheStageLaw : Prop :=
  (∀ s t : State, s.mode ≠ .off → s.StageLaw → s.ClaimLaw → step s = .next t → t.StageLaw)
  ∧
  (∀ s t : State, s.mode ≠ .off → s.StageLaw → s.ClaimLaw → s.StoreLaw → s.nvs.Early →
      (∀ cut, (s.nvsAfterLoss cut).StageLaw) → step s = .next t → ∀ cut, (t.nvsAfterLoss cut).StageLaw)
  ∧
  (∀ s t : State, s.mode = .off → s.nvs.StageLaw →
      (∀ vmain vaux r, s.pending.head? = some (.powerOn vmain vaux r) → r.damage.lifecycleA = r.damage.lifecycleB) →
      step s = .next t → t.mode ≠ .off → t.StageLaw)
  ∧
  (∀ s t : State, s.mode ≠ .off → s.StageLaw → s.ClaimLaw → s.DerivationLaw → s.JournalLaw → step s = .next t →
      t.JournalLaw
      ∧ (s.life.lifecycle = .disabled → t.life = s.life)
      ∧ ∀ journal, s.life = ⟨.wiping, some journal⟩ → t.life = s.life ∨
        ∃ job after, s.job = some job ∧ job.owner = .wipe ∧ job.cell.val = journal.next.val
          ∧ t.life.journal = some after ∧ after.next.val = journal.next.val + 1
          ∧ (job.cell ≠ 25 → t.life.lifecycle = .wiping)
          ∧ (job.cell = 25 → t.life.lifecycle = .unprovisioned ∨ t.life.lifecycle = .disabled))
  ∧
  (∀ s t : State, s.mode ≠ .off → s.StageLaw → s.ClaimLaw → s.DerivationLaw → s.StoreLaw → s.nvs.Early →
      s.life.lifecycle = .disabled → (∀ cut, (s.nvsAfterLoss cut).contents.life = s.life) →
      step s = .next t → ∀ cut, (t.nvsAfterLoss cut).contents.life = s.life)
  ∧
  (∀ s t : State, s.mode ≠ .off → s.StageLaw → s.ClaimLaw → s.DerivationLaw → s.JournalLaw → s.StoreLaw →
      s.nvs.Early → s.life.lifecycle = .wiping → (∀ cut, (s.nvsAfterLoss cut).contents.life = s.life) →
      step s = .next t →
      ∀ cut, (t.nvsAfterLoss cut).contents.life = s.life ∨ (t.nvsAfterLoss cut).contents.life = t.life)
  ∧
  (∀ s t : State, s.mode = .off → s.nvs.settled.Whole → s.nvs.StageLaw →
      (∀ vmain vaux r, s.pending.head? = some (.powerOn vmain vaux r) →
        r.damage.lifecycleA = false ∧ r.damage.lifecycleB = false) →
      (s.nvs.contents.life.lifecycle = .wiping ∨ s.nvs.contents.life.lifecycle = .disabled) → step s = .next t →
      (t.mode ≠ .off → t.life = s.nvs.contents.life)
      ∧ ∀ cut, (t.nvsAfterLoss cut).contents.life = s.nvs.contents.life)

/-- R68, R38, R57, R150: while the stage is LOCKDOWN or WIPE, or the lifecycle WIPING or DISABLED, nothing gives
access. -/
def Obligations.StepsKeepAccessWithdrawn : Prop :=
  ∀ s t : State, s.Lawful → step s = .next t → t.WithdrawnLaw

/-- R148, R149, R150: intents and grants stand only where they may. R80: what the mirror shows open and the table holds
closed is on its way to be closed. -/
def Obligations.StepsKeepTheGrantAndMirrorLaws : Prop :=
  (∀ s t : State, s.Lawful → step s = .next t → t.GrantLaw)
  ∧
  (∀ s t : State, s.Lawful → step s = .next t → t.MirrorLaw)

/-- R1, R168: out of OFF every step keeps the store whole, what a restore would take from it what the blocks use, and
the settings record in it with its check, until a set nears its last sequence number. A step that enters OFF leaves the
store as it stood, but for a full power loss that cuts a write; and a power-on from a store that is whole once the
restore has settled it, with no lifecycle copy damaged, meets the law again. -/
def Obligations.StepsKeepTheStore : Prop :=
  (∀ s t : State, s.mode ≠ .off → s.StoreLaw → s.nvs.Early → step s = .next t → t.mode ≠ .off → t.StoreLaw)
  ∧
  (∀ s t : State, s.mode ≠ .off → step s = .next t → t.mode = .off →
      (∀ cut, s.pending.head? ≠ some (.fullPowerLoss (some cut))) → t.nvs = s.nvs)
  ∧
  (∀ s t : State, s.mode = .off → s.nvs.settled.Whole → s.nvs.Early →
      (∀ vmain vaux r, s.pending.head? = some (.powerOn vmain vaux r) →
        r.damage.lifecycleA = false ∧ r.damage.lifecycleB = false) →
      step s = .next t → t.mode ≠ .off → t.StoreLaw)

/-- R127, R19, R25, R26: the WIPE claim and its jobs stand only in WIPING, and a derivation only in ACTIVE and in its
lifecycle state. R120 to R124, R130: a cell job keeps its counts, and WRITE stands only in a LAYOUT job on a range's
cell; beside it the pass count is never 0, in the policy in use and in every settings record that the store holds or a
cut leaves (R115, R168). -/
def Obligations.StepsKeepClaimsDerivationsAndJobs : Prop :=
  (∀ s t : State, s.Lawful → step s = .next t → t.ClaimLaw ∧ t.DerivationLaw)
  ∧
  (∀ s t : State, s.PassLaw → (∀ j ∈ s.job, j.Lawful) → step s = .next t → t.PassLaw ∧ ∀ j ∈ t.job, j.Lawful)

/-- R98, R118, R20, R73: the bounds of S, the trail, C and the fault run. -/
def Obligations.StepsKeepTheBounds : Prop :=
  ∀ s t : State, s.BoundsLaw → step s = .next t → t.BoundsLaw

/-- R1: a commit is atomic: completed, a restore reads its new values in every set it wrote, and the powered-seconds
counter is saved with it (R170); cut before its first writings are completed, or before the second writing of a set at
2^32 − 1 has begun, a restore reads the old values of every set; cut later, the new ones. Where no set is near its last
number, the store is whole after the commit, and after a cut once the restore has settled it. That the second writing
of several sets begins together is the model's reading (log entry 38). Where a copy of the lifecycle record fails its
check besides, at the power-on after a cut, the evidence that the cut commit wrote, or was writing, still reads old,
and so at the power-on after that: a restore finds the cut by the model's reading of the list (log entry 8). Where no
copy of the lifecycle record passes its check at a power-on, the other sets are restored as usual (R16): a completed
commit reads new in every other set it wrote, whatever list a failing lifecycle copy carries; that the completed commit
reads so where it wrote the lifecycle record too rests on the number the model gives a lost set (log entry 39). -/
def Obligations.CommitsAreAtomic : Prop :=
  ∀ (sets : List SetId) (cut : Cut) (s : State), s.nvs.Whole →
    let old := s.nvs.contents
    let t := s.commit sets
    let late : Prop := ∃ id ∈ sets, s.nvs.takenSeq id = 4294967295
    t.nvs.contents =
        { life := if SetId.lifecycle ∈ sets then s.life else old.life
          cells := if SetId.cells ∈ sets then s.cells else old.cells
          cred := if SetId.credentials ∈ sets then s.cred else old.cred
          layout := if SetId.layout ∈ sets then s.layout else old.layout
          binding := if SetId.binding ∈ sets then s.binding else old.binding
          evid := if SetId.evidence ∈ sets then s.evid else old.evid }
      ∧ t.nvs.seconds = s.seconds
      ∧ ((∃ id ∈ sets, id ∉ cut.completed) →
        (cutWrite cut ⟨s.nvs, sets⟩ t.nvs).contents = old)
      ∧ (late → cut.rewritten = none → (cutWrite cut ⟨s.nvs, sets⟩ t.nvs).contents = old)
      ∧ (sets ≠ [] → (∀ id ∈ sets, id ∈ cut.completed) → (¬late ∨ cut.rewritten ≠ none) →
        (cutWrite cut ⟨s.nvs, sets⟩ t.nvs).contents = t.nvs.contents)
      ∧ ((∀ id ∈ sets, s.nvs.takenSeq id < 4294967000) →
        t.nvs.Whole ∧ (cutWrite cut ⟨s.nvs, sets⟩ t.nvs).settled.Whole)
      ∧ (∀ d d' : StoreDamage, ¬late → SetId.lifecycle ∈ sets → SetId.evidence ∈ sets →
        (SetId.evidence ∈ cut.completed ∨ cut.failing = some .evidence) → (∃ id ∈ sets, id ∉ cut.completed) →
        let l := s.nvs.lifecycle
        l.a.good = true → l.b.good = true →
        (l.a.seq = l.b.seq ∨ l.a.seq = l.b.seq + 1 ∨ l.b.seq = l.a.seq + 1) →
        let found := damaged d (cutWrite cut ⟨s.nvs, sets⟩ t.nvs)
        found.contents.evid = old.evid ∧ (damaged d' found.settled).contents.evid = old.evid)
      ∧ (∀ d : StoreDamage, (∀ id ∈ sets, s.nvs.takenSeq id < 4294967000) →
        let found := damaged d t.nvs
        found.lifecycle.anyGood = false →
        (SetId.cells ∈ sets → found.contents.cells = s.cells)
          ∧ (SetId.credentials ∈ sets → found.contents.cred = s.cred)
          ∧ (SetId.layout ∈ sets → found.contents.layout = s.layout)
          ∧ (SetId.binding ∈ sets → found.contents.binding = s.binding)
          ∧ (SetId.evidence ∈ sets → found.contents.evid = s.evid))
end

