-- ==== Sys2Proof/Laws/State.lean ====
section
/-! SUPPORT. What each field of the state is after one of the shared updates, so that no proof unfolds a record
update. -/

namespace Sys2Proof.Machine

/-! ### `State.begin` -/

@[simp] theorem State.begin_pending (s : State) : s.begin.pending = s.pending := rfl
@[simp] theorem State.begin_now (s : State) : s.begin.now = s.now := rfl
@[simp] theorem State.begin_life (s : State) : s.begin.life = s.life := rfl
@[simp] theorem State.begin_cells (s : State) : s.begin.cells = s.cells := rfl
@[simp] theorem State.begin_cred (s : State) : s.begin.cred = s.cred := rfl
@[simp] theorem State.begin_layout (s : State) : s.begin.layout = s.layout := rfl
@[simp] theorem State.begin_binding (s : State) : s.begin.binding = s.binding := rfl
@[simp] theorem State.begin_evid (s : State) : s.begin.evid = s.evid := rfl
@[simp] theorem State.begin_settings (s : State) : s.begin.settings = s.settings := rfl
@[simp] theorem State.begin_nvs (s : State) : s.begin.nvs = s.nvs := rfl
@[simp] theorem State.begin_writeImages (s : State) : s.begin.writeImages = [] := rfl
@[simp] theorem State.begin_draws (s : State) : s.begin.draws = s.draws := rfl
@[simp] theorem State.begin_rootCopy (s : State) : s.begin.rootCopy = s.rootCopy := rfl
@[simp] theorem State.begin_derivation (s : State) : s.begin.derivation = s.derivation := rfl
@[simp] theorem State.begin_backoff (s : State) : s.begin.backoff = s.backoff := rfl
@[simp] theorem State.begin_verified (s : State) : s.begin.verified = s.verified := rfl
@[simp] theorem State.begin_gates (s : State) : s.begin.gates = s.gates := rfl
@[simp] theorem State.begin_draft (s : State) : s.begin.draft = s.draft := rfl
@[simp] theorem State.begin_shadow (s : State) : s.begin.shadow = s.shadow := rfl
@[simp] theorem State.begin_mirror (s : State) : s.begin.mirror = s.mirror := rfl
@[simp] theorem State.begin_mirrorShadow (s : State) : s.begin.mirrorShadow = s.mirrorShadow := rfl
@[simp] theorem State.begin_queue (s : State) : s.begin.queue = s.queue := rfl
@[simp] theorem State.begin_inFlight (s : State) : s.begin.inFlight = s.inFlight := rfl
@[simp] theorem State.begin_kpurge (s : State) : s.begin.kpurge = s.kpurge := rfl
@[simp] theorem State.begin_linkState (s : State) : s.begin.linkState = s.linkState := rfl
@[simp] theorem State.begin_faultRun (s : State) : s.begin.faultRun = s.faultRun := rfl
@[simp] theorem State.begin_tampOpen (s : State) : s.begin.tampOpen = s.tampOpen := rfl
@[simp] theorem State.begin_beacon (s : State) : s.begin.beacon = s.beacon := rfl
@[simp] theorem State.begin_tamper (s : State) : s.begin.tamper = s.tamper := rfl
@[simp] theorem State.begin_dormancyCount (s : State) : s.begin.dormancyCount = s.dormancyCount := rfl
@[simp] theorem State.begin_satisfied (s : State) : s.begin.satisfied = s.satisfied := rfl
@[simp] theorem State.begin_window (s : State) : s.begin.window = s.window := rfl
@[simp] theorem State.begin_decayCount (s : State) : s.begin.decayCount = s.decayCount := rfl
@[simp] theorem State.begin_job (s : State) : s.begin.job = s.job := rfl
@[simp] theorem State.begin_wipeClaim (s : State) : s.begin.wipeClaim = s.wipeClaim := rfl
@[simp] theorem State.begin_layoutWork (s : State) : s.begin.layoutWork = s.layoutWork := rfl
@[simp] theorem State.begin_resReady (s : State) : s.begin.resReady = s.resReady := rfl
@[simp] theorem State.begin_mode (s : State) : s.begin.mode = s.mode := rfl
@[simp] theorem State.begin_vmain (s : State) : s.begin.vmain = s.vmain := rfl
@[simp] theorem State.begin_vaux (s : State) : s.begin.vaux = s.vaux := rfl
@[simp] theorem State.begin_reservoirWait (s : State) : s.begin.reservoirWait = s.reservoirWait := rfl
@[simp] theorem State.begin_intent (s : State) : s.begin.intent = s.intent := rfl
@[simp] theorem State.begin_grants (s : State) : s.begin.grants = s.grants := rfl
@[simp] theorem State.begin_report (s : State) : s.begin.report = s.report := rfl
@[simp] theorem State.begin_rstLow (s : State) : s.begin.rstLow = s.rstLow := rfl
@[simp] theorem State.begin_reply (s : State) : s.begin.reply = s.reply := rfl
@[simp] theorem State.begin_frameFault (s : State) : s.begin.frameFault = s.frameFault := rfl
@[simp] theorem State.begin_latched (s : State) : s.begin.latched = s.latched := rfl
@[simp] theorem State.begin_masks (s : State) : s.begin.masks = s.masks := rfl
@[simp] theorem State.begin_credOp (s : State) : s.begin.credOp = s.credOp := rfl
@[simp] theorem State.begin_layoutOp (s : State) : s.begin.layoutOp = s.layoutOp := rfl
@[simp] theorem State.begin_wipeOp (s : State) : s.begin.wipeOp = s.wipeOp := rfl
@[simp] theorem State.begin_policyDefaulted (s : State) : s.begin.policyDefaulted = s.policyDefaulted := rfl
@[simp] theorem State.begin_seconds (s : State) : s.begin.seconds = s.seconds := rfl
@[simp] theorem State.begin_millis (s : State) : s.begin.millis = s.millis := rfl

/-! ### `State.latch` -/

@[simp] theorem State.latch_pending (i : Indicator) (s : State) : (s.latch i).pending = s.pending := rfl
@[simp] theorem State.latch_now (i : Indicator) (s : State) : (s.latch i).now = s.now := rfl
@[simp] theorem State.latch_life (i : Indicator) (s : State) : (s.latch i).life = s.life := rfl
@[simp] theorem State.latch_cells (i : Indicator) (s : State) : (s.latch i).cells = s.cells := rfl
@[simp] theorem State.latch_cred (i : Indicator) (s : State) : (s.latch i).cred = s.cred := rfl
@[simp] theorem State.latch_layout (i : Indicator) (s : State) : (s.latch i).layout = s.layout := rfl
@[simp] theorem State.latch_binding (i : Indicator) (s : State) : (s.latch i).binding = s.binding := rfl
@[simp] theorem State.latch_evid (i : Indicator) (s : State) : (s.latch i).evid = s.evid := rfl
@[simp] theorem State.latch_settings (i : Indicator) (s : State) : (s.latch i).settings = s.settings := rfl
@[simp] theorem State.latch_nvs (i : Indicator) (s : State) : (s.latch i).nvs = s.nvs := rfl
@[simp] theorem State.latch_writeImages (i : Indicator) (s : State) : (s.latch i).writeImages = s.writeImages := rfl
@[simp] theorem State.latch_draws (i : Indicator) (s : State) : (s.latch i).draws = s.draws := rfl
@[simp] theorem State.latch_rootCopy (i : Indicator) (s : State) : (s.latch i).rootCopy = s.rootCopy := rfl
@[simp] theorem State.latch_derivation (i : Indicator) (s : State) : (s.latch i).derivation = s.derivation := rfl
@[simp] theorem State.latch_backoff (i : Indicator) (s : State) : (s.latch i).backoff = s.backoff := rfl
@[simp] theorem State.latch_verified (i : Indicator) (s : State) : (s.latch i).verified = s.verified := rfl
@[simp] theorem State.latch_gates (i : Indicator) (s : State) : (s.latch i).gates = s.gates := rfl
@[simp] theorem State.latch_draft (i : Indicator) (s : State) : (s.latch i).draft = s.draft := rfl
@[simp] theorem State.latch_shadow (i : Indicator) (s : State) : (s.latch i).shadow = s.shadow := rfl
@[simp] theorem State.latch_mirror (i : Indicator) (s : State) : (s.latch i).mirror = s.mirror := rfl
@[simp] theorem State.latch_mirrorShadow (i : Indicator) (s : State) : (s.latch i).mirrorShadow = s.mirrorShadow := rfl
@[simp] theorem State.latch_queue (i : Indicator) (s : State) : (s.latch i).queue = s.queue := rfl
@[simp] theorem State.latch_inFlight (i : Indicator) (s : State) : (s.latch i).inFlight = s.inFlight := rfl
@[simp] theorem State.latch_kpurge (i : Indicator) (s : State) : (s.latch i).kpurge = s.kpurge := rfl
@[simp] theorem State.latch_linkState (i : Indicator) (s : State) : (s.latch i).linkState = s.linkState := rfl
@[simp] theorem State.latch_faultRun (i : Indicator) (s : State) : (s.latch i).faultRun = s.faultRun := rfl
@[simp] theorem State.latch_tampOpen (i : Indicator) (s : State) : (s.latch i).tampOpen = s.tampOpen := rfl
@[simp] theorem State.latch_beacon (i : Indicator) (s : State) : (s.latch i).beacon = s.beacon := rfl
@[simp] theorem State.latch_tamper (i : Indicator) (s : State) : (s.latch i).tamper = s.tamper := rfl
@[simp] theorem State.latch_dormancyCount (i : Indicator) (s : State) :
    (s.latch i).dormancyCount = s.dormancyCount := rfl
@[simp] theorem State.latch_satisfied (i : Indicator) (s : State) : (s.latch i).satisfied = s.satisfied := rfl
@[simp] theorem State.latch_window (i : Indicator) (s : State) : (s.latch i).window = s.window := rfl
@[simp] theorem State.latch_decayCount (i : Indicator) (s : State) : (s.latch i).decayCount = s.decayCount := rfl
@[simp] theorem State.latch_job (i : Indicator) (s : State) : (s.latch i).job = s.job := rfl
@[simp] theorem State.latch_wipeClaim (i : Indicator) (s : State) : (s.latch i).wipeClaim = s.wipeClaim := rfl
@[simp] theorem State.latch_layoutWork (i : Indicator) (s : State) : (s.latch i).layoutWork = s.layoutWork := rfl
@[simp] theorem State.latch_resReady (i : Indicator) (s : State) : (s.latch i).resReady = s.resReady := rfl
@[simp] theorem State.latch_mode (i : Indicator) (s : State) : (s.latch i).mode = s.mode := rfl
@[simp] theorem State.latch_vmain (i : Indicator) (s : State) : (s.latch i).vmain = s.vmain := rfl
@[simp] theorem State.latch_vaux (i : Indicator) (s : State) : (s.latch i).vaux = s.vaux := rfl
@[simp] theorem State.latch_reservoirWait (i : Indicator) (s : State) :
    (s.latch i).reservoirWait = s.reservoirWait := rfl
@[simp] theorem State.latch_intent (i : Indicator) (s : State) : (s.latch i).intent = s.intent := rfl
@[simp] theorem State.latch_grants (i : Indicator) (s : State) : (s.latch i).grants = s.grants := rfl
@[simp] theorem State.latch_report (i : Indicator) (s : State) : (s.latch i).report = s.report := rfl
@[simp] theorem State.latch_rstLow (i : Indicator) (s : State) : (s.latch i).rstLow = s.rstLow := rfl
@[simp] theorem State.latch_reply (i : Indicator) (s : State) : (s.latch i).reply = s.reply := rfl
@[simp] theorem State.latch_frameFault (i : Indicator) (s : State) : (s.latch i).frameFault = s.frameFault := rfl
@[simp] theorem State.latch_latched (i : Indicator) (s : State) :
    (s.latch i).latched = s.latched ||| single 10 i.code := rfl
@[simp] theorem State.latch_masks (i : Indicator) (s : State) : (s.latch i).masks = s.masks := rfl
@[simp] theorem State.latch_credOp (i : Indicator) (s : State) : (s.latch i).credOp = s.credOp := rfl
@[simp] theorem State.latch_layoutOp (i : Indicator) (s : State) : (s.latch i).layoutOp = s.layoutOp := rfl
@[simp] theorem State.latch_wipeOp (i : Indicator) (s : State) : (s.latch i).wipeOp = s.wipeOp := rfl
@[simp] theorem State.latch_policyDefaulted (i : Indicator) (s : State) :
    (s.latch i).policyDefaulted = s.policyDefaulted := rfl
@[simp] theorem State.latch_seconds (i : Indicator) (s : State) : (s.latch i).seconds = s.seconds := rfl
@[simp] theorem State.latch_millis (i : Indicator) (s : State) : (s.latch i).millis = s.millis := rfl

/-! ### `State.commit` -/

@[simp] theorem State.commit_pending (sets : List SetId) (s : State) : (s.commit sets).pending = s.pending := rfl
@[simp] theorem State.commit_now (sets : List SetId) (s : State) : (s.commit sets).now = s.now := rfl
@[simp] theorem State.commit_life (sets : List SetId) (s : State) : (s.commit sets).life = s.life := rfl
@[simp] theorem State.commit_cells (sets : List SetId) (s : State) : (s.commit sets).cells = s.cells := rfl
@[simp] theorem State.commit_cred (sets : List SetId) (s : State) : (s.commit sets).cred = s.cred := rfl
@[simp] theorem State.commit_layout (sets : List SetId) (s : State) : (s.commit sets).layout = s.layout := rfl
@[simp] theorem State.commit_binding (sets : List SetId) (s : State) : (s.commit sets).binding = s.binding := rfl
@[simp] theorem State.commit_evid (sets : List SetId) (s : State) : (s.commit sets).evid = s.evid := rfl
@[simp] theorem State.commit_settings (sets : List SetId) (s : State) : (s.commit sets).settings = s.settings := rfl
@[simp] theorem State.commit_writeImages (sets : List SetId) (s : State) :
    (s.commit sets).writeImages = s.writeImages ++ [⟨s.nvs, sets⟩] := rfl
@[simp] theorem State.commit_draws (sets : List SetId) (s : State) : (s.commit sets).draws = s.draws := rfl
@[simp] theorem State.commit_rootCopy (sets : List SetId) (s : State) : (s.commit sets).rootCopy = s.rootCopy := rfl
@[simp] theorem State.commit_derivation (sets : List SetId) (s : State) :
    (s.commit sets).derivation = s.derivation := rfl
@[simp] theorem State.commit_backoff (sets : List SetId) (s : State) : (s.commit sets).backoff = s.backoff := rfl
@[simp] theorem State.commit_verified (sets : List SetId) (s : State) : (s.commit sets).verified = s.verified := rfl
@[simp] theorem State.commit_gates (sets : List SetId) (s : State) : (s.commit sets).gates = s.gates := rfl
@[simp] theorem State.commit_draft (sets : List SetId) (s : State) : (s.commit sets).draft = s.draft := rfl
@[simp] theorem State.commit_shadow (sets : List SetId) (s : State) : (s.commit sets).shadow = s.shadow := rfl
@[simp] theorem State.commit_mirror (sets : List SetId) (s : State) : (s.commit sets).mirror = s.mirror := rfl
@[simp] theorem State.commit_mirrorShadow (sets : List SetId) (s : State) :
    (s.commit sets).mirrorShadow = s.mirrorShadow := rfl
@[simp] theorem State.commit_queue (sets : List SetId) (s : State) : (s.commit sets).queue = s.queue := rfl
@[simp] theorem State.commit_inFlight (sets : List SetId) (s : State) : (s.commit sets).inFlight = s.inFlight := rfl
@[simp] theorem State.commit_kpurge (sets : List SetId) (s : State) : (s.commit sets).kpurge = s.kpurge := rfl
@[simp] theorem State.commit_linkState (sets : List SetId) (s : State) : (s.commit sets).linkState = s.linkState := rfl
@[simp] theorem State.commit_faultRun (sets : List SetId) (s : State) : (s.commit sets).faultRun = s.faultRun := rfl
@[simp] theorem State.commit_tampOpen (sets : List SetId) (s : State) : (s.commit sets).tampOpen = s.tampOpen := rfl
@[simp] theorem State.commit_beacon (sets : List SetId) (s : State) : (s.commit sets).beacon = s.beacon := rfl
@[simp] theorem State.commit_tamper (sets : List SetId) (s : State) : (s.commit sets).tamper = s.tamper := rfl
@[simp] theorem State.commit_dormancyCount (sets : List SetId) (s : State) :
    (s.commit sets).dormancyCount = s.dormancyCount := rfl
@[simp] theorem State.commit_satisfied (sets : List SetId) (s : State) : (s.commit sets).satisfied = s.satisfied := rfl
@[simp] theorem State.commit_window (sets : List SetId) (s : State) : (s.commit sets).window = s.window := rfl
@[simp] theorem State.commit_decayCount (sets : List SetId) (s : State) :
    (s.commit sets).decayCount = s.decayCount := rfl
@[simp] theorem State.commit_job (sets : List SetId) (s : State) : (s.commit sets).job = s.job := rfl
@[simp] theorem State.commit_wipeClaim (sets : List SetId) (s : State) : (s.commit sets).wipeClaim = s.wipeClaim := rfl
@[simp] theorem State.commit_layoutWork (sets : List SetId) (s : State) :
    (s.commit sets).layoutWork = s.layoutWork := rfl
@[simp] theorem State.commit_resReady (sets : List SetId) (s : State) : (s.commit sets).resReady = s.resReady := rfl
@[simp] theorem State.commit_mode (sets : List SetId) (s : State) : (s.commit sets).mode = s.mode := rfl
@[simp] theorem State.commit_vmain (sets : List SetId) (s : State) : (s.commit sets).vmain = s.vmain := rfl
@[simp] theorem State.commit_vaux (sets : List SetId) (s : State) : (s.commit sets).vaux = s.vaux := rfl
@[simp] theorem State.commit_reservoirWait (sets : List SetId) (s : State) :
    (s.commit sets).reservoirWait = s.reservoirWait := rfl
@[simp] theorem State.commit_intent (sets : List SetId) (s : State) : (s.commit sets).intent = s.intent := rfl
@[simp] theorem State.commit_grants (sets : List SetId) (s : State) : (s.commit sets).grants = s.grants := rfl
@[simp] theorem State.commit_report (sets : List SetId) (s : State) : (s.commit sets).report = s.report := rfl
@[simp] theorem State.commit_rstLow (sets : List SetId) (s : State) : (s.commit sets).rstLow = s.rstLow := rfl
@[simp] theorem State.commit_reply (sets : List SetId) (s : State) : (s.commit sets).reply = s.reply := rfl
@[simp] theorem State.commit_frameFault (sets : List SetId) (s : State) :
    (s.commit sets).frameFault = s.frameFault := rfl
@[simp] theorem State.commit_latched (sets : List SetId) (s : State) : (s.commit sets).latched = s.latched := rfl
@[simp] theorem State.commit_masks (sets : List SetId) (s : State) : (s.commit sets).masks = s.masks := rfl
@[simp] theorem State.commit_credOp (sets : List SetId) (s : State) : (s.commit sets).credOp = s.credOp := rfl
@[simp] theorem State.commit_layoutOp (sets : List SetId) (s : State) : (s.commit sets).layoutOp = s.layoutOp := rfl
@[simp] theorem State.commit_wipeOp (sets : List SetId) (s : State) : (s.commit sets).wipeOp = s.wipeOp := rfl
@[simp] theorem State.commit_policyDefaulted (sets : List SetId) (s : State) :
    (s.commit sets).policyDefaulted = s.policyDefaulted := rfl
@[simp] theorem State.commit_seconds (sets : List SetId) (s : State) : (s.commit sets).seconds = s.seconds := rfl
@[simp] theorem State.commit_millis (sets : List SetId) (s : State) : (s.commit sets).millis = s.millis := rfl

/-! ### `State.writeSettings` -/

@[simp] theorem State.writeSettings_pending (c : Settings) (s : State) : (s.writeSettings c).pending = s.pending := rfl
@[simp] theorem State.writeSettings_now (c : Settings) (s : State) : (s.writeSettings c).now = s.now := rfl
@[simp] theorem State.writeSettings_life (c : Settings) (s : State) : (s.writeSettings c).life = s.life := rfl
@[simp] theorem State.writeSettings_cells (c : Settings) (s : State) : (s.writeSettings c).cells = s.cells := rfl
@[simp] theorem State.writeSettings_cred (c : Settings) (s : State) : (s.writeSettings c).cred = s.cred := rfl
@[simp] theorem State.writeSettings_layout (c : Settings) (s : State) : (s.writeSettings c).layout = s.layout := rfl
@[simp] theorem State.writeSettings_binding (c : Settings) (s : State) : (s.writeSettings c).binding = s.binding := rfl
@[simp] theorem State.writeSettings_evid (c : Settings) (s : State) : (s.writeSettings c).evid = s.evid := rfl
@[simp] theorem State.writeSettings_settings (c : Settings) (s : State) : (s.writeSettings c).settings = c := rfl
@[simp] theorem State.writeSettings_nvs (c : Settings) (s : State) :
    (s.writeSettings c).nvs = { s.nvs with settings := .of c, seconds := s.seconds } := rfl
@[simp] theorem State.writeSettings_writeImages (c : Settings) (s : State) :
    (s.writeSettings c).writeImages = s.writeImages ++ [⟨s.nvs, []⟩] := rfl
@[simp] theorem State.writeSettings_draws (c : Settings) (s : State) : (s.writeSettings c).draws = s.draws := rfl
@[simp] theorem State.writeSettings_rootCopy (c : Settings) (s : State) :
    (s.writeSettings c).rootCopy = s.rootCopy := rfl
@[simp] theorem State.writeSettings_derivation (c : Settings) (s : State) :
    (s.writeSettings c).derivation = s.derivation := rfl
@[simp] theorem State.writeSettings_backoff (c : Settings) (s : State) : (s.writeSettings c).backoff = s.backoff := rfl
@[simp] theorem State.writeSettings_verified (c : Settings) (s : State) :
    (s.writeSettings c).verified = s.verified := rfl
@[simp] theorem State.writeSettings_gates (c : Settings) (s : State) : (s.writeSettings c).gates = s.gates := rfl
@[simp] theorem State.writeSettings_draft (c : Settings) (s : State) : (s.writeSettings c).draft = s.draft := rfl
@[simp] theorem State.writeSettings_shadow (c : Settings) (s : State) : (s.writeSettings c).shadow = s.shadow := rfl
@[simp] theorem State.writeSettings_mirror (c : Settings) (s : State) : (s.writeSettings c).mirror = s.mirror := rfl
@[simp] theorem State.writeSettings_mirrorShadow (c : Settings) (s : State) :
    (s.writeSettings c).mirrorShadow = s.mirrorShadow := rfl
@[simp] theorem State.writeSettings_queue (c : Settings) (s : State) : (s.writeSettings c).queue = s.queue := rfl
@[simp] theorem State.writeSettings_inFlight (c : Settings) (s : State) :
    (s.writeSettings c).inFlight = s.inFlight := rfl
@[simp] theorem State.writeSettings_kpurge (c : Settings) (s : State) : (s.writeSettings c).kpurge = s.kpurge := rfl
@[simp] theorem State.writeSettings_linkState (c : Settings) (s : State) :
    (s.writeSettings c).linkState = s.linkState := rfl
@[simp] theorem State.writeSettings_faultRun (c : Settings) (s : State) :
    (s.writeSettings c).faultRun = s.faultRun := rfl
@[simp] theorem State.writeSettings_tampOpen (c : Settings) (s : State) :
    (s.writeSettings c).tampOpen = s.tampOpen := rfl
@[simp] theorem State.writeSettings_beacon (c : Settings) (s : State) : (s.writeSettings c).beacon = s.beacon := rfl
@[simp] theorem State.writeSettings_tamper (c : Settings) (s : State) : (s.writeSettings c).tamper = s.tamper := rfl
@[simp] theorem State.writeSettings_dormancyCount (c : Settings) (s : State) :
    (s.writeSettings c).dormancyCount = s.dormancyCount := rfl
@[simp] theorem State.writeSettings_satisfied (c : Settings) (s : State) :
    (s.writeSettings c).satisfied = s.satisfied := rfl
@[simp] theorem State.writeSettings_window (c : Settings) (s : State) : (s.writeSettings c).window = s.window := rfl
@[simp] theorem State.writeSettings_decayCount (c : Settings) (s : State) :
    (s.writeSettings c).decayCount = s.decayCount := rfl
@[simp] theorem State.writeSettings_job (c : Settings) (s : State) : (s.writeSettings c).job = s.job := rfl
@[simp] theorem State.writeSettings_wipeClaim (c : Settings) (s : State) :
    (s.writeSettings c).wipeClaim = s.wipeClaim := rfl
@[simp] theorem State.writeSettings_layoutWork (c : Settings) (s : State) :
    (s.writeSettings c).layoutWork = s.layoutWork := rfl
@[simp] theorem State.writeSettings_resReady (c : Settings) (s : State) :
    (s.writeSettings c).resReady = s.resReady := rfl
@[simp] theorem State.writeSettings_mode (c : Settings) (s : State) : (s.writeSettings c).mode = s.mode := rfl
@[simp] theorem State.writeSettings_vmain (c : Settings) (s : State) : (s.writeSettings c).vmain = s.vmain := rfl
@[simp] theorem State.writeSettings_vaux (c : Settings) (s : State) : (s.writeSettings c).vaux = s.vaux := rfl
@[simp] theorem State.writeSettings_reservoirWait (c : Settings) (s : State) :
    (s.writeSettings c).reservoirWait = s.reservoirWait := rfl
@[simp] theorem State.writeSettings_intent (c : Settings) (s : State) : (s.writeSettings c).intent = s.intent := rfl
@[simp] theorem State.writeSettings_grants (c : Settings) (s : State) : (s.writeSettings c).grants = s.grants := rfl
@[simp] theorem State.writeSettings_report (c : Settings) (s : State) : (s.writeSettings c).report = s.report := rfl
@[simp] theorem State.writeSettings_rstLow (c : Settings) (s : State) : (s.writeSettings c).rstLow = s.rstLow := rfl
@[simp] theorem State.writeSettings_reply (c : Settings) (s : State) : (s.writeSettings c).reply = s.reply := rfl
@[simp] theorem State.writeSettings_frameFault (c : Settings) (s : State) :
    (s.writeSettings c).frameFault = s.frameFault := rfl
@[simp] theorem State.writeSettings_latched (c : Settings) (s : State) : (s.writeSettings c).latched = s.latched := rfl
@[simp] theorem State.writeSettings_masks (c : Settings) (s : State) : (s.writeSettings c).masks = s.masks := rfl
@[simp] theorem State.writeSettings_credOp (c : Settings) (s : State) : (s.writeSettings c).credOp = s.credOp := rfl
@[simp] theorem State.writeSettings_layoutOp (c : Settings) (s : State) :
    (s.writeSettings c).layoutOp = s.layoutOp := rfl
@[simp] theorem State.writeSettings_wipeOp (c : Settings) (s : State) : (s.writeSettings c).wipeOp = s.wipeOp := rfl
@[simp] theorem State.writeSettings_policyDefaulted (c : Settings) (s : State) :
    (s.writeSettings c).policyDefaulted = s.policyDefaulted := rfl
@[simp] theorem State.writeSettings_seconds (c : Settings) (s : State) : (s.writeSettings c).seconds = s.seconds := rfl
@[simp] theorem State.writeSettings_millis (c : Settings) (s : State) : (s.writeSettings c).millis = s.millis := rfl

/-! ### `State.endCred` -/

@[simp] theorem State.endCred_pending (outcome : OpOutcome) (s : State) : (s.endCred outcome).pending = s.pending := rfl
@[simp] theorem State.endCred_now (outcome : OpOutcome) (s : State) : (s.endCred outcome).now = s.now := rfl
@[simp] theorem State.endCred_life (outcome : OpOutcome) (s : State) : (s.endCred outcome).life = s.life := rfl
@[simp] theorem State.endCred_cells (outcome : OpOutcome) (s : State) : (s.endCred outcome).cells = s.cells := rfl
@[simp] theorem State.endCred_cred (outcome : OpOutcome) (s : State) : (s.endCred outcome).cred = s.cred := rfl
@[simp] theorem State.endCred_layout (outcome : OpOutcome) (s : State) : (s.endCred outcome).layout = s.layout := rfl
@[simp] theorem State.endCred_binding (outcome : OpOutcome) (s : State) : (s.endCred outcome).binding = s.binding := rfl
@[simp] theorem State.endCred_evid (outcome : OpOutcome) (s : State) : (s.endCred outcome).evid = s.evid := rfl
@[simp] theorem State.endCred_settings (outcome : OpOutcome) (s : State) :
    (s.endCred outcome).settings = s.settings := rfl
@[simp] theorem State.endCred_nvs (outcome : OpOutcome) (s : State) : (s.endCred outcome).nvs = s.nvs := rfl
@[simp] theorem State.endCred_writeImages (outcome : OpOutcome) (s : State) :
    (s.endCred outcome).writeImages = s.writeImages := rfl
@[simp] theorem State.endCred_draws (outcome : OpOutcome) (s : State) : (s.endCred outcome).draws = s.draws := rfl
@[simp] theorem State.endCred_rootCopy (outcome : OpOutcome) (s : State) :
    (s.endCred outcome).rootCopy = s.rootCopy := rfl
@[simp] theorem State.endCred_derivation (outcome : OpOutcome) (s : State) :
    (s.endCred outcome).derivation = s.derivation := rfl
@[simp] theorem State.endCred_backoff (outcome : OpOutcome) (s : State) : (s.endCred outcome).backoff = s.backoff := rfl
@[simp] theorem State.endCred_verified (outcome : OpOutcome) (s : State) :
    (s.endCred outcome).verified = s.verified := rfl
@[simp] theorem State.endCred_gates (outcome : OpOutcome) (s : State) : (s.endCred outcome).gates = s.gates := rfl
@[simp] theorem State.endCred_draft (outcome : OpOutcome) (s : State) : (s.endCred outcome).draft = s.draft := rfl
@[simp] theorem State.endCred_shadow (outcome : OpOutcome) (s : State) : (s.endCred outcome).shadow = s.shadow := rfl
@[simp] theorem State.endCred_mirror (outcome : OpOutcome) (s : State) : (s.endCred outcome).mirror = s.mirror := rfl
@[simp] theorem State.endCred_mirrorShadow (outcome : OpOutcome) (s : State) :
    (s.endCred outcome).mirrorShadow = s.mirrorShadow := rfl
@[simp] theorem State.endCred_queue (outcome : OpOutcome) (s : State) : (s.endCred outcome).queue = s.queue := rfl
@[simp] theorem State.endCred_inFlight (outcome : OpOutcome) (s : State) :
    (s.endCred outcome).inFlight = s.inFlight := rfl
@[simp] theorem State.endCred_kpurge (outcome : OpOutcome) (s : State) : (s.endCred outcome).kpurge = s.kpurge := rfl
@[simp] theorem State.endCred_linkState (outcome : OpOutcome) (s : State) :
    (s.endCred outcome).linkState = s.linkState := rfl
@[simp] theorem State.endCred_faultRun (outcome : OpOutcome) (s : State) :
    (s.endCred outcome).faultRun = s.faultRun := rfl
@[simp] theorem State.endCred_tampOpen (outcome : OpOutcome) (s : State) :
    (s.endCred outcome).tampOpen = s.tampOpen := rfl
@[simp] theorem State.endCred_beacon (outcome : OpOutcome) (s : State) : (s.endCred outcome).beacon = s.beacon := rfl
@[simp] theorem State.endCred_tamper (outcome : OpOutcome) (s : State) : (s.endCred outcome).tamper = s.tamper := rfl
@[simp] theorem State.endCred_dormancyCount (outcome : OpOutcome) (s : State) :
    (s.endCred outcome).dormancyCount = s.dormancyCount := rfl
@[simp] theorem State.endCred_satisfied (outcome : OpOutcome) (s : State) :
    (s.endCred outcome).satisfied = s.satisfied := rfl
@[simp] theorem State.endCred_window (outcome : OpOutcome) (s : State) : (s.endCred outcome).window = s.window := rfl
@[simp] theorem State.endCred_decayCount (outcome : OpOutcome) (s : State) :
    (s.endCred outcome).decayCount = s.decayCount := rfl
@[simp] theorem State.endCred_job (outcome : OpOutcome) (s : State) : (s.endCred outcome).job = s.job := rfl
@[simp] theorem State.endCred_wipeClaim (outcome : OpOutcome) (s : State) :
    (s.endCred outcome).wipeClaim = s.wipeClaim := rfl
@[simp] theorem State.endCred_layoutWork (outcome : OpOutcome) (s : State) :
    (s.endCred outcome).layoutWork = s.layoutWork := rfl
@[simp] theorem State.endCred_resReady (outcome : OpOutcome) (s : State) :
    (s.endCred outcome).resReady = s.resReady := rfl
@[simp] theorem State.endCred_mode (outcome : OpOutcome) (s : State) : (s.endCred outcome).mode = s.mode := rfl
@[simp] theorem State.endCred_vmain (outcome : OpOutcome) (s : State) : (s.endCred outcome).vmain = s.vmain := rfl
@[simp] theorem State.endCred_vaux (outcome : OpOutcome) (s : State) : (s.endCred outcome).vaux = s.vaux := rfl
@[simp] theorem State.endCred_reservoirWait (outcome : OpOutcome) (s : State) :
    (s.endCred outcome).reservoirWait = s.reservoirWait := rfl
@[simp] theorem State.endCred_intent (outcome : OpOutcome) (s : State) : (s.endCred outcome).intent = s.intent := rfl
@[simp] theorem State.endCred_grants (outcome : OpOutcome) (s : State) : (s.endCred outcome).grants = s.grants := rfl
@[simp] theorem State.endCred_report (outcome : OpOutcome) (s : State) : (s.endCred outcome).report = s.report := rfl
@[simp] theorem State.endCred_rstLow (outcome : OpOutcome) (s : State) : (s.endCred outcome).rstLow = s.rstLow := rfl
@[simp] theorem State.endCred_reply (outcome : OpOutcome) (s : State) : (s.endCred outcome).reply = s.reply := rfl
@[simp] theorem State.endCred_frameFault (outcome : OpOutcome) (s : State) :
    (s.endCred outcome).frameFault = s.frameFault := rfl
@[simp] theorem State.endCred_latched (outcome : OpOutcome) (s : State) : (s.endCred outcome).latched = s.latched := rfl
@[simp] theorem State.endCred_masks (outcome : OpOutcome) (s : State) : (s.endCred outcome).masks = s.masks := rfl
@[simp] theorem State.endCred_credOp (outcome : OpOutcome) (s : State) :
    (s.endCred outcome).credOp = s.credOp.finish outcome s.credOp.detail s.millis := rfl
@[simp] theorem State.endCred_layoutOp (outcome : OpOutcome) (s : State) :
    (s.endCred outcome).layoutOp = s.layoutOp := rfl
@[simp] theorem State.endCred_wipeOp (outcome : OpOutcome) (s : State) : (s.endCred outcome).wipeOp = s.wipeOp := rfl
@[simp] theorem State.endCred_policyDefaulted (outcome : OpOutcome) (s : State) :
    (s.endCred outcome).policyDefaulted = s.policyDefaulted := rfl
@[simp] theorem State.endCred_seconds (outcome : OpOutcome) (s : State) : (s.endCred outcome).seconds = s.seconds := rfl
@[simp] theorem State.endCred_millis (outcome : OpOutcome) (s : State) : (s.endCred outcome).millis = s.millis := rfl

/-! ### `State.startCred` -/

@[simp] theorem State.startCred_pending (kind : OpKind) (slot : Fin 8) (s : State) :
    (s.startCred kind slot).pending = s.pending := rfl
@[simp] theorem State.startCred_now (kind : OpKind) (slot : Fin 8) (s : State) :
    (s.startCred kind slot).now = s.now := rfl
@[simp] theorem State.startCred_life (kind : OpKind) (slot : Fin 8) (s : State) :
    (s.startCred kind slot).life = s.life := rfl
@[simp] theorem State.startCred_cells (kind : OpKind) (slot : Fin 8) (s : State) :
    (s.startCred kind slot).cells = s.cells := rfl
@[simp] theorem State.startCred_cred (kind : OpKind) (slot : Fin 8) (s : State) :
    (s.startCred kind slot).cred = s.cred := rfl
@[simp] theorem State.startCred_layout (kind : OpKind) (slot : Fin 8) (s : State) :
    (s.startCred kind slot).layout = s.layout := rfl
@[simp] theorem State.startCred_binding (kind : OpKind) (slot : Fin 8) (s : State) :
    (s.startCred kind slot).binding = s.binding := rfl
@[simp] theorem State.startCred_evid (kind : OpKind) (slot : Fin 8) (s : State) :
    (s.startCred kind slot).evid = s.evid := rfl
@[simp] theorem State.startCred_settings (kind : OpKind) (slot : Fin 8) (s : State) :
    (s.startCred kind slot).settings = s.settings := rfl
@[simp] theorem State.startCred_nvs (kind : OpKind) (slot : Fin 8) (s : State) :
    (s.startCred kind slot).nvs = s.nvs := rfl
@[simp] theorem State.startCred_writeImages (kind : OpKind) (slot : Fin 8) (s : State) :
    (s.startCred kind slot).writeImages = s.writeImages := rfl
@[simp] theorem State.startCred_draws (kind : OpKind) (slot : Fin 8) (s : State) :
    (s.startCred kind slot).draws = s.draws := rfl
@[simp] theorem State.startCred_rootCopy (kind : OpKind) (slot : Fin 8) (s : State) :
    (s.startCred kind slot).rootCopy = s.rootCopy := rfl
@[simp] theorem State.startCred_derivation (kind : OpKind) (slot : Fin 8) (s : State) :
    (s.startCred kind slot).derivation = s.derivation := rfl
@[simp] theorem State.startCred_backoff (kind : OpKind) (slot : Fin 8) (s : State) :
    (s.startCred kind slot).backoff = s.backoff := rfl
@[simp] theorem State.startCred_verified (kind : OpKind) (slot : Fin 8) (s : State) :
    (s.startCred kind slot).verified = s.verified := rfl
@[simp] theorem State.startCred_gates (kind : OpKind) (slot : Fin 8) (s : State) :
    (s.startCred kind slot).gates = s.gates := rfl
@[simp] theorem State.startCred_draft (kind : OpKind) (slot : Fin 8) (s : State) :
    (s.startCred kind slot).draft = s.draft := rfl
@[simp] theorem State.startCred_shadow (kind : OpKind) (slot : Fin 8) (s : State) :
    (s.startCred kind slot).shadow = s.shadow := rfl
@[simp] theorem State.startCred_mirror (kind : OpKind) (slot : Fin 8) (s : State) :
    (s.startCred kind slot).mirror = s.mirror := rfl
@[simp] theorem State.startCred_mirrorShadow (kind : OpKind) (slot : Fin 8) (s : State) :
    (s.startCred kind slot).mirrorShadow = s.mirrorShadow := rfl
@[simp] theorem State.startCred_queue (kind : OpKind) (slot : Fin 8) (s : State) :
    (s.startCred kind slot).queue = s.queue := rfl
@[simp] theorem State.startCred_inFlight (kind : OpKind) (slot : Fin 8) (s : State) :
    (s.startCred kind slot).inFlight = s.inFlight := rfl
@[simp] theorem State.startCred_kpurge (kind : OpKind) (slot : Fin 8) (s : State) :
    (s.startCred kind slot).kpurge = s.kpurge := rfl
@[simp] theorem State.startCred_linkState (kind : OpKind) (slot : Fin 8) (s : State) :
    (s.startCred kind slot).linkState = s.linkState := rfl
@[simp] theorem State.startCred_faultRun (kind : OpKind) (slot : Fin 8) (s : State) :
    (s.startCred kind slot).faultRun = s.faultRun := rfl
@[simp] theorem State.startCred_tampOpen (kind : OpKind) (slot : Fin 8) (s : State) :
    (s.startCred kind slot).tampOpen = s.tampOpen := rfl
@[simp] theorem State.startCred_beacon (kind : OpKind) (slot : Fin 8) (s : State) :
    (s.startCred kind slot).beacon = s.beacon := rfl
@[simp] theorem State.startCred_tamper (kind : OpKind) (slot : Fin 8) (s : State) :
    (s.startCred kind slot).tamper = s.tamper := rfl
@[simp] theorem State.startCred_dormancyCount (kind : OpKind) (slot : Fin 8) (s : State) :
    (s.startCred kind slot).dormancyCount = s.dormancyCount := rfl
@[simp] theorem State.startCred_satisfied (kind : OpKind) (slot : Fin 8) (s : State) :
    (s.startCred kind slot).satisfied = s.satisfied := rfl
@[simp] theorem State.startCred_window (kind : OpKind) (slot : Fin 8) (s : State) :
    (s.startCred kind slot).window = s.window := rfl
@[simp] theorem State.startCred_decayCount (kind : OpKind) (slot : Fin 8) (s : State) :
    (s.startCred kind slot).decayCount = s.decayCount := rfl
@[simp] theorem State.startCred_job (kind : OpKind) (slot : Fin 8) (s : State) :
    (s.startCred kind slot).job = s.job := rfl
@[simp] theorem State.startCred_wipeClaim (kind : OpKind) (slot : Fin 8) (s : State) :
    (s.startCred kind slot).wipeClaim = s.wipeClaim := rfl
@[simp] theorem State.startCred_layoutWork (kind : OpKind) (slot : Fin 8) (s : State) :
    (s.startCred kind slot).layoutWork = s.layoutWork := rfl
@[simp] theorem State.startCred_resReady (kind : OpKind) (slot : Fin 8) (s : State) :
    (s.startCred kind slot).resReady = s.resReady := rfl
@[simp] theorem State.startCred_mode (kind : OpKind) (slot : Fin 8) (s : State) :
    (s.startCred kind slot).mode = s.mode := rfl
@[simp] theorem State.startCred_vmain (kind : OpKind) (slot : Fin 8) (s : State) :
    (s.startCred kind slot).vmain = s.vmain := rfl
@[simp] theorem State.startCred_vaux (kind : OpKind) (slot : Fin 8) (s : State) :
    (s.startCred kind slot).vaux = s.vaux := rfl
@[simp] theorem State.startCred_reservoirWait (kind : OpKind) (slot : Fin 8) (s : State) :
    (s.startCred kind slot).reservoirWait = s.reservoirWait := rfl
@[simp] theorem State.startCred_intent (kind : OpKind) (slot : Fin 8) (s : State) :
    (s.startCred kind slot).intent = s.intent := rfl
@[simp] theorem State.startCred_grants (kind : OpKind) (slot : Fin 8) (s : State) :
    (s.startCred kind slot).grants = s.grants := rfl
@[simp] theorem State.startCred_report (kind : OpKind) (slot : Fin 8) (s : State) :
    (s.startCred kind slot).report = s.report := rfl
@[simp] theorem State.startCred_rstLow (kind : OpKind) (slot : Fin 8) (s : State) :
    (s.startCred kind slot).rstLow = s.rstLow := rfl
@[simp] theorem State.startCred_reply (kind : OpKind) (slot : Fin 8) (s : State) :
    (s.startCred kind slot).reply = s.reply := rfl
@[simp] theorem State.startCred_frameFault (kind : OpKind) (slot : Fin 8) (s : State) :
    (s.startCred kind slot).frameFault = s.frameFault := rfl
@[simp] theorem State.startCred_latched (kind : OpKind) (slot : Fin 8) (s : State) :
    (s.startCred kind slot).latched = s.latched := rfl
@[simp] theorem State.startCred_masks (kind : OpKind) (slot : Fin 8) (s : State) :
    (s.startCred kind slot).masks = s.masks := rfl
@[simp] theorem State.startCred_credOp (kind : OpKind) (slot : Fin 8) (s : State) :
    (s.startCred kind slot).credOp = .start kind (some slot.val) s.millis := rfl
@[simp] theorem State.startCred_layoutOp (kind : OpKind) (slot : Fin 8) (s : State) :
    (s.startCred kind slot).layoutOp = s.layoutOp := rfl
@[simp] theorem State.startCred_wipeOp (kind : OpKind) (slot : Fin 8) (s : State) :
    (s.startCred kind slot).wipeOp = s.wipeOp := rfl
@[simp] theorem State.startCred_policyDefaulted (kind : OpKind) (slot : Fin 8) (s : State) :
    (s.startCred kind slot).policyDefaulted = s.policyDefaulted := rfl
@[simp] theorem State.startCred_seconds (kind : OpKind) (slot : Fin 8) (s : State) : (s.startCred kind slot).seconds = s.seconds := rfl
@[simp] theorem State.startCred_millis (kind : OpKind) (slot : Fin 8) (s : State) : (s.startCred kind slot).millis = s.millis := rfl

end Sys2Proof.Machine
end

