-- ==== Sys2Proof/Laws/Ops.lean ====
section
/-! SUPPORT. For each shared operation, once, what it can do: which fields it may change and to what. Each form is an
equation to rewrite with, its open fields under an existential. -/

namespace Sys2Proof.Machine

/-! ### Time and commits -/

/-- Powered time running on changes the clock and the two counts. -/
theorem State.reaching_form (t : Micros) (s : State) :
    ∃ n a b, s.reaching t = { s with writeImages := [], now := n, dormancyCount := a, decayCount := b } := by
  unfold State.reaching State.runTo
  split <;> exact ⟨_, _, _, rfl⟩

/-- A timed event acts on the state at its moment. -/
theorem State.begin_atMoment (t : Micros) (f : State → State) (s : State) :
    s.begin.atMoment t f = f (s.reaching t) := rfl

/-- A commit writes the store and lists its write. -/
theorem State.commit_form (sets : List SetId) (s : State) :
    ∃ n, s.commit sets = { s with nvs := n, writeImages := s.writeImages ++ [⟨s.nvs, sets⟩] } := ⟨_, rfl⟩

/-! ### Desired states and the queue -/

/-- A hand-on changes the queue or the transfer in flight (R64). -/
theorem State.handOn_form (j : Fin 17) (s : State) : ∃ q f, s.handOn j = { s with queue := q, inFlight := f } := by
  unfold State.handOn
  split
  · exact ⟨_, _, rfl⟩
  split
  · exact ⟨_, _, rfl⟩
  split
  · split <;> exact ⟨_, _, rfl⟩
  · exact ⟨_, _, rfl⟩

/-- Hand-ons change the queue or the transfer in flight. -/
theorem State.handOnAll_form (js : List (Fin 17)) (s : State) :
    ∃ q f, s.handOnAll js = { s with queue := q, inFlight := f } := by
  unfold State.handOnAll
  induction js generalizing s with
  | nil => exact ⟨_, _, rfl⟩
  | cons j js ih =>
    obtain ⟨q, f, h⟩ := State.handOn_form j s
    obtain ⟨q', f', h'⟩ := ih (s.handOn j)
    refine ⟨q', f', ?_⟩
    simp only [List.foldl_cons]
    rw [h', h]

/-- R64: a hand-on changes the transfer in flight by its rejoin mark alone, set where it is the slot's own and the slot
is not queued. -/
theorem State.handOn_inFlight (j : Fin 17) (s : State) (hm : s.mode = .active) (hl : s.life.lifecycle ≠ .disabled) :
    (s.handOn j).inFlight =
      s.inFlight.map fun f => { f with rejoin := f.rejoin || decide (f.slot = j ∧ j ∉ s.queue) } := by
  unfold State.handOn
  rw [if_neg (by simp [hm, hl])]
  split
  · next hq => cases h : s.inFlight <;> simp [hq]
  · next hq =>
    split
    · next f hf => split <;> simp_all
    · next hf => simp [hf]

/-- No hand-on starts a transfer. -/
theorem State.handOn_inFlight_none (j : Fin 17) (s : State) (h : s.inFlight = none) :
    (s.handOn j).inFlight = none := by
  unfold State.handOn
  split
  · exact h
  split
  · exact h
  rw [h]

/-- No hand-ons start a transfer. -/
theorem State.handOnAll_inFlight_none (js : List (Fin 17)) (s : State) (h : s.inFlight = none) :
    (s.handOnAll js).inFlight = none := by
  unfold State.handOnAll
  induction js generalizing s with
  | nil => exact h
  | cons j js ih => exact ih _ (State.handOn_inFlight_none j s h)

/-- The root copy goes exactly where the last gate closed and no grant stands (R8). -/
theorem State.dropRootIfClosed_form (b : Bool) (s : State) :
    s.dropRootIfClosed b =
      { s with rootCopy := if b = true ∧ s.anyGateOpen = false ∧ s.grants = [] then none else s.rootCopy } := by
  unfold State.dropRootIfClosed
  have : (b && !s.anyGateOpen && s.grants.isEmpty) = true
      ↔ (b = true ∧ s.anyGateOpen = false ∧ s.grants = []) := by simp [and_assoc]
  split_ifs <;> first | rfl | (exfalso; tauto)

/-- A change of desired states sets gates and view, hands on, and drops the root copy by R8. -/
theorem State.changeDesired_form (g : Vector Gates 16) (v : View) (s : State) : ∃ q f,
    s.changeDesired g v =
      { s with
        gates := g, shadow := v, queue := q, inFlight := f
        rootCopy :=
          if s.anyGateOpen = true ∧ State.anyGateOpen { s with gates := g, shadow := v } = false ∧ s.grants = [] then
            none
          else s.rootCopy } := by
  unfold State.changeDesired
  obtain ⟨q, f, h⟩ := State.handOnAll_form (changedSlots s.gates g s.shadow v)
    (State.dropRootIfClosed s.anyGateOpen { s with gates := g, shadow := v })
  refine ⟨q, f, ?_⟩
  rw [h, State.dropRootIfClosed_form]

/-- A change of desired states starts no transfer. -/
theorem State.changeDesired_inFlight_none (g : Vector Gates 16) (v : View) (s : State) (h : s.inFlight = none) :
    (s.changeDesired g v).inFlight = none := by
  unfold State.changeDesired
  apply State.handOnAll_inFlight_none
  rw [State.dropRootIfClosed_form]
  exact h

/-- Closing everything after a purge changes the gates, the view and the queue (R52). -/
theorem State.closeAll_form (s : State) (h : s.inFlight = none) (hr : s.rootCopy = none) :
    ∃ q, s.closeAll = { s with gates := allClosed, shadow := .shown, queue := q } := by
  obtain ⟨q, f, e⟩ := State.changeDesired_form allClosed .shown s
  have hf : f = none := by
    have := State.changeDesired_inFlight_none allClosed .shown s h
    rwa [e] at this
  refine ⟨q, ?_⟩
  unfold State.closeAll
  rw [e, hf, hr]
  simp only [ite_self]
  rw [← h]

/-- A purge while KPURGE is low (R74). -/
theorem State.purge_form (s : State) (h : s.kpurge = none) :
    s.purge =
      { s with
        kpurge := if s.mode = .active then some s.now else none
        inFlight := none
        mirror := emptyMirror
        mirrorShadow := .none
        queue := []
        rootCopy := none } := by
  unfold State.purge
  rw [h]
  rfl

/-- A purge while KPURGE is high does nothing (log entry 21). -/
theorem State.purge_high (s : State) (h : s.kpurge.isSome = true) : s.purge = s := if_pos h

/-! ### Grants -/

/-- A grant drop leaves no grant; with the last goes the root copy (R150, R9). -/
theorem State.dropGrants_form (c : DropCause) (s : State) :
    s.dropGrants c =
      { s with
        grants := []
        rootCopy := if s.grants = [] then s.rootCopy else none
        report := if s.grants = [] then s.report else { s.report with dropCause := some c } } := by
  unfold State.dropGrants
  by_cases h : s.grants = []
  · rw [if_pos (by simp [h]), if_pos h, if_pos h, ← h]
  · rw [if_neg (by simpa using h), if_neg h, if_neg h]

/-- Entry to ALERT drops grants and intent, and does nothing else (R107). -/
theorem State.withdrawSuspend_form (s : State) :
    s.withdrawSuspend =
      { s with
        grants := [], intent := none
        rootCopy := if s.grants = [] then s.rootCopy else none
        report := if s.grants = [] then s.report else { s.report with dropCause := some .stageRise } } := by
  unfold State.withdrawSuspend
  rw [State.dropGrants_form]

/-! ### The evidence score -/

/-- No level lies between a stage and itself. -/
theorem passed_self (x : Stage) : passed x x = [] := by cases x <;> decide

/-- R101: an event that raises no stage: the score and its own entry. -/
theorem Evidence.take_quiet (c : Settings) (time : Nat) (kind : TrailKind) (w : Nat) (e : Evidence)
    (h : evaluate c (min 4095 (e.score + w)) e.stage = e.stage) :
    e.take c time kind w =
      (Evidence.append time kind w (min 4095 (e.score + w)) e.stage { e with score := min 4095 (e.score + w) },
        []) := by
  unfold Evidence.take
  simp only []
  split
  · unfold Evidence.rise
    have hs : ∀ (x : Evidence) (st : Stage) (sc : Nat), (Evidence.append time kind w sc st x).stage = x.stage :=
      fun _ _ _ => rfl
    have hc : ∀ (x : Evidence) (st : Stage) (sc : Nat), (Evidence.append time kind w sc st x).score = x.score :=
      fun _ _ _ => rfl
    simp only [hs, hc, h, passed_self, List.foldl_nil]
    rfl
  · rfl

/-- R100, R101: an event that raises no stage is one commit of the score, its entry and its source's sets. -/
theorem State.takeEvidence_quiet (kind : TrailKind) (w : Nat) (extra : List SetId) (s : State)
    (hl : s.life.lifecycle.takesEvidence = true)
    (h : evaluate s.settings (min 4095 (s.evid.score + w)) s.evid.stage = s.evid.stage) :
    s.takeEvidence kind w extra =
      State.commit (extra ++ [.evidence])
        { s with
          evid :=
            Evidence.append s.seconds kind w (min 4095 (s.evid.score + w)) s.evid.stage
              { s.evid with score := min 4095 (s.evid.score + w) } } := by
  unfold State.takeEvidence
  rw [if_pos hl, Evidence.take_quiet _ _ _ _ _ h]
  simp [State.settleRise]

/-- R99, R103: no event takes the stage away from WIPE. -/
theorem Evidence.take_stage_wipe (c : Settings) (time : Nat) (kind : TrailKind) (w : Nat) (e : Evidence)
    (h : e.stage = .wipe) : (e.take c time kind w).1.stage = .wipe := by
  rw [Evidence.take_quiet]
  · exact h
  · rw [h]; simp [evaluate]

/-- R29: a failure resolution's deadline. -/
theorem State.setBackoff_form (s : State) :
    s.setBackoff =
      { s with
        backoff :=
          if s.cred.failures < 4 then s.backoff
          else some (s.millis + min (2 ^ (s.cred.failures - 4)) 1024 * 1000) } := by
  unfold State.setBackoff backoffDelay
  by_cases h : s.cred.failures < 4 <;> simp [h]

/-- R24: a failure resolution whose event raises no stage. -/
theorem State.failureResolution_quiet (s : State) (hl : s.life.lifecycle.takesEvidence = true) :
    let w := s.settings.wBad * min s.cred.failures 8
    let score := min 4095 (s.evid.score + w)
    evaluate s.settings score s.evid.stage = s.evid.stage →
    ∃ n, s.failureResolution =
      { s with
        cred := { s.cred with openAttempt := false }
        evid := Evidence.append s.seconds .badSecret w score s.evid.stage { s.evid with score := score }
        nvs := n
        writeImages := s.writeImages ++ [⟨s.nvs, [.credentials, .evidence]⟩]
        backoff :=
          if s.cred.failures < 4 then s.backoff
          else some (s.millis + min (2 ^ (s.cred.failures - 4)) 1024 * 1000)
        latched := s.latched ||| single 10 Indicator.badSecret.code } := by
  intro w score h
  have e := State.takeEvidence_quiet .badSecret w [.credentials]
    { s with cred := { s.cred with openAttempt := false } } hl h
  have e2 : s.failureResolution =
      ((State.takeEvidence .badSecret w [.credentials]
        { s with cred := { s.cred with openAttempt := false } }).setBackoff).latch .badSecret := rfl
  rw [e2, e, State.setBackoff_form]
  exact ⟨_, rfl⟩

/-! ### The wipe start -/

/-- R26: what a wipe start does to a derivation in flight; without one it does nothing. -/
theorem State.abandonInWipe_form (s : State) : ∃ c e n w b l o,
    s.abandonInWipe =
        { s with
          derivation := none, cred := c, evid := e, nvs := n, writeImages := w, backoff := b, latched := l
          credOp := o }
      ∧ (s.derivation = none → e = s.evid) ∧ (s.evid.stage = .wipe → e.stage = .wipe) := by
  unfold State.abandonInWipe
  cases h : s.derivation with
  | none => exact ⟨_, _, _, _, _, _, _, by simp only []; rw [← h], fun _ => rfl, id⟩
  | some d =>
    simp only []
    split
    · rw [State.setBackoff_form]
      exact ⟨_, _, _, _, _, _, _, rfl, by simp, fun h => Evidence.take_stage_wipe _ _ _ _ _ h⟩
    · exact ⟨_, _, _, _, _, _, _, rfl, by simp, id⟩

/-- R128: a wipe start touches the LAYOUT claim, its record, and a job that stands in WRITE. -/
theorem State.supersedeLayout_form (s : State) :
    ∃ w o j, s.supersedeLayout = { s with layoutWork := w, layoutOp := o, job := j }
      ∧ (s.inWrite = false ∨ s.layoutWork = none → j = s.job) := by
  unfold State.supersedeLayout
  split
  · exact ⟨_, _, _, rfl, fun _ => rfl⟩
  · next w hw =>
    by_cases hi : s.inWrite = true
    · rw [if_pos hi]
      exact ⟨_, _, _, rfl, fun h => by rcases h with h | h <;> simp_all⟩
    · rw [if_neg hi]
      split <;> exact ⟨_, _, _, rfl, fun _ => rfl⟩

/-- R10: what the lifecycle unit sets off, with KPURGE low before it. -/
theorem State.wipeStartActions_form (s : State) (hk : s.kpurge = none) : ∃ q r rep lw lo j c e n w b l o,
    s.wipeStartActions =
        { s with
          kpurge := if s.mode = .active then some s.now else none
          inFlight := none, mirror := emptyMirror, mirrorShadow := .none, queue := q
          gates := allClosed, shadow := .shown, verified := 0
          grants := [], intent := none, rootCopy := r, report := rep
          window := s.window.stopWaiting, dormancyCount := 0, decayCount := 0
          wipeOp := .start .wipe none s.millis, wipeClaim := true
          layoutWork := lw, layoutOp := lo, job := j
          derivation := none, cred := c, evid := e, nvs := n, writeImages := w, backoff := b, latched := l
          credOp := o }
      ∧ r = none ∧ (s.inWrite = false ∨ s.layoutWork = none → j = s.job)
      ∧ (s.derivation = none → e = s.evid) ∧ (s.evid.stage = .wipe → e.stage = .wipe) := by
  have hp := State.purge_form s hk
  obtain ⟨q, hc⟩ := State.closeAll_form s.purge (by rw [hp]) (by rw [hp])
  unfold State.wipeStartActions
  rw [hc, hp]
  simp only []
  rw [State.withdrawSuspend_form]
  simp only []
  obtain ⟨lw, lo, j, hs, hj⟩ := State.supersedeLayout_form _
  rw [hs]
  obtain ⟨c, e, n, w, b, l, o, ha, h1, h2⟩ := State.abandonInWipe_form _
  rw [ha]
  exact ⟨_, _, _, _, _, _, _, _, _, _, _, _, _, rfl, by simp, hj, h1, h2⟩

/-! ### The LAYOUT operation -/

/-- Every range is in the list of all. -/
theorem mem_allRanges : ∀ k : Fin 16, k ∈ allRanges := by decide

/-- R129: no marked range is found exactly where none is. -/
theorem lowestMarked_none (n : Nat) (l : Layout) :
    lowestMarked n l = none ↔ ∀ k : Fin 16, n ≤ k.val → l.ranges[k].rekeyPending = false := by
  unfold lowestMarked
  rw [List.find?_eq_none]
  constructor
  · intro h k hk
    have := h k (mem_allRanges k)
    simpa [hk] using this
  · intro h k _
    by_cases hk : n ≤ k.val
    · simp; intro _; simpa using h k hk
    · simp [hk]

/-- R129: the range found is marked, and none below it is. -/
theorem lowestMarked_some (n : Nat) (l : Layout) (j : Fin 16) (hj : lowestMarked n l = some j) :
    n ≤ j.val ∧ l.ranges[j].rekeyPending = true
      ∧ ∀ i : Fin 16, n ≤ i.val → i < j → l.ranges[i].rekeyPending = false := by
  have hsorted : allRanges.Pairwise (· < ·) := by decide
  unfold lowestMarked at hj
  rw [List.find?_eq_some_iff_append] at hj
  obtain ⟨hp, as, bs, hab, hno⟩ := hj
  simp at hp
  refine ⟨hp.1, by simpa using hp.2, fun i hi hij => ?_⟩
  have hmem : i ∈ as := by
    have := mem_allRanges i
    rw [hab] at this
    simp only [List.mem_append, List.mem_cons] at this
    rcases this with h | h | h
    · exact h
    · exact absurd h (Fin.ne_of_lt hij)
    · rw [hab] at hsorted
      have := (List.pairwise_cons.1 (List.pairwise_append.1 hsorted).2.1).1 i h
      exact absurd this (by omega)
  have := hno i hmem
  simpa [hi] using this

/-- R12: a cell joins the fault list, and nothing leaves it. -/
theorem mem_insertFault (c x : Fin 26) (l : List (Fin 26)) : x ∈ insertFault c l ↔ (x ∈ l ∨ x = c) := by
  induction l with
  | nil => simp [insertFault]
  | cons a l ih =>
    unfold insertFault
    split
    · simp; tauto
    split
    · next h => subst h; simp; tauto
    · simp [ih]; tauto

/-- Section 1.1: an ascending fault list stays ascending. -/
theorem insertFault_pairwise (c : Fin 26) (l : List (Fin 26)) (h : l.Pairwise (· < ·)) :
    (insertFault c l).Pairwise (· < ·) := by
  induction l with
  | nil => simp [insertFault]
  | cons a l ih =>
    have ⟨ha, hl⟩ := List.pairwise_cons.1 h
    unfold insertFault
    split
    · next hc =>
      refine List.pairwise_cons.2 ⟨fun x hx => ?_, h⟩
      rcases List.mem_cons.1 hx with rfl | hx
      · exact hc
      · exact lt_trans hc (ha x hx)
    split
    · exact h
    · next hc hne =>
      refine List.pairwise_cons.2 ⟨fun x hx => ?_, ih hl⟩
      rcases (mem_insertFault c x l).1 hx with hx | rfl
      · exact ha x hx
      · omega

/-- R1: a copy that was put is the one found there, and the other copy stays. -/
@[simp] theorem TwoCopies.get_put {α : Type} (t : TwoCopies α) (c : Copy α) (i : CopyId) :
    (t.put c i).get i = c := by cases i <;> rfl

@[simp] theorem TwoCopies.get_put_other {α : Type} (t : TwoCopies α) (c : Copy α) (i : CopyId) :
    (t.put c i).get (otherCopy i) = t.get (otherCopy i) := by cases i <;> rfl

/-- R1: the failing of one copy leaves the other as it stands. -/
@[simp] theorem TwoCopies.get_fail_other {α : Type} (t : TwoCopies α) (i : CopyId) :
    (t.fail i).get (otherCopy i) = t.get (otherCopy i) := t.get_put_other _ i

/-- R1: a failing copy is not good. -/
@[simp] theorem TwoCopies.get_fail_good {α : Type} (t : TwoCopies α) (i : CopyId) : ((t.fail i).get i).good = false := by
  unfold TwoCopies.fail
  rw [TwoCopies.get_put]
  split <;> rfl

/-- Log entry 39: beside a good copy the set stands at that copy's number. -/
theorem TwoCopies.fail_higher {α : Type} (t : TwoCopies α) (i : CopyId) (h : (t.get (otherCopy i)).good = true) :
    (t.fail i).higher = (t.get (otherCopy i)).seq := by
  cases i <;> simp_all [TwoCopies.fail, TwoCopies.higher, TwoCopies.get, TwoCopies.put, otherCopy, Copy.broken]

@[simp] theorem Copy.listed_seq {α : Type} (c : Copy α) : c.listed.seq = c.seq := rfl
@[simp] theorem Copy.listed_good {α : Type} (c : Copy α) : c.listed.good = c.good := rfl
@[simp] theorem Copy.listed_content {α : Type} (c : Copy α) : c.listed.content = c.content := rfl
@[simp] theorem Copy.listed_commits {α : Type} (c : Copy α) : c.listed.commits = [] := rfl

/-- R1, log entry 8: a set beside the lifecycle record never loses its last good copy to a rejection. -/
theorem TwoCopies.rejectBeside_anyGood {α : Type} (t : TwoCopies α) : t.rejectBeside.anyGood = t.anyGood := by
  obtain ⟨⟨sa, ga, la, xa⟩, ⟨sb, gb, lb, xb⟩⟩ := t
  by_cases hs : sa < sb <;> cases ga <;> cases gb <;>
    simp [TwoCopies.rejectBeside, TwoCopies.reject, TwoCopies.anyGood, TwoCopies.first, TwoCopies.fail, TwoCopies.get,
      TwoCopies.put, otherCopy, Copy.broken, Copy.listed, hs]

/-- R1: a rejection beside a good copy takes that copy. -/
theorem TwoCopies.reject_taken {α : Type} (t : TwoCopies α) (h : (t.get (otherCopy t.first)).good = true) :
    t.reject.taken = (t.get (otherCopy t.first)).content := by
  obtain ⟨⟨sa, ga, la, xa⟩, ⟨sb, gb, lb, xb⟩⟩ := t
  by_cases hs : sa < sb <;> cases ga <;> cases gb <;>
    simp_all [TwoCopies.reject, TwoCopies.taken, TwoCopies.first, TwoCopies.fail, TwoCopies.get, TwoCopies.put,
      otherCopy, Copy.broken, Copy.listed]

/-- R1, log entry 8: what a taken copy from before the commit carries. -/
theorem stoodBefore_iff (taken given : BitVec 32) :
    stoodBefore taken given = true ↔ (taken = given - 1 ∨ taken = given - 2) := by
  simp [stoodBefore]

/-- R1, R16: a set without a good copy has no list that a restore checks. -/
theorem TwoCopies.takenList_of_lost {α : Type} (t : TwoCopies α) (h : t.anyGood = false) : t.takenList = [] := by
  simp [TwoCopies.takenList, h]

/-- R1: a list that a restore checks is carried by a good copy. -/
theorem TwoCopies.takenList_of_good {α : Type} (t : TwoCopies α) (h : t.anyGood = true) :
    (t.get t.first).good = true ∧ t.takenList = (t.get t.first).commits := by
  refine ⟨?_, by simp [TwoCopies.takenList, h]⟩
  obtain ⟨⟨sa, ga, la, xa⟩, ⟨sb, gb, lb, xb⟩⟩ := t
  by_cases hs : sa < sb <;> cases ga <;> cases gb <;>
    simp_all [TwoCopies.anyGood, TwoCopies.first, TwoCopies.get]

/-- R1, R16: no list is checked in a set none of whose copies is good. -/
theorem Nvs.takenCommits_of_lost (n : Nvs) (id : SetId) (h : n.anyGood id = false) : n.takenCommits id = [] := by
  cases id <;> exact TwoCopies.takenList_of_lost _ h

/-- R1: a restore rejects the copy it took of a set exactly where a copy it took of some set carries a cut commit's list
with that copy's number in it. -/
theorem Nvs.rejected_iff (n : Nvs) (id : SetId) :
    n.rejected id = true ↔ ∃ j, n.anyGood j = true ∧ n.cutList (n.takenCommits j) = true
      ∧ (id, n.takenSeq id) ∈ n.takenCommits j := by
  simp only [Nvs.rejected, List.any_eq_true, Bool.and_eq_true, beq_iff_eq, exists_eq_right]
  constructor
  · rintro ⟨j, -, hc, hm⟩
    refine ⟨j, ?_, hc, hm⟩
    by_contra hg
    rw [n.takenCommits_of_lost j (by simpa using hg)] at hm
    cases hm
  · rintro ⟨j, -, hc, hm⟩
    exact ⟨j, by cases j <;> decide, hc, hm⟩

/-- R130: a job whose WRITE runs to its end within its verify's step ends there. -/
@[simp] theorem endJobBlank_ended (j : Job) (s : State) : s.endJobBlank j .ended = s.endJob j false := by
  unfold State.endJobBlank
  split <;> simp_all

/-- R128: under a wipe no WRITE begins. -/
theorem endJobBlank_claimed (j : Job) (write : WriteProgress) (s : State) (h : s.wipeClaim = true) :
    s.endJobBlank j write = s.endJob j false := by
  unfold State.endJobBlank
  split <;> simp [h]

/-- R1: after a command that wrote nothing, no loss changes the store. -/
theorem nvsAfterLoss_of_no_writes (s : State) (cut : Option Cut) (h : s.writeImages = []) :
    s.nvsAfterLoss cut = s.nvs := by
  cases cut with
  | none => rfl
  | some c => simp only [State.nvsAfterLoss, h, List.drop_nil]

/-- R156, R157: what a held frame can change: the reply and the previous-frame-fault flag. -/
theorem answerHeld_form (s : State) (f : Frame) :
    ∃ reply frameFault, s.answerHeld f = { s with reply := reply, frameFault := frameFault } := by
  have ha : ∀ (k tag : Byte) (a : Answer), a.state = s →
      ∃ reply frameFault, answer k tag a = { s with reply := reply, frameFault := frameFault } := by
    rintro k tag ⟨c, b, u⟩ rfl
    exact ⟨_, _, rfl⟩
  have hr : ∀ (body : Bytes) (g : State → Bytes), (readOnly body g s).state = s := by
    intro body g; unfold readOnly; split <;> rfl
  unfold State.answerHeld
  split
  · exact ⟨_, _, rfl⟩
  split
  · exact ⟨_, _, rfl⟩
  · exact ⟨_, _, rfl⟩
  · exact ⟨_, _, rfl⟩
  split
  · exact ha _ _ _ rfl
  · refine ha _ _ _ ?_
    unfold checkOrder
    split
    · rfl
    · split
      · exact hr _ _
      · rfl

/-- The same of every held frame together. -/
theorem foldl_answerHeld_form (held : List Frame) (s : State) :
    ∃ reply frameFault, held.foldl State.answerHeld s = { s with reply := reply, frameFault := frameFault } := by
  induction held generalizing s with
  | nil => exact ⟨_, _, rfl⟩
  | cons f held ih =>
    obtain ⟨r, b, h⟩ := answerHeld_form s f
    obtain ⟨r', b', h'⟩ := ih (s.answerHeld f)
    exact ⟨r', b', by rw [List.foldl_cons, h', h]⟩

/-- R142: where RES_READY is not true the reservoir wait goes on. -/
theorem endIfReady_of_not_ready (s : State) (h : s.resReady = false) : s.endIfReady = s := by
  simp [State.endIfReady, h]

/-- R142: where RES_READY is true the reservoir wait ends as it begins. -/
theorem endIfReady_of_ready (s : State) (h : s.resReady = true) : s.endIfReady = s.endStarting := by
  simp [State.endIfReady, h]

/-- Without a job in WRITE nothing is left to finish. -/
theorem finishWrite_of_not_inWrite (s : State) (h : s.inWrite = false) : s.finishWrite = s := by
  unfold State.inWrite at h
  unfold State.finishWrite
  split
  · rfl
  · next j hj =>
    rw [hj] at h
    split <;> simp_all

/-- R124: the first verify of a cell that was BLANK before its job reads erased. -/
theorem readsErased_blank (j : Job) (reading : VerifyReading) (s : State) (hr : j.round = 1)
    (hc : s.cells[j.cell] = .blank) : s.readsErased j reading = true := by
  simp [State.readsErased, hr, hc]

end Sys2Proof.Machine
end

