-- ==== Sys2Proof/Laws/Requests.lean ====
section
/-! SUPPORT. What a request answers, once for every kind, and how the bodies of section 10.3 are read back. -/

namespace Sys2Proof.Machine

/-! ### The check order -/

/-- The reply of an answer is the reply of its parts. -/
theorem answer_replied (k : Kind) (tag : Byte) (a : Answer) :
    answer k.code tag a = a.state.replied k tag a.code a.body := rfl

/-- R154 to R159: a request that is judged is answered by the check order. -/
theorem request_judged (k : Kind) (tag : Byte) (body : Bytes) (owner : State → Answer) (s : State)
    (h : s.judgesFrames = true) (hl : body.length ≤ 240) :
    request k tag body owner s = .next (answer k.code tag (checkOrder k owner s.begin)) := by
  have hj : s.begin.judgesFrames = true := h
  simp only [request, hj]
  rw [if_neg (by simp), if_neg (by omega)]

/-- R159: a request past the check order's first four steps is answered by its owner. -/
theorem request_taken {k : Kind} {tag : Byte} {body : Bytes} {owner : State → Answer} {s : State}
    {code : ReplyCode} {b : Bytes} {t : State} (h : s.Admits k) (hl : body.length ≤ 240)
    (ho : owner s.begin = ⟨code, b, t⟩) : request k tag body owner s = .next (t.replied k tag code b) := by
  obtain ⟨ha, hb, hc⟩ := h
  have hk : checkOrder k owner s.begin = ⟨code, b, t⟩ := by simp [checkOrder, ha, hc, ho]
  rw [request_judged _ _ _ _ _ (by simp [State.judgesFrames, ha, hb]) hl, hk, answer_replied]

/-- R2: a kind that the lifecycle state does not admit. -/
theorem request_wrongState {k : Kind} {tag : Byte} {body : Bytes} {owner : State → Answer} {s : State}
    (hm : s.mode = .active) (hr : s.rstLow = false) (hl : body.length ≤ 240)
    (ha : s.life.lifecycle.admits k = false) :
    request k tag body owner s = .next (s.begin.replied k tag .wrongState []) := by
  rw [request_judged _ _ _ _ _ (by simp [State.judgesFrames, hm, hr]) hl, answer_replied]
  simp [checkOrder, hm, ha, refuse]

/-- R2: PROVISIONED admits every kind but PROVISION. -/
theorem State.admits_of_provisioned {k : Kind} {s : State} (hm : s.mode = .active) (hr : s.rstLow = false)
    (hl : s.life.lifecycle = .provisioned) (hk : k ≠ .provision) : s.Admits k :=
  ⟨hm, hr, by rw [hl]; cases k <;> first | rfl | exact absurd rfl hk⟩

/-- R21: a deadline still ahead. -/
theorem State.backoffOver_false {s : State} (h : ∃ t ∈ s.backoff, s.millis < t) : s.backoffOver = false := by
  obtain ⟨t, ht, h⟩ := h
  simp only [Option.mem_def] at ht
  simp only [State.backoffOver, ht, decide_eq_false_iff_not, Nat.not_le]
  exact h

/-- R21: no deadline still ahead. -/
theorem State.backoffOver_true {s : State} (h : ¬∃ t ∈ s.backoff, s.millis < t) : s.backoffOver = true := by
  unfold State.backoffOver
  split
  · rfl
  · next t ht => simp only [decide_eq_true_eq]; exact Nat.le_of_not_lt fun hh => h ⟨t, ht, hh⟩

/-- R33: the derivation unit holds a derivation naming the slot. -/
theorem State.derivationNames_iff (k : Fin 8) (s : State) :
    s.derivationNames k = true ↔ ∃ d ∈ s.derivation, d.slot = k := by
  unfold State.derivationNames
  cases s.derivation <;> simp

/-- R7: a verifier or the wipe code compares equal only to what the cell holds. -/
theorem Cell.compare_iff (c : Cell) (b : Bytes) : c.compare b = true ↔ c = .holding (.plain b) := by
  unfold Cell.compare
  split <;> simp

/-- Section 10.1: a kind is what its code names. -/
@[simp] theorem kindOf_code (k : Kind) : kindOf k.code = some k := by cases k <;> rfl

/-- R159: a code names no kind exactly where no kind has it. -/
theorem kindOf_eq_none (code : Byte) : kindOf code = none ↔ ∀ k : Kind, k.code ≠ code := by
  constructor
  · rintro h k rfl
    simp at h
  · intro h
    simp only [kindOf, List.find?_eq_none, beq_iff_eq]
    exact fun k _ => h k

/-! ### Bodies -/

/-- A slot index in its byte. -/
theorem slotByte_toNat (k : Fin 8) : (slotByte k).toNat = k.val := by simp [slotByte]; omega

/-- A range index in its byte. -/
theorem rangeByte_toNat (k : Fin 16) : (rangeByte k).toNat = k.val := by simp [rangeByte]; omega

/-- A slot index is read back. -/
theorem readSlot_slotByte (k : Fin 8) : readSlot (slotByte k) = some k := by simp [readSlot, slotByte_toNat]

/-- A user slot index is read back. -/
theorem readUserSlot_slotByte (k : Fin 8) (h : k ≠ 0) : readUserSlot (slotByte k) = some k := by
  unfold readUserSlot
  rw [if_neg, readSlot_slotByte]
  intro hh
  have := congrArg BitVec.toNat hh
  rw [slotByte_toNat] at this
  exact h (Fin.ext this)

/-- A range index is read back. -/
theorem readRange_rangeByte (k : Fin 16) : readRange (rangeByte k) = some k := by simp [readRange, rangeByte_toNat]

/-- A yes/no byte is read back. -/
theorem readFlag_flag (b : Bool) : readFlag (flag b) = some b := by cases b <;> rfl

/-- A list is read back with what follows it. -/
theorem readList_append (a b : Bytes) (h : a.length < 256) :
    readList (BitVec.ofNat 8 a.length :: (a ++ b)) = some (a, b) := by
  have hn : (BitVec.ofNat 8 a.length).toNat = a.length := by simp; omega
  simp only [readList, hn]
  rw [if_pos (by simp)]
  simp

/-- The bit of one range. -/
theorem single_getLsbD : ∀ a j : Fin 16, (single 16 a.val).getLsbD j.val = decide (j = a) := by decide

/-- A list of ranges none of which is named twice is read back as a set. -/
theorem readRangeSet_map (l : List (Fin 16)) (h : l.Nodup) :
    ∃ set, readRangeSet (l.map rangeByte) = some set ∧ ∀ j : Fin 16, set.getLsbD j.val = decide (j ∈ l) := by
  induction l with
  | nil => exact ⟨0, rfl, by simp⟩
  | cons a l ih =>
    obtain ⟨hn, h⟩ := List.nodup_cons.1 h
    obtain ⟨set, hs, hm⟩ := ih h
    refine ⟨set ||| single 16 a.val, ?_, ?_⟩
    · simp only [List.map_cons, readRangeSet, readRange_rangeByte, hs]
      rw [if_neg]
      rw [hm]; simpa using hn
    · intro j
      rw [BitVec.getLsbD_or, hm, single_getLsbD]
      simp [Bool.or_comm]

/-- A list of ranges none of which is named twice names at most 16. -/
theorem length_le_of_nodup (l : List (Fin 16)) (h : l.Nodup) : l.length ≤ 16 := by
  have := h.length_le_card
  simpa using this

/-- The body of UNLOCK and LOCK is read back. -/
theorem readGateBody_of (read write : Bool) (ranges : List (Fin 16)) (h1 : read ∨ write) (h2 : ranges ≠ [])
    (h3 : ranges.Nodup) :
    ∃ set : BitVec 16, (∀ j : Fin 16, set.getLsbD j.val = decide (j ∈ ranges)) ∧
      readGateBody (BitVec.ofNat 8 (read.toNat + 2 * write.toNat) :: BitVec.ofNat 8 ranges.length
        :: ranges.map rangeByte) = some ⟨read, write, set⟩ := by
  obtain ⟨set, hs, hm⟩ := readRangeSet_map ranges h3
  have hl := length_le_of_nodup ranges h3
  refine ⟨set, hm, ?_⟩
  have := readList_append (ranges.map rangeByte) [] (by simp; omega)
  rw [List.length_map, List.append_nil] at this
  simp only [readGateBody, this, hs]
  rw [if_neg (by simpa using h2)]
  cases read <;> cases write <;> simp_all

/-- A number of 6 bytes is read back. -/
theorem ofBe_be_six (n : Nat) (h : n < 2 ^ 48) : ofBe (be 6 n) = n := by simp [be, ofBe]; omega

/-- The length of a number's bytes. -/
theorem be_length (w n : Nat) : (be w n).length = w := by
  induction w with
  | zero => rfl
  | succ w ih => simp [be, ih]

end Sys2Proof.Machine
end

