-- ==== Sys2Proof/Tests/Slice0.lean ====
section
/-! SUPPORT. Checks of the model's own: ill-formed commands are refused by the check, the reset state is a power-on of a
factory part, a few one-command effects, and a state and operands that meet the hypotheses of each obligation, clause
by clause (named after it). -/

namespace Sys2Proof.Tests

set_option Elab.async false

open Sys2Proof.Machine

/-! ### Small states -/

/-- The factory part in ACTIVE. -/
def fresh : State := { State.reset with mode := .active, reservoirWait := none }

/-- A provisioned part in ACTIVE: slot 0 active and verified, range 0 alone enabled. -/
def ready : State :=
  { fresh with
    life := ⟨.provisioned, none⟩
    layout := .default (some 65536)
    cred := { CredentialTable.factory with
      slots := CredentialTable.factory.slots.set 0 ⟨.active, some [], BitVec.allOnes 16, false⟩ }
    verified := 1 }

/-- The provisioned part with a user slot 3 that may resume, verified too. -/
def user : State :=
  { ready with
    cred := { ready.cred with slots := ready.cred.slots.set 3 ⟨.active, some [], 1, true⟩ }
    verified := 9 }

/-- A derivation in flight for slot 0. -/
def flight (w : Work) : Derivation := ⟨w, 0, 0, [], []⟩

/-- The provisioned part with a derivation in flight that compares equal. -/
def right (w : Work) : State :=
  { ready with
    derivation := some (flight w)
    cells := ready.cells.set 2 (.holding (.plain (Config.derive [] []).toList)) }

/-- The provisioned part in a stage. -/
def staged (x : Stage) : State := { ready with evid := { ready.evid with stage := x } }

/-- The provisioned part in LOCKDOWN with a right secret in flight. -/
def rightLocked (w : Work) : State := { right w with evid := { ready.evid with stage := .lockdown } }

/-- The provisioned part with one read gate of range 0 OPEN and the engine showing it so. -/
def opened : State :=
  { ready with
    gates := allClosed.set 0 ⟨true, false⟩
    mirror := emptyMirror.set 0 ⟨.loaded, ⟨true, false⟩⟩ }

/-- A part in AUX under a grant for range 0. -/
def aux : State :=
  { ready with mode := .aux, vmain := false, verified := 0, grants := [⟨0, ⟨true, false⟩, 60000000⟩] }

/-- A part in WIPING at a cell, with the cell's job in a phase. -/
def wiping (c : Fin 26) (p : Phase) : State :=
  { ready with
    life := ⟨.wiping, some ⟨⟨c.val, by omega⟩, []⟩⟩
    evid := { ready.evid with stage := .wipe }
    wipeClaim := true
    job := some ⟨.wipe, c, 4, 1, 0, 0, p⟩ }

/-! ### Well-formedness -/

theorem test_wellFormed_identify : (Instr.identify 0 []).wellFormed = true := by decide
theorem test_illFormed_body : (Instr.verify 0 (List.replicate 241 0)).wellFormed = false := by decide +kernel
theorem test_wellFormed_body : (Instr.verify 0 (List.replicate 240 0)).wellFormed = true := by decide +kernel
theorem test_illFormed_unknownKind : (Instr.unknownKind 0x50 0 []).wellFormed = false := by decide
theorem test_illFormed_unknownBody : (Instr.unknownKind 0x60 0 (List.replicate 241 0)).wellFormed = false := by
  decide +kernel
theorem test_wellFormed_unknownKind : (Instr.unknownKind 0x60 0 []).wellFormed = true := by decide
theorem test_illFormed_badFrame : (Instr.badFrame ⟨[0x01, 0x00, 0x00, 0x00, 0xFF], []⟩).wellFormed = false := by
  decide
theorem test_wellFormed_badFrame : (Instr.badFrame ⟨[0x01, 0x00, 0x00, 0x00, 0xFE], []⟩).wellFormed = true := by
  decide
theorem test_illFormed_powerOn : (Instr.powerOn false false plainRestore).wellFormed = false := by decide
theorem test_illFormed_held : (Instr.powerOn true false ⟨noDamage, [⟨[0xFF], []⟩]⟩).wellFormed = false := by decide
theorem test_wellFormed_held :
    (Instr.powerOn true false ⟨noDamage, [⟨[0x01, 0x07, 0x00, 0x00, 0xF8], []⟩]⟩).wellFormed = true := by decide
theorem test_illFormed_cut : (Instr.fullPowerLoss (some ⟨0, [.cells], some .cells, none⟩)).wellFormed = false := by
  decide
theorem test_illFormed_lateCut : (Instr.fullPowerLoss (some ⟨0, [], some .cells, some []⟩)).wellFormed = false := by
  decide
theorem test_wellFormed_cut : (Instr.fullPowerLoss (some ⟨0, [.cells], none, some []⟩)).wellFormed = true := by decide

/-! ### Effects of one command -/

/-- R140: the reset state is what POWER_ON leaves of a factory part that is OFF. -/
theorem test_reset_is_factory_power_on :
    State.powerOn true true plainRestore State.reset.enterOff = State.reset
      ∧ exec (.powerOn true true plainRestore) State.reset.enterOff
        = .next (State.powerOn true true plainRestore State.reset.enterOff) := ⟨by decide +kernel, rfl⟩

/-- R156, R157: a LOCK_ALL with tag 8 that ends during a restore is answered NOT_READY, though RES_READY is true and the
part is then ACTIVE; the summary says UNPROVISIONED, not ready. -/
theorem test_held_request_not_ready :
    ∃ t, exec (.powerOn true true ⟨noDamage, [⟨requestFrame 0x36 0x08 [], []⟩]⟩)
        { State.reset.enterOff with resReady := true } = .next t
      ∧ t.mode = .active ∧ t.reply = some [0x36, 0x08, 0x03, 0x08, 0x00, 0x00, 0x00, 0xB7] := ⟨_, rfl, by decide +kernel⟩

/-- R156, R157: of several held frames each is taken in its turn, a fault among them shows in the next reply, and an
IDENTIFY is answered. -/
theorem test_held_frames_in_turn :
    ∃ t, exec (.powerOn true true ⟨noDamage, [⟨[0x00], []⟩, ⟨requestFrame 0x01 0x07 [], []⟩]⟩) State.reset.enterOff = .next t
      ∧ t.mode = .starting ∧ t.frameFault = false
      ∧ t.reply =
        some (replyBytes 0x01 0x07 .done { State.reset with frameFault := true }.summary (identifyBody State.reset)) :=
  ⟨_, rfl, by decide +kernel⟩

/-- Section 9.1: the bytes of an IDENTIFY request with tag 7, written out. -/
theorem test_identify_frame : requestFrame 0x01 0x07 [] = [0x01, 0x07, 0x00, 0x00, 0xF8] := by decide

/-- R154: the same frame is judged as the request; ten ones are a read; a fifth zero bit is a fault. -/
theorem test_frames_judged :
    judgeFrame ⟨[0x01, 0x07, 0x00, 0x00, 0xF8], []⟩ = .request 0x01 0x07 []
      ∧ judgeFrame ⟨[0xFF], [true, true]⟩ = .read ∧ judgeFrame ⟨[], []⟩ = .empty
      ∧ judgeFrame ⟨[0x01, 0x07, 0x00, 0x00, 0xF8], [false]⟩ = .fault := by decide

/-- Section 10.2, 10.4: the reply to MASK SET of BEACON_LOST in PROVISIONED with a slot verified. -/
theorem test_mask_reply :
    ∃ t, exec (.mask 0x22 [1, 1, 1]) ready = .next t
      ∧ t.reply = some [0x04, 0x22, 0x00, 0x40, 0x40, 0x00, 0x02, 0x00, 0x02, 0x56] :=
  ⟨_, rfl, by decide +kernel⟩

/-- R168: the 30 bytes of the defaults. -/
theorem test_default_policy_bytes :
    Settings.defaults.toBytes =
      [0, 40, 0, 60, 0, 200, 0, 25, 1, 44, 0, 200, 3, 32, 7, 208, 50, 8, 10, 1, 8, 0, 10, 2, 30, 4, 0, 0, 120,
        0] := by decide

/-- R49, R48: UNLOCK of range 0 for reading opens its gate and queues its slot. -/
theorem test_unlock_range_zero :
    ∃ t, exec (.unlock 0 [1, 1, 0]) ready = .next t
      ∧ t.gates[(0 : Fin 16)] = ⟨true, false⟩ ∧ t.queue = [0] := ⟨_, rfl, by decide +kernel⟩

/-- R58: PREBOOT_DONE hides the shadow and queues slot 16. -/
theorem test_preboot_done :
    ∃ t, exec (.prebootDone 0 []) ready = .next t ∧ t.shadow = .hidden ∧ t.queue = [16] :=
  ⟨_, rfl, by decide +kernel⟩

/-- R66, R70: the slot of a closed range that the engine shows open is cleared. -/
theorem test_clear_is_sent :
    ∃ t, exec .syncCompare { opened with gates := allClosed, queue := [0] } = .next t
      ∧ t.inFlight = some ⟨0, .clear 0, 0, false⟩ ∧ t.mirror[(0 : Fin 16)] = ⟨.clearing, ⟨true, false⟩⟩ :=
  ⟨_, rfl, by decide +kernel⟩

/-- R174: the bits of that transfer as they are clocked out, and the lines while it awaits its answer. -/
theorem test_transfer_is_clocked :
    ∃ t, exec .syncCompare { opened with gates := allClosed, queue := [0] } = .next t
      ∧ (clockedOnKlD opened t =
        [false, false, false, false, false, false, true, true, false, false, false, false, false, false, false, false,
          true, true, true, true, true, true, false, true])
      ∧ t.keyLinkLines = ⟨true, false, false, false⟩ ∧ clockedOnKlD t t.begin = [] := ⟨_, rfl, by decide +kernel⟩

/-- R10: the admin WIPE starts the wipe and drives KPURGE. -/
theorem test_admin_wipe :
    ∃ t, exec (.wipe 0 []) opened = .next t
      ∧ t.life = ⟨.wiping, some ⟨0, []⟩⟩ ∧ t.evid.stage = .wipe ∧ t.kpurge = some 0 ∧ t.gates = allClosed :=
  ⟨_, rfl, by decide +kernel⟩

/-- R1: at number 2^32 − 1 a commit of two sets that is cut in its first writings reads old in both, though the second copy
of one stands whole, and reads new once a second writing has begun. -/
theorem test_late_commit_is_atomic :
    ∃ n : Nvs, (∀ c ∈ [n.lifecycle.a, n.lifecycle.b], c.seq = 4294967295)
      ∧ (let t := State.commit [.lifecycle, .evidence]
            { fresh with nvs := n, life := ⟨.wiping, none⟩, evid := ⟨7, .wipe, [], 0⟩ }
        (cutWrite ⟨0, [.lifecycle], some .evidence, none⟩ ⟨n, [.lifecycle, .evidence]⟩ t.nvs).contents = n.contents
          ∧ (cutWrite ⟨0, [.lifecycle, .evidence], none, none⟩ ⟨n, [.lifecycle, .evidence]⟩ t.nvs).contents = n.contents
          ∧ (cutWrite ⟨0, [.lifecycle, .evidence], none, some []⟩ ⟨n, [.lifecycle, .evidence]⟩ t.nvs).contents
            = t.nvs.contents ∧ t.nvs.contents.life = ⟨.wiping, none⟩) :=
  ⟨{ Nvs.factory with lifecycle := ⟨⟨4294967295, true, [], ⟨.unprovisioned, none⟩⟩, ⟨4294967295, true, [],
      ⟨.unprovisioned, none⟩⟩⟩ }, by decide, by decide +kernel⟩

/-- R1: a wipe-start commit cut before it reached the lifecycle record, whose newer copy fails its check at the next
power-on: the lifecycle stands two before the number the evidence's list gives, and both read old. -/
theorem test_cut_found_two_behind :
    (let n : Nvs :=
        { Nvs.factory with
          lifecycle := ⟨⟨4, true, [], ⟨.provisioned, none⟩⟩, ⟨5, true, [], ⟨.provisioned, some ⟨26, []⟩⟩⟩⟩ }
      let t := State.commit [.lifecycle, .evidence]
        { fresh with nvs := n, life := ⟨.wiping, some ⟨0, []⟩⟩, evid := ⟨7, .wipe, [], 0⟩ }
      let cut := cutWrite ⟨0, [.evidence], none, none⟩ ⟨n, [.lifecycle, .evidence]⟩ t.nvs
      let m := (damaged ⟨false, false, true⟩ cut).settled
      cut.evidence.taken.stage = .wipe ∧ m.lifecycle.taken = ⟨.provisioned, none⟩ ∧ m.evidence.taken = .factory) := by
  decide +kernel

/-- A store whose last wipe-start commit was cut before it reached the lifecycle record, over a commit of both sets. -/
def cutOverBoth : Nvs :=
  let n : Nvs :=
    { Nvs.factory with
      lifecycle := ⟨⟨4, true, [], ⟨.provisioned, none⟩⟩, ⟨5, true, [], ⟨.provisioned, some ⟨26, []⟩⟩⟩⟩
      evidence := ⟨⟨2, true, [], .factory⟩, ⟨3, true, [(.lifecycle, 5), (.evidence, 3)], ⟨1, .calm, [], 0⟩⟩⟩ }
  let t := State.commit [.lifecycle, .evidence]
    { fresh with nvs := n, life := ⟨.wiping, some ⟨0, []⟩⟩, evid := ⟨7, .wipe, [], 0⟩ }
  cutWrite ⟨0, [.evidence], none, none⟩ ⟨n, [.lifecycle, .evidence]⟩ t.nvs

/-- R1: where the newer lifecycle copy fails its check besides, the evidence reads old at that power-on and at every one
after it, though the list of the copy it then takes names the failed lifecycle copy; and a commit of it reads new. -/
theorem test_cut_reads_old_at_every_power_on :
    (let first := (damaged ⟨false, false, true⟩ cutOverBoth).settled
      let second := (damaged noDamage first).settled
      let third := State.commit [.evidence] { fresh with nvs := second, evid := ⟨9, .calm, [], 0⟩ }
      cutOverBoth.contents.evid.score = 1 ∧ first.evidence.taken.score = 1 ∧ second.evidence.taken.score = 1
        ∧ second.evidence.anyGood = true ∧ third.nvs.contents.evid.score = 9) := by decide +kernel

/-- The store of a part whose wipe-start commit was cut with copy A of the lifecycle record written, as the restore settled
it, and whose evidence was committed since. -/
def evidenceAfterCut : Nvs :=
  let n : Nvs :=
    { Nvs.factory with
      lifecycle := ⟨⟨4, true, [], ⟨.provisioned, none⟩⟩, ⟨5, true, [], ⟨.provisioned, none⟩⟩⟩ }
  let t := State.commit [.lifecycle, .evidence]
    { fresh with nvs := n, life := ⟨.wiping, some ⟨0, []⟩⟩, evid := ⟨7, .wipe, [], 0⟩ }
  let m := (cutWrite ⟨0, [.lifecycle], some .evidence, none⟩ ⟨n, [.lifecycle, .evidence]⟩ t.nvs).settled
  (State.commit [.evidence] { fresh with nvs := m, evid := ⟨9, .calm, [], 0⟩ }).nvs

/-- R1, R16: with neither lifecycle copy good, the list in the failing copy of the cut commit is not checked: the completed
evidence commit is restored, and the part takes the course of R16 with its S. -/
theorem test_lost_lifecycle_keeps_completed_commit :
    evidenceAfterCut.lifecycle.a.commits = [(.lifecycle, 6), (.evidence, 1)] ∧ evidenceAfterCut.takenSeq .evidence = 1
      ∧ (damaged ⟨false, false, true⟩ evidenceAfterCut).lifecycle.anyGood = false
      ∧ ∃ t, exec (.powerOn true true ⟨⟨false, false, true⟩, []⟩) { State.reset.enterOff with nvs := evidenceAfterCut }
          = .next t
        ∧ t.evid.score = 9 ∧ t.evid.stage = .wipe ∧ t.life = ⟨.wiping, some ⟨0, []⟩⟩ :=
  ⟨by decide +kernel, by decide +kernel, by decide +kernel, _, rfl, by decide +kernel⟩

/-- R1, log entry 44: over equal numbers a commit writes copy B. -/
theorem test_commit_over_equal_numbers :
    (let t := (TwoCopies.factory 0).write [] 9
    t.a = ⟨0, true, [], 0⟩ ∧ t.b = ⟨1, true, [], 9⟩ ∧ t.taken = 9) := by decide +kernel

/-- R16: a cut commit of the new lifecycle copies reads none of them, and the evidence stays old. -/
theorem test_lost_lifecycle_commit_cut :
    ∃ n : Nvs, n.lifecycle.anyGood = false
      ∧ (let t := State.commit [.lifecycle, .evidence]
            { fresh with nvs := n, life := ⟨.wiping, some ⟨0, []⟩⟩, evid := ⟨0, .wipe, [], 0⟩ }
        ∀ cut ∈ [(⟨0, [.lifecycle], some .evidence, none⟩ : Cut), ⟨0, [.evidence], some .lifecycle, none⟩],
          let m := (cutWrite cut ⟨n, [.lifecycle, .evidence]⟩ t.nvs).settled
          m.lifecycle.anyGood = false ∧ m.evidence.taken = .factory) :=
  ⟨damaged ⟨false, true, true⟩ Nvs.factory, by decide +kernel, by decide +kernel⟩

/-- R138: with no job the erase record reads 0 whatever RES_READY is. -/
theorem test_erase_record_without_job : eraseRecord { fresh with resReady := true } = [0, 0, 0, 0, 0, 0, 0, 0] := by
  decide +kernel

/-- R154, R145: SDO in a read frame of two bytes, in a request frame, with SEL_N high, and in AUX. -/
theorem test_sdo :
    (let s := { fresh with reply := some [0x12] }
    s.sdo (some ⟨[0xFF, 0xFF], [true, true]⟩) = .driven ⟨[0x12, 0xFF], [true, true]⟩
      ∧ s.sdo (some ⟨[0xFF], []⟩) = .driven ⟨[0x12], []⟩ ∧ s.sdo (some ⟨[0x00], []⟩) = .driven ⟨[0xFF], []⟩
      ∧ s.sdo (some ⟨[], [true, true, true, true]⟩) = .driven ⟨[], [false, false, false, true]⟩
      ∧ s.sdo none = .highImpedance ∧ State.sdo { s with mode := .aux } (some ⟨[0xFF], []⟩) = .highImpedance) := by
  decide

/-- R82: a rising edge within 1 ms of the change before it cannot arise. -/
theorem test_edge_too_soon :
    (let s := { ready with beacon := some ⟨some false, 0, none, 10000000⟩ }
    exec .presRisingEdge { s with now := 999 } = .next { s with now := 999 }
      ∧ exec .presRisingEdge { s with now := 1000 }
        = .next { s with now := 1000, beacon := some ⟨some true, 1000, some 1000, 10000000⟩ }) := ⟨rfl, rfl⟩

/-- R128: a wipe start that finds the WRITE phase: the write is skipped, and the operation ends with that range. -/
theorem test_wipe_in_write :
    ∃ t, exec (.wipe 0 [])
        { ready with
          job := some ⟨.layout, 12, 4, 1, 4, 0, .write false⟩, layoutWork := some ⟨2, none⟩
          layoutOp := .start .rekey (some 2) 0 } = .next t
      ∧ t.job = none ∧ t.layoutWork = none ∧ t.layoutOp.outcome = some .superseded ∧ t.layoutOp.detail = some 2
      ∧ t.cells = ready.cells := ⟨_, rfl, by decide +kernel⟩

/-- R79: RST_N in DISABLED leaves an EMPTY mirror. -/
theorem test_reset_in_disabled :
    ∃ t, exec .rstN { opened with life := ⟨.disabled, none⟩, evid := ⟨0, .wipe, [], 0⟩ } = .next t
      ∧ t.mirror = emptyMirror ∧ t.queue = [] := ⟨_, rfl, by decide +kernel⟩

/-- R140: a power-on in WIPING hands the engine the journal's next cell. -/
theorem test_power_on_grants :
    ∃ t, exec (.powerOn true true plainRestore)
        (State.enterOff (State.commit [.lifecycle, .evidence]
          { fresh with life := ⟨.wiping, some ⟨3, []⟩⟩, evid := ⟨0, .wipe, [], 0⟩ })) = .next t
      ∧ t.job = some ⟨.wipe, 3, 4, 1, 0, 0, .waiting⟩ ∧ t.wipeOp.detail = some 2 := ⟨_, rfl, by decide +kernel⟩

/-- R168, R140: a power-on that finds the settings record failing takes the defaults and says so. -/
theorem test_power_on_defaults_settings :
    ∃ t, exec (.powerOn true true ⟨⟨true, false, false⟩, []⟩) State.reset.enterOff = .next t
      ∧ t.settings = .defaults ∧ t.latched = 128 ∧ t.policyDefaulted = true ∧ t.nvs.settings.good = true :=
  ⟨_, rfl, by decide +kernel⟩

/-- R142, R143: 80 ms without RES_READY: RESERVOIR_SHORT, and ACTIVE by VMAIN, with slot 16 in the queue. -/
theorem test_first_start :
    ∃ t, exec .reservoirTimeout State.reset = .next t
      ∧ t.mode = .active ∧ t.now = 80000 ∧ t.latched = 256 ∧ t.queue = [16] := ⟨_, rfl, by decide +kernel⟩

/-! ### What the hypotheses of the obligations ask can be met -/

theorem test_meets_StepRunsTheFrontCommand : ∃ s : State, s.pending = [.identify 0 []] :=
  ⟨{ fresh with pending := [.identify 0 []] }, rfl⟩

theorem test_meets_EmptyQueuePassesAMicrosecond :
    (∃ s : State, s.pending = [] ∧ s.mode ≠ .off ∧ ∀ t ∈ s.begin.moments, s.now < t)
      ∧ (∃ s : State, s.pending = [] ∧ s.mode = .off)
      ∧ ∃ s : State, s.pending = [] ∧ ∃ t ∈ s.begin.moments, t ≤ s.now :=
  ⟨⟨fresh, rfl, by decide, by decide +kernel⟩, ⟨fresh.enterOff, rfl, rfl⟩,
    ⟨{ fresh with queue := [16] }, rfl, 0, by decide +kernel, by decide⟩⟩

theorem test_meets_RequestsStoppedBeforeTheirOwner :
    (requestOf (.rekey 1 [0]) = some (.rekey, 1, [0]) ∧ State.reset.mode = .starting
        ∧ State.reset.rstLow = false)
      ∧ (fresh.mode = .active ∧ fresh.rstLow = false ∧ fresh.life.lifecycle.admits .rekey = false)
      ∧ (fresh.judgesFrames = true ∧ 240 < (List.replicate 241 (0 : Byte)).length)
      ∧ fresh.enterOff.judgesFrames = false :=
  ⟨⟨rfl, rfl, rfl⟩, ⟨rfl, rfl, by decide⟩, ⟨by decide, by decide +kernel⟩, by decide⟩

theorem test_meets_FaultyAndUnknownFramesAreAnswered :
    (fresh.judgesFrames = true ∧ judgeFrame ⟨[0x00], []⟩ = .fault)
      ∧ (∀ k : Kind, k.code ≠ 0x60)
      ∧ ((⟨[0xFF], []⟩ : Frame).bytes ≠ [] ∧ ∀ b ∈ (⟨[0xFF], []⟩ : Frame).bytes, b = 0xFF)
      ∧ (judgeFrame ⟨[0x00], []⟩ ≠ .read ∧ (⟨[0x00], []⟩ : Frame).rest.length < 8) ∧ aux.judgesFrames = false :=
  ⟨⟨by decide, by decide⟩, fun k => by cases k <;> decide, by decide, by decide, by decide⟩

theorem test_meets_FramesCarryTheirFields : (List.replicate 240 (0 : Byte)).length ≤ 240 := by decide +kernel

theorem test_meets_ReportsReadTheState :
    fresh.judgesFrames = true ∧ fresh.Admits .readPolicy ∧ fresh.Admits .readScore ∧ fresh.Admits .readTrail
      ∧ ready.Admits .readRanges := by
  refine ⟨by decide, ⟨rfl, rfl, by decide⟩, ⟨rfl, rfl, by decide⟩, ⟨rfl, rfl, by decide⟩, rfl, rfl, by decide⟩

theorem test_meets_IndicatorsMasksAndRecordsAreRead :
    fresh.Admits .flags ∧ fresh.Admits .opstate ∧ fresh.Admits .mask
      ∧ ([0, 1, 2, 3, 4, 5, 6, 7, 8, 9] : Bytes).length ≤ 10
      ∧ ∀ b ∈ ([0, 1, 2, 3, 4, 5, 6, 7, 8, 9] : Bytes), b.toNat < 10 :=
  ⟨⟨rfl, rfl, by decide⟩, ⟨rfl, rfl, by decide⟩, ⟨rfl, rfl, by decide⟩, by decide, by decide⟩

theorem test_meets_ProvisionStartsADerivation :
    fresh.Admits .provision ∧ (2 ^ 48 - 8) % 8 = 0 ∧ 65536 ≤ 2 ^ 48 - 8 ∧ 2 ^ 48 - 8 ≤ 2 ^ 48 - 8
      ∧ (List.replicate 16 (0 : Byte)).length = 16 ∧ 8 ≤ (List.replicate 64 (0 : Byte)).length
      ∧ (List.replicate 64 (0 : Byte)).length ≤ 64 ∧ fresh.derivation = none
      ∧ (List.replicate 29 (0 : Byte)).length < 30 :=
  ⟨⟨rfl, rfl, by decide⟩, by decide, by decide, by decide, by decide, by decide, by decide, rfl, by decide⟩

theorem test_meets_ProvisionCompletes :
    ∃ s : State, s.derivation = some (flight (.provision 65536 [])) ∧ s.cells[(10 : Fin 26)] = .faulted
      ∧ s.cells[(0 : Fin 26)] = .blank :=
  ⟨{ fresh with derivation := some (flight (.provision 65536 [])), cells := fresh.cells.set 10 .faulted }, rfl,
    by decide +kernel, by decide +kernel⟩

theorem test_meets_StageEffectsWithdrawAccess :
    (opened.life.lifecycle = .provisioned ∧ opened.evid.stage ≠ .wipe ∧ opened.kpurge = none
        ∧ opened.derivation = none)
      ∧ (∃ (s : State) (j : Job), s.kpurge = none ∧ s.job = some j ∧ j.phase = .write true
        ∧ s.layoutWork = some ⟨0, none⟩) ∧ (∃ s : State, s.kpurge.isSome = true)
      ∧ (∃ s : State, s.life.lifecycle = .provisioned ∧ s.evid.stage ≠ .wipe ∧ s.kpurge = none ∧ s.job = none
        ∧ s.layoutWork = some ⟨15, none⟩)
      ∧ (∃ s : State, s.life.lifecycle = .provisioned ∧ s.evid.stage ≠ .wipe ∧ s.derivation = some (flight .verify)
        ∧ (flight .verify).work.counted = true ∧ 4 ≤ s.cred.failures)
      ∧ (∃ (s : State) (j : Job), s.life.lifecycle = .provisioned ∧ s.evid.stage ≠ .wipe ∧ s.kpurge = none
        ∧ s.job = some j ∧ j.owner = .layout ∧ (∀ committed, j.phase ≠ .write committed)
        ∧ s.layoutWork = some ⟨2, none⟩ ∧ s.window = .waiting 60000000)
      ∧ ∃ s : State, s.life.lifecycle = .provisioned ∧ s.evid.stage ≠ .wipe
        ∧ s.derivation = some (flight (.enroll 1 false)) ∧ (flight (.enroll 1 false)).work.counted = false :=
  ⟨⟨rfl, by decide, rfl, rfl⟩,
    ⟨{ ready with job := some ⟨.layout, 10, 4, 1, 4, 0, .write true⟩, layoutWork := some ⟨0, none⟩ }, _, rfl, rfl, rfl,
      rfl⟩, ⟨{ ready with kpurge := some 0 }, rfl⟩,
    ⟨{ ready with layoutWork := some ⟨15, none⟩ }, rfl, by decide, rfl, rfl, rfl⟩,
    ⟨{ right .verify with cred := { ready.cred with failures := 4 } }, rfl, by decide, rfl, rfl, by decide⟩,
    ⟨{ ready with
        job := some ⟨.layout, 12, 4, 1, 0, 0, .waiting⟩, layoutWork := some ⟨2, none⟩, window := .waiting 60000000 },
      _, rfl, by decide, rfl, rfl, rfl, by decide, rfl, rfl⟩,
    ⟨right (.enroll 1 false), rfl, by decide, rfl, rfl⟩⟩

theorem test_meets_WipeRequestStartsTheWipeOrIsCounted :
    ready.Admits .wipe ∧ (List.replicate 16 (0 : Byte)).length = 16 ∧ ready.life.lifecycle = .provisioned
      ∧ evaluate ready.settings (min 4095 (ready.evid.score + ready.settings.wBad * min 1 8)) ready.evid.stage
        = ready.evid.stage := ⟨⟨rfl, rfl, by decide⟩, by decide, rfl, by decide⟩

theorem test_meets_VerifyIsCountedAndStarted : ready.Admits .verify ∧ ([] : Bytes).length < 240 :=
  ⟨⟨rfl, rfl, by decide⟩, by decide⟩

theorem test_meets_VerificationsAreSettled_right :
    (∃ (s : State) (d : Derivation), s.derivation = some d ∧ d.work = .verify ∧ s.evid.stage = .calm
        ∧ s.cells[verifierCell d.slot] = .holding (.plain (Config.derive d.secret d.salt).toList))
      ∧ ∃ (s : State) (d : Derivation), s.derivation = some d ∧ d.work = .verify ∧ s.evid.stage = .lockdown
        ∧ s.cells[verifierCell d.slot] = .holding (.plain (Config.derive d.secret d.salt).toList) :=
  ⟨⟨right .verify, flight .verify, rfl, rfl, rfl, rfl⟩, ⟨rightLocked .verify, flight .verify, rfl, rfl, rfl, rfl⟩⟩

theorem test_meets_VerificationsAreSettled_wrong :
    ∃ (s : State) (d : Derivation), s.derivation = some d ∧ d.work = .verify ∧ s.life.lifecycle = .provisioned
      ∧ s.cells[verifierCell d.slot] ≠ .holding (.plain (Config.derive d.secret d.salt).toList)
      ∧ evaluate s.settings (min 4095 (s.evid.score + s.settings.wBad * min s.cred.failures 8)) s.evid.stage
        = s.evid.stage :=
  ⟨{ ready with derivation := some (flight .verify) }, flight .verify, rfl, rfl, rfl,
    (by simp only [show ready.cells[verifierCell (flight .verify).slot] = .blank from by decide +kernel]
        exact fun h => by cases h),
    by decide⟩

theorem test_meets_BackoffDoublesToItsCap :
    ∃ s : State, s.backoff = some 1000 ∧ s.millis < 1000 ∧ s.mode ≠ .off :=
  ⟨{ ready with backoff := some 1000 }, rfl, by decide, by decide⟩

theorem test_meets_EnrollStartsADerivation :
    ready.Admits .enroll ∧ (3 : Fin 8) ≠ 0 ∧ ([0, 15] : List (Fin 16)).Nodup
      ∧ 8 ≤ (List.replicate 8 (0 : Byte)).length ∧ (List.replicate 8 (0 : Byte)).length ≤ 64 :=
  ⟨⟨rfl, rfl, by decide⟩, by decide, by decide, by decide, by decide⟩

theorem test_meets_NewVerifiersAreCommitted :
    (∃ (s : State) (d : Derivation), s.derivation = some d ∧ d.work = .enroll 1 false ∧ s.evid.stage = .lockdown)
      ∧ (∃ (s : State) (d : Derivation), s.derivation = some d ∧ d.work = .enroll 1 false ∧ s.evid.stage = .calm)
      ∧ ∃ (s : State) (d : Derivation), s.derivation = some d ∧ d.work = .changeNew true ∧ s.evid.stage = .lockdown :=
  ⟨⟨rightLocked (.enroll 1 false), flight (.enroll 1 false), rfl, rfl, rfl⟩,
    ⟨right (.enroll 1 false), flight (.enroll 1 false), rfl, rfl, rfl⟩,
    ⟨rightLocked (.changeNew true), flight (.changeNew true), rfl, rfl, rfl⟩⟩

theorem test_meets_SlotsAreManaged :
    user.Admits .remove ∧ user.Admits .suspendSlot ∧ user.Admits .restoreSlot ∧ (3 : Fin 8) ≠ 0
      ∧ user.verified.getLsbD 0 = true ∧ user.cred.slots[(3 : Fin 8)].state = .active :=
  ⟨⟨rfl, rfl, by decide⟩, ⟨rfl, rfl, by decide⟩, ⟨rfl, rfl, by decide⟩, by decide, by decide, by decide +kernel⟩

theorem test_meets_ChangeSecretRunsItsTwoDerivations :
    (user.Admits .changeSecret ∧ 8 ≤ (List.replicate 64 (0 : Byte)).length
        ∧ (List.replicate 64 (0 : Byte)).length ≤ 64 ∧ user.backoffOver = true ∧ user.derivation = none
        ∧ user.cred.slots[(3 : Fin 8)].state = .active ∧ user.verified.getLsbD 0 = true
        ∧ user.evid.stage ≠ .lockdown)
      ∧ ∃ (s : State) (d : Derivation), s.derivation = some d ∧ d.work = .changeOld []
        ∧ s.cells[verifierCell d.slot] = .holding (.plain (Config.derive d.secret d.salt).toList) :=
  ⟨⟨⟨rfl, rfl, by decide⟩, by decide, by decide, by decide, rfl, by decide +kernel, by decide, by decide⟩,
    ⟨right (.changeOld []), flight (.changeOld []), rfl, rfl, rfl⟩⟩

/-- Each condition of R35 stops a CHANGE_SECRET in some state, and a wrong old secret is found in some state. -/
theorem test_meets_ChangeSecretRunsItsTwoDerivations_stopped :
    ((staged .lockdown).Admits .changeSecret ∧ (3 : Fin 8) ≠ 0 ∧ ready.cred.slots[(3 : Fin 8)].state = .empty)
      ∧ (∃ s : State, s.Admits .changeSecret ∧ s.cred.slots[(0 : Fin 8)].state = .active
        ∧ ∃ t ∈ s.backoff, s.millis < t)
      ∧ ((right .verify).Admits .changeSecret ∧ (right .verify).derivation.isSome = true)
      ∧ (8 ≤ (3 : Byte).toNat ∨ ((3 : Byte) ≠ 1 ∧ (3 : Byte) ≠ 2)) ∧ (List.replicate 7 (0 : Byte)).length < 8
      ∧ 64 < (List.replicate 238 (0 : Byte)).length ∧ (List.replicate 238 (0 : Byte)).length ≤ 238
      ∧ ∃ (s : State) (d : Derivation), s.derivation = some d ∧ d.work = .changeOld []
        ∧ s.cells[verifierCell d.slot] ≠ .holding (.plain (Config.derive d.secret d.salt).toList) :=
  ⟨⟨⟨rfl, rfl, by decide⟩, by decide, by decide +kernel⟩,
    ⟨{ ready with backoff := some 1000 }, ⟨rfl, rfl, by decide⟩, by decide +kernel, 1000, rfl, by decide⟩,
    ⟨⟨rfl, rfl, by decide⟩, rfl⟩, by decide, by decide, by decide +kernel, by decide +kernel,
    ⟨{ ready with derivation := some (flight (.changeOld [])) }, flight (.changeOld []), rfl, rfl,
      (by simp only [show ready.cells[verifierCell (flight (.changeOld [])).slot] = .blank from by decide +kernel]
          exact fun h => by cases h)⟩⟩

/-- R43: a draft of range 0, a disabled range, and the refusals, each in one state. -/
theorem test_draft_range_forms :
    (∃ t, exec (.draftRange 0 [0, 1, 3, 1, 1]) ready = .next t
        ∧ (t.draft.map fun d => d[(0 : Fin 16)]) = some ⟨true, none, ⟨true, true, false⟩, .refuse, true⟩)
      ∧ (∃ t, exec (.draftRange 0 [2, 0, 0, 0, 0]) ready = .next t
        ∧ (t.draft.map fun d => d[(2 : Fin 16)]) = some ⟨false, none, ⟨false, false, false⟩, .zero, false⟩)
      ∧ ∀ body ∈ ([[16], [2, 1, 0, 0, 0] ++ be 6 4 ++ be 6 8, [2, 1, 0, 0, 0] ++ be 6 65528 ++ be 6 16, [0, 0, 0, 0, 0],
          [2, 0, 8, 0, 0]] : List Bytes),
        exec (.draftRange 0 body) ready = .next (ready.begin.replied .draftRange 0 .badValue []) :=
  ⟨⟨_, rfl, by decide +kernel⟩, ⟨_, rfl, by decide +kernel⟩, by
    intro body hb
    simp only [List.mem_cons, List.not_mem_nil, or_false] at hb
    rcases hb with rfl | rfl | rfl | rfl | rfl <;> rfl⟩

theorem test_meets_DraftRangeTakesTheFields_stopped :
    (State.Admits .draftRange { ready with verified := 0 } ∧ State.verified { ready with verified := 0 } = 0)
      ∧ (16 ≤ (255 : Byte).toNat ∧ (15 : Byte).toNat < 16 ∧ 8 ≤ (8 : Byte).toNat ∧ 1 < (2 : Byte).toNat)
      ∧ (List.replicate 12 (0 : Byte)).length = 12 ∧ ¬(4 % 8 = 0) ∧ ¬(65528 + 16 ≤ ready.layout.capacity.getD 0)
      ∧ ready.draft = none ∧ State.draft { ready with draft := some ready.layout.edits } ≠ none := by
  refine ⟨⟨⟨rfl, rfl, by decide⟩, rfl⟩, by decide, by decide, by decide, by decide, rfl, ?_⟩
  exact fun h => by cases h

theorem test_meets_DraftRangeTakesTheFields :
    ready.Admits .draftRange ∧ ready.verified.getLsbD 0 = true ∧ (1 : Fin 16) ≠ 0
      ∧ 65528 % 8 = 0 ∧ 8 % 8 = 0 ∧ 8 ≤ 8 ∧ 65528 + 8 ≤ ready.layout.capacity.getD 0 ∧ ready.layout.capacity.getD 0 < 2 ^ 48 :=
  ⟨⟨rfl, rfl, by decide⟩, by decide, by decide, by decide, by decide, by decide, by decide, by decide⟩

/-- A draft with two spans, overlapping or not. -/
def drafted (start : Nat) : Vector Editable 16 :=
  (ready.layout.edits.set 1 ⟨true, some ⟨0, 16⟩, ⟨true, true, true⟩, .refuse, false⟩).set 2
    ⟨true, some ⟨start, 16⟩, ⟨true, true, true⟩, .refuse, false⟩

theorem test_meets_OverlapNamesTheLowestPair :
    lowestOverlap (drafted 8) 0 = some (1, 2) ∧ lowestOverlap (drafted 16) 0 = none
      ∧ lowestOverlap (drafted 16) 8 = some (1, 16) ∧ lowestUnderShadow (drafted 16) 8 = some 1
      ∧ lowestUnderShadow (drafted 16) 0 = none := by decide +kernel

theorem test_meets_ApplyLayoutInstallsTheDraft :
    ∃ s : State, s.Admits .applyLayout ∧ s.draft = some (drafted 16) ∧ s.verified.getLsbD 0 = true
      ∧ s.layoutOp.state ≠ .running ∧ lowestOverlap (drafted 16) s.settings.shadowL = none :=
  ⟨{ ready with draft := some (drafted 16) }, ⟨rfl, rfl, by decide⟩, rfl, by decide, by decide,
    by decide +kernel⟩

/-- A provisioned part with range 5 marked. -/
def markedPart : State :=
  { ready with layout := { ready.layout with
      ranges := ready.layout.ranges.set 5 { RangeRecord.default true with rekeyPending := true } } }

theorem test_meets_ApplyLayoutInstallsTheDraft_absent :
    (markedPart.Admits .applyLayout ∧ markedPart.draft = none ∧ markedPart.verified.getLsbD 0 = true
        ∧ markedPart.layoutOp.state ≠ .running ∧ lowestMarked 0 markedPart.begin.layout = some 5)
      ∧ (ready.draft = none ∧ lowestMarked 0 ready.begin.layout = none)
      ∧ ∃ s : State, s.Admits .applyLayout ∧ s.layoutOp.state = .running :=
  ⟨⟨⟨rfl, rfl, by decide⟩, rfl, by decide, by decide, by decide +kernel⟩, ⟨rfl, by decide +kernel⟩,
    ⟨{ ready with layoutOp := .start .rekey none 0 }, ⟨rfl, rfl, by decide⟩, rfl⟩⟩

theorem test_meets_RekeyMarksTheRange :
    ready.Admits .rekey ∧ ready.verified.getLsbD 0 = true ∧ ready.layoutOp.state ≠ .running
      ∧ ready.layout.ranges[(0 : Fin 16)].edit.enabled = true
      ∧ ready.layout.ranges[(1 : Fin 16)].edit.enabled = false :=
  ⟨⟨rfl, rfl, by decide⟩, by decide, by decide, by decide +kernel, by decide +kernel⟩

theorem test_meets_UnlockOpensTheNamedGates :
    ready.Admits .unlock ∧ (true ∨ false) ∧ ([0] : List (Fin 16)) ≠ [] ∧ ([0] : List (Fin 16)).Nodup
      ∧ ready.cred.slots[(0 : Fin 8)].access.getLsbD 0 = true ∧ ready.evid.stage = .calm
      ∧ ready.layout.ranges[(0 : Fin 16)].usable = true :=
  ⟨⟨rfl, rfl, by decide⟩, by decide, by decide, by decide, by decide +kernel, rfl, by decide +kernel⟩

theorem test_meets_LockClosesTheNamedGates :
    opened.mode = .active ∧ opened.rstLow = false ∧ (false ∨ true) ∧ ([0, 15] : List (Fin 16)) ≠ []
      ∧ ([0, 15] : List (Fin 16)).Nodup ∧ opened.life.lifecycle = .provisioned :=
  ⟨rfl, rfl, by decide, by decide, by decide, rfl⟩

theorem test_meets_LockAllClosesEverything :
    opened.mode = .active ∧ opened.rstLow = false ∧ opened.life.lifecycle = .provisioned := ⟨rfl, rfl, rfl⟩

theorem test_meets_PrebootDoneHidesTheShadow :
    ready.mode = .active ∧ ready.rstLow = false ∧ ready.life.lifecycle = .provisioned ∧ ready.verified ≠ 0
      ∧ ready.evid.stage = .calm := ⟨rfl, rfl, rfl, by decide, rfl⟩

theorem test_meets_StandDownReturnsToCalm :
    (staged .lockdown).mode = .active ∧ (staged .lockdown).rstLow = false
      ∧ (staged .lockdown).life.lifecycle = .provisioned ∧ (staged .lockdown).evid.stage = .lockdown
      ∧ (staged .lockdown).verified.getLsbD 0 = true := ⟨rfl, rfl, rfl, rfl, by decide⟩

theorem test_meets_DesiredStatesAreHandedOn :
    (opened.mode = .active ∧ opened.life.lifecycle ≠ .disabled ∧ opened.anyGateOpen = true
        ∧ changedSlots opened.gates allClosed .shown .hidden = [0, 16])
      ∧ aux.mode ≠ .active
      ∧ (∃ (s : State) (f : InFlight), s.mode = .active ∧ s.inFlight = some f ∧ f.rejoin = false
        ∧ f.slot ∈ changedSlots s.gates allClosed .shown .hidden ∧ f.slot ∉ s.queue)
      ∧ ∃ (s : State) (f : InFlight), s.mode = .active ∧ s.inFlight = some f
        ∧ f.slot ∉ changedSlots s.gates allClosed .shown .hidden :=
  ⟨⟨rfl, by decide, by decide +kernel, by decide +kernel⟩, by decide,
    ⟨{ opened with inFlight := some ⟨0, .clear 0, 0, false⟩ }, _, rfl, rfl, rfl, by decide +kernel, by decide⟩,
    ⟨{ opened with inFlight := some ⟨1, .clear 1, 0, false⟩ }, _, rfl, rfl, by decide +kernel⟩⟩

theorem test_meets_SetPolicyWritesTheRecord :
    (ready.Admits .setPolicy ∧ readPolicyBody Settings.defaults.toBytes = some .defaults
        ∧ lowestUnderShadow ready.layout.edits Settings.defaults.shadowL = none
        ∧ evaluate .defaults ready.evid.score .calm = .calm ∧ fresh.life.lifecycle = .unprovisioned)
      ∧ (∃ s : State, s.Admits .setPolicy ∧ s.verified.getLsbD 0 = true ∧ s.evid.stage ≠ .lockdown
        ∧ lowestUnderShadow s.layout.edits 8 = some 1)
      ∧ (staged .alert).evid.stage = .alert ∧ (staged .alert).evid.score = 0
      ∧ ∃ s : State, evaluate s.settings s.evid.score s.evid.stage ≠ s.evid.stage :=
  ⟨⟨⟨rfl, rfl, by decide⟩, by decide +kernel, by decide +kernel, by decide, rfl⟩,
    ⟨{ ready with
        layout := { ready.layout with
          ranges := ready.layout.ranges.set 1
            ⟨⟨true, some ⟨0, 16⟩, ⟨true, true, true⟩, .refuse, false⟩, false, .good⟩ } },
      ⟨rfl, rfl, by decide⟩, by decide, by decide, by decide +kernel⟩, rfl, rfl,
    ⟨{ ready with evid := ⟨200, .calm, [], 0⟩ }, by decide⟩⟩

/-- R172: fields past their ranges: the weights and the window clamped, the pass count and the hold raised to 1. -/
theorem test_meets_PolicyFieldsAreClampedOrRefused :
    readPolicyBody (be 2 65535 ++ be 2 0 ++ be 2 0 ++ be 2 0 ++ be 2 0 ++ be 2 1 ++ be 2 1 ++ be 2 4095
        ++ [255, 255, 0, 0, 16, 1, 0, 255, 0, 0] ++ be 2 32768 ++ [0, 0])
      = some { Settings.defaults with
        wBad := 1023, wBeacon := 0, wTamper := 0, wDorm := 0, wForeign := 0, ta := 1, tl := 1, tw := 4095, h := 255
        d := 255, idc := 0, scoreWipe := false, rUser := 16, beaconOn := true, w := 2, tamperCode := 4, dormId := 0
        p := 1, shadowL := 32768, maxHold := 1 } := by decide +kernel

theorem test_meets_EvidenceRaisesScoreAndStage :
    (fresh.life.lifecycle = .unprovisioned ∧ ready.life.lifecycle = .provisioned)
      ∧ (ready.evid.take ready.settings 0 .dormant 0).2 = [] ∧ (ready.evid.take ready.settings 0 .tamper 200).2 = [.alert]
      ∧ ((staged .alert).evid.take ready.settings 0 .tamper 800).2 = [.lockdown]
      ∧ (ready.evid.take ready.settings 0 .tamper 900).2 = [.alert, .lockdown]
      ∧ ((staged .lockdown).evid.take ready.settings 0 .tamper 2000).2 = [.wipe]
      ∧ ((staged .alert).evid.take ready.settings 0 .tamper 2000).2 = [.lockdown, .wipe]
      ∧ (ready.evid.take ready.settings 0 .tamper 2000).2 = [.alert, .lockdown, .wipe]
      ∧ ready.evid.trail.length < 24
      ∧ (⟨9, .calm, List.replicate 24 ⟨8, .tamper, 1, 1, .calm⟩, 65535⟩ : Evidence).trail.length = 24 := by
  decide +kernel

theorem test_meets_DecayTickLowersTheScore :
    ready.decayState = .running ∧ ready.evid.score = 0
      ∧ State.decayState { ready with evid := ⟨8, .alert, [], 0⟩ } = .running
      ∧ State.decayState { ready with settings := { ready.settings with idc := 0 } } = .off
      ∧ (staged .lockdown).decayState = .stopped ∧ State.reset.decayState = .held := by decide

theorem test_meets_PlatformBindingAndReports :
    ready.Admits .bindPlatform ∧ ready.Admits .platformReport ∧ ready.evid.stage ≠ .lockdown
      ∧ ready.window = .none ∧ ready.verified.getLsbD 0 = true
      ∧ (∃ s : State, s.Admits .bindPlatform ∧ s.verified.getLsbD 0 = false)
      ∧ (∃ s : State, s.Admits .bindPlatform ∧ s.verified.getLsbD 0 = true ∧ s.evid.stage = .lockdown)
      ∧ (∀ body ∈ [[], [1], [2, 0], [3], 1 :: List.replicate 15 0, 1 :: List.replicate 17 (0 : Byte)],
        body.length ≤ 240 ∧ body ≠ [2] ∧ ∀ bound : Bytes, body = 1 :: bound → bound.length ≠ 16)
      ∧ (∀ n ∈ [1, 15, 17, 240], let token : Bytes := List.replicate n 0
        token.length ≠ 0 ∧ token.length ≠ 16 ∧ token.length ≤ 240)
      ∧ ∃ s : State, s.Admits .platformReport ∧ s.window = .waiting 60000000
        ∧ s.binding = some (List.replicate 16 0) ∧ s.binding ≠ some [] :=
  ⟨⟨rfl, rfl, by decide⟩, ⟨rfl, rfl, by decide⟩, by decide, rfl, rfl,
    ⟨{ ready with verified := 0 }, ⟨rfl, rfl, by decide⟩, rfl⟩, ⟨staged .lockdown, ⟨rfl, rfl, by decide⟩, rfl, rfl⟩,
    (by
      intro body h
      simp only [List.mem_cons, List.not_mem_nil, or_false] at h
      rcases h with rfl | rfl | rfl | rfl | rfl | rfl <;>
        exact ⟨by decide, by decide, fun bound hb => by simp_all [List.replicate] <;> (subst hb; decide)⟩),
    by decide +kernel,
    ⟨{ ready with window := .waiting 60000000, binding := some (List.replicate 16 0) }, ⟨rfl, rfl, by decide⟩, rfl,
      rfl, by decide⟩⟩

theorem test_meets_RisingEdgesAreJudged :
    ∃ (b : BeaconWatch) (s : State), s.beacon = some b ∧ b.level = some false ∧ b.reference = some 0
      ∧ b.changed + 1000 ≤ s.now ∧ 0 + 250000 ≤ s.now :=
  ⟨⟨some false, 249000, some 0, 10000000⟩,
    { ready with beacon := some ⟨some false, 249000, some 0, 10000000⟩, now := 250000 }, rfl, rfl, rfl, by decide,
    by decide⟩

theorem test_meets_WatchesRaiseTheirEvents :
    (∃ (b : BeaconWatch) (s : State), s.beacon = some b ∧ b.level = some true ∧ b.changed + 1000 ≤ s.now)
      ∧ (∃ (b : BeaconWatch) (s : State), s.beacon = some b ∧ b.level = none ∧ b.changed + 1000 ≤ s.now)
      ∧ (∃ (b : BeaconWatch) (s : State), s.beacon = some b ∧ s.now < b.changed + 1000)
      ∧ (ready.dormancyState = .counting ∧ State.reset.dormancyState = .idle ∧ fresh.dormancyState = .idle
        ∧ State.dormancyState { ready with satisfied := true } = .satisfied
        ∧ State.dormancyState { State.reset with settings := { ready.settings with dormId := 0 } } = .off) :=
  ⟨⟨⟨some true, 0, some 0, 1⟩, { ready with beacon := some ⟨some true, 0, some 0, 1⟩, now := 1000 }, rfl, rfl,
      by decide⟩,
    ⟨⟨none, 0, none, 1⟩, { ready with beacon := some ⟨none, 0, none, 1⟩, now := 1000 }, rfl, rfl, by decide⟩,
    ⟨⟨none, 0, none, 1⟩, { ready with beacon := some ⟨none, 0, none, 1⟩ }, rfl, by decide⟩, by decide, by decide, by decide, by decide,
    by decide⟩

theorem test_meets_TamperLoopIsWatched :
    ready.mode = .active ∧ aux.mode = .aux ∧ State.reset.mode = .starting
      ∧ (∃ s : State, s.mode = .active ∧ s.tamper = .opening 0) ∧ ∃ s : State, s.mode = .aux ∧ s.tamper = .closing 0 :=
  ⟨rfl, rfl, rfl, ⟨{ ready with tamper := .opening 0 }, rfl, rfl⟩, ⟨{ aux with tamper := .closing 0 }, rfl, rfl⟩⟩

theorem test_meets_HeadSlotIsComparedAndSent :
    (∃ s : State, s.queue = [rangeSlot 0] ∧ s.mode = .active ∧ s.inFlight = none ∧ s.kpurge = none
        ∧ s.linkState = .running ∧ s.restricted = false ∧ s.gates[(0 : Fin 16)].anyOpen = true
        ∧ s.mirror[(0 : Fin 16)].state = .loaded ∧ s.mirror[(1 : Fin 16)].state = .empty
        ∧ s.mirrorShadow.state = .empty)
      ∧ ∃ (s : State) (root key : Bytes), s.rootCopy.or s.rootInCell = some root
        ∧ s.cells[rangeCell 0] = .holding (wrapKey root key) :=
  ⟨⟨{ opened with queue := [0] }, rfl, rfl, rfl, rfl, rfl, by decide, by decide +kernel, by decide +kernel,
      by decide +kernel, rfl⟩,
    ⟨{ ready with rootCopy := some [], cells := ready.cells.set 10 (.holding (wrapKey [] [])) }, [], [], rfl, rfl⟩⟩

theorem test_meets_HeadSlotIsComparedAndSent_failed :
    ∃ s : State, s.queue = [rangeSlot 0] ∧ s.mode = .active ∧ s.inFlight = none ∧ s.kpurge = none
      ∧ s.linkState = .running ∧ s.restricted = false ∧ s.gates[(0 : Fin 16)].anyOpen = true
      ∧ s.mirror[(0 : Fin 16)].state = .empty
      ∧ ∀ root ∈ s.rootCopy.or s.rootInCell, unwrapKey root s.cells[rangeCell 0] = none :=
  ⟨{ opened with queue := [0], mirror := emptyMirror }, rfl, rfl, rfl, rfl, rfl, by decide, by decide +kernel,
    by decide +kernel, by decide +kernel⟩

theorem test_meets_HeadSlotIsComparedAndSent_restricted :
    (∃ s : State, s.queue = [rangeSlot 0] ∧ s.mode = .active ∧ s.inFlight = none ∧ s.kpurge = none
        ∧ s.linkState = .running ∧ s.life.lifecycle ≠ .disabled ∧ s.evid.stage = .lockdown
        ∧ s.mirror[(0 : Fin 16)].state = .loaded)
      ∧ (∃ s : State, s.queue = [16] ∧ s.mode = .active ∧ s.life.lifecycle = .wiping ∧ s.mirrorShadow.state = .empty)
      ∧ (fresh.queue = [] ∧ ∃ x, ({ ready with layout := { ready.layout with
          ranges := ready.layout.ranges.set 1
            ⟨⟨true, some ⟨0, 16⟩, ⟨true, true, true⟩, .refuse, false⟩, false, .good⟩ } } : State).layout.ranges[
              (1 : Fin 16)].edit.extent = some x) :=
  ⟨⟨{ opened with queue := [0], evid := ⟨800, .lockdown, [], 0⟩ }, rfl, rfl, rfl, rfl, rfl, by decide, rfl,
      by decide +kernel⟩,
    ⟨{ wiping 0 .waiting with queue := [16] }, rfl, rfl, rfl, rfl⟩, rfl, ⟨0, 16⟩, by decide +kernel⟩

theorem test_meets_AcceptedTransfersReachTheMirror :
    ∃ (f : InFlight) (s : State), s.inFlight = some f ∧ s.mode = .active ∧ s.kpurge = none ∧ f.rejoin = true :=
  ⟨⟨0, .clear 0, 0, true⟩, { opened with inFlight := some ⟨0, .clear 0, 0, true⟩ }, rfl, rfl, rfl, rfl⟩

theorem test_meets_LinkFaultsPurgeTheEngine :
    ∃ (f : InFlight) (s : State), s.inFlight = some f ∧ s.mode = .active ∧ s.kpurge = none
      ∧ s.life.lifecycle = .provisioned ∧ s.evid.score ≤ 4095
      ∧ ∀ c : Instr, ∀ r : State, (c = .klAck false ∧ r = s.begin) →
        (c = .klAck false ∧ r = s.begin) ∨ (c = .ackTimeout ∧ r = s.reaching (f.rose + 10000)) :=
  ⟨⟨0, .clear 0, 0, true⟩, { opened with inFlight := some ⟨0, .clear 0, 0, true⟩ }, rfl, rfl, rfl, rfl, by decide,
    fun _ _ h => .inl h⟩

theorem test_meets_LinkFaultsPurgeTheEngine_elsewhere :
    (∃ (f : InFlight) (s : State), s.inFlight = some f ∧ s.mode = .active ∧ s.kpurge = none
        ∧ s.life.lifecycle = .unprovisioned)
      ∧ ∃ (f : InFlight) (s : State), s.inFlight = some f ∧ s.mode = .active ∧ s.kpurge = none
        ∧ s.life.lifecycle = .wiping ∧ s.evid.score ≤ 4095 :=
  ⟨⟨⟨16, .shadow .shown 0, 0, false⟩, { fresh with inFlight := some ⟨16, .shadow .shown 0, 0, false⟩ }, rfl, rfl, rfl,
      rfl⟩,
    ⟨⟨16, .shadow .shown 0, 0, false⟩, { wiping 0 .waiting with inFlight := some ⟨16, .shadow .shown 0, 0, false⟩ }, rfl,
      rfl, rfl, rfl, by decide⟩⟩

theorem test_meets_PulseEndsAndSlotsRejoin :
    ∃ s : State, s.kpurge = some 0 ∧ s.mode = .active ∧ s.life.lifecycle ≠ .disabled ∧ s.differs 0 = true :=
  ⟨{ opened with kpurge := some 0, mirror := emptyMirror }, rfl, rfl, by decide, by decide +kernel⟩

theorem test_meets_ArbiterGrantsTheWipeFirst :
    (∃ s : State, s.mode ≠ .off ∧ s.life.lifecycle ≠ .disabled ∧ s.job = none ∧ 0 < s.settings.p
        ∧ s.wipeClaim = true ∧ ∃ journal : Journal, s.life.journal = some journal ∧ journal.next.val = 25)
      ∧ ∃ s : State, s.mode ≠ .off ∧ s.job = none ∧ s.wipeClaim = false ∧ s.layoutWork = some ⟨15, none⟩ :=
  ⟨⟨{ wiping 25 .waiting with job := none }, by decide, by decide, rfl, by decide, rfl, ⟨25, []⟩, rfl, rfl⟩,
    ⟨{ ready with layoutWork := some ⟨15, none⟩ }, by decide, rfl, rfl, rfl⟩⟩

theorem test_meets_CellJobStepsAreJudged :
    (∃ (j : Job) (s : State), s.job = some j ∧ j.phase = .pass 0 false false ∧ j.stuckRun < 2 ∧ s.now ≤ 0 + 1500)
      ∧ (∃ (j : Job) (s : State), s.job = some j ∧ j.phase = .pass 0 true false)
      ∧ (∃ (j : Job) (s : State), s.job = some j ∧ j.phase = .pass 0 false true)
      ∧ (∃ (j : Job) (s : State), s.job = some j ∧ j.phase = .waiting ∧ s.resReady = false ∧ s.mode ≠ .starting)
      ∧ (∃ (j : Job) (s : State), s.job = some j ∧ j.phase = .pass 0 false false ∧ j.stuckRun = 2)
      ∧ (∃ (j : Job) (s : State), s.job = some j ∧ j.phase = .verify 0 ∧ j.round = 1 ∧ s.cells[j.cell] = .blank)
      ∧ (∃ (j : Job) (s : State), s.job = some j ∧ j.phase = .verify 0 ∧ j.round = 1 ∧ 0 < j.p
        ∧ s.cells[j.cell] ≠ .blank)
      ∧ (∃ (j : Job) (s : State), s.job = some j ∧ j.phase = .write false)
      ∧ (ready.job = none ∧ ready.resReady = false ∧ ready.mode ≠ .starting)
      ∧ (∃ s : State, s.job = none ∧ s.resReady = true)
      ∧ (∃ (j : Job) (s : State), s.job = some j ∧ j.phase ≠ .waiting ∧ s.resReady = false ∧ s.mode ≠ .starting)
      ∧ ∃ (j : Job) (s : State), s.job = some j ∧ j.phase = .verify 0 ∧ j.round = 2 := by
  refine ⟨⟨_, wiping 0 (.pass 0 false false), rfl, rfl, by decide, by decide⟩, ⟨_, wiping 0 (.pass 0 true false), rfl, rfl⟩,
    ⟨_, wiping 0 (.pass 0 false true), rfl, rfl⟩, ⟨_, wiping 0 .waiting, rfl, rfl, rfl, by decide⟩,
    ⟨⟨.wipe, 0, 4, 1, 0, 2, .pass 0 false false⟩,
      { ready with job := some ⟨.wipe, 0, 4, 1, 0, 2, .pass 0 false false⟩ }, rfl, rfl, rfl⟩,
    ⟨_, wiping 0 (.verify 0), rfl, rfl, rfl, by decide +kernel⟩,
    ⟨_, { wiping 0 (.verify 0) with cells := ready.cells.set 0 .faulted }, rfl, rfl, rfl, by decide,
      by decide +kernel⟩,
    ⟨⟨.layout, 10, 4, 1, 4, 0, .write false⟩, { ready with job := some ⟨.layout, 10, 4, 1, 4, 0, .write false⟩ }, rfl,
      rfl⟩,
    ⟨rfl, rfl, by decide⟩, ⟨{ ready with resReady := true }, rfl, rfl⟩,
    ⟨⟨.layout, 10, 4, 1, 4, 0, .write false⟩, { ready with job := some ⟨.layout, 10, 4, 1, 4, 0, .write false⟩ }, rfl,
      by decide, rfl, by decide⟩,
    ⟨⟨.wipe, 0, 4, 2, 4, 0, .verify 0⟩, { ready with job := some ⟨.wipe, 0, 4, 2, 4, 0, .verify 0⟩ }, rfl, rfl, rfl⟩⟩

theorem test_meets_WipeJobsEndInTheJournal :
    (∃ (j : Job) (journal : Journal) (s : State), j.owner = .wipe ∧ s.life = ⟨.wiping, some journal⟩
        ∧ s.evid.stage = .wipe ∧ j.cell ≠ 25)
      ∧ (∃ (j : Job) (s : State), s.job = some j ∧ j.cell = 25 ∧ s.cells[(0 : Fin 26)] = .blank)
      ∧ (∃ (j : Job) (s : State), s.job = some j ∧ j.cell = 25 ∧ s.cells[(0 : Fin 26)] = .faulted)
      ∧ ∃ (journal : Journal) (s : State), s.life = ⟨.wiping, some journal⟩ ∧ s.evid.stage = .wipe
        ∧ s.cells[(0 : Fin 26)] = .blank ∧ journal.faults ≠ [] ∧ journal.faults.Pairwise (· < ·) :=
  ⟨⟨⟨.wipe, 0, 4, 1, 0, 0, .verify 0⟩, ⟨0, []⟩, wiping 0 (.verify 0), rfl, rfl, rfl, by decide⟩,
    ⟨_, wiping 25 (.verify 0), rfl, rfl, by decide +kernel⟩,
    ⟨_, { wiping 25 (.verify 0) with cells := ready.cells.set 0 .faulted }, rfl, rfl, by decide +kernel⟩,
    ⟨⟨25, [3, 7]⟩, { wiping 25 (.verify 0) with life := ⟨.wiping, some ⟨25, [3, 7]⟩⟩ }, rfl, rfl, by decide +kernel,
      by decide, by decide⟩⟩

theorem test_meets_RekeysEndInTheRangeRecord :
    (∃ (j : Job) (w : LayoutWork) (s : State) (root : Bytes), j.owner = .layout ∧ j.cell = rangeCell 15
        ∧ s.layoutWork = some w ∧ s.wipeClaim = false ∧ s.rootCopy.or s.rootInCell = some root
        ∧ lowestMarked 16 s.layout = none ∧ w.faulted = none)
      ∧ (∃ s : State, s.layoutWork = some ⟨0, none⟩ ∧ lowestMarked 1 s.layout = some 3)
      ∧ (∃ s : State, s.layoutWork = some ⟨0, none⟩ ∧ s.wipeClaim = true)
      ∧ ∃ s : State, s.layoutWork = some ⟨15, some 3⟩ ∧ s.wipeClaim = false ∧ s.rootCopy.or s.rootInCell = some []
        ∧ lowestMarked 16 s.layout = none :=
  ⟨⟨⟨.layout, 25, 4, 1, 0, 0, .verify 0⟩, ⟨15, none⟩,
      { ready with layoutWork := some ⟨15, none⟩, rootCopy := some [] }, [], rfl, rfl, rfl, rfl, rfl,
      by decide +kernel, rfl⟩,
    ⟨{ ready with
        layoutWork := some ⟨0, none⟩
        layout := { ready.layout with
          ranges := ready.layout.ranges.set 3 { RangeRecord.default true with rekeyPending := true } } },
      rfl, by decide +kernel⟩,
    ⟨{ wiping 0 .waiting with layoutWork := some ⟨0, none⟩ }, rfl, rfl⟩,
    ⟨{ ready with layoutWork := some ⟨15, some 3⟩, rootCopy := some [] }, rfl, rfl, rfl, by decide +kernel⟩⟩

theorem test_meets_RekeysEndInTheRangeRecord_write :
    (∃ (j : Job) (s : State), s.job = some j ∧ j.owner = .layout ∧ j.cell = rangeCell 2 ∧ j.phase = .verify 0
        ∧ s.wipeClaim = false ∧ s.rootCopy.or s.rootInCell = some [])
      ∧ (∃ (j : Job) (s : State), s.job = some j ∧ j.phase = .write true ∧ s.layoutWork = some ⟨2, none⟩
        ∧ lowestMarked 3 s.layout = none)
      ∧ (∃ (j : Job) (s : State), s.job = some j ∧ j.phase = .write true ∧ s.layoutWork = some ⟨2, some 1⟩
        ∧ lowestMarked 3 s.layout = none)
      ∧ ∃ (j : Job) (s : State), s.job = some j ∧ j.phase = .write false ∧ s.cells[rangeCell 2] = .blank
        ∧ lowestMarked 3 s.layout = some 5 ∧ s.mode ≠ .off ∧ s.life.lifecycle ≠ .disabled ∧ 0 < s.settings.p :=
  ⟨⟨_, { ready with job := some ⟨.layout, rangeCell 2, 4, 1, 4, 0, .verify 0⟩, rootCopy := some [] }, rfl, rfl, rfl, rfl,
      rfl, rfl⟩,
    ⟨_, { ready with job := some ⟨.layout, rangeCell 2, 4, 1, 4, 0, .write true⟩, layoutWork := some ⟨2, none⟩ }, rfl, rfl,
      rfl, by decide +kernel⟩,
    ⟨_, { ready with job := some ⟨.layout, rangeCell 2, 4, 1, 4, 0, .write true⟩, layoutWork := some ⟨2, some 1⟩ }, rfl,
      rfl, rfl, by decide +kernel⟩,
    ⟨_, { ready with
        job := some ⟨.layout, rangeCell 2, 4, 1, 4, 0, .write false⟩
        layout := { ready.layout with
          ranges := ready.layout.ranges.set 5 { RangeRecord.default true with rekeyPending := true } } }, rfl, rfl,
      by decide +kernel, by decide +kernel, by decide, by decide, by decide⟩⟩

/-- The factory part in OFF, its settings record failing its check. -/
def brokenSettings : State :=
  { State.reset.enterOff with nvs := { Nvs.factory with settings := StoredSettings.factory.broken } }

theorem test_meets_PowerOnRestoresTheStore :
    (State.reset.enterOff.mode = .off ∧ State.reset.enterOff.resReady = false
        ∧ State.reset.enterOff.nvs.settings.good = true ∧ State.reset.enterOff.nvs.lifecycle.anyGood = true
        ∧ State.reset.enterOff.nvs.settled = State.reset.enterOff.nvs)
      ∧ (brokenSettings.mode = .off ∧ brokenSettings.nvs.settings.good = false)
      ∧ (∃ r : Restore, (State.reset.enterOff.nvs.settings.good && !r.damage.settings) = false) :=
  ⟨⟨rfl, rfl, by decide +kernel, by decide +kernel, by decide +kernel⟩, ⟨rfl, by decide +kernel⟩,
    ⟨⟨⟨true, false, false⟩, []⟩, by decide +kernel⟩⟩

/-- Each form of a held frame, in STARTING with RST_N high and low. -/
theorem test_meets_PowerOnRestoresTheStore_held :
    (State.reset.mode = .starting ∧ State.reset.rstLow = false)
      ∧ (∃ s : State, s.mode = .starting ∧ s.rstLow = true)
      ∧ judgeFrame ⟨[], []⟩ = .empty ∧ judgeFrame ⟨[0xFF], []⟩ = .read ∧ judgeFrame ⟨[0x00], []⟩ = .fault
      ∧ (∀ code ∈ [0x00, 0x01, 0x02, 0x36], ∀ body ∈ [[], [(0 : Byte)]],
        judgeFrame ⟨requestFrame code 0x07 body, []⟩ = .request code 0x07 body)
      ∧ (∀ k : Kind, k.code ≠ 0x00) ∧ Kind.identify.code = 0x01 ∧ Kind.status.code = 0x02
      ∧ Kind.lockAll.code = 0x36 :=
  ⟨⟨rfl, rfl⟩, ⟨{ State.reset with rstLow := true }, rfl, rfl⟩, by decide, by decide, by decide, by decide,
    fun k => by cases k <;> decide, rfl, rfl, rfl⟩

/-- A provisioned part in OFF with the open-attempt marker set and range 5 marked. -/
def opening : State :=
  State.enterOff (State.commit [.lifecycle, .credentials, .layout]
    { ready with
      cred := { ready.cred with failures := 1, openAttempt := true }
      layout := { ready.layout with
        ranges := ready.layout.ranges.set 5 { RangeRecord.default true with rekeyPending := true } } })

theorem test_meets_PowerOnRestoresTheStore_marker :
    opening.mode = .off ∧ opening.resReady = false ∧ opening.nvs.settings.good = true
      ∧ opening.nvs.lifecycle.anyGood = true ∧ opening.nvs.settled = opening.nvs
      ∧ opening.nvs.lifecycle.taken.lifecycle = .provisioned ∧ opening.nvs.credentials.taken.openAttempt = true
      ∧ lowestMarked 0 opening.nvs.layout.taken = some 5
      ∧ evaluate opening.nvs.settings.record 40 opening.nvs.evidence.taken.stage = opening.nvs.evidence.taken.stage
      ∧ opening.nvs.evidence.taken.stage ≠ .alert := by decide +kernel

theorem test_meets_PowerOnRestoresTheStore_lost :
    (∀ cells ∈ [Vector.replicate 26 Cell.blank, (Vector.replicate 26 Cell.blank).set 0 .faulted,
        ((Vector.replicate 26 Cell.blank).set 0 .faulted).set 1 (.holding (.plain []))],
      let n := (damaged ⟨false, true, true⟩ { Nvs.factory with cells := .factory cells }).settled
      n.lifecycle.anyGood = false ∧ n.cells.taken = cells)
      ∧ (∃ u, exec (.powerOn true true plainRestore) { State.reset.enterOff with resReady := false } = .next u
        ∧ u.job = none)
      ∧ ∃ u, exec (.powerOn true true plainRestore) { opening with resReady := false } = .next u ∧ u.job ≠ none :=
  ⟨by decide +kernel, ⟨_, rfl, by decide +kernel⟩, _, rfl, by decide +kernel⟩

theorem test_meets_StartingEndsAndActiveBegins :
    (State.reset.mode = .starting ∧ State.reset.reservoirWait = some 0 ∧ State.reset.job = none
        ∧ State.reset.vmain = true ∧ State.reset.resReady = false)
      ∧ ∃ s : State, s.mode = .starting ∧ s.rstLow = false ∧ s.queue = [] ∧ s.inFlight = none
        ∧ s.mirror = emptyMirror ∧ s.mirrorShadow = .none ∧ s.life.lifecycle ≠ .disabled ∧ s.grants ≠ [] :=
  ⟨⟨rfl, rfl, rfl, rfl, rfl⟩, ⟨{ aux with mode := .starting }, rfl, rfl, rfl, rfl, rfl, rfl, by decide, by decide⟩⟩

theorem test_meets_StartingEndsAndActiveBegins_waiting :
    (∃ (j : Job) (s : State), s.mode = .starting ∧ s.reservoirWait = some 0 ∧ s.resReady = false ∧ s.job = some j
        ∧ j.phase = .waiting) ∧ ∃ s : State, s.rstLow = true :=
  ⟨⟨_, { wiping 0 .waiting with mode := .starting, reservoirWait := some 0 }, rfl, rfl, rfl, rfl, rfl⟩,
    ⟨{ fresh with rstLow := true }, rfl⟩⟩

theorem test_meets_StartingEndsAndActiveBegins_watches :
    (∃ s t : State, t = s.enterAux ∧ s.settings.beaconOn = true ∧ s.tamper = .armed ∧ s.tampOpen = true)
      ∧ (∃ s t : State, t = s.enterActive ∧ s.rstLow = false ∧ s.tamper = .tripped ∧ s.tampOpen = false)
      ∧ ∃ grants : List Grant, (grants.map Grant.range).Nodup ∧ (∃ x ∈ grants, x.range = 0)
        ∧ ∀ x ∈ grants, x.range ≠ 1 :=
  ⟨⟨{ aux with tamper := .armed, tampOpen := true, settings := { aux.settings with beaconOn := true } }, _, rfl, rfl, rfl,
      rfl⟩,
    ⟨{ ready with tamper := .tripped, tampOpen := false }, _, rfl, rfl, rfl, rfl⟩,
    ⟨aux.grants, by decide, ⟨_, .head _, rfl⟩, by decide⟩⟩

theorem test_meets_LossOfVmainEntersAux :
    (opened.mode = .active ∧ opened.vaux = true ∧ opened.derivation = none ∧ opened.intent = none)
      ∧ (∃ s : State, s.mode = .active ∧ s.vaux = true ∧ s.derivation = none ∧ s.intent = some ⟨1, 30000000⟩)
      ∧ ((right .verify).mode = .active ∧ (right .verify).vaux = true
        ∧ (right .verify).derivation = some (flight .verify)) :=
  ⟨⟨rfl, rfl, rfl, rfl⟩, ⟨{ user with intent := some ⟨1, 30000000⟩ }, rfl, rfl, rfl, rfl⟩, rfl, rfl, rfl⟩

theorem test_meets_SuppliesComeAndGo :
    (aux.mode = .aux ∧ aux.resReady = false ∧ ready.mode = .active ∧ ready.vmain = true
        ∧ State.reset.mode = .starting ∧ State.reset.vaux = true)
      ∧ (∃ s : State, s.mode = .aux ∧ s.resReady = true)
      ∧ (∃ s : State, s.mode = .active ∧ s.vaux = false) ∧ (∃ s : State, s.mode = .starting ∧ s.vaux = false)
      ∧ (∃ s : State, s.mode = .starting ∧ s.vmain = false)
      ∧ ∃ (s : State) (image : WriteImage), s.mode ≠ .off ∧ s.writeImages = [] ++ image :: []
        ∧ (⟨0, [], none, none⟩ : Cut).write = ([] : List WriteImage).length :=
  ⟨⟨rfl, rfl, rfl, rfl, rfl, rfl⟩, ⟨{ aux with resReady := true }, rfl, rfl⟩, ⟨{ ready with vaux := false }, rfl, rfl⟩,
    ⟨{ State.reset with vaux := false }, rfl, rfl⟩, ⟨{ State.reset with vmain := false }, rfl, rfl⟩,
    ⟨State.commit [.cells] ready, _, by decide, rfl, rfl⟩⟩

theorem test_meets_SuspendIntentAndExpiries :
    (user.Admits .suspend ∧ user.cred.slots[(3 : Fin 8)].resumeAllowed = true ∧ user.verified.getLsbD 3 = true
        ∧ user.evid.stage = .calm)
      ∧ (∃ s : State, s.intent = some ⟨1, 30000000⟩) ∧ ∃ (s : State) (g : Grant), s.grants = [g] :=
  ⟨⟨⟨rfl, rfl, by decide⟩, by decide +kernel, by decide, rfl⟩, ⟨{ user with intent := some ⟨1, 30000000⟩ }, rfl⟩,
    ⟨aux, _, rfl⟩⟩

theorem test_meets_ResetLineActsInActive :
    (ready.mode = .active ∧ ready.rstLow = false ∧ ready.derivation = none ∧ ready.linkState = .running)
      ∧ (∃ s : State, s.mode = .active ∧ s.rstLow = false ∧ s.derivation = none ∧ s.linkState = .stopped
        ∧ s.life.lifecycle ≠ .disabled)
      ∧ (∃ s : State, s.mode = .active ∧ s.derivation = none ∧ s.life.lifecycle = .disabled)
      ∧ (∃ s : State, s.rstLow = true)
      ∧ (aux.mode ≠ .active ∧ aux.rstLow = false) ∧ (right .verify).derivation = some (flight .verify) :=
  ⟨⟨rfl, rfl, rfl, rfl⟩, ⟨{ ready with linkState := .stopped }, rfl, rfl, rfl, rfl, by decide⟩,
    ⟨{ ready with life := ⟨.disabled, none⟩ }, rfl, rfl, rfl⟩, ⟨{ ready with rstLow := true }, rfl⟩,
    ⟨by decide, rfl⟩, rfl⟩

/-- The state in which the laws are asked of a step: with a command waiting. -/
def armed (c : Instr) : State := { State.reset with pending := [c] }

theorem test_meets_StepsKeepTheLinkAndStageLaws :
    ((armed .reservoirTimeout).LinkLaw ∧ (armed .reservoirTimeout).StageLaw ∧ (armed .reservoirTimeout).ClaimLaw
        ∧ (armed .reservoirTimeout).mode ≠ .off)
      ∧ ∃ t, step (armed .reservoirTimeout) = .next t := by
  refine ⟨⟨⟨by decide, by decide, by decide, by decide, by decide, by decide⟩, by unfold State.StageLaw; decide,
    ⟨by decide, by decide⟩, by decide⟩, ⟨_, rfl⟩⟩

/-- A part in DISABLED, its store committed so. -/
def disabledPart : State :=
  State.begin (State.commit allSets
    { fresh with life := ⟨.disabled, some ⟨26, [0]⟩⟩, evid := { fresh.evid with stage := .wipe } })

/-- A part in WIPING at cell 3, its store committed so, with the cell's verify due. -/
def wipingPart : State :=
  { State.begin (State.commit allSets (wiping 3 (.verify 0))) with pending := [.verifyResult ⟨true, .ended⟩] }

theorem test_meets_StepsKeepTheStageLaw_wiping :
    wipingPart.mode ≠ .off ∧ wipingPart.StageLaw ∧ wipingPart.ClaimLaw ∧ wipingPart.DerivationLaw
      ∧ wipingPart.JournalLaw ∧ wipingPart.StoreLaw ∧ wipingPart.nvs.Early ∧ wipingPart.life.lifecycle = .wiping
      ∧ (∀ cut, (wipingPart.nvsAfterLoss cut).contents.life = wipingPart.life)
      ∧ (∃ t, step wipingPart = .next t ∧ t.life ≠ wipingPart.life)
      ∧ wipingPart.nvs.settled.Whole ∧ wipingPart.nvs.StageLaw
      ∧ wipingPart.nvs.contents.life.lifecycle = .wiping := by
  have hw : wipingPart.nvs.Whole := fun id => by cases id <;> decide +kernel
  have hl : wipingPart.nvs.contents.life = wipingPart.life := by decide +kernel
  have hn : wipingPart.nvs.settled = wipingPart.nvs := by decide +kernel
  refine ⟨by decide, by unfold State.StageLaw; decide, ⟨by decide, by decide⟩, fun d hd => (by cases hd),
    ⟨fun _ => ⟨_, rfl, by decide⟩, fun j hj _ => (by cases hj; exact ⟨_, rfl, rfl⟩)⟩,
    ⟨hw, by decide +kernel, by decide +kernel⟩, fun id => (by cases id <;> decide +kernel), by decide, fun cut => ?_,
    ⟨_, rfl, by decide +kernel⟩, hn ▸ hw, by unfold Nvs.StageLaw; decide +kernel, by decide +kernel⟩
  rw [nvsAfterLoss_of_no_writes _ _ rfl]
  exact hl

theorem test_meets_StepsKeepTheStageLaw_journal :
    (∃ s t : State, s.mode ≠ .off ∧ s.StageLaw ∧ s.ClaimLaw ∧ s.DerivationLaw ∧ s.JournalLaw ∧ step s = .next t
        ∧ s.life = ⟨.wiping, some ⟨25, []⟩⟩ ∧ t.life.lifecycle = .unprovisioned)
      ∧ (disabledPart.mode ≠ .off ∧ disabledPart.StageLaw ∧ disabledPart.ClaimLaw ∧ disabledPart.DerivationLaw
        ∧ disabledPart.StoreLaw ∧ disabledPart.nvs.Early
        ∧ ∀ cut, (disabledPart.nvsAfterLoss cut).contents.life = disabledPart.life)
      ∧ ∃ s t : State, s.mode = .off ∧ s.nvs.settled.Whole ∧ s.nvs.StageLaw
        ∧ s.pending.head? = some (.powerOn true true plainRestore) ∧ s.nvs.contents.life.lifecycle = .disabled
        ∧ step s = .next t ∧ t.mode ≠ .off := by
  have hw : disabledPart.nvs.Whole := fun id => by cases id <;> decide +kernel
  have hl : disabledPart.nvs.contents.life = disabledPart.life := by decide +kernel
  have hs : disabledPart.nvs.StageLaw := by unfold Nvs.StageLaw; decide +kernel
  have hn : disabledPart.nvs.settled = disabledPart.nvs := by decide +kernel
  refine ⟨⟨{ wiping 25 (.verify 0) with pending := [.verifyResult ⟨true, .ended⟩] }, _, by decide,
      by unfold State.StageLaw; decide, ⟨by decide, by decide⟩, fun d hd => (by cases hd),
      ⟨fun _ => ⟨_, rfl, by decide⟩, fun j hj _ => (by cases hj; exact ⟨_, rfl, rfl⟩)⟩, rfl, rfl, by decide +kernel⟩,
    ⟨by decide, by unfold State.StageLaw; decide, ⟨by decide, by decide⟩, fun d hd => (by cases hd),
      ⟨hw, by decide +kernel, by decide +kernel⟩, fun id => (by cases id <;> decide +kernel), fun cut => ?_⟩,
    ⟨{ disabledPart.enterOff with pending := [.powerOn true true plainRestore] }, _, rfl, ?_, hs, rfl, by decide +kernel, rfl,
      by decide +kernel⟩⟩
  · rw [nvsAfterLoss_of_no_writes _ _ rfl]
    exact hl
  · exact hn ▸ hw

theorem test_meets_StepsKeepLawful :
    (armed .reservoirTimeout).Lawful ∧ ∃ t, step (armed .reservoirTimeout) = .next t := by
  refine ⟨⟨⟨by decide, by decide, by decide, by decide, by decide, by decide⟩, ?_, ⟨by decide, by decide, by decide, by decide⟩,
    ⟨?_, by decide, by decide, ?_, fun _ => rfl⟩, ?_,
    ⟨by decide, by decide⟩⟩, ⟨_, rfl⟩⟩
  · intro h; exact absurd h (by decide)
  · decide +kernel
  · decide +kernel
  · intro d hd; cases hd

theorem test_meets_StepsKeepTheBoundsAndJobs :
    State.reset.BoundsLaw ∧ ready.PassLaw
      ∧ ∀ j ∈ (wiping 0 .waiting).job, j.Lawful := by
  refine ⟨⟨⟨by decide, by decide, by decide, by decide⟩, by decide, by decide, ?_, fun w hw => by cases hw⟩, ⟨by decide, by decide, by decide⟩, ?_⟩
  · refine ⟨⟨by decide, by decide, by decide, by decide⟩, ⟨by decide, by decide, by decide, by decide⟩, by decide,
      by decide⟩
  · intro j hj
    cases hj
    refine ⟨by decide, by decide, by decide, by decide, ?_, ?_, ?_⟩ <;> (intros; simp_all)

theorem test_meets_StepsKeepTheStore :
    ((armed .reservoirTimeout).StoreLaw ∧ (armed .reservoirTimeout).nvs.Early
        ∧ (∀ cut, ((armed .reservoirTimeout).nvsAfterLoss cut).StageLaw) ∧ (armed .reservoirTimeout).mode ≠ .off
        ∧ ∃ t, step (armed .reservoirTimeout) = .next t ∧ t.mode ≠ .off)
      ∧ (∃ t, step (armed (.fullPowerLoss none)) = .next t ∧ t.mode = .off)
      ∧ ∃ s t : State, s.mode = .off ∧ s.nvs.settled.Whole ∧ s.nvs.Early ∧ s.nvs.StageLaw
        ∧ s.pending.head? = some (.powerOn true true plainRestore) ∧ step s = .next t ∧ t.mode ≠ .off := by
  have hw : Nvs.factory.Whole := fun id => by cases id <;> decide +kernel
  have he : Nvs.factory.Early := fun id => by cases id <;> decide +kernel
  have hs : Nvs.factory.StageLaw := by unfold Nvs.StageLaw; decide +kernel
  have hn : Nvs.factory.settled = Nvs.factory := by decide +kernel
  refine ⟨⟨⟨hw, by decide +kernel, by decide +kernel⟩, he, fun cut => ?_, by decide, _, rfl, by decide +kernel⟩,
    ⟨_, rfl, rfl⟩, ⟨{ State.reset.enterOff with pending := [.powerOn true true plainRestore] }, _, rfl, ?_, he, hs, rfl, rfl,
      by decide +kernel⟩⟩
  · rw [nvsAfterLoss_of_no_writes _ _ rfl]
    exact hs
  · exact hn ▸ hw

theorem test_meets_CommitsAreAtomic :
    (State.reset.nvs.Whole ∧ ∃ id ∈ [SetId.cells, .lifecycle],
        id ∉ (⟨0, [.cells], some .lifecycle, none⟩ : Cut).completed)
      ∧ (∀ id ∈ allSets, State.reset.nvs.takenSeq id < 4294967000)
      ∧ (State.reset.nvs.lifecycle.a.good = true ∧ State.reset.nvs.lifecycle.b.good = true
        ∧ State.reset.nvs.lifecycle.a.seq = State.reset.nvs.lifecycle.b.seq
        ∧ SetId.evidence ∈ (⟨0, [.evidence], none, none⟩ : Cut).completed
        ∧ ∃ id ∈ [SetId.lifecycle, .evidence], id ∉ (⟨0, [.evidence], none, none⟩ : Cut).completed)
      ∧ (∀ d ∈ [(⟨false, true, true⟩ : StoreDamage)], ∀ sets ∈ [[SetId.evidence], [.lifecycle, .cells, .credentials,
          .layout, .binding, .evidence]],
        (damaged d (State.reset.commit sets).nvs).lifecycle.anyGood = false)
      ∧ ∃ n : Nvs, n.Whole ∧ n.takenSeq .lifecycle = 4294967295 := by
  refine ⟨⟨fun id => by cases id <;> decide +kernel, .lifecycle, by decide, by decide⟩, by decide,
    ⟨by decide, by decide, by decide, by decide, .lifecycle, by decide, by decide⟩, by decide +kernel,
    ⟨{ Nvs.factory with lifecycle := ⟨⟨4294967295, true, [], ⟨.unprovisioned, none⟩⟩, ⟨0, true, [],
      ⟨.unprovisioned, none⟩⟩⟩ }, fun id => by cases id <;> decide +kernel, by decide⟩⟩

end Sys2Proof.Tests
end

