-- ==== Sys2Proof/Proofs/ShadowArea.lean ====
section
/-! The requests of Locking Ranges and the Shadow Area that name no range: LOCK_ALL (R51) and PREBOOT_DONE (R58). -/

namespace Sys2Proof.Machine

/-! ### Who admits and who opens -/

/-- R2: WIPING and DISABLED admit no kind that UNPROVISIONED does not, so a kind refused there is a kind of PROVISIONED
alone. -/
theorem Lifecycle.admits_eq_false_of_unprovisioned {l : Lifecycle} {k : Kind} (hl : l ≠ .provisioned)
    (hu : Lifecycle.unprovisioned.admits k = false) : l.admits k = false := by
  cases l with
  | unprovisioned => exact hu
  | provisioned => exact absurd rfl hl
  | wiping | disabled =>
    simp only [Lifecycle.admits, List.contains_eq_mem, decide_eq_false_iff_not, List.mem_cons, not_or] at hu ⊢
    tauto

/-- The stages in which gates may open and the shadow may be hidden (R49, R58). -/
theorem Stage.open_eq_false_iff (x : Stage) : x.open_ = false ↔ x ≠ .calm ∧ x ≠ .alert := by
  simp [Stage.open_]

/-! ### LOCK_ALL -/

/-- R51: a taken LOCK_ALL has no condition of its own. -/
theorem execLockAll_taken {tag : Byte} {s : State} (h : s.Admits .lockAll) :
    execLockAll tag [] s = .next
      ((State.changeDesired allClosed .shown { s.begin with verified := 0 }).replied .lockAll tag .done []) :=
  request_taken h (Nat.zero_le _) (by simp [State.closeAll])

/-- Settles O26: the lifecycle decides between the check order's refusal and the closing of everything. -/
theorem lockAllClosesEverything : Obligations.LockAllClosesEverything := by
  intro tag s hm hr
  change execLockAll tag [] s = _
  split
  case isTrue hl =>
    exact request_wrongState hm hr (Nat.zero_le _) (Lifecycle.admits_eq_false_of_unprovisioned hl rfl)
  case isFalse hl => exact execLockAll_taken (State.admits_of_provisioned hm hr (not_not.1 hl) (by decide))

/-! ### PREBOOT_DONE -/

/-- R58, the first condition: a verified slot. -/
theorem execPrebootDone_of_unverified {tag : Byte} {s : State} (h : s.Admits .prebootDone) (hv : s.verified = 0) :
    execPrebootDone tag [] s = .next (s.begin.replied .prebootDone tag .notPermitted []) :=
  request_taken h (Nat.zero_le _) (if_pos hv)

/-- R58, the second condition: the stage CALM or ALERT. -/
theorem execPrebootDone_of_stage_shut {tag : Byte} {s : State} (h : s.Admits .prebootDone) (hv : s.verified ≠ 0)
    (hs : s.evid.stage.open_ = false) :
    execPrebootDone tag [] s = .next (s.begin.replied .prebootDone tag .wrongState []) :=
  request_taken h (Nat.zero_le _) ((if_neg hv).trans (by simp [hs, refuse]))

/-- R58: past its conditions PREBOOT_DONE desires the shadow hidden under the gates as they stand. -/
theorem execPrebootDone_taken {tag : Byte} {s : State} (h : s.Admits .prebootDone) (hv : s.verified ≠ 0)
    (hs : s.evid.stage.open_ = true) :
    execPrebootDone tag [] s = .next
      ((s.begin.changeDesired s.gates .hidden).replied .prebootDone tag .done []) :=
  request_taken h (Nat.zero_le _) ((if_neg hv).trans (by simp [hs]))

/-- Settles O27: one case for each condition of R58, in their order. -/
theorem prebootDoneHidesTheShadow : Obligations.PrebootDoneHidesTheShadow := by
  intro tag s hm hr
  change execPrebootDone tag [] s = _
  split
  case isTrue hl =>
    exact request_wrongState hm hr (Nat.zero_le _) (Lifecycle.admits_eq_false_of_unprovisioned hl rfl)
  case isFalse hl =>
    have ha : s.Admits .prebootDone := State.admits_of_provisioned hm hr (not_not.1 hl) (by decide)
    split
    case isTrue hv => exact execPrebootDone_of_unverified ha hv
    case isFalse hv =>
      split
      case isTrue hs => exact execPrebootDone_of_stage_shut ha hv ((Stage.open_eq_false_iff _).2 hs)
      case isFalse hs =>
        rw [← Stage.open_eq_false_iff, Bool.not_eq_false] at hs
        exact execPrebootDone_taken ha hv hs

end Sys2Proof.Machine
end

