-- ==== Sys2Proof/Proofs/Acknowledgement.lean ====
section
/-! The edges of KL_ACK (R71, R72): which are disregarded, and what an accepting one leaves. -/

namespace Sys2Proof.Machine

/-! ### Which edges are taken -/

/-- R71, R72, R76: an edge counts only while a transfer is in flight, in ACTIVE and with KPURGE low. -/
theorem execKlAck_disregarded {klRes : Bool} {s : State}
    (h : s.inFlight = none ∨ s.mode ≠ .active ∨ s.kpurge.isSome) : execKlAck klRes s = .next s.begin := by
  simp only [execKlAck, event, State.begin_inFlight, State.begin_mode, State.begin_kpurge]
  cases hf : s.inFlight with
  | none => rfl
  | some f =>
    have hg : s.mode ≠ .active ∨ s.kpurge.isSome := h.resolve_left (by simp [hf])
    exact congrArg _ (if_pos hg)

/-- R71, R72: of a counting edge KL_RES says which of the two it is. -/
theorem execKlAck_counted {klRes : Bool} {f : InFlight} {s : State} (hf : s.inFlight = some f) (hm : s.mode = .active)
    (hk : s.kpurge = none) :
    execKlAck klRes s = .next (if klRes then s.begin.accept f else s.begin.linkFault) := by
  have hg : ¬(s.mode ≠ .active ∨ s.kpurge.isSome) := by simp [hm, hk]
  simp only [execKlAck, event, State.begin_inFlight, State.begin_mode, State.begin_kpurge, hf]
  exact congrArg _ (if_neg hg)

/-! ### What acceptance leaves -/

/-- R71: the mirror change touches no field of the key link unit, so acceptance is the mirror change on the state whose
link is already free. -/
theorem State.accept_eq_acceptTransfer (f : InFlight) (s : State) :
    s.accept f = State.acceptTransfer f.transfer
      { s with
        inFlight := none
        faultRun := 0
        queue := if f.rejoin then s.queue ++ [f.slot] else s.queue } := by
  unfold State.accept
  cases f.transfer with
  | load | gates | clear | shadow => rfl

/-- Settles O39: a counting edge with KL_RES high is an acceptance, read off by the kind of transfer; every other edge
leaves the part as it is. -/
theorem acceptedTransfersReachTheMirror : Obligations.AcceptedTransfersReachTheMirror := by
  refine ⟨fun f s hf hm hk => ?accepted, fun klRes s h => execKlAck_disregarded h⟩
  case accepted =>
    change execKlAck true s = _
    rw [execKlAck_counted hf hm hk, if_pos rfl, State.accept_eq_acceptTransfer]
    cases f.transfer with
    | load | gates | clear | shadow => rfl

end Sys2Proof.Machine
end

