-- ==== Sys2Proof/Proofs/LawsOutOfOff.lean ====
section
/-! The laws at reset (O52), and the two statements about steps that begin in OFF which fail: a state whose mode is OFF
and whose reservoir wait stands (R142 shuts it out, and neither statement does) leaves OFF at RESERVOIR_TIMEOUT with the
working contents it had, whatever the store holds. -/

namespace Sys2Proof.Machine

/-! ### The reset state -/

/-- R1: the store of a factory part is whole. -/
theorem Nvs.factory_whole : Nvs.factory.Whole := fun id => by cases id <;> decide +kernel

/-- Settles O52: the reset state is closed, so each law is evaluated on it. -/
theorem lawsHoldAtReset : Obligations.LawsHoldAtReset := by
  have hlawful : State.reset.Lawful := by
    refine ⟨?link, ?withdrawn, ?grant, ?mirror, ?derivation, ?claim⟩
    case link => exact ⟨List.nodup_nil, by simp [State.reset], by simp [State.reset], by simp [State.reset],
      by simp [State.reset], by simp [State.reset]⟩
    case withdrawn => intro h; exact absurd h (by decide)
    case grant => exact ⟨by simp [State.reset], by simp [State.reset], List.nodup_nil, by simp [State.reset]⟩
    case mirror => exact ⟨by decide +kernel, by simp [State.reset], by simp [State.reset], by decide, fun _ => rfl⟩
    case derivation => simp [State.DerivationLaw, State.reset]
    case claim => exact ⟨by simp [State.reset], by simp [State.reset]⟩
  have hcontents : State.reset.nvs.contents = State.reset.contents := by decide +kernel
  refine ⟨hlawful, ?stage, ?bounds, Nvs.factory_whole, hcontents, ⟨Nvs.factory_whole, hcontents, rfl⟩, ?nvsStage, ?pass,
    ?journal⟩
  case stage => unfold State.StageLaw; decide
  case bounds =>
    have he : Evidence.factory.Bounded := ⟨by decide, by decide, by decide, List.Pairwise.nil⟩
    exact ⟨he, by decide, by decide, ⟨he, he, by decide, by decide⟩, by simp [State.reset]⟩
  case nvsStage => unfold Nvs.StageLaw; rw [hcontents]; decide
  case pass => exact ⟨by decide, by decide, by simp [State.reset]⟩
  case journal => exact ⟨by simp [State.reset], by simp [State.reset]⟩

/-! ### A reservoir wait in OFF -/

/-- A part in OFF over a factory store, with a reservoir wait standing and a working stage that the store does not
hold. -/
def waitingInOff : State :=
  { State.reset.enterOff with
    pending := [.reservoirTimeout]
    reservoirWait := some 0
    evid := { Evidence.factory with stage := .wipe } }

/-- R142, R143: the end of that wait is the entry to AUX. -/
theorem step_waitingInOff :
    ∃ t : State, step waitingInOff = .next t ∧ t.mode = .aux ∧ t.evid = waitingInOff.evid ∧ t.life = waitingInOff.life :=
  ⟨_, rfl, rfl, rfl, rfl⟩

/-- Refutes O54: its third part lets a step out of OFF be the end of a reservoir wait, which restores nothing. -/
theorem not_stepsKeepTheStageLaw : ¬ Obligations.StepsKeepTheStageLaw := by
  rintro ⟨-, -, houtOfOff, -⟩
  obtain ⟨t, hstep, hmode, hevid, hlife⟩ := step_waitingInOff
  have hstore : waitingInOff.nvs.StageLaw := lawsHoldAtReset.2.2.2.2.2.2.1
  have hnoPowerOn : ∀ vmain vaux r, waitingInOff.pending.head? = some (.powerOn vmain vaux r) →
      r.damage.lifecycleA = r.damage.lifecycleB := by simp [waitingInOff]
  have hlaw : t.StageLaw := houtOfOff waitingInOff t rfl hstore hnoPowerOn hstep (by rw [hmode]; decide)
  rw [State.StageLaw, hevid, hlife] at hlaw
  exact absurd (hlaw.1 rfl) (by decide)

/-- Refutes O57: its third part lets a step out of OFF be the end of a reservoir wait, which restores nothing. -/
theorem not_stepsKeepTheStore : ¬ Obligations.StepsKeepTheStore := by
  rintro ⟨-, -, houtOfOff⟩
  obtain ⟨t, hstep, hmode, hevid, -⟩ := step_waitingInOff
  have hnvs : t.nvs = Nvs.factory := by cases hstep; rfl
  have hwhole : waitingInOff.nvs.settled.Whole := fun id => by cases id <;> decide +kernel
  have hearly : waitingInOff.nvs.Early := fun id => by cases id <;> decide
  have hnoPowerOn : ∀ vmain vaux r, waitingInOff.pending.head? = some (.powerOn vmain vaux r) →
      r.damage.lifecycleA = false ∧ r.damage.lifecycleB = false := by simp [waitingInOff]
  have hlaw : t.StoreLaw := houtOfOff waitingInOff t rfl hwhole hearly hnoPowerOn hstep (by rw [hmode]; decide)
  have hcontents : Nvs.factory.contents.evid = t.evid := by rw [← hnvs, hlaw.2.1]; rfl
  rw [hevid] at hcontents
  exact absurd hcontents (by decide +kernel)

end Sys2Proof.Machine
end

