-- ==== Sys2Proof/Proofs/Moves.lean ====
section
/-! What one step can do, said once: the moves that steps are made of, each a change of the fields that the laws speak
of, with the conditions under which the part makes it. Every law of the state is then kept by every step as soon as it is
kept by every move. -/

namespace Sys2Proof.Machine

/-! ### The fields that the laws speak of -/

/-- The state with every field that no law speaks of at its reset value. -/
def State.bare (s : State) : State :=
  { State.reset with
    pending := s.pending
    life := s.life
    cred := s.cred
    evid := s.evid
    settings := s.settings
    nvs := s.nvs
    writeImages := s.writeImages
    derivation := s.derivation
    gates := s.gates
    shadow := s.shadow
    mirror := s.mirror
    queue := s.queue
    inFlight := s.inFlight
    kpurge := s.kpurge
    linkState := s.linkState
    faultRun := s.faultRun
    job := s.job
    wipeClaim := s.wipeClaim
    mode := s.mode
    reservoirWait := s.reservoirWait
    intent := s.intent
    grants := s.grants }

/-- A property that reads those fields alone passes between states that agree in them. -/
theorem State.of_bare {P : State → Prop} (hP : ∀ s : State, P s.bare ↔ P s) {s t : State} (h : t.bare = s.bare)
    (hs : P s) : P t := (hP t).1 (h ▸ (hP s).2 hs)

/-! ### The conditions of the moves -/

/-- The lifecycle state in which a derivation may be in flight (R2, R19). -/
def Work.home : Work → Lifecycle
  | .provision _ _ => .unprovisioned
  | .verify => .provisioned
  | .enroll _ _ => .provisioned
  | .changeOld _ => .provisioned
  | .changeNew _ => .provisioned

/-- No grant and no intent stands (R107). -/
def State.Unsuspended (s : State) : Prop := s.grants = [] ∧ s.intent = none

/-- Everything that gives access is withdrawn (R52, R108): a transfer in flight is gone by the purge that is under way or
just made. -/
def State.Shut (s : State) : Prop :=
  s.gates = allClosed ∧ s.shadow = .shown ∧ s.Unsuspended ∧ (s.kpurge.isSome ∨ s.inFlight = none)

/-- The stages that a commit may leave in the state: the present one, CALM, and the ones whose effects are made (R107,
R108). -/
def State.MayStand (s : State) (x : Stage) : Prop :=
  x = s.evid.stage ∨ x = .calm ∨ (x = .alert ∧ s.Unsuspended) ∨ (x = .lockdown ∧ s.Shut)

/-- What a commit writes keeps the bounds of S, the trail and C (R98, R118, R20). -/
def State.KeepsBounds (s u : State) : Prop :=
  (s.evid.Bounded → u.evid.Bounded) ∧ (s.cred.failures ≤ 255 → u.cred.failures ≤ 255)

/-- Every gate of `g` that is OPEN is OPEN in the table too, and the view is desired shown or as it was. -/
def State.Closes (s : State) (g : Vector Gates 16) (v : View) : Prop :=
  (∀ k : Fin 16, g[k].exceed s.gates[k] = false) ∧ (v = .shown ∨ v = s.shadow)

/-- A cell job in progress after the step: a WIPE job only where the claim or a WIPE job stood, and counts as R120 to
R124 keep them. -/
def State.MayWork (s : State) (j : Job) : Prop :=
  (j.owner = .wipe → s.wipeClaim = true ∨ ∃ i ∈ s.job, i.owner = .wipe)
    ∧ (0 < s.settings.p → (∀ i ∈ s.job, i.Lawful) → j.Lawful)

/-- What a comparison sends for a slot (R66, R67) by the gates and the view it takes as desired. -/
def State.MaySend (s : State) (j : Fin 17) (t : Transfer) (mirror : Vector MirrorRecord 16) : Prop :=
  (∃ k key response extent, j = rangeSlot k ∧ t = .load k key (s.wantGates k) response extent
      ∧ (s.wantGates k).anyOpen = true ∧ s.mirror[k].state = .empty
      ∧ mirror = s.mirror.set k { s.mirror[k] with state := .loading })
    ∨ (∃ k, j = rangeSlot k ∧ t = .gates k (s.wantGates k) ∧ (s.wantGates k).anyOpen = true ∧ mirror = s.mirror)
    ∨ (∃ k, j = rangeSlot k ∧ t = .clear k
      ∧ mirror = s.mirror.set k { s.mirror[k] with state := .clearing })
    ∨ (j = shadowSlot ∧ t = .shadow s.wantView s.settings.shadowL ∧ mirror = s.mirror)

/-- The link is free (R65). -/
def State.LinkFree (s : State) : Prop :=
  s.mode = .active ∧ s.inFlight = none ∧ s.kpurge = none ∧ s.linkState = .running ∧ s.life.lifecycle ≠ .disabled

/-! ### The moves -/

/-- A move of the part from `s` to `t`. -/
inductive Move (s t : State) : Prop where
  /-- No field changes that a law speaks of. -/
  | frame (h : t.bare = s.bare)
  /-- The writes of the command before are forgotten (log entry 9). -/
  | forget (h : t.bare = State.bare { s with writeImages := [] })
  /-- A commit that leaves the lifecycle as it is. -/
  | record (sets : List SetId) (u : State)
      (hu : u.bare =
        State.bare { s with evid := u.evid, cred := u.cred, life := { s.life with journal := u.life.journal } })
      (hb : s.KeepsBounds u) (hs : s.MayStand u.evid.stage) (h : t.bare = (u.commit sets).bare)
  /-- R168: a settings record is written. -/
  | settings (c : Settings) (hc : 0 < c.p) (h : t.bare = (s.writeSettings c).bare)
  /-- R48: a change of desired states; where access is withdrawn it opens nothing. -/
  | desired (g : Vector Gates 16) (v : View) (hg : s.restricted = false ∨ s.Closes g v)
      (h : t.bare = (s.changeDesired g v).bare)
  /-- R64: a slot is handed on. -/
  | handOn (j : Fin 17) (h : t.bare = (s.handOn j).bare)
  /-- R74: a purge. -/
  | purge (h : t.bare = s.purge.bare)
  /-- R148, R150: grants or the intent go. -/
  | withdraw (gs : List Grant) (i : Option Intent) (hg : gs.Sublist s.grants) (hi : i = none ∨ i = s.intent)
      (h : t.bare = State.bare { s with grants := gs, intent := i })
  /-- R147: an intent is recorded. -/
  | intend (i : Intent) (hm : s.mode = .active) (hs : s.evid.stage = .calm) (hr : s.restricted = false)
      (h : t.bare = State.bare { s with intent := some i })
  /-- R19: a derivation ends or is abandoned. -/
  | abandon (h : t.bare = State.bare { s with derivation := none })
  /-- R19: a derivation starts. -/
  | derive (d : Derivation)
      (hd : (s.mode = .active ∧ s.life.lifecycle = d.work.home)
        ∨ ∃ d' ∈ s.derivation, d'.work.home = d.work.home)
      (h : t.bare = State.bare { s with derivation := some d })
  /-- R4: the provisioning commit. -/
  | provision (sets : List SetId) (u : State) (hd : ∃ d ∈ s.derivation, d.work.home = .unprovisioned)
      (hu : u.bare =
        State.bare
          { s with life := ⟨.provisioned, none⟩, evid := .factory, cred := u.cred, derivation := none })
      (hb : s.KeepsBounds u) (h : t.bare = (u.commit sets).bare)
  /-- R10: the wipe-start commit, with its claim, after everything is withdrawn. -/
  | wipeStart (sets : List SetId) (u : State) (hw : s.Shut) (hd : s.derivation = none)
      (hl : s.life.lifecycle ≠ .disabled ∨ s.mode ≠ .active)
      (hu : u.bare = State.bare { s with life := u.life, evid := u.evid, cred := u.cred })
      (hlife : u.life.lifecycle = .wiping) (hb : s.KeepsBounds u)
      (h : t.bare = State.bare { u.commit sets with wipeClaim := true })
  /-- R13: the wipe-end commit to UNPROVISIONED. -/
  | wipeEnd (sets : List SetId) (u : State) (hj : ∃ j ∈ s.job, j.owner = .wipe)
      (hu : u.bare = State.bare { s with life := u.life, evid := u.evid, cred := u.cred })
      (hlife : u.life.lifecycle = .unprovisioned) (hs : u.evid.stage = .calm) (hb : s.KeepsBounds u)
      (h : t.bare = State.bare { u.commit sets with job := none, wipeClaim := false })
  /-- R14, R79: the wipe-end commit to DISABLED, and the silence of the link. -/
  | rootLost (sets : List SetId) (u : State) (hj : ∃ j ∈ s.job, j.owner = .wipe)
      (hu : u.bare = State.bare { s with life := u.life, evid := u.evid, cred := u.cred })
      (hlife : u.life.lifecycle = .disabled) (hs : u.evid.stage = s.evid.stage) (hb : s.KeepsBounds u)
      (h : t.bare =
        State.bare
          { u.commit sets with job := none, wipeClaim := false, inFlight := none, queue := [], kpurge := none })
  /-- R120 to R128: the job record. -/
  | job (j : Option Job) (hj : ∀ i ∈ j, s.MayWork i) (h : t.bare = State.bare { s with job := j })
  /-- R15: the WIPE claim of a wipe that goes on. -/
  | claim (hl : s.life.lifecycle = .wiping) (h : t.bare = State.bare { s with wipeClaim := true })
  /-- R72: the purge of a key link fault. -/
  | faultPurge (hf : s.inFlight.isSome = true) (h : t.bare = (State.purge { s with inFlight := none }).bare)
  /-- R73: the fault run. -/
  | faultRun (x : LinkState) (hx : x = s.linkState ∨ s.inFlight = none)
      (h : t.bare = State.bare { s with faultRun := min 3 (s.faultRun + 1), linkState := x })
  /-- R73: the fault run becomes 0. -/
  | faultReset (h : t.bare = State.bare { s with faultRun := 0 })
  /-- R73: a STOPPED link becomes RUNNING. -/
  | restart (hs : s.linkState = .stopped)
      (h : t.bare = (State.enqueueDiffering { s with linkState := .running, faultRun := 0 }).bare)
  /-- R74: KPURGE falls. -/
  | pulseEnd (hk : s.kpurge.isSome = true) (h : t.bare = (State.enqueueDiffering { s with kpurge := none }).bare)
  /-- R71: a transfer is accepted. -/
  | accept (f : InFlight) (hf : s.inFlight = some f) (hm : s.mode = .active) (hk : s.kpurge = none)
      (h : t.bare = (s.accept f).bare)
  /-- R65: the head slot leaves the queue and has nothing to be sent for, or its key does not unwrap. -/
  | dequeue (j : Fin 17) (rest : List (Fin 17)) (hq : s.queue = j :: rest) (hl : s.LinkFree)
      (hm : ∀ k, j = rangeSlot k → s.mirror[k].state = .empty ∨ s.mirror[k].gates = s.wantGates k)
      (h : t.bare = State.bare { s with queue := rest })
  /-- R65, R70: the head slot leaves the queue and its transfer is sent. -/
  | send (j : Fin 17) (rest : List (Fin 17)) (f : InFlight) (m : Vector MirrorRecord 16) (hq : s.queue = j :: rest)
      (hl : s.LinkFree) (hf : f.slot = j) (hs : s.MaySend j f.transfer m)
      (h : t.bare = State.bare { s with queue := rest, inFlight := some f, mirror := m })
  /-- R79: the mirror of a silent link starts EMPTY. -/
  | emptyMirror (hl : s.life.lifecycle = .disabled) (h : t.bare = State.bare { s with mirror := emptyMirror })
  /-- R144: what the loss of VMAIN makes of the gates and the intent. -/
  | takeGrants (hm : s.mode = .aux) (h : t.bare = s.takeGrants.bare)
  /-- R143, R152, R77: the entry to ACTIVE: the grants are consumed and the slots that differ are queued. -/
  | activate (g : Vector Gates 16) (u : State) (hm : s.mode ≠ .active ∨ s.reservoirWait.isSome = true)
      (hu : u.bare =
        State.bare
          { s with mode := .active, linkState := .running, faultRun := 0, grants := [], reservoirWait := none })
      (h : t.bare = (State.enqueueDiffering (if s.grants = [] then u else u.changeDesired g .hidden)).bare)
  /-- R143: the entry to AUX at the end of STARTING. -/
  | enterAux (hm : s.mode ≠ .active ∨ s.reservoirWait.isSome = true)
      (h : t.bare = State.bare { s with mode := .aux, reservoirWait := none })
  /-- R141, R142: the entry to STARTING. -/
  | beginStarting (w : Micros) (hm : s.mode ≠ .active)
      (h : t.bare = State.bare { s with mode := .starting, shadow := .shown, reservoirWait := some w })

/-- Moves one after the other. -/
abbrev Moves : State → State → Prop := Relation.ReflTransGen Move

/-- No move. -/
theorem Moves.refl (s : State) : Moves s s := Relation.ReflTransGen.refl

/-- One move. -/
theorem Move.moves {s t : State} (h : Move s t) : Moves s t := Relation.ReflTransGen.single h

/-- States that agree in what the laws speak of are a move apart. -/
theorem Moves.of_bare {s t : State} (h : t.bare = s.bare) : Moves s t := (Move.frame h).moves

/-- A property that every move keeps is kept by moves. -/
theorem Moves.keep {P : State → Prop} (hP : ∀ s t : State, Move s t → P s → P t) {s t : State} (h : Moves s t)
    (hs : P s) : P t := by
  induction h with
  | refl => exact hs
  | tail _ hm ih => exact hP _ _ hm ih

end Sys2Proof.Machine
end

