-- ==== Sys2Proof/Proofs/MovesOfEvidence.lean ====
section
/-! The evidence unit's operations as moves: the bounds that an entry keeps, the withdrawal of access that a rise brings
(R107, R108), and the wipe start (R10). A rise is committed before its effects are handed on; the effects do not read what
the commit changed, so the state left is that of the effects first and the commit after them. -/

namespace Sys2Proof.Machine

/-! ### Bounds of the evidence -/

/-- In a trail whose times never decrease, no time is above the newest entry's. -/
theorem time_le_newest {l : List TrailEntry} (h : l.Pairwise fun x y => x.time ≤ y.time) {x y : TrailEntry} (hx : x ∈ l)
    (hy : l.getLast? = some y) : x.time ≤ y.time := by
  obtain ⟨front, rfl⟩ := List.getLast?_eq_some_iff.1 hy
  rcases List.mem_append.1 hx with hx | hx
  · exact (List.pairwise_append.1 h).2.2 x hx y (List.mem_singleton_self y)
  · rw [List.mem_singleton.1 hx]

/-- R118: an entry keeps the trail within 24 entries whose times never decrease. -/
theorem Evidence.append_bounded {e : Evidence} (h : e.Bounded) (time : Nat) (kind : TrailKind) (w score : Nat)
    (stage : Stage) : (e.append time kind w score stage).Bounded := by
  obtain ⟨hscore, hlength, happended, htimes⟩ := h
  unfold Evidence.append
  set kept := if 24 ≤ e.trail.length then e.trail.drop (e.trail.length - 23) else e.trail with hkept
  have hsub : kept.Sublist e.trail := by
    rw [hkept]; split
    · exact List.drop_sublist _ _
    · exact List.Sublist.refl _
  have hshort : kept.length ≤ 23 := by
    rw [hkept]; split
    · rw [List.length_drop]; omega
    · omega
  refine ⟨hscore, by simp only [List.length_append, List.length_singleton]; omega, min_le_left _ _, ?_⟩
  refine List.pairwise_append.2 ⟨htimes.sublist hsub, List.pairwise_singleton _ _, fun x hx y hy => ?_⟩
  rw [List.mem_singleton.1 hy]
  cases hlast : e.trail.getLast? with
  | none => rw [List.getLast?_eq_none_iff.1 hlast] at hsub; simp [List.sublist_nil.1 hsub] at hx
  | some newest => exact le_trans (time_le_newest htimes (hsub.subset hx) hlast) (le_max_right _ _)

/-- R98: another score within 0 to 4095, and another stage. -/
theorem Evidence.Bounded.withScore {e : Evidence} (h : e.Bounded) {n : Nat} (hn : n ≤ 4095) (x : Stage) :
    Evidence.Bounded { e with score := n, stage := x } := ⟨hn, h.2⟩

/-- R98: another stage. -/
theorem Evidence.Bounded.withStage {e : Evidence} (h : e.Bounded) (x : Stage) :
    Evidence.Bounded { e with stage := x } := h

/-- R104: the STAGE entries of a rise keep the bounds. -/
theorem Evidence.rise_bounded {e : Evidence} (h : e.Bounded) (c : Settings) (time : Nat) : (e.rise c time).1.Bounded := by
  unfold Evidence.rise
  refine List.foldlRecOn _ _ (h.withStage _) fun e' he _ _ => Evidence.append_bounded he _ _ _ _ _

/-- R101: an event keeps the bounds. -/
theorem Evidence.take_bounded {e : Evidence} (h : e.Bounded) (c : Settings) (time : Nat) (kind : TrailKind) (w : Nat) :
    (e.take c time kind w).1.Bounded := by
  have hown := Evidence.append_bounded (h.withScore (min_le_left 4095 (e.score + w)) e.stage) time kind w
    (min 4095 (e.score + w)) e.stage
  unfold Evidence.take
  dsimp only
  split
  · exact Evidence.rise_bounded hown c time
  · exact hown

/-- R105: the fall test keeps the bounds. -/
theorem Evidence.fall_bounded {e : Evidence} (h : e.Bounded) (c : Settings) (time : Nat) : (e.fall c time).Bounded := by
  unfold Evidence.fall
  split
  · exact Evidence.append_bounded (h.withStage _) _ _ _ _ _
  · exact h

/-- R113: relief keeps the bounds. -/
theorem Evidence.relieve_bounded {e : Evidence} (h : e.Bounded) (c : Settings) (time r : Nat) :
    (e.relieve c time r).Bounded := by
  have hscore := h.withScore (le_trans (Nat.sub_le e.score (e.score * r / 16)) h.1) e.stage
  unfold Evidence.relieve
  apply Evidence.fall_bounded
  split
  · exact Evidence.append_bounded hscore _ _ _ _ _
  · exact hscore

/-- R98: the evidence of a factory part. -/
theorem Evidence.factory_bounded : Evidence.factory.Bounded := ⟨by decide, by decide, by decide, List.Pairwise.nil⟩

/-! ### What the stage can become -/

@[simp] theorem Evidence.append_stage (time : Nat) (kind : TrailKind) (w score : Nat) (x : Stage) (e : Evidence) :
    (e.append time kind w score x).stage = e.stage := rfl

@[simp] theorem Evidence.append_score (time : Nat) (kind : TrailKind) (w score : Nat) (x : Stage) (e : Evidence) :
    (e.append time kind w score x).score = e.score := rfl

/-- STAGE entries leave the stage to the rise. -/
@[simp] theorem Evidence.foldl_append_stage (levels : List Stage) (time score : Nat) (e : Evidence) :
    (levels.foldl (fun e l => e.append time .stage 0 score l) e).stage = e.stage := by
  induction levels generalizing e with
  | nil => rfl
  | cons l levels ih => rw [List.foldl_cons, ih]; rfl

/-- Each STAGE entry of a rise carries the one score. -/
theorem Evidence.foldl_append_own (levels : List Stage) (time : Nat) (e : Evidence) :
    levels.foldl (fun e l => e.append time .stage 0 e.score l) e
      = levels.foldl (fun x l => x.append time .stage 0 e.score l) e := by
  induction levels generalizing e with
  | nil => rfl
  | cons l levels ih => rw [List.foldl_cons, List.foldl_cons, ih]; rfl

/-- R104: the entries of a rise. -/
theorem Evidence.rise_fst (c : Settings) (time : Nat) (e : Evidence) :
    (e.rise c time).1 =
      (passed e.stage (evaluate c e.score e.stage)).foldl (fun x l => x.append time .stage 0 e.score l)
        { e with stage := evaluate c e.score e.stage } :=
  Evidence.foldl_append_own _ time { e with stage := evaluate c e.score e.stage }

/-- R103: no stage is below the one before. -/
theorem code_le_evaluate (c : Settings) (score : Nat) (x : Stage) : x.code ≤ (evaluate c score x).code := by
  unfold evaluate
  cases x <;> split_ifs <;> simp_all [Stage.code]

/-- R104: the rise of a stage, with the levels passed. -/
theorem Evidence.rise_stage (c : Settings) (time : Nat) (e : Evidence) :
    (e.rise c time).2 = passed e.stage (e.rise c time).1.stage ∧ e.stage.code ≤ (e.rise c time).1.stage.code := by
  have hstage : (e.rise c time).1.stage = evaluate c e.score e.stage :=
    congrArg Evidence.stage (Evidence.rise_fst c time e) |>.trans (Evidence.foldl_append_stage _ _ _ _)
  rw [hstage]
  exact ⟨rfl, code_le_evaluate c e.score e.stage⟩

/-- R101: what an event makes of the stage, with the levels passed. -/
theorem Evidence.take_stage (c : Settings) (time : Nat) (kind : TrailKind) (w : Nat) (e : Evidence) :
    (e.take c time kind w).2 = passed e.stage (e.take c time kind w).1.stage
      ∧ e.stage.code ≤ (e.take c time kind w).1.stage.code := by
  unfold Evidence.take
  dsimp only
  split
  · exact Evidence.rise_stage c time _
  · exact ⟨(passed_self _).symm, le_refl _⟩

/-- R105: the fall test leaves the stage or makes it CALM. -/
theorem Evidence.fall_stage (c : Settings) (time : Nat) (e : Evidence) :
    (e.fall c time).stage = e.stage ∨ (e.fall c time).stage = .calm := by
  unfold Evidence.fall
  split
  · exact .inr rfl
  · exact .inl rfl

/-- R113: relief leaves the stage or makes it CALM. -/
theorem Evidence.relieve_stage (c : Settings) (time r : Nat) (e : Evidence) :
    (e.relieve c time r).stage = e.stage ∨ (e.relieve c time r).stage = .calm := by
  unfold Evidence.relieve
  dsimp only
  have h := Evidence.fall_stage c time
  split
  · exact h (Evidence.append time .relief 0 _ e.stage { e with score := _ })
  · exact h { e with score := _ }

/-! ### What an operation leaves of the store -/

/-- The state whose records, store and indicators are those of another. -/
def State.stored (u s : State) : State :=
  { s with
    life := u.life
    evid := u.evid
    cred := u.cred
    nvs := u.nvs
    writeImages := u.writeImages
    latched := u.latched }

/-- A purge neither reads nor changes what was stored. -/
theorem State.purge_stored (u s : State) : (u.stored s).purge = u.stored s.purge := by
  unfold State.purge
  cases h : s.kpurge <;> simp [State.stored, h]

/-- In ACTIVE the records of `u` say DISABLED where those of `s` do, which is all that a hand-on reads of them. -/
def State.SameLink (u s : State) : Prop :=
  s.mode = .active → (u.life.lifecycle = .disabled ↔ s.life.lifecycle = .disabled)

/-- A hand-on does not read what was stored. -/
theorem State.handOn_stored (u s : State) (j : Fin 17) (h : u.SameLink s) :
    (u.stored s).handOn j = u.stored (s.handOn j) := by
  have hcond : ((u.stored s).mode ≠ .active ∨ (u.stored s).life.lifecycle = .disabled)
      ↔ (s.mode ≠ .active ∨ s.life.lifecycle = .disabled) := by
    change (s.mode ≠ .active ∨ u.life.lifecycle = .disabled) ↔ _
    by_cases hm : s.mode = .active
    · rw [h hm]
    · simp [hm]
  unfold State.handOn
  by_cases hoff : s.mode ≠ .active ∨ s.life.lifecycle = .disabled
  · rw [if_pos hoff, if_pos (hcond.2 hoff)]
  · rw [if_neg hoff, if_neg (mt hcond.1 hoff)]
    have hqueue : (u.stored s).queue = s.queue := rfl
    have hflight : (u.stored s).inFlight = s.inFlight := rfl
    rw [hqueue, hflight]
    by_cases hq : j ∈ s.queue
    · rw [if_pos hq, if_pos hq]
    · rw [if_neg hq, if_neg hq]
      cases s.inFlight with
      | none => rfl
      | some f => by_cases hf : f.slot = j <;> simp [hf, State.stored]

/-- Hand-ons do not read what was stored. -/
theorem State.handOnAll_stored (u : State) (js : List (Fin 17)) (s : State) (h : u.SameLink s) :
    (u.stored s).handOnAll js = u.stored (s.handOnAll js) := by
  unfold State.handOnAll
  induction js generalizing s with
  | nil => rfl
  | cons j js ih =>
    have hnext : u.SameLink (s.handOn j) := by
      obtain ⟨q, f, hj⟩ := s.handOn_form j
      rw [hj]; exact h
    rw [List.foldl_cons, List.foldl_cons, State.handOn_stored u s j h, ih _ hnext]

/-- A change of desired states does not read what was stored. -/
theorem State.changeDesired_stored (u s : State) (g : Vector Gates 16) (v : View) (h : u.SameLink s) :
    (u.stored s).changeDesired g v = u.stored (s.changeDesired g v) := by
  have hdrop : ∀ (b : Bool) (x : State), (u.stored x).dropRootIfClosed b = u.stored (x.dropRootIfClosed b) := by
    intro b x
    rw [State.dropRootIfClosed_form, State.dropRootIfClosed_form]
    rfl
  unfold State.changeDesired
  rw [← State.handOnAll_stored _ _ _ (by rw [State.dropRootIfClosed_form]; exact h), ← hdrop]
  rfl

/-- The withdrawal of grants and intent neither reads nor changes what was stored. -/
theorem State.withdrawSuspend_stored (u s : State) : (u.stored s).withdrawSuspend = u.stored s.withdrawSuspend := by
  rw [State.withdrawSuspend_form, State.withdrawSuspend_form]
  rfl

/-- A purge leaves the mode and the records. -/
theorem State.SameLink.purge {u s : State} (h : u.SameLink s) : u.SameLink s.purge := by
  unfold State.purge
  split
  · exact h
  · exact h

/-! ### Access withdrawn -/

/-- From `s` to `t` nothing but what gives access is changed, by moves. -/
def State.Withdraws (s t : State) : Prop :=
  Moves s t ∧ ∃ g v q f m ms k r gr i rep ve d,
    t = { s with
      gates := g, shadow := v, queue := q, inFlight := f, mirror := m, mirrorShadow := ms, kpurge := k, rootCopy := r
      grants := gr, intent := i, report := rep, verified := ve, decayCount := d }

theorem State.Withdraws.refl (s : State) : s.Withdraws s :=
  ⟨Moves.refl s, _, _, _, _, _, _, _, _, _, _, _, _, _, rfl⟩

theorem State.Withdraws.trans {s t u : State} (h : s.Withdraws t) (h' : t.Withdraws u) : s.Withdraws u := by
  obtain ⟨hm, _, _, _, _, _, _, _, _, _, _, _, _, _, rfl⟩ := h
  obtain ⟨hm', _, _, _, _, _, _, _, _, _, _, _, _, _, rfl⟩ := h'
  exact ⟨hm.trans hm', _, _, _, _, _, _, _, _, _, _, _, _, _, rfl⟩

/-- R74. -/
theorem State.purge_withdraws (s : State) : s.Withdraws s.purge := by
  refine ⟨(Move.purge rfl).moves, ?_⟩
  unfold State.purge
  split <;> exact ⟨_, _, _, _, _, _, _, _, _, _, _, _, _, rfl⟩

/-- Closing everything opens nothing. -/
theorem State.closes_allClosed (s : State) : s.Closes allClosed .shown := by
  refine ⟨fun k => ?_, .inl rfl⟩
  have hk : allClosed[k] = Gates.closed := by simp [allClosed]
  rw [hk]; rfl

/-- R52. -/
theorem State.closeAll_withdraws (s : State) : s.Withdraws s.closeAll := by
  refine ⟨(Move.desired allClosed .shown (.inr s.closes_allClosed) rfl).moves, ?_⟩
  obtain ⟨q, f, h⟩ := s.changeDesired_form allClosed .shown
  exact ⟨_, _, _, _, _, _, _, _, _, _, _, _, _, h⟩

/-- R107. -/
theorem State.withdrawSuspend_withdraws (s : State) : s.Withdraws s.withdrawSuspend := by
  refine ⟨(Move.withdraw [] none (List.nil_sublist _) (.inl rfl) ?_).moves, ?_⟩
  · rw [State.withdrawSuspend_form]; rfl
  rw [State.withdrawSuspend_form]
  exact ⟨_, _, _, _, _, _, _, _, _, _, _, _, _, rfl⟩

/-- R107, R108: the effects of a level. -/
theorem State.enterStage_withdraws (s : State) (l : Stage) : s.Withdraws (s.enterStage l) := by
  cases l with
  | calm | wipe => exact State.Withdraws.refl s
  | alert => exact s.withdrawSuspend_withdraws
  | lockdown =>
    have hclear : ∀ x : State, x.Withdraws { x with verified := 0, decayCount := 0 } :=
      fun x => ⟨Moves.of_bare rfl, _, _, _, _, _, _, _, _, _, _, _, _, _, rfl⟩
    exact ((s.purge_withdraws.trans (State.closeAll_withdraws _)).trans (hclear _)).trans
      (State.withdrawSuspend_withdraws _)

/-- R107, R108: the effects of several levels. -/
theorem State.foldl_enterStage_withdraws (levels : List Stage) (s : State) :
    s.Withdraws (levels.foldl State.enterStage s) := by
  induction levels generalizing s with
  | nil => exact State.Withdraws.refl s
  | cons l levels ih => exact (s.enterStage_withdraws l).trans (ih _)

/-- A purge leaves its pulse or no transfer in flight (R74). -/
theorem State.purge_leaves (s : State) : s.purge.kpurge.isSome = true ∨ s.purge.inFlight = none := by
  unfold State.purge
  split
  · next h => exact .inl h
  · exact .inr rfl

/-- A purge, the closing of everything, and the withdrawal of grants and intent leave nothing that gives access. -/
theorem State.shut_of_closings (s : State) (ve : BitVec 8) (d : Micros) :
    (State.withdrawSuspend { s.purge.closeAll with verified := ve, decayCount := d }).Shut := by
  rw [State.withdrawSuspend_form]
  obtain ⟨q, f, h⟩ := State.changeDesired_form allClosed .shown s.purge
  have hgates : s.purge.closeAll.gates = allClosed ∧ s.purge.closeAll.shadow = .shown
      ∧ s.purge.closeAll.kpurge = s.purge.kpurge := by unfold State.closeAll; rw [h]; exact ⟨rfl, rfl, rfl⟩
  refine ⟨hgates.1, hgates.2.1, ⟨rfl, rfl⟩, ?_⟩
  refine s.purge_leaves.imp (fun hk => ?_) (fun hf => State.changeDesired_inFlight_none _ _ _ hf)
  change s.purge.closeAll.kpurge.isSome = true
  rw [hgates.2.2]; exact hk

/-- R108. -/
theorem State.enterLockdown_shut (s : State) : s.enterLockdown.Shut := s.shut_of_closings 0 0

/-- R107, R108: what the levels of a rise that ends below WIPE leave is what the stage may stand beside. -/
theorem State.foldl_enterStage_mayStand (s : State) (x : Stage) (hx : x ≠ .wipe) (h : s.evid.stage.code ≤ x.code) :
    ((passed s.evid.stage x).foldl State.enterStage s).MayStand x := by
  have halert : ∀ s : State, s.enterAlert.Unsuspended := fun s => by
    unfold State.enterAlert; rw [State.withdrawSuspend_form]; exact ⟨rfl, rfl⟩
  cases hs : s.evid.stage <;> cases x <;>
    first
    | exact absurd rfl hx
    | (rw [hs] at h; exact absurd h (by decide))
    | exact .inl hs.symm
    | exact .inr (.inr (.inl ⟨rfl, halert s⟩))
    | exact .inr (.inr (.inr ⟨rfl, State.enterLockdown_shut _⟩))

/-! ### A rise and its effects -/

/-- What a rise withdraws: a purge, the closing of everything, and the grants and the intent dropped. -/
def State.shutDown (ve : BitVec 8) (d : Micros) (s : State) : State :=
  State.withdrawSuspend { s.purge.closeAll with verified := ve, decayCount := d }

/-- It does not read what was stored. -/
theorem State.shutDown_stored (u s : State) (ve : BitVec 8) (d : Micros) (h : u.SameLink s) :
    (u.stored s).shutDown ve d = u.stored (s.shutDown ve d) := by
  unfold State.shutDown State.closeAll
  rw [State.purge_stored, State.changeDesired_stored u s.purge _ _ h.purge]
  exact State.withdrawSuspend_stored u
    { s.purge.changeDesired allClosed .shown with verified := ve, decayCount := d }

/-- It is the withdrawal of access. -/
theorem State.shutDown_withdraws (s : State) (ve : BitVec 8) (d : Micros) : s.Withdraws (s.shutDown ve d) := by
  have hclear : ∀ x : State, x.Withdraws { x with verified := ve, decayCount := d } :=
    fun x => ⟨Moves.of_bare rfl, _, _, _, _, _, _, _, _, _, _, _, _, _, rfl⟩
  exact ((s.purge_withdraws.trans (State.closeAll_withdraws _)).trans (hclear _)).trans
    (State.withdrawSuspend_withdraws _)

/-- The effects of a level do not read what was stored. -/
theorem State.enterStage_stored (u s : State) (l : Stage) (h : u.SameLink s) :
    (u.stored s).enterStage l = u.stored (s.enterStage l) := by
  cases l with
  | calm | wipe => rfl
  | alert => exact State.withdrawSuspend_stored u s
  | lockdown => exact State.shutDown_stored u s 0 0 h

/-- Nothing that a withdrawal changes is read of the records. -/
theorem State.SameLink.withdraws {u s t : State} (h : u.SameLink s) (hw : s.Withdraws t) : u.SameLink t := by
  obtain ⟨-, _, _, _, _, _, _, _, _, _, _, _, _, _, rfl⟩ := hw
  exact h

/-- The effects of the levels of a rise do not read what was stored. -/
theorem State.foldl_enterStage_stored (u : State) (levels : List Stage) (s : State) (h : u.SameLink s) :
    levels.foldl State.enterStage (u.stored s) = u.stored (levels.foldl State.enterStage s) := by
  induction levels generalizing s with
  | nil => rfl
  | cons l levels ih =>
    rw [List.foldl_cons, List.foldl_cons, State.enterStage_stored u s l h, ih _ (h.withdraws (s.enterStage_withdraws l))]

/-- R104: a rise passes WIPE exactly where it ends there. -/
theorem passed_contains_wipe (x y : Stage) : (passed x y).contains .wipe = true ↔ y = .wipe ∧ x ≠ .wipe := by
  cases x <;> cases y <;> decide

/-- R104: a rise that passes no level is none. -/
theorem eq_of_passed_isEmpty {x y : Stage} (h : (passed x y).isEmpty = true) (hc : x.code ≤ y.code) : y = x := by
  cases x <;> cases y <;> first | rfl | exact absurd h (by decide) | exact absurd hc (by decide)

/-- A job that stands may stand on. -/
theorem State.mayWork_of_mem {s : State} {j : Job} (h : j ∈ s.job) : s.MayWork j :=
  ⟨fun ho => .inr ⟨j, h, ho⟩, fun _ hl => hl j h⟩

/-- R128: a wipe start leaves the job as it stands or ends it. -/
theorem State.supersedeLayout_job (s : State) :
    ∃ w o j, s.supersedeLayout = { s with layoutWork := w, layoutOp := o, job := j } ∧ (j = s.job ∨ j = none) := by
  unfold State.supersedeLayout
  split
  · exact ⟨_, _, _, rfl, .inl rfl⟩
  split
  · exact ⟨_, _, _, rfl, .inr rfl⟩
  split
  · exact ⟨_, _, _, rfl, .inl rfl⟩
  · exact ⟨_, _, _, rfl, .inl rfl⟩

/-- R26: a derivation abandoned by a wipe start, once the stage is WIPE. -/
theorem State.abandonInWipe_moves (s : State) (h : s.evid.stage = .wipe) :
    Moves { s with derivation := none } s.abandonInWipe := by
  unfold State.abandonInWipe
  split
  · next hd => exact Moves.of_bare (by rw [← hd])
  · next d hd =>
    dsimp only
    split
    · rw [State.setBackoff_form]
      set e := s.evid.take s.settings s.seconds .badSecret (s.settings.wBad * min s.cred.failures 8) with he
      refine (Move.record (s := { s with derivation := none }) [.credentials, .evidence]
        { s with derivation := none, cred := { s.cred with openAttempt := false }, evid := e.1 } rfl
        ⟨fun hb => Evidence.take_bounded hb _ _ _ _, id⟩ ?_ (by rfl)).moves
      exact .inl ((Evidence.take_stage_wipe _ _ _ _ _ h).trans h.symm)
    · exact Moves.of_bare rfl

/-- R10: what the lifecycle unit sets off is the withdrawal of access, then the rest. -/
theorem State.wipeStartActions_eq (s : State) :
    s.wipeStartActions =
      (State.supersedeLayout
        { s.shutDown 0 s.purge.closeAll.decayCount with
          window := (s.shutDown 0 s.purge.closeAll.decayCount).window.stopWaiting
          dormancyCount := 0
          decayCount := 0
          wipeOp := .start .wipe none (s.shutDown 0 s.purge.closeAll.decayCount).millis
          wipeClaim := true }).abandonInWipe := rfl

/-- R10: a wipe start, alone or after the levels that a rise passes below it, with what its cause writes of the evidence
and the credential table in the same commit. -/
theorem State.wipeStart_moves (levels : List Stage) (extra : List SetId) (e : Evidence) (c : CredentialTable) (s : State)
    (he : s.evid.Bounded → e.Bounded) (hc : s.cred.failures ≤ 255 → c.failures ≤ 255)
    (hl : s.life.lifecycle ≠ .disabled ∨ s.mode ≠ .active) :
    Moves s
      (levels.foldl State.enterStage
        ((State.wipeStartCommit extra { s with evid := e, cred := c }).latch .stageRise)).wipeStartActions := by
  set u := (State.wipeStartCommit extra { s with evid := e, cred := c }).latch .stageRise with hu
  have hlink : u.SameLink s := fun hm => by
    refine iff_of_false (fun h => ?_) (hl.resolve_right (not_not.2 hm))
    have hwiping : u.life.lifecycle = .wiping := rfl
    rw [hwiping] at h; cases h
  set s₁ := levels.foldl State.enterStage s with hs₁
  have h₁ : s.Withdraws s₁ := s.foldl_enterStage_withdraws levels
  have hfold : levels.foldl State.enterStage u = u.stored s₁ := by
    rw [hs₁, ← State.foldl_enterStage_stored u levels s hlink]; rfl
  set s₂ := s₁.shutDown 0 s₁.purge.closeAll.decayCount with hs₂
  have hshut : s₂.Shut := s₁.shut_of_closings 0 _
  have h₂ : s.Withdraws s₂ := h₁.trans (s₁.shutDown_withdraws 0 _)
  have hdown : (u.stored s₁).shutDown 0 (u.stored s₁).purge.closeAll.decayCount = u.stored s₂ := by
    have hd : (u.stored s₁).purge.closeAll.decayCount = s₁.purge.closeAll.decayCount := by
      unfold State.closeAll
      rw [State.purge_stored, State.changeDesired_stored u s₁.purge _ _ (hlink.withdraws h₁).purge]
      rfl
    rw [hd, State.shutDown_stored u s₁ _ _ (hlink.withdraws h₁)]
  set x : State :=
    { u.stored s₂ with
      window := (u.stored s₂).window.stopWaiting, dormancyCount := 0, decayCount := 0
      wipeOp := .start .wipe none (u.stored s₂).millis, wipeClaim := true } with hx
  have hactions : (u.stored s₁).wipeStartActions = x.supersedeLayout.abandonInWipe := by
    rw [State.wipeStartActions_eq, hdown]
  rw [hfold, hactions]
  obtain ⟨w, o, j, hsup, hj⟩ := x.supersedeLayout_job
  have hlast : Moves { x.supersedeLayout with derivation := none } x.supersedeLayout.abandonInWipe :=
    State.abandonInWipe_moves _ (by rw [hsup]; rfl)
  have hjob : Moves { x with derivation := none } { x.supersedeLayout with derivation := none } := by
    refine (Move.job j (fun i hi => ?_) (by rw [hsup]; rfl)).moves
    rcases hj with rfl | rfl
    · exact State.mayWork_of_mem (s := { x with derivation := none }) hi
    · cases hi
  have hstart : Move { s₂ with derivation := none } { x with derivation := none } := by
    refine Move.wipeStart (extra ++ [.lifecycle, .evidence])
      { s₂ with derivation := none, life := u.life, evid := u.evid, cred := c } hshut rfl ?_ rfl rfl ?_ ?_
    · obtain ⟨-, _, _, _, _, _, _, _, _, _, _, _, _, _, heq⟩ := h₂
      rw [heq]; exact hl
    · obtain ⟨-, _, _, _, _, _, _, _, _, _, _, _, _, _, heq⟩ := h₂
      rw [heq]
      exact ⟨fun hb => Evidence.append_bounded ((he hb).withStage _) _ _ _ _ _, hc⟩
    · obtain ⟨-, _, _, _, _, _, _, _, _, _, _, _, _, _, heq⟩ := h₂
      rw [hx, heq]; rfl
  exact (((h₂.1.tail (Move.abandon rfl)).tail hstart).trans hjob).trans hlast

/-- R101, R109: a change of the score with the levels it passes. -/
theorem State.settleRise_moves (extra : List SetId) (e : Evidence) (c : CredentialTable) (s : State)
    (he : s.evid.Bounded → e.Bounded) (hc : s.cred.failures ≤ 255 → c.failures ≤ 255)
    (hcode : s.evid.stage.code ≤ e.stage.code) (hl : s.life.lifecycle ≠ .disabled ∨ s.mode ≠ .active) :
    Moves s (State.settleRise (passed s.evid.stage e.stage) extra { s with evid := e, cred := c }) := by
  set levels := passed s.evid.stage e.stage with hlevels
  have hbelow : ∀ t : State, e.stage = s.evid.stage ∨ e.stage ≠ .wipe →
      t.bare = (levels.foldl State.enterStage
        ((State.commit (extra ++ [.evidence]) { s with evid := e, cred := c }).latch .stageRise)).bare → Moves s t := by
    intro t hw ht
    set u := (State.commit (extra ++ [.evidence]) { s with evid := e, cred := c }).latch .stageRise with hu
    have hlink : u.SameLink s := fun _ => Iff.rfl
    have hfold : levels.foldl State.enterStage u = u.stored (levels.foldl State.enterStage s) := by
      rw [← State.foldl_enterStage_stored u levels s hlink]; rfl
    have hstand : (levels.foldl State.enterStage s).MayStand e.stage := by
      rcases hw with hw | hw
      · rw [hlevels, hw, passed_self]; exact .inl rfl
      · exact s.foldl_enterStage_mayStand e.stage hw hcode
    obtain ⟨hmoves, _, _, _, _, _, _, _, _, _, _, _, _, _, heq⟩ := s.foldl_enterStage_withdraws levels
    refine hmoves.tail (Move.record (extra ++ [.evidence])
      { levels.foldl State.enterStage s with evid := e, cred := c } rfl ?_ hstand ?_)
    · rw [heq]; exact ⟨he, hc⟩
    · rw [ht, hfold, heq]; rfl
  unfold State.settleRise
  split
  · exact s.wipeStart_moves levels extra e c he hc hl
  · next hwipe =>
    rw [hlevels, passed_contains_wipe] at hwipe
    have hw : e.stage = s.evid.stage ∨ e.stage ≠ .wipe := by
      by_cases h : e.stage = .wipe
      · exact .inl (h.trans (by by_contra hs; exact hwipe ⟨h, fun hh => hs hh.symm⟩))
      · exact .inr h
    split
    · next hempty => exact hbelow _ hw (by rw [List.isEmpty_iff.1 hempty]; rfl)
    · exact hbelow _ hw rfl

/-- R100, R101: an event that the evidence unit takes or declines, with what its source writes of the credential table in
the same commit. -/
theorem State.takeEvidence_moves (kind : TrailKind) (w : Nat) (extra : List SetId) (c : CredentialTable) (s : State)
    (hc : s.cred.failures ≤ 255 → c.failures ≤ 255) (hx : extra = [] → c = s.cred) :
    Moves s (State.takeEvidence kind w extra { s with cred := c }) := by
  unfold State.takeEvidence
  split
  · next ht =>
    have hl : s.life.lifecycle ≠ .disabled := fun h => by
      have ht' : s.life.lifecycle.takesEvidence = true := ht
      rw [h] at ht'; cases ht'
    obtain ⟨hlevels, hcode⟩ := Evidence.take_stage s.settings s.seconds kind w s.evid
    have := State.settleRise_moves extra (s.evid.take s.settings s.seconds kind w).1 c s
      (fun he => Evidence.take_bounded he _ _ _ _) hc hcode (.inl hl)
    rw [← hlevels] at this
    exact this
  · split
    · next h => rw [hx (List.isEmpty_iff.1 h)]
    · exact (Move.record extra { s with cred := c } rfl ⟨id, hc⟩ (.inl rfl) rfl).moves

/-- R100, R101: an event whose source writes nothing. -/
theorem State.takeEvidence_moves_nil (kind : TrailKind) (w : Nat) (s : State) : Moves s (s.takeEvidence kind w []) :=
  s.takeEvidence_moves kind w [] s.cred id fun _ => rfl

/-- R24: a failure resolution. -/
theorem State.failureResolution_moves (s : State) : Moves s s.failureResolution := by
  have h := s.takeEvidence_moves .badSecret (s.settings.wBad * min s.cred.failures 8) [.credentials]
    { s.cred with openAttempt := false } id (fun h => by cases h)
  refine h.trans (Moves.of_bare ?_)
  change ((State.takeEvidence .badSecret (s.settings.wBad * min s.cred.failures 8) [.credentials]
    { s with cred := { s.cred with openAttempt := false } }).setBackoff.latch .badSecret).bare = _
  rw [State.setBackoff_form]
  rfl

/-- R25: a derivation abandoned by RST_N or a loss of VMAIN. -/
theorem State.abandonDerivation_moves (s : State) : Moves s s.abandonDerivation := by
  unfold State.abandonDerivation
  split
  · exact Moves.refl s
  · dsimp only
    have habandon : Moves s { s with derivation := none } := (Move.abandon rfl).moves
    split
    · exact (habandon.trans (State.failureResolution_moves _)).trans (Moves.of_bare rfl)
    · exact habandon.trans (Moves.of_bare rfl)

/-- R150: grants dropped. -/
theorem State.dropGrants_moves (cause : DropCause) (s : State) : Moves s (s.dropGrants cause) := by
  refine (Move.withdraw [] s.intent (List.nil_sublist _) (.inr rfl) ?_).moves
  rw [State.dropGrants_form]
  rfl

/-- R81: an event of the sense unit. -/
theorem State.senseEvent_moves (i : Indicator) (kind : TrailKind) (w : Nat) (s : State) :
    Moves s (s.senseEvent i kind w) :=
  (Moves.of_bare (s := s) (t := s.latch i) rfl).trans (State.takeEvidence_moves_nil kind w _)

/-- R81: an event of the sense unit with the drop of the grants. -/
theorem State.theftEvent_moves (i : Indicator) (kind : TrailKind) (w : Nat) (cause : DropCause) (dropFirst : Bool)
    (s : State) : Moves s (s.theftEvent i kind w cause dropFirst) := by
  unfold State.theftEvent
  split
  · exact (s.dropGrants_moves cause).trans (State.senseEvent_moves i kind w _)
  · exact (s.senseEvent_moves i kind w).trans (State.dropGrants_moves cause _)

/-- R116: the stage evaluated again. -/
theorem State.reevaluate_moves (s : State) (hl : s.life.lifecycle ≠ .disabled ∨ s.mode ≠ .active) :
    Moves s s.reevaluate := by
  obtain ⟨hlevels, hcode⟩ := Evidence.rise_stage s.settings s.seconds s.evid
  unfold State.reevaluate
  dsimp only
  split
  · have := State.settleRise_moves [] (s.evid.rise s.settings s.seconds).1 s.cred s
      (fun he => Evidence.rise_bounded he _ _) id hcode hl
    rw [← hlevels] at this
    exact this
  split
  · exact Moves.refl s
  · refine (Move.record [.evidence] { s with evid := s.evid.fall s.settings s.seconds } rfl
      ⟨fun he => Evidence.fall_bounded he _ _, id⟩ ?_ rfl).moves
    exact (Evidence.fall_stage s.settings s.seconds s.evid).imp_right .inl

/-- R134: a wipe start that a request causes. -/
theorem State.startWipe_moves (s : State) (hl : s.life.lifecycle ≠ .disabled) : Moves s s.startWipe :=
  s.wipeStart_moves [] [] s.evid s.cred id id (.inl hl)

/-- R20: C saturates within its field. -/
theorem raiseFailures_le (c : CredentialTable) : (raiseFailures c).failures ≤ 255 := min_le_left _ _

/-- R135: a wrong wipe code. -/
theorem State.countWrongCode_moves (s : State) : Moves s s.countWrongCode := by
  have h := s.takeEvidence_moves .badSecret
    (s.settings.wBad * min (raiseFailures s.cred).failures 8) [.credentials] (raiseFailures s.cred)
    (fun _ => raiseFailures_le _) (fun h => by cases h)
  refine h.trans (Moves.of_bare ?_)
  change ((State.takeEvidence .badSecret (s.settings.wBad * min (raiseFailures s.cred).failures 8) [.credentials]
    { s with cred := raiseFailures s.cred }).setBackoff.latch .badSecret).bare = _
  rw [State.setBackoff_form]
  rfl

/-- R28: a set marker. -/
theorem State.resolveMarker_moves (s : State) : Moves s s.resolveMarker := by
  unfold State.resolveMarker
  split
  · exact s.failureResolution_moves.trans (Moves.of_bare rfl)
  · exact Moves.refl s

end Sys2Proof.Machine
end

