-- ==== Sys2Proof/Proofs/MovesOfSteps.lean ====
section
/-! The shared operations of the erase engine, the key link and the supplies as moves. -/

namespace Sys2Proof.Machine

/-! ### What an event leaves as it is -/

/-- From `s` to `t` the mode stays, and no transfer, intent or derivation comes where none was. -/
def State.Subsides (s t : State) : Prop :=
  t.mode = s.mode ∧ (s.inFlight = none → t.inFlight = none) ∧ (s.intent = none → t.intent = none)
    ∧ (s.derivation = none → t.derivation = none)

theorem State.Subsides.refl (s : State) : s.Subsides s := ⟨rfl, id, id, id⟩

theorem State.Subsides.trans {s t u : State} (h : s.Subsides t) (h' : t.Subsides u) : s.Subsides u := by
  obtain ⟨hm, hf, hi, hd⟩ := h
  obtain ⟨hm', hf', hi', hd'⟩ := h'
  exact ⟨hm'.trans hm, hf' ∘ hf, hi' ∘ hi, hd' ∘ hd⟩

theorem State.purge_subsides (s : State) : s.Subsides s.purge := by
  unfold State.purge
  split
  · exact State.Subsides.refl s
  · exact ⟨rfl, fun _ => rfl, id, id⟩

theorem State.changeDesired_subsides (g : Vector Gates 16) (v : View) (s : State) : s.Subsides (s.changeDesired g v) := by
  refine ⟨?_, s.changeDesired_inFlight_none g v, ?_, ?_⟩ <;>
    (obtain ⟨q, f, h⟩ := s.changeDesired_form g v; rw [h])
  · exact id
  · exact id

theorem State.withdrawSuspend_subsides (s : State) : s.Subsides s.withdrawSuspend := by
  rw [State.withdrawSuspend_form]
  exact ⟨rfl, id, fun _ => rfl, id⟩

theorem State.shutDown_subsides (ve : BitVec 8) (d : Micros) (s : State) : s.Subsides (s.shutDown ve d) := by
  have hclear : s.purge.closeAll.Subsides { s.purge.closeAll with verified := ve, decayCount := d } :=
    ⟨rfl, id, id, id⟩
  exact ((s.purge_subsides.trans (State.changeDesired_subsides _ _ _)).trans hclear).trans
    (State.withdrawSuspend_subsides _)

theorem State.foldl_enterStage_subsides (levels : List Stage) (s : State) :
    s.Subsides (levels.foldl State.enterStage s) := by
  induction levels generalizing s with
  | nil => exact State.Subsides.refl s
  | cons l levels ih =>
    refine State.Subsides.trans ?_ (ih _)
    cases l with
    | calm | wipe => exact State.Subsides.refl s
    | alert => exact s.withdrawSuspend_subsides
    | lockdown => exact s.shutDown_subsides 0 0

theorem State.wipeStartActions_subsides (s : State) : s.Subsides s.wipeStartActions := by
  rw [State.wipeStartActions_eq]
  refine (s.shutDown_subsides 0 s.purge.closeAll.decayCount).trans ?_
  obtain ⟨w, o, j, h, -⟩ := State.supersedeLayout_job
    { s.shutDown 0 s.purge.closeAll.decayCount with
      window := (s.shutDown 0 s.purge.closeAll.decayCount).window.stopWaiting
      dormancyCount := 0
      decayCount := 0
      wipeOp := .start .wipe none (s.shutDown 0 s.purge.closeAll.decayCount).millis
      wipeClaim := true }
  rw [h]
  obtain ⟨_, _, _, _, _, _, _, h', -⟩ := State.abandonInWipe_form _
  rw [h']
  exact ⟨rfl, id, id, fun _ => rfl⟩

theorem State.settleRise_subsides (levels : List Stage) (extra : List SetId) (s : State) :
    s.Subsides (s.settleRise levels extra) := by
  have hbefore : ∀ t : State, t.mode = s.mode → t.inFlight = s.inFlight → t.intent = s.intent →
      t.derivation = s.derivation → s.Subsides t := fun t hm hf hi hd => by
    refine ⟨hm, ?_, ?_, ?_⟩
    · rw [hf]; exact id
    · rw [hi]; exact id
    · rw [hd]; exact id
  unfold State.settleRise
  split
  · exact ((hbefore ((s.wipeStartCommit extra).latch .stageRise) rfl rfl rfl rfl).trans
      (State.foldl_enterStage_subsides levels _)).trans (State.wipeStartActions_subsides _)
  split
  · exact hbefore _ rfl rfl rfl rfl
  · exact (hbefore ((s.commit (extra ++ [.evidence])).latch .stageRise) rfl rfl rfl rfl).trans
      (State.foldl_enterStage_subsides levels _)

theorem State.takeEvidence_subsides (kind : TrailKind) (w : Nat) (extra : List SetId) (s : State) :
    s.Subsides (s.takeEvidence kind w extra) := by
  unfold State.takeEvidence
  split
  · exact State.Subsides.trans ⟨rfl, id, id, id⟩ (State.settleRise_subsides _ extra _)
  split
  · exact State.Subsides.refl s
  · exact ⟨rfl, id, id, id⟩

theorem State.failureResolution_subsides (s : State) : s.Subsides s.failureResolution := by
  change s.Subsides ((State.takeEvidence .badSecret (s.settings.wBad * min s.cred.failures 8) [.credentials]
    { s with cred := { s.cred with openAttempt := false } }).setBackoff.latch .badSecret)
  rw [State.setBackoff_form]
  have hcleared : s.Subsides { s with cred := { s.cred with openAttempt := false } } := ⟨rfl, id, id, id⟩
  exact (hcleared.trans (State.takeEvidence_subsides _ _ _ _)).trans ⟨rfl, id, id, id⟩

/-- R25: a derivation abandoned is gone. -/
theorem State.abandonDerivation_subsides (s : State) :
    s.Subsides s.abandonDerivation ∧ s.abandonDerivation.derivation = none := by
  unfold State.abandonDerivation
  split
  · next h => exact ⟨State.Subsides.refl s, h⟩
  · dsimp only
    have hgone : s.Subsides { s with derivation := none } := ⟨rfl, id, id, fun _ => rfl⟩
    split
    · have h := State.failureResolution_subsides { s with derivation := none }
      exact ⟨(hgone.trans h).trans ⟨rfl, id, id, id⟩, h.2.2.2 rfl⟩
    · exact ⟨hgone.trans ⟨rfl, id, id, id⟩, rfl⟩

theorem State.reevaluate_subsides (s : State) : s.Subsides s.reevaluate := by
  unfold State.reevaluate
  dsimp only
  split
  · exact State.Subsides.trans ⟨rfl, id, id, id⟩ (State.settleRise_subsides _ [] _)
  split
  · exact State.Subsides.refl s
  · exact ⟨rfl, id, id, id⟩

theorem State.resolveMarker_subsides (s : State) : s.Subsides s.resolveMarker := by
  unfold State.resolveMarker
  split
  · exact s.failureResolution_subsides.trans ⟨rfl, id, id, id⟩
  · exact State.Subsides.refl s

/-! ### Time -/

/-- Powered time running on changes the clock and the two counts. -/
theorem State.runTo_form (t : Micros) (s : State) :
    ∃ n a b, s.runTo t = { s with now := n, dormancyCount := a, decayCount := b } := by
  unfold State.runTo
  split <;> exact ⟨_, _, _, rfl⟩

/-- Powered time running on changes nothing that a law speaks of. -/
theorem State.runTo_bare (t : Micros) (s : State) : (s.runTo t).bare = s.bare := by
  obtain ⟨n, a, b, h⟩ := s.runTo_form t
  rw [h]; rfl

/-- A timed event acts by moves where it does so on every state that differs in the clock and the counts. -/
theorem State.atMoment_moves (t : Micros) (f : State → State) (s : State)
    (h : ∀ u : State, u.bare = s.bare → Moves u (f u)) : Moves s (s.atMoment t f) :=
  (Moves.of_bare (s.runTo_bare t)).trans (h _ (s.runTo_bare t))

/-- The same of a timed event whose moment may be absent. -/
theorem State.atMoment?_moves (t : Option Micros) (f : State → State) (s : State)
    (h : t.isSome = true → ∀ u : State, u.bare = s.bare → Moves u (f u)) : Moves s (s.atMoment? t f) := by
  unfold State.atMoment?
  split
  · exact Moves.refl s
  · exact s.atMoment_moves _ f (h rfl)

/-! ### The erase engine -/

/-- R121: a job whose counts are lawful starts its next step, or waits, lawfully. -/
theorem Job.waiting_or_next_lawful {j : Job} (hround : j.round = 1 ∨ j.round = 2) (hstuck : j.stuckRun < 3)
    (hgood : j.good ≤ j.p) (hp : 0 < j.p) (ready : Bool) (now : Micros) :
    Job.Lawful (if ready then j.nextStep now else { j with phase := .waiting }) := by
  unfold Job.nextStep
  cases ready
  · exact ⟨hround, hstuck, hgood, hp, by simp, by simp, by simp⟩
  · rw [if_pos rfl]
    by_cases h : j.p ≤ j.good
    · rw [if_pos h]
      exact ⟨hround, hstuck, hgood, hp, by simp, fun _ _ => le_antisymm hgood h, by simp⟩
    · rw [if_neg h]
      refine ⟨hround, hstuck, hgood, hp, fun start answered stuck he => ?_, by simp, by simp⟩
      simp only [Phase.pass.injEq] at he
      exact ⟨not_le.1 h, by simp [← he.2.1]⟩

/-- R121: the owner of a job does not change by its waiting. -/
theorem Job.waiting_or_next_owner (j : Job) (ready : Bool) (now : Micros) :
    (if ready then j.nextStep now else { j with phase := .waiting }).owner = j.owner := by cases ready <;> rfl

/-- R121: a job waits for its next step, or starts it. -/
theorem State.waitForStep_moves (j : Job) (s : State)
    (howner : j.owner = .wipe → s.wipeClaim = true ∨ ∃ i ∈ s.job, i.owner = .wipe)
    (hj : 0 < s.settings.p → (∀ i ∈ s.job, i.Lawful) →
      (j.round = 1 ∨ j.round = 2) ∧ j.stuckRun < 3 ∧ j.good ≤ j.p ∧ 0 < j.p) : Moves s (s.waitForStep j) := by
  refine (Move.job _ (fun i hi => ?_) rfl).moves
  cases hi
  refine ⟨fun ho => howner ?_, fun hp hl => ?_⟩
  · rwa [Job.waiting_or_next_owner] at ho
  · obtain ⟨h1, h2, h3, h4⟩ := hj hp hl
    exact Job.waiting_or_next_lawful h1 h2 h3 h4 _ _

/-- R127: the arbiter's grant. -/
theorem State.grantJob_moves (s : State) : Moves s s.grantJob := by
  have hfresh : ∀ (o : Owner) (c : Fin 26), 0 < s.settings.p →
      ((Job.fresh o c s.settings.p).round = 1 ∨ (Job.fresh o c s.settings.p).round = 2)
        ∧ (Job.fresh o c s.settings.p).stuckRun < 3 ∧ (Job.fresh o c s.settings.p).good ≤ s.settings.p
        ∧ 0 < s.settings.p := fun o c hp => ⟨.inl rfl, Nat.zero_lt_succ 2, Nat.zero_le _, hp⟩
  unfold State.grantJob
  split
  · next hclaim =>
    split
    · exact s.waitForStep_moves _ (fun _ => .inl hclaim) fun hp _ => hfresh _ _ hp
    · exact Moves.refl s
  · split
    · next w _ =>
      exact (Moves.of_bare (s := s) (t := { s with layoutOp := { s.layoutOp with detail := some w.next.val } }) rfl).trans
        (State.waitForStep_moves _ _ (fun h => by cases h) fun hp _ => hfresh .layout (rangeCell w.next) hp)
    · exact Moves.refl s

/-- A commit of what no law speaks of. -/
theorem State.commit_moves (sets : List SetId) {s u : State} (h : u.bare = s.bare) : Moves s (u.commit sets) :=
  (Moves.of_bare h).trans (Move.record sets u rfl ⟨id, id⟩ (.inl rfl) rfl).moves

/-- R130: the write of a range's new key. -/
theorem State.writeRangeKey_moves (k : Fin 16) (s : State) : Moves s (s.writeRangeKey k) := by
  unfold State.writeRangeKey
  split
  · exact Moves.refl s
  · exact State.commit_moves [.cells, .layout] rfl

/-- R128, R129: after a range the job is gone. -/
theorem State.afterRange_moves (k : Fin 16) (faulted : Bool) (s : State) : Moves s (s.afterRange k faulted) := by
  refine (Move.job none (fun _ h => by cases h) ?_).moves
  unfold State.afterRange
  dsimp only
  split
  · rfl
  · split <;> rfl

/-- R130: a LAYOUT job that ends BLANK. -/
theorem State.endLayoutBlank_moves (k : Fin 16) (s : State) : Moves s (s.endLayoutBlank k) := by
  have hcell : Moves s (State.commit [.cells] { s with cells := s.cells.set (rangeCell k) .blank }) :=
    State.commit_moves _ rfl
  unfold State.endLayoutBlank
  dsimp only
  split
  · exact hcell.trans (State.afterRange_moves k false _)
  · exact (hcell.trans (State.writeRangeKey_moves k _)).trans (State.afterRange_moves k false _)

/-- R131: a LAYOUT job that ends FAULTED. -/
theorem State.endLayoutFaulted_moves (k : Fin 16) (s : State) : Moves s (s.endLayoutFaulted k) :=
  (State.commit_moves (s := s) [.cells, .layout]
    (u := { s with
      cells := s.cells.set (rangeCell k) .faulted
      layout := { s.layout with
        ranges := s.layout.ranges.set k { s.layout.ranges[k] with health := .faulted } } }) rfl).trans
    (State.afterRange_moves k true _)

/-- R12: the end of a WIPE job on a cell before the last. -/
theorem State.endWipeCell_moves (c : Fin 26) (journal : Journal) (s : State) : Moves s (s.endWipeCell c journal) :=
  (Move.record [.cells, .lifecycle] { s with life := { s.life with journal := some journal } } rfl ⟨id, id⟩ (.inl rfl)
    rfl).moves.tail (Move.job none (fun _ h => by cases h) rfl)

/-- R13: the wipe's end in UNPROVISIONED. -/
theorem State.endWipeUnprovisioned_moves (journal : Journal) (s : State) (hj : ∃ j ∈ s.job, j.owner = .wipe) :
    Moves s (s.endWipeUnprovisioned journal) :=
  Move.moves <| Move.wipeEnd allSets
    { s with
      life := ⟨.unprovisioned, some journal⟩, cred := .factory, backoff := none, layout := .default none
      binding := none
      evid := Evidence.append s.seconds .wipeDone 0 0 .calm { s.evid with score := 0, stage := .calm } }
    hj rfl rfl rfl
    ⟨fun h => Evidence.append_bounded (h.withScore (Nat.zero_le _) _) _ _ _ _ _, fun _ => Nat.zero_le _⟩ rfl

/-- R14: the wipe's end in DISABLED. -/
theorem State.endWipeDisabled_moves (journal : Journal) (s : State) (hj : ∃ j ∈ s.job, j.owner = .wipe) :
    Moves s (s.endWipeDisabled journal) :=
  Move.moves <| Move.rootLost [.cells, .lifecycle, .evidence]
    { s with
      life := ⟨.disabled, some journal⟩
      evid := Evidence.append s.seconds .wipeDone 0 s.evid.score .wipe s.evid }
    hj rfl rfl rfl ⟨fun h => Evidence.append_bounded h _ _ _ _ _, id⟩ rfl

/-- R12 to R14: the end of a WIPE job. -/
theorem State.endWipeJob_moves (c : Fin 26) (faulted : Bool) (s : State) (hj : ∃ j ∈ s.job, j.owner = .wipe) :
    Moves s (s.endWipeJob c faulted) := by
  have hcell : Moves s { s with cells := s.cells.set c (endedCell faulted) } := Moves.of_bare rfl
  unfold State.endWipeJob
  dsimp only
  split
  · exact hcell.trans (State.endWipeCell_moves c _ _)
  split
  · exact hcell.trans (State.endWipeDisabled_moves _ _ hj)
  · exact hcell.trans (State.endWipeUnprovisioned_moves _ _ hj)

/-- R125: the end of a job. -/
theorem State.endJob_moves (j : Job) (faulted : Bool) (s : State) (hj : ∃ i ∈ s.job, i.owner = j.owner) :
    Moves s (s.endJob j faulted) := by
  have hlatch : ∀ t : State, Moves s t → Moves s (if faulted then t.latch .eraseFault else t) := by
    intro t ht
    split
    · exact ht.trans (Moves.of_bare rfl)
    · exact ht
  unfold State.endJob
  refine hlatch _ ?_
  split
  · next ho => rw [ho] at hj; exact s.endWipeJob_moves _ _ hj
  · split
    · split
      · exact s.endLayoutFaulted_moves _
      · exact s.endLayoutBlank_moves _
    · exact (Move.job none (fun _ h => by cases h) rfl).moves

/-- R130: what is left of a WRITE phase. -/
theorem State.finishWrite_moves (s : State) : Moves s s.finishWrite := by
  unfold State.finishWrite
  split
  · exact Moves.refl s
  split
  · split
    · exact s.afterRange_moves _ false
    · exact (s.writeRangeKey_moves _).trans (State.afterRange_moves _ false _)
  all_goals exact Moves.refl s

/-- R130: a LAYOUT job on a range's cell enters WRITE. -/
theorem State.enterWrite_moves (j : Job) (k : Fin 16) (committed : Bool) (s : State) (hj : s.job = some j)
    (ho : j.owner = .layout) (hk : cellRange j.cell = some k) : Moves s (s.enterWrite j k committed) := by
  have hcell : Moves s (State.commit [.cells] { s with cells := s.cells.set (rangeCell k) .blank }) :=
    State.commit_moves _ rfl
  have hlawful : ∀ t : State, t.job = s.job → t.MayWork { j with phase := .write committed } := by
    refine fun t ht => ⟨fun h => (by rw [ho] at h; cases h), fun _ hl => ?_⟩
    obtain ⟨h1, h2, h3, h4, -⟩ := hl j (by rw [ht]; exact hj)
    exact ⟨h1, h2, h3, h4, by simp, by simp, fun _ _ => ⟨ho, by simp [hk]⟩⟩
  have hkey : ∀ t : State, (t.writeRangeKey k).job = t.job := fun t => by
    unfold State.writeRangeKey; split <;> rfl
  unfold State.enterWrite
  cases committed
  · exact hcell.tail (Move.job _ (fun i hi => by cases hi; exact hlawful _ rfl) rfl)
  · exact (hcell.trans (State.writeRangeKey_moves k _)).tail
      (Move.job _ (fun i hi => by cases hi; exact hlawful _ (hkey _)) rfl)

/-- R125, R130: a job that ends BLANK. -/
theorem State.endJobBlank_moves (j : Job) (write : WriteProgress) (s : State) (hj : s.job = some j) :
    Moves s (s.endJobBlank j write) := by
  have hend : Moves s (s.endJob j false) := s.endJob_moves j false ⟨j, hj, rfl⟩
  unfold State.endJobBlank
  split
  case h_1 ho hk | h_2 ho hk =>
    split
    · exact hend
    · exact s.enterWrite_moves _ _ _ hj ho hk
  all_goals exact hend

/-- R122, R123: a pass is judged stuck. -/
theorem State.judgeStuck_moves (j : Job) (start : Micros) (s : State) (hj : s.job = some j)
    (hphase : j.phase = .pass start false false) : Moves s (s.judgeStuck j start) := by
  unfold State.judgeStuck
  dsimp only
  split
  · exact s.endJob_moves _ true ⟨j, hj, rfl⟩
  · next hrun =>
    refine (Move.job _ (fun i hi => ?_) rfl).moves
    cases hi
    refine ⟨fun ho => .inr ⟨j, hj, ho⟩, fun _ hl => ?_⟩
    obtain ⟨h1, -, h3, h4, h5, -⟩ := hl j hj
    refine ⟨h1, not_le.1 hrun, h3, h4, fun _ _ _ _ => ⟨(h5 _ _ _ hphase).1, ?_⟩, by simp, by simp⟩
    simp_all

/-- R124: the result of a verify. -/
theorem State.verifyJob_moves (j : Job) (reading : VerifyReading) (s : State) (hj : s.job = some j) :
    Moves s (s.verifyJob j reading) := by
  unfold State.verifyJob
  split
  · exact s.endJobBlank_moves j _ hj
  split
  · refine s.waitForStep_moves _ (fun ho => .inr ⟨j, hj, ho⟩) fun _ hl => ?_
    obtain ⟨-, -, -, h4, -⟩ := hl j hj
    exact ⟨.inr rfl, Nat.zero_lt_succ 2, Nat.zero_le _, h4⟩
  · exact s.endJob_moves j true ⟨j, hj, rfl⟩

/-! ### The key link -/

/-- R69, R7: a failed unwrap closes the range's gates. -/
theorem Gates.exceed_self (g : Gates) : g.exceed g = false := by simp [Gates.exceed]

theorem Gates.closed_exceed (g : Gates) : Gates.closed.exceed g = false := rfl

/-- A gate that is closed or stays opens nothing. -/
theorem State.closes_of_forall {s : State} {g : Vector Gates 16} {v : View}
    (h : ∀ k : Fin 16, g[k] = .closed ∨ g[k] = s.gates[k]) (hv : v = .shown ∨ v = s.shadow) : s.Closes g v := by
  refine ⟨fun k => ?_, hv⟩
  rcases h k with h | h
  · rw [h]; exact Gates.closed_exceed _
  · rw [h]; exact Gates.exceed_self _

/-- The gates of one range closed. -/
theorem State.closes_gatesWith (s : State) (k : Fin 16) : s.Closes (gatesWith s.gates k .closed) s.shadow := by
  refine State.closes_of_forall (fun i => ?_) (.inr rfl)
  unfold gatesWith
  by_cases h : k = i
  · subst h; exact .inl (by simp)
  · exact .inr (by simp [Fin.val_inj, h])

/-- A failed unwrap. -/
theorem State.unwrapFailed_moves (k : Fin 16) (s : State) : Moves s (s.unwrapFailed k) :=
  (State.commit_moves (s := s) [.layout]
    (u := { s with layout := { s.layout with
      ranges := s.layout.ranges.set k { s.layout.ranges[k] with health := .faulted } } }) rfl).tail
    (Move.desired _ _ (.inr (s.closes_gatesWith k)) rfl)

/-- R66: what each choice of a comparison says of the mirror record. -/
theorem chooseRange_nothing {want : Gates} {m : MirrorRecord} (h : chooseRange want m = .nothing) :
    m.state = .empty ∨ m.gates = want := by
  unfold chooseRange at h
  split_ifs at h <;> tauto

theorem chooseRange_load {want : Gates} {m : MirrorRecord} (h : chooseRange want m = .load) :
    want.anyOpen = true ∧ m.state = .empty := by
  unfold chooseRange at h
  split_ifs at h
  tauto

theorem chooseRange_gates {want : Gates} {m : MirrorRecord} (h : chooseRange want m = .gates) :
    want.anyOpen = true := by
  unfold chooseRange at h
  split_ifs at h
  assumption

/-- The range of a range's slot. -/
@[simp] theorem slotRange_rangeSlot (k : Fin 16) : slotRange (rangeSlot k) = some k := by simp [slotRange, rangeSlot]

/-- Slot 16 is no range's. -/
@[simp] theorem slotRange_shadowSlot : slotRange shadowSlot = none := rfl

/-- A slot that is a range's. -/
theorem eq_rangeSlot_of_slotRange {j : Fin 17} {k : Fin 16} (h : slotRange j = some k) : j = rangeSlot k := by
  unfold slotRange at h
  split at h
  · cases h; rfl
  · cases h

/-- The slot that is no range's. -/
theorem eq_shadowSlot_of_slotRange {j : Fin 17} (h : slotRange j = none) : j = shadowSlot := by
  unfold slotRange at h
  split at h
  · cases h
  · next hj => exact Fin.ext (by simp [shadowSlot]; omega)

/-- R65: the comparison of the slot that has left the queue. -/
theorem State.compareSlot_moves (j : Fin 17) (rest : List (Fin 17)) (s : State) (hq : s.queue = j :: rest)
    (hl : s.LinkFree) : Moves s (State.compareSlot j { s with queue := rest }) := by
  unfold State.compareSlot
  cases hj : slotRange j with
  | none =>
    have hslot := eq_shadowSlot_of_slotRange hj
    dsimp only
    unfold State.compareShadow
    dsimp only
    split
    · exact Move.moves <| Move.send j rest ⟨shadowSlot, .shadow s.wantView s.settings.shadowL, s.now, false⟩ s.mirror hq
        hl hslot.symm (.inr (.inr (.inr ⟨hslot, rfl, rfl⟩))) rfl
    · refine (Move.dequeue j rest hq hl (fun k hk => ?_) rfl).moves
      rw [hk, slotRange_rangeSlot] at hj; cases hj
  | some k =>
    have hslot := eq_rangeSlot_of_slotRange hj
    have hk : ∀ i, j = rangeSlot i → i = k := fun i hi => by
      rw [hi, slotRange_rangeSlot] at hj; exact Option.some.inj hj
    have hwant : State.wantGates k { s with queue := rest } = s.wantGates k := rfl
    dsimp only
    unfold State.compareRange
    split
    · next hc =>
      exact (Move.dequeue j rest hq hl (fun i hi => hk i hi ▸ chooseRange_nothing hc) rfl).moves
    · next hc =>
      obtain ⟨hopen, hempty⟩ := chooseRange_load hc
      unfold State.buildLoad
      dsimp only
      split
      · refine Relation.ReflTransGen.trans (Move.moves ?_) (State.unwrapFailed_moves k _)
        exact Move.dequeue j rest hq hl (fun i hi => hk i hi ▸ .inl hempty) rfl
      · next key _ =>
        exact Move.moves <| Move.send j rest
          ⟨rangeSlot k, .load k key (s.wantGates k) s.layout.ranges[k].edit.response (s.loadExtent k), s.now, false⟩
          (s.mirror.set k { s.mirror[k] with state := .loading }) hq hl hslot.symm
          (.inl ⟨k, _, _, _, hslot, rfl, hopen, hempty, rfl⟩) rfl
    · next hc =>
      exact Move.moves <| Move.send j rest ⟨rangeSlot k, .gates k (s.wantGates k), s.now, false⟩ s.mirror hq hl
        hslot.symm (.inr (.inl ⟨k, hslot, rfl, chooseRange_gates hc, rfl⟩)) rfl
    · exact Move.moves <| Move.send j rest ⟨rangeSlot k, .clear k, s.now, false⟩
        (s.mirror.set k { s.mirror[k] with state := .clearing }) hq hl hslot.symm
        (.inr (.inr (.inl ⟨k, hslot, rfl, rfl⟩))) rfl

/-- R72, R73: the key link fault. -/
theorem State.linkFault_moves (s : State) (hf : s.inFlight.isSome = true) : Moves s s.linkFault := by
  have h₁ : Moves s (State.purge { s with inFlight := none }).closeAll :=
    (Move.faultPurge hf rfl).moves.trans (State.closeAll_withdraws _).1
  have hnone : (State.purge { s with inFlight := none }).closeAll.inFlight = none :=
    State.changeDesired_inFlight_none _ _ _ ((State.purge_subsides { s with inFlight := none }).2.1 rfl)
  unfold State.linkFault
  dsimp only
  generalize (State.purge { s with inFlight := none }).closeAll = s₁ at h₁ hnone ⊢
  have h₂ : Moves s₁ (State.latch .keylinkFault { s₁ with verified := 0 }) := Moves.of_bare rfl
  have hnone₂ : (State.latch .keylinkFault { s₁ with verified := 0 }).inFlight = none := hnone
  generalize State.latch .keylinkFault { s₁ with verified := 0 } = s₂ at h₂ hnone₂ ⊢
  have h₃ := State.takeEvidence_moves_nil .keylink 0 s₂
  have hnone₃ := (State.takeEvidence_subsides .keylink 0 [] s₂).2.1 hnone₂
  generalize State.takeEvidence .keylink 0 [] s₂ = s₃ at h₃ hnone₃ ⊢
  exact ((h₁.trans h₂).trans h₃).tail (Move.faultRun _ (.inr hnone₃) rfl)

/-! ### RST_N and the end of STARTING -/

/-- The gates of the ranges that a test selects closed. -/
theorem State.closes_closeLockOn (s : State) (selects : Editable → Bool) (v : View) (hv : v = .shown ∨ v = s.shadow) :
    s.Closes (closeLockOn selects s.layout s.gates) v := by
  refine State.closes_of_forall (fun k => ?_) hv
  unfold closeLockOn
  by_cases h : selects s.layout.ranges[k].edit
  · exact .inl (by simpa using fun hh => absurd h (by simpa using hh))
  · exact .inr (by simpa using fun hh => absurd hh (by simpa using h))

/-- R79: a reset that finds the part DISABLED. -/
theorem State.emptySilentMirror_moves (s : State) : Moves s s.emptySilentMirror := by
  unfold State.emptySilentMirror
  split
  · next h => exact Move.moves <| Move.emptyMirror h rfl
  · exact Moves.refl s

/-- R73: what a reset does to the link. -/
theorem State.restartLink_moves (s : State) : Moves s s.restartLink := by
  unfold State.restartLink
  split
  · next h => exact (Move.restart h rfl).moves
  · exact (Move.faultReset rfl).moves

/-- R53, R148: the effects of a reset. -/
theorem State.resetEffects_moves (s : State) : Moves s s.resetEffects := by
  have h₁ : Moves s (s.changeDesired (closeLockOn (fun e => e.lockOn.reset) s.layout s.gates) .shown) :=
    Move.moves <| Move.desired _ .shown (.inr (s.closes_closeLockOn _ _ (.inl rfl))) rfl
  unfold State.resetEffects
  dsimp only
  generalize s.changeDesired (closeLockOn (fun e => e.lockOn.reset) s.layout s.gates) .shown = s₁ at h₁ ⊢
  have h₂ : Moves s₁ { s₁ with
      draft := none, verified := 0, intent := none, reply := none, frameFault := false, masks := 0 } :=
    Move.moves <| Move.withdraw s₁.grants none (List.Sublist.refl _) (.inl rfl) rfl
  exact (((h₁.trans h₂).trans (State.emptySilentMirror_moves _)).trans (State.restartLink_moves _)).trans
    (State.abandonDerivation_moves _)

/-- R83, R88, R94: the watches and the window change nothing that a law speaks of. -/
theorem State.startBeacon_bare (s : State) : s.startBeacon.bare = s.bare := rfl

theorem State.readTamp_bare (s : State) : s.readTamp.bare = s.bare := by
  unfold State.readTamp
  split <;> rfl

theorem State.resumeTamper_bare (s : State) : s.resumeTamper.bare = s.bare :=
  (State.readTamp_bare { s with tamper := s.tamper.retime s.now }).trans rfl

theorem State.openWindow_bare (s : State) : s.openWindow.bare = s.bare := rfl

/-- R143: the entry to AUX. -/
theorem State.enterAux_moves (s : State) (h : s.mode ≠ .active ∨ s.reservoirWait.isSome = true) :
    Moves s (State.enterAux { s with reservoirWait := none }) :=
  (Move.enterAux h ((State.resumeTamper_bare _).trans (State.startBeacon_bare _))).moves

/-- R143, R152: the entry to ACTIVE. -/
theorem State.enterActive_moves (s : State) (h : s.mode ≠ .active ∨ s.reservoirWait.isSome = true) :
    Moves s (State.enterActive { s with reservoirWait := none }) := by
  set x : State :=
    { s with
      reservoirWait := none, mode := .active, linkState := .running, faultRun := 0, dormancyCount := 0
      backoff := none } with hx
  have hbackoff : ∃ b, x.setBackoff = { x with backoff := b } := ⟨_, x.setBackoff_form⟩
  obtain ⟨b, hb⟩ := hbackoff
  have hactive : Moves s x.setBackoff.consumeGrants.enqueueDiffering := by
    rw [hb]
    set u : State :=
      { x with
        backoff := b
        grants := []
        satisfied := !s.grants.isEmpty
        report := { s.report with consumed := s.grants.foldl (fun set x => set ||| single 16 x.range.val) 0 } } with hu
    have hcons : State.consumeGrants { x with backoff := b } =
        if s.grants = [] then u else u.changeDesired (reopen s.layout s.grants s.gates) .hidden := by
      unfold State.consumeGrants
      by_cases hg : s.grants = []
      · rw [if_pos hg]; exact if_pos (List.isEmpty_iff.2 hg)
      · rw [if_neg hg]; exact if_neg (mt List.isEmpty_iff.1 hg)
    rw [hcons]
    exact (Move.activate (reopen s.layout s.grants s.gates) u h rfl rfl).moves
  have hwatch : Moves s x.setBackoff.consumeGrants.enqueueDiffering.startBeacon.resumeTamper.openWindow :=
    hactive.trans (Moves.of_bare (((State.openWindow_bare _).trans (State.resumeTamper_bare _)).trans
      (State.startBeacon_bare _)))
  change Moves s
    (if x.setBackoff.consumeGrants.enqueueDiffering.startBeacon.resumeTamper.openWindow.rstLow then _ else _)
  split
  · exact hwatch.trans (State.resetEffects_moves _)
  · exact hwatch

/-- R143: the end of STARTING. -/
theorem State.endStarting_moves (s : State) (h : s.mode ≠ .active ∨ s.reservoirWait.isSome = true) :
    Moves s s.endStarting := by
  unfold State.endStarting
  dsimp only
  split
  · exact s.enterActive_moves h
  · exact s.enterAux_moves h

/-- R142: the reservoir wait that ends as it begins. -/
theorem State.endIfReady_moves (s : State) (h : s.mode ≠ .active ∨ s.reservoirWait.isSome = true) :
    Moves s s.endIfReady := by
  unfold State.endIfReady
  split
  · exact s.endStarting_moves h
  · exact Moves.refl s

end Sys2Proof.Machine
end

