-- ==== Sys2Proof/Proofs/MovesOfRequests.lean ====
section
/-! Every request as moves: the check order lets a request act in ACTIVE and in the lifecycle states that admit its kind
(R2, R159), and what it does there is a run of moves. -/

namespace Sys2Proof.Machine

/-- A command answers a next state, by moves. -/
def State.Runs (s : State) (r : Result) : Prop := ∃ t, r = .next t ∧ Moves s t

/-- Each command starts with no write of its own (log entry 9). -/
theorem State.begin_moves (s : State) : Moves s s.begin := (Move.forget rfl).moves

/-- A reply changes nothing that a law speaks of. -/
theorem answer_moves {s : State} {a : Answer} (kind tag : Byte) (h : Moves s a.state) : Moves s (answer kind tag a) :=
  h.trans (Moves.of_bare rfl)

/-- R155: nor does the reply of a frame fault. -/
theorem State.frameFaultReply_moves (s : State) : Moves s s.frameFaultReply := Moves.of_bare rfl

/-- R159: a request moves as its owner does where the check order reaches it. -/
theorem request_moves (k : Kind) (tag : Byte) (body : Bytes) (owner : State → Answer) (s : State)
    (h : ∀ u : State, (k ≠ .identify → k ≠ .status → u.Admits k) → Moves u (owner u).state) :
    s.Runs (request k tag body owner s) := by
  refine ⟨_, rfl, s.begin_moves.trans ?_⟩
  split
  · exact Moves.refl _
  next hj =>
  split
  · exact s.begin.frameFaultReply_moves
  refine answer_moves _ _ ?_
  unfold checkOrder
  split
  · exact Moves.refl _
  next hstarting =>
  split
  · next ha =>
    refine h _ fun hi hs => ?_
    simp only [State.judgesFrames, Bool.not_eq_true', Bool.not_eq_false, Bool.and_eq_true, Bool.or_eq_true, beq_iff_eq]
      at hj
    exact ⟨hj.1.resolve_right fun hm => hstarting ⟨hm, hi, hs⟩, hj.2, ha⟩
  · exact Moves.refl _

/-- The request is past the check order's first steps. -/
theorem State.event_moves (f : State → State) (s : State) (h : ∀ u : State, Moves u (f u)) : s.Runs (event f s) :=
  ⟨_, rfl, s.begin_moves.trans (h _)⟩

/-- R2: in DISABLED only these kinds are admitted. -/
theorem State.Admits.not_disabled {k : Kind} {s : State} (h : s.Admits k) (hk : Lifecycle.disabled.admits k = false) :
    s.life.lifecycle ≠ .disabled := fun hl => by
  obtain ⟨-, -, ha⟩ := h
  rw [hl, hk] at ha; cases ha

/-- R2: a kind that PROVISIONED alone admits. -/
theorem State.Admits.provisioned {k : Kind} {s : State} (h : s.Admits k)
    (hk : Lifecycle.unprovisioned.admits k = false ∧ Lifecycle.wiping.admits k = false
      ∧ Lifecycle.disabled.admits k = false) : s.life.lifecycle = .provisioned := by
  obtain ⟨-, -, ha⟩ := h
  obtain ⟨hu, hw, hd⟩ := hk
  cases hl : s.life.lifecycle with
  | provisioned => rfl
  | unprovisioned => rw [hl, hu] at ha; cases ha
  | wiping => rw [hl, hw] at ha; cases ha
  | disabled => rw [hl, hd] at ha; cases ha

/-- A request that is read changes nothing. -/
theorem readOnly_moves (body : Bytes) (reply : State → Bytes) (s : State) : Moves s (readOnly body reply s).state := by
  unfold readOnly
  split <;> exact Moves.refl s

/-! ### Command link and reporting -/

theorem execIdentify_moves (tag : Byte) (body : Bytes) (s : State) : s.Runs (execIdentify tag body s) :=
  request_moves _ _ _ _ _ fun u _ => readOnly_moves body _ u

theorem execStatus_moves (tag : Byte) (body : Bytes) (s : State) : s.Runs (execStatus tag body s) :=
  request_moves _ _ _ _ _ fun u _ => readOnly_moves body _ u

theorem execReadPolicy_moves (tag : Byte) (body : Bytes) (s : State) : s.Runs (execReadPolicy tag body s) :=
  request_moves _ _ _ _ _ fun u _ => readOnly_moves body _ u

theorem execReadScore_moves (tag : Byte) (body : Bytes) (s : State) : s.Runs (execReadScore tag body s) :=
  request_moves _ _ _ _ _ fun u _ => readOnly_moves body _ u

theorem execFlags_moves (tag : Byte) (body : Bytes) (s : State) : s.Runs (execFlags tag body s) := by
  refine request_moves _ _ _ _ _ fun u _ => ?_
  split
  · exact Moves.refl u
  · exact Moves.of_bare rfl

theorem execMask_moves (tag : Byte) (body : Bytes) (s : State) : s.Runs (execMask tag body s) := by
  refine request_moves _ _ _ _ _ fun u _ => ?_
  split
  · exact Moves.refl u
  · exact Moves.of_bare rfl

theorem execOpstate_moves (tag : Byte) (body : Bytes) (s : State) : s.Runs (execOpstate tag body s) := by
  refine request_moves _ _ _ _ _ fun u _ => ?_
  split_ifs <;> exact Moves.of_bare rfl

theorem execReadTrail_moves (tag : Byte) (body : Bytes) (s : State) : s.Runs (execReadTrail tag body s) := by
  refine request_moves _ _ _ _ _ fun u _ => ?_
  split
  · split <;> exact Moves.refl u
  · exact Moves.refl u

theorem execReadRanges_moves (tag : Byte) (body : Bytes) (s : State) : s.Runs (execReadRanges tag body s) := by
  refine request_moves _ _ _ _ _ fun u _ => ?_
  split_ifs <;> exact Moves.refl u

theorem execUnknownKind_moves (code tag : Byte) (body : Bytes) (s : State) :
    s.Runs (execUnknownKind code tag body s) := by
  refine s.event_moves _ fun u => ?_
  split
  · exact Moves.refl u
  split
  · exact u.frameFaultReply_moves
  · exact answer_moves _ _ (Moves.refl u)

theorem execBadFrame_moves (frame : Frame) (s : State) : s.Runs (execBadFrame frame s) := by
  refine s.event_moves _ fun u => ?_
  split
  · exact u.frameFaultReply_moves
  · exact Moves.refl u

/-! ### Lifecycle and credentials -/

/-- R19: a derivation starts, with its record. -/
theorem State.derive_moves {s t : State} (d : Derivation) (hm : s.mode = .active) (hl : s.life.lifecycle = d.work.home)
    (h : t.bare = State.bare { s with derivation := some d }) : Moves s t :=
  (Move.derive d (.inl ⟨hm, hl⟩) h).moves

/-- R20: a counted update. -/
theorem State.countAttempt_moves (s : State) : Moves s s.countAttempt :=
  Move.moves <| Move.record [.credentials] { s with cred := { raiseFailures s.cred with openAttempt := true } } rfl
    ⟨id, fun _ => raiseFailures_le s.cred⟩ (.inl rfl) rfl

theorem execProvision_moves (tag : Byte) (body : Bytes) (s : State) : s.Runs (execProvision tag body s) := by
  refine request_moves _ _ _ _ _ fun u hu => ?_
  have ha := hu (by decide) (by decide)
  have hlife : u.life.lifecycle = .unprovisioned := by
    obtain ⟨-, -, h⟩ := ha
    cases hl : u.life.lifecycle <;> first | rfl | (rw [hl] at h; cases h)
  split
  · exact Moves.refl u
  split
  · exact Moves.refl u
  · exact u.derive_moves _ ha.1 (by exact hlife) rfl

theorem execWipe_moves (tag : Byte) (body : Bytes) (s : State) : s.Runs (execWipe tag body s) := by
  refine request_moves _ _ _ _ _ fun u hu => ?_
  have hlife := (hu (by decide) (by decide)).not_disabled rfl
  have hstart := u.startWipe_moves hlife
  split
  · split
    · exact hstart
    · exact Moves.refl u
  split
  · exact Moves.refl u
  split
  · exact Moves.refl u
  split
  · exact hstart
  · exact u.countWrongCode_moves

theorem execVerify_moves (tag : Byte) (body : Bytes) (s : State) : s.Runs (execVerify tag body s) := by
  refine request_moves _ _ _ _ _ fun u hu => ?_
  have ha := hu (by decide) (by decide)
  split
  · exact Moves.refl u
  split_ifs
  all_goals try exact Moves.refl u
  exact u.countAttempt_moves.trans (State.derive_moves _ ha.1 (by exact ha.provisioned ⟨rfl, rfl, rfl⟩) rfl)

theorem execEnroll_moves (tag : Byte) (body : Bytes) (s : State) : s.Runs (execEnroll tag body s) := by
  refine request_moves _ _ _ _ _ fun u hu => ?_
  have ha := hu (by decide) (by decide)
  split
  · exact Moves.refl u
  split_ifs
  all_goals try exact Moves.refl u
  split
  · exact Moves.refl u
  · exact u.derive_moves _ ha.1 (by exact ha.provisioned ⟨rfl, rfl, rfl⟩) rfl

/-- R33, R34: a slot record is committed. -/
theorem State.commitSlot_moves (k : Fin 8) (x : Slot) (s : State) : Moves s (s.commitSlot k x) :=
  Move.moves <| Move.record [.credentials] { s with cred := s.cred.setSlot k x } rfl ⟨id, id⟩ (.inl rfl) rfl

theorem manageSlot_moves (body : Bytes) (givesAccess : Bool) (states : List SlotState) (act : Fin 8 → State → State)
    (s : State) (h : ∀ k u, Moves u (act k u)) : Moves s (manageSlot body givesAccess states act s).state := by
  unfold manageSlot
  split
  · exact Moves.refl s
  split_ifs
  all_goals try exact Moves.refl s
  exact h _ s

theorem execRemove_moves (tag : Byte) (body : Bytes) (s : State) : s.Runs (execRemove tag body s) :=
  request_moves _ _ _ _ _ fun u _ =>
    manageSlot_moves _ _ _ _ u fun k u => (u.commitSlot_moves k .none).trans (Moves.of_bare rfl)

theorem execSuspendSlot_moves (tag : Byte) (body : Bytes) (s : State) : s.Runs (execSuspendSlot tag body s) :=
  request_moves _ _ _ _ _ fun u _ =>
    manageSlot_moves _ _ _ _ u fun k u => (u.commitSlot_moves k _).trans (Moves.of_bare rfl)

theorem execRestoreSlot_moves (tag : Byte) (body : Bytes) (s : State) : s.Runs (execRestoreSlot tag body s) :=
  request_moves _ _ _ _ _ fun u _ => manageSlot_moves _ _ _ _ u fun k u => u.commitSlot_moves k _

theorem execChangeSecret_moves (tag : Byte) (body : Bytes) (s : State) : s.Runs (execChangeSecret tag body s) := by
  refine request_moves _ _ _ _ _ fun u hu => ?_
  have ha := hu (by decide) (by decide)
  have hlife := ha.provisioned ⟨rfl, rfl, rfl⟩
  split
  · exact Moves.refl u
  split
  · exact Moves.refl u
  split
  · split
    · exact Moves.refl u
    · exact u.countAttempt_moves.trans (State.derive_moves _ ha.1 (by exact hlife) rfl)
  split
  · exact Moves.refl u
  · exact u.derive_moves _ ha.1 (by exact hlife) rfl

/-! ### Ranges and gates -/

theorem execDraftRange_moves (tag : Byte) (body : Bytes) (s : State) : s.Runs (execDraftRange tag body s) := by
  refine request_moves _ _ _ _ _ fun u _ => ?_
  split
  · exact Moves.refl u
  split
  · exact Moves.refl u
  split
  · exact Moves.refl u
  · exact Moves.of_bare rfl

/-- R46: the start of the LAYOUT operation changes nothing that a law speaks of. -/
theorem State.startLayout_bare (kind : OpKind) (s : State) : (s.startLayout kind).bare = s.bare := by
  unfold State.startLayout
  split <;> rfl

theorem startOrDone_moves (s : State) : Moves s (startOrDone s).state := by
  unfold startOrDone
  split
  · exact Moves.of_bare (s.startLayout_bare _)
  · exact Moves.refl s

/-- R45: a closing of changed ranges. -/
theorem State.closes_closeChanged (draft : Vector Editable 16) (s : State) :
    s.Closes (closeChanged draft s.layout s.gates) s.shadow := by
  refine State.closes_of_forall (fun k => ?_) (.inr rfl)
  unfold closeChanged
  by_cases h : rangeChanged draft s.layout.edits k
  · exact .inl (by simp [h])
  · exact .inr (by simp [h])

theorem State.applyLayout_moves (draft : Vector Editable 16) (s : State) : Moves s (s.applyLayout draft) :=
  (State.commit_moves (s := s) [.layout] (u := { s with layout := applyDraft draft s.layout, draft := none }) rfl).tail
    (Move.desired _ _ (.inr (s.closes_closeChanged draft)) rfl)

theorem execApplyLayout_moves (tag : Byte) (body : Bytes) (s : State) : s.Runs (execApplyLayout tag body s) := by
  refine request_moves _ _ _ _ _ fun u _ => ?_
  split_ifs
  all_goals try exact Moves.refl u
  split
  · exact startOrDone_moves u
  split
  · exact Moves.refl u
  · exact (u.applyLayout_moves _).trans (startOrDone_moves _)

theorem State.rekeyRange_moves (k : Fin 16) (s : State) : Moves s (s.rekeyRange k) :=
  (State.commit_moves (s := s) [.layout]
    (u := { s with layout := { s.layout with
      ranges := s.layout.ranges.set k { s.layout.ranges[k] with rekeyPending := true } } }) rfl).tail
    (Move.desired _ _ (.inr (s.closes_gatesWith k)) rfl)

theorem execRekey_moves (tag : Byte) (body : Bytes) (s : State) : s.Runs (execRekey tag body s) := by
  refine request_moves _ _ _ _ _ fun u _ => ?_
  split
  · exact Moves.refl u
  split_ifs
  all_goals try exact Moves.refl u
  exact (u.rekeyRange_moves _).trans (Moves.of_bare (State.startLayout_bare _ _))

/-- R48: a change of desired states. -/
theorem State.changeDesired_moves {g : Vector Gates 16} {v : View} (s : State)
    (h : s.restricted = false ∨ s.Closes g v) : Moves s (s.changeDesired g v) := Move.moves <| Move.desired g v h rfl

/-- R68: in PROVISIONED, CALM and ALERT restrict nothing. -/
theorem State.restricted_of_open {s : State} (hl : s.life.lifecycle = .provisioned) (h : s.evid.stage.open_ = true) :
    s.restricted = false := by
  unfold State.restricted
  cases hs : s.evid.stage <;> rw [hs] at h <;> first | (rw [hl]; rfl) | cases h

theorem execUnlock_moves (tag : Byte) (body : Bytes) (s : State) : s.Runs (execUnlock tag body s) := by
  refine request_moves _ _ _ _ _ fun u hu => ?_
  have hlife := (hu (by decide) (by decide)).provisioned ⟨rfl, rfl, rfl⟩
  split
  · exact Moves.refl u
  split
  · exact Moves.refl u
  split
  · exact Moves.refl u
  next hopen =>
  split
  · exact Moves.refl u
  · have hfree := State.restricted_of_open hlife (by simpa using hopen)
    dsimp only
    exact u.changeDesired_moves (.inl hfree)

/-- R50: LOCK opens no gate. -/
theorem State.closes_closeNamed (b : GateBody) (s : State) : s.Closes (closeNamed b s.gates) s.shadow := by
  refine ⟨fun k => ?_, .inr rfl⟩
  unfold closeNamed Gates.exceed
  by_cases h : b.ranges.getLsbD k.val
  · simp only [Fin.getElem_fin, Vector.getElem_ofFn, h, if_true]
    cases s.gates[k.val].read <;> cases s.gates[k.val].write <;> simp
  · simp only [Fin.getElem_fin, Vector.getElem_ofFn, h]
    simp

theorem execLock_moves (tag : Byte) (body : Bytes) (s : State) : s.Runs (execLock tag body s) := by
  refine request_moves _ _ _ _ _ fun u _ => ?_
  split
  · exact Moves.refl u
  · dsimp only
    exact u.changeDesired_moves (.inr (u.closes_closeNamed _))

theorem execLockAll_moves (tag : Byte) (body : Bytes) (s : State) : s.Runs (execLockAll tag body s) := by
  refine request_moves _ _ _ _ _ fun u _ => ?_
  split
  · exact Moves.refl u
  · exact (Moves.of_bare (s := u) (t := { u with verified := 0 }) rfl).trans (State.closeAll_withdraws _).1

theorem execPrebootDone_moves (tag : Byte) (body : Bytes) (s : State) : s.Runs (execPrebootDone tag body s) := by
  refine request_moves _ _ _ _ _ fun u hu => ?_
  have hlife := (hu (by decide) (by decide)).provisioned ⟨rfl, rfl, rfl⟩
  split
  · exact Moves.refl u
  split
  · exact Moves.refl u
  next hopen =>
  split
  · exact Moves.refl u
  · have hfree := State.restricted_of_open hlife (by simpa using hopen)
    dsimp only
    exact u.changeDesired_moves (.inl hfree)

/-! ### Policy, score, platform and suspend -/

/-- R86, R89, R92, R116: the watches and counts under a new policy change nothing that a law speaks of. -/
theorem State.beaconPolicy_bare (old : Settings) (s : State) : (s.beaconPolicy old).bare = s.bare := by
  unfold State.beaconPolicy
  dsimp only
  split <;> split_ifs <;> rfl

theorem State.tamperPolicy_bare (old : Settings) (s : State) : (s.tamperPolicy old).bare = s.bare := by
  unfold State.tamperPolicy
  dsimp only
  split_ifs <;> rfl

theorem State.dormancyPolicy_bare (old : Settings) (s : State) : (s.dormancyPolicy old).bare = s.bare := by
  unfold State.dormancyPolicy
  split <;> rfl

theorem State.decayPolicy_bare (old : Settings) (s : State) : (s.decayPolicy old).bare = s.bare := by
  unfold State.decayPolicy
  split <;> rfl

/-- R59: a changed L hands slot 16 on. -/
theorem State.shadowPolicy_moves (old : Settings) (s : State) : Moves s (s.shadowPolicy old) := by
  unfold State.shadowPolicy
  split
  · exact Moves.refl s
  · exact Move.moves <| Move.handOn shadowSlot rfl

/-- The lifecycle record is among the fields that the laws speak of. -/
theorem State.life_of_bare {s t : State} (h : t.bare = s.bare) : t.life = s.life := by
  have hlife : t.bare.life = s.bare.life := congrArg (fun x : State => x.life) h
  exact hlife

/-- R115: a taken SET_POLICY. -/
theorem State.setPolicy_moves (c : Settings) (s : State) (hc : 0 < c.p) (hl : s.life.lifecycle ≠ .disabled) :
    Moves s (s.setPolicy c) := by
  unfold State.setPolicy
  dsimp only
  set u := s.writeSettings c with hu
  have hwatch :
      ((((u.beaconPolicy s.settings).tamperPolicy s.settings).dormancyPolicy s.settings).decayPolicy s.settings).bare
        = u.bare :=
    (State.decayPolicy_bare _ _).trans <| (State.dormancyPolicy_bare _ _).trans <|
      (State.tamperPolicy_bare _ _).trans (State.beaconPolicy_bare _ _)
  generalize (((u.beaconPolicy s.settings).tamperPolicy s.settings).dormancyPolicy s.settings).decayPolicy s.settings
    = v at hwatch ⊢
  have hlife : (v.shadowPolicy s.settings).life.lifecycle ≠ .disabled := by
    have hv : (v.shadowPolicy s.settings).life = v.life := by
      unfold State.shadowPolicy
      split
      · rfl
      · obtain ⟨q, f, h⟩ := v.handOn_form shadowSlot
        rw [h]
    rw [hv, State.life_of_bare hwatch]
    exact hl
  have hwrite : Moves s u := Move.moves <| Move.settings c hc rfl
  exact ((hwrite.trans (Moves.of_bare hwatch)).trans (v.shadowPolicy_moves s.settings)).trans
    (State.reevaluate_moves _ (.inl hlife))

/-- R115: the pass count of a policy body that is taken is not 0. -/
theorem readPolicyBody_pos {body : Bytes} {c : Settings} (h : readPolicyBody body = some c) : 0 < c.p := by
  unfold readPolicyBody at h
  dsimp only at h
  split_ifs at h
  cases h
  exact Nat.lt_of_lt_of_le Nat.zero_lt_one (le_max_left _ _)

theorem execSetPolicy_moves (tag : Byte) (body : Bytes) (s : State) : s.Runs (execSetPolicy tag body s) := by
  refine request_moves _ _ _ _ _ fun u hu => ?_
  have hlife := (hu (by decide) (by decide)).not_disabled rfl
  split
  · exact Moves.refl u
  split
  · exact Moves.refl u
  split
  · exact Moves.refl u
  next c hc =>
  dsimp only
  split
  · exact Moves.refl u
  · exact u.setPolicy_moves c (readPolicyBody_pos hc) hlife

/-- R114. -/
theorem State.standDown_moves (s : State) : Moves s s.standDown :=
  Move.moves <| Move.record [.evidence]
    { s with evid := Evidence.append s.seconds .standDown 0 0 .calm { s.evid with score := 0, stage := .calm } } rfl
    ⟨fun h => Evidence.append_bounded (h.withScore (Nat.zero_le _) _) _ _ _ _ _, id⟩ (.inr (.inl rfl)) rfl

theorem execStandDown_moves (tag : Byte) (body : Bytes) (s : State) : s.Runs (execStandDown tag body s) := by
  refine request_moves _ _ _ _ _ fun u _ => ?_
  split_ifs
  all_goals try exact Moves.refl u
  exact u.standDown_moves

/-- R93. -/
theorem State.bindPlatform_moves (token : Option Bytes) (s : State) : Moves s (s.bindPlatform token) :=
  (State.commit_moves (s := s) [.binding] (u := { s with binding := token }) rfl).trans (Moves.of_bare rfl)

theorem execBindPlatform_moves (tag : Byte) (body : Bytes) (s : State) : s.Runs (execBindPlatform tag body s) := by
  refine request_moves _ _ _ _ _ fun u _ => ?_
  split
  · exact Moves.refl u
  split
  · exact Moves.refl u
  split
  · exact Moves.refl u
  · exact u.bindPlatform_moves _

/-- R94, R95. -/
theorem State.raiseForeign_moves (s : State) : Moves s s.raiseForeign :=
  (Moves.of_bare (s := s) (t := { s with window := .foreign }) rfl).trans (State.senseEvent_moves _ _ _ _)

/-- R95. -/
theorem State.settleReport_moves (token : Bytes) (s : State) : Moves s (s.settleReport token) := by
  unfold State.settleReport
  split
  · split
    · exact Moves.of_bare rfl
    · exact s.raiseForeign_moves
  all_goals exact Moves.refl s

theorem execPlatformReport_moves (tag : Byte) (body : Bytes) (s : State) : s.Runs (execPlatformReport tag body s) := by
  refine request_moves _ _ _ _ _ fun u _ => ?_
  split
  · exact Moves.refl u
  · exact u.settleReport_moves body

/-- R147. -/
theorem State.takeSuspend_moves (hold : Nat) (s : State) (hm : s.mode = .active) (hs : s.evid.stage = .calm)
    (hr : s.restricted = false) : Moves s (s.takeSuspend hold) := by
  have hintent : Moves s { s with intent := some ⟨hold, s.now + Config.intentLife⟩ } :=
    Move.moves <| Move.intend _ hm hs hr rfl
  exact hintent.tail (Move.desired _ _ (.inr (State.closes_closeLockOn _ _ _ (.inr rfl))) rfl)

theorem execSuspend_moves (tag : Byte) (body : Bytes) (s : State) : s.Runs (execSuspend tag body s) := by
  refine request_moves _ _ _ _ _ fun u hu => ?_
  have ha := hu (by decide) (by decide)
  split
  · exact Moves.refl u
  split
  · exact Moves.refl u
  next hcalm =>
  have hstage : u.evid.stage = .calm := by simpa using hcalm
  split
  · have hfree := State.restricted_of_open (ha.provisioned ⟨rfl, rfl, rfl⟩) (by rw [hstage]; rfl)
    dsimp only
    exact u.takeSuspend_moves _ ha.1 hstage hfree
  · exact Moves.refl u

end Sys2Proof.Machine
end

