-- ==== Sys2Proof/Proofs/MovesOfEvents.lean ====
section
/-! Every event of the part and its lines as moves, but for the entries to OFF, the loss of VMAIN and the power-ons. -/

namespace Sys2Proof.Machine

/-! ### Fields that agree -/

/-- States that agree in what the laws speak of hold the same derivation. -/
theorem State.derivation_of_bare {s t : State} (h : t.bare = s.bare) : t.derivation = s.derivation := by
  have hd : t.bare.derivation = s.bare.derivation := congrArg (fun x : State => x.derivation) h
  exact hd

/-- They hold the same job. -/
theorem State.job_of_bare {s t : State} (h : t.bare = s.bare) : t.job = s.job := by
  have hj : t.bare.job = s.bare.job := congrArg (fun x : State => x.job) h
  exact hj

/-- They hold the same transfer. -/
theorem State.inFlight_of_bare {s t : State} (h : t.bare = s.bare) : t.inFlight = s.inFlight := by
  have hf : t.bare.inFlight = s.bare.inFlight := congrArg (fun x : State => x.inFlight) h
  exact hf

/-- They hold KPURGE alike. -/
theorem State.kpurge_of_bare {s t : State} (h : t.bare = s.bare) : t.kpurge = s.kpurge := by
  have hk : t.bare.kpurge = s.bare.kpurge := congrArg (fun x : State => x.kpurge) h
  exact hk

/-- They hold the same reservoir wait. -/
theorem State.reservoirWait_of_bare {s t : State} (h : t.bare = s.bare) : t.reservoirWait = s.reservoirWait := by
  have hw : t.bare.reservoirWait = s.bare.reservoirWait := congrArg (fun x : State => x.reservoirWait) h
  exact hw

/-- They hold the same grants. -/
theorem State.grants_of_bare {s t : State} (h : t.bare = s.bare) : t.grants = s.grants := by
  have hg : t.bare.grants = s.bare.grants := congrArg (fun x : State => x.grants) h
  exact hg

/-- Moves from a state that agrees with `s` in what the laws speak of. -/
theorem Moves.of_bare_left {s t u : State} (h : Moves t u) (hb : t.bare = s.bare) : Moves s u :=
  (Moves.of_bare hb).trans h

/-! ### Derivations -/

/-- R4: what the provisioning commit writes. -/
theorem State.provisionCommit_form (capacity : Nat) (wipeCode : Bytes) (d : Derivation) (s : State) :
    ∃ u : State,
      State.provisionCommit capacity wipeCode d { s with derivation := none }
          = u.commit [.lifecycle, .cells, .credentials, .layout, .evidence]
        ∧ u.bare = State.bare
          { s with life := ⟨.provisioned, none⟩, evid := .factory, cred := u.cred, derivation := none }
        ∧ u.evid = .factory ∧ u.cred.failures = 0 :=
  ⟨_, rfl, rfl, rfl, rfl⟩

/-- R4: the completion of PROVISION. -/
theorem execProvisionComplete_moves (s : State) : s.Runs (execProvisionComplete s) := by
  refine s.event_moves _ fun u => ?_
  split
  · exact Moves.refl u
  next d hd =>
  split
  case h_1 capacity wipeCode hwork =>
    refine u.atMoment_moves _ _ fun v hv => ?_
    obtain ⟨w, hw, hbare, hevid, hcred⟩ := v.provisionCommit_form capacity wipeCode d
    have hcommit : Moves v (State.provisionCommit capacity wipeCode d { v with derivation := none }) := by
      rw [hw]
      refine Move.moves <| Move.provision _ w ⟨d, (State.derivation_of_bare hv).trans hd, by rw [hwork]; rfl⟩ hbare
        ⟨fun _ => ?_, fun _ => ?_⟩ rfl
      · rw [hevid]; exact Evidence.factory_bounded
      · rw [hcred]; exact Nat.zero_le _
    exact hcommit.trans (Moves.of_bare (State.startLayout_bare _ _))
  all_goals exact Moves.refl u

/-- R36: a correct secret settles the attempt. -/
theorem State.clearFailures_moves (sets : List SetId) (e : Evidence) (s : State)
    (hb : s.evid.Bounded → e.Bounded) (hs : e.stage = s.evid.stage ∨ e.stage = .calm) :
    Moves s (State.commit sets { s.clearFailures with evid := e }) :=
  Move.moves <| Move.record sets { s.clearFailures with evid := e } rfl ⟨hb, fun _ => Nat.zero_le _⟩
    (hs.imp_right .inl) rfl

/-- R23: the success of a VERIFY. -/
theorem State.verifySuccess_moves (k : Fin 8) (s : State) : Moves s (s.verifySuccess k) := by
  have hverify : ∀ (u : State) (o : OpOutcome), Moves u ((u.verifySlot k).endCred o) := fun u o => by
    refine Moves.of_bare ?_
    unfold State.verifySlot
    dsimp only
    split <;> rfl
  have hopen : ∀ sets : List SetId, Moves s (((State.commit sets { s.clearFailures with
      evid := s.clearFailures.evid.relieve s.clearFailures.settings s.clearFailures.seconds
        (s.clearFailures.reliefFraction k) }).verifySlot k).endCred .accepted) := fun sets =>
    (s.clearFailures_moves sets (s.evid.relieve s.settings s.seconds (s.reliefFraction k))
      (fun h => Evidence.relieve_bounded h _ _ _) (Evidence.relieve_stage _ _ _ _)).trans (hverify _ _)
  have hshut : Moves s (s.clearFailures.commit [.credentials]) :=
    s.clearFailures_moves [.credentials] s.evid id (.inl rfl)
  unfold State.verifySuccess
  dsimp only
  split
  · exact hopen _
  · exact hopen _
  all_goals
    split
    · exact hshut.trans (hverify _ _)
    · exact hshut.trans (Moves.of_bare rfl)

/-- R19: a derivation ends. -/
theorem State.endDerivation_moves (s : State) : Moves s { s with derivation := none } :=
  Move.moves <| Move.abandon rfl

/-- R24: a wrong secret. -/
theorem State.wrongSecret_moves (s : State) :
    Moves s (State.endCred .wrongSecret (State.failureResolution { s with derivation := none })) :=
  (s.endDerivation_moves.trans (State.failureResolution_moves _)).trans (Moves.of_bare rfl)

/-- R23, R24: the completion of VERIFY. -/
theorem execVerifyComplete_moves (s : State) : s.Runs (execVerifyComplete s) := by
  refine s.event_moves _ fun u => ?_
  split
  · exact Moves.refl u
  split
  · refine u.atMoment_moves _ _ fun v _ => ?_
    dsimp only
    split
    · exact v.endDerivation_moves.trans (State.verifySuccess_moves _ _)
    · exact v.wrongSecret_moves
  all_goals exact Moves.refl u

/-- R32, R36: a new verifier is committed. -/
theorem State.commitVerifier_moves (cells : Vector Cell 26) (k : Fin 8) (x : Slot) (s : State) :
    Moves s (State.endCred .accepted
      (State.commit [.cells, .credentials]
        { s with derivation := none, cells := cells, cred := s.cred.setSlot k x })) := by
  have h : Moves { s with derivation := none } (State.commit [.cells, .credentials]
      { s with derivation := none, cells := cells, cred := s.cred.setSlot k x }) :=
    Move.moves <| Move.record [.cells, .credentials]
      { s with derivation := none, cells := cells, cred := s.cred.setSlot k x } rfl ⟨id, id⟩ (.inl rfl) rfl
  exact (s.endDerivation_moves.trans h).trans (Moves.of_bare rfl)

/-- R32: the completion of ENROLL. -/
theorem execEnrollComplete_moves (s : State) : s.Runs (execEnrollComplete s) := by
  refine s.event_moves _ fun u => ?_
  split
  · exact Moves.refl u
  split
  case h_1 =>
    refine u.atMoment_moves _ _ fun v _ => ?_
    dsimp only
    split
    · exact Move.moves <| Move.abandon rfl
    · exact v.commitVerifier_moves _ _ _
  all_goals exact Moves.refl u

/-- R36: the completion of the first derivation of CHANGE_SECRET. -/
theorem execChangeOldComplete_moves (s : State) : s.Runs (execChangeOldComplete s) := by
  refine s.event_moves _ fun u => ?_
  split
  · exact Moves.refl u
  next d hd =>
  split
  case h_1 new hwork =>
    refine u.atMoment_moves _ _ fun v hv => ?_
    have hsettled : Moves v (v.clearFailures.commit [.credentials]) :=
      v.clearFailures_moves [.credentials] v.evid id (.inl rfl)
    dsimp only
    split
    · split
      · exact hsettled.trans (Move.moves <| Move.abandon rfl)
      · refine hsettled.trans (Move.moves <|
          Move.derive ⟨.changeNew true, d.slot, _, new, _⟩ (.inr ⟨d, ?_, by rw [hwork]; rfl⟩) rfl)
        exact (State.derivation_of_bare hv).trans hd
    · exact v.wrongSecret_moves
  all_goals exact Moves.refl u

/-- R36: the completion of the second. -/
theorem execChangeNewComplete_moves (s : State) : s.Runs (execChangeNewComplete s) := by
  refine s.event_moves _ fun u => ?_
  split
  · exact Moves.refl u
  split
  case h_1 =>
    refine u.atMoment_moves _ _ fun v _ => ?_
    dsimp only
    split
    · exact Move.moves <| Move.abandon rfl
    · exact v.commitVerifier_moves _ _ _
  all_goals exact Moves.refl u

theorem execBackoffDeadline_moves (s : State) : s.Runs (execBackoffDeadline s) := by
  refine s.event_moves _ fun u => ?_
  split
  · exact Moves.refl u
  split
  · exact Moves.refl u
  · exact u.atMoment_moves _ _ fun v _ => Moves.refl v

/-! ### The key link -/

/-- R65: what SYNC_COMPARE asks of the link. -/
theorem State.linkFree_of_syncReady {s : State} (h : s.syncReady = true) : s.LinkFree := by
  simp only [State.syncReady, Bool.and_eq_true, beq_iff_eq, bne_iff_ne, Option.isNone_iff_eq_none] at h
  obtain ⟨⟨⟨⟨⟨hm, hf⟩, hk⟩, hr⟩, hl⟩, -⟩ := h
  exact ⟨hm, hf, hk, hr, hl⟩

theorem execSyncCompare_moves (s : State) : s.Runs (execSyncCompare s) := by
  refine s.event_moves _ fun u => ?_
  split
  · exact Moves.refl u
  next j rest hq =>
  split
  · next h => exact u.compareSlot_moves j rest hq (State.linkFree_of_syncReady h)
  · exact Moves.refl u

theorem execKlAck_moves (klRes : Bool) (s : State) : s.Runs (execKlAck klRes s) := by
  refine s.event_moves _ fun u => ?_
  split
  · exact Moves.refl u
  next f hf =>
  split
  · exact Moves.refl u
  next h =>
  obtain ⟨hm, hk⟩ := not_or.1 h
  split
  · exact Move.moves <| Move.accept f hf (not_not.1 hm) (by simpa using hk) rfl
  · exact u.linkFault_moves (by rw [hf]; rfl)

theorem execAckTimeout_moves (s : State) : s.Runs (execAckTimeout s) := by
  refine s.event_moves _ fun u => u.atMoment?_moves _ _ fun h v hv => ?_
  refine v.linkFault_moves ?_
  rw [State.inFlight_of_bare hv]
  simpa using h

theorem execKpurgeFall_moves (s : State) : s.Runs (execKpurgeFall s) := by
  refine s.event_moves _ fun u => u.atMoment?_moves _ _ fun h v hv => ?_
  refine Move.moves <| Move.pulseEnd ?_ rfl
  rw [State.kpurge_of_bare hv]
  simpa using h

/-! ### The watches -/

theorem execPresRisingEdge_moves (s : State) : s.Runs (execPresRisingEdge s) := by
  refine s.event_moves _ fun u => ?_
  split
  · exact Moves.refl u
  · split <;> exact Moves.of_bare rfl

theorem execPresFallingChange_moves (level : Bool) (s : State) : s.Runs (execPresFallingChange level s) := by
  refine s.event_moves _ fun u => ?_
  split
  · exact Moves.refl u
  · split <;> exact Moves.of_bare rfl

theorem execBeaconLost_moves (dropFirst : Bool) (s : State) : s.Runs (execBeaconLost dropFirst s) := by
  refine s.event_moves _ fun u => ?_
  split
  · exact Moves.refl u
  · exact u.atMoment_moves _ _ fun v _ =>
      (State.theftEvent_moves _ _ _ _ dropFirst _).of_bare_left rfl

theorem execTampChange_moves (isOpen : Bool) (s : State) : s.Runs (execTampChange isOpen s) :=
  s.event_moves _ fun u => Moves.of_bare (State.readTamp_bare { u with tampOpen := isOpen })

theorem execTamperDeglitchEnd_moves (dropFirst : Bool) (s : State) : s.Runs (execTamperDeglitchEnd dropFirst s) := by
  refine s.event_moves _ fun u => u.atMoment?_moves _ _ fun _ v _ => ?_
  unfold State.tamperTimed
  split
  · exact (State.theftEvent_moves _ _ _ _ dropFirst _).of_bare_left rfl
  all_goals exact Moves.of_bare rfl

theorem execDormant_moves (s : State) : s.Runs (execDormant s) :=
  s.event_moves _ fun u => u.atMoment?_moves _ _ fun _ _ _ =>
    (State.senseEvent_moves _ _ _ _).of_bare_left rfl

theorem execReportWindowDeadline_moves (s : State) : s.Runs (execReportWindowDeadline s) :=
  s.event_moves _ fun u => u.atMoment?_moves _ _ fun _ v _ => v.raiseForeign_moves

/-- R112. -/
theorem State.decay_moves (s : State) : Moves s s.decay := by
  unfold State.decay
  dsimp only
  split
  · exact Moves.refl s
  · refine Move.moves <| Move.record [.evidence]
      { s with
        evid := Evidence.fall s.settings s.seconds
          { s.evid with score := s.evid.score - min s.evid.score s.settings.d } } rfl
      ⟨fun h => ?_, id⟩ ?_ rfl
    · exact Evidence.fall_bounded (h.withScore (le_trans (Nat.sub_le _ _) h.1) _) _ _
    · exact (Evidence.fall_stage s.settings s.seconds
        { s.evid with score := s.evid.score - min s.evid.score s.settings.d }).imp_right .inl

theorem execDecayTick_moves (s : State) : s.Runs (execDecayTick s) :=
  s.event_moves _ fun u => u.atMoment?_moves _ _ fun _ _ _ =>
    (State.decay_moves _).of_bare_left rfl

/-! ### Cell jobs -/

theorem execArbiterGrant_moves (s : State) : s.Runs (execArbiterGrant s) := by
  refine s.event_moves _ fun u => u.finishWrite_moves.trans ?_
  dsimp only
  split
  · exact State.grantJob_moves _
  · exact Moves.refl _

/-- R121: a job whose step is replaced by one that its counts allow. -/
theorem State.mayWork_of_phase {s : State} {j : Job} (hj : s.job = some j) (p : Phase)
    (hp : j.Lawful → Job.Lawful { j with phase := p }) : s.MayWork { j with phase := p } :=
  ⟨fun ho => .inr ⟨j, hj, ho⟩, fun _ hl => hp (hl j hj)⟩

/-- R121: what is cut short waits. -/
theorem Job.cutShort_lawful {j : Job} (h : j.Lawful) : Job.Lawful { j with phase := j.phase.cutShort } := by
  obtain ⟨h1, h2, h3, h4, -, -, h7⟩ := h
  refine ⟨h1, h2, h3, h4, ?_, ?_, fun c hc => ?_⟩
  · intro _ _ _ hp; cases hj : j.phase <;> simp [Phase.cutShort, hj] at hp
  · intro _ hp; cases hj : j.phase <;> simp [Phase.cutShort, hj] at hp
  · refine h7 c ?_
    cases hj : j.phase <;> simp_all [Phase.cutShort]

theorem execResReadyFall_moves (s : State) : s.Runs (execResReadyFall s) := by
  refine s.event_moves _ fun u => Move.moves <| Move.job _ (fun i hi => ?_) rfl
  obtain ⟨j, hj, rfl⟩ := Option.map_eq_some_iff.1 hi
  exact State.mayWork_of_phase hj _ Job.cutShort_lawful

theorem execDriverAnswer_moves (s : State) : s.Runs (execDriverAnswer s) := by
  refine s.event_moves _ fun u => ?_
  split
  · exact Moves.refl u
  next j hj =>
  split
  case h_1 start answered stuck hphase =>
    split
    · exact Moves.refl u
    · refine Move.moves <| Move.job _ (fun i hi => ?_) rfl
      cases hi
      refine State.mayWork_of_phase hj _ fun hl => ?_
      obtain ⟨h1, h2, h3, h4, h5, -⟩ := hl
      exact ⟨h1, h2, h3, h4, fun _ _ _ hp => ⟨(h5 _ _ _ hphase).1, by cases hp; simp⟩, by simp, by simp⟩
  all_goals exact Moves.refl u

theorem execPassStuck_moves (s : State) : s.Runs (execPassStuck s) := by
  refine s.event_moves _ fun u => ?_
  split
  · exact Moves.refl u
  next j hj =>
  split
  case h_1 start hphase =>
    exact u.atMoment_moves _ _ fun v hv => v.judgeStuck_moves j start ((State.job_of_bare hv).trans hj) hphase
  all_goals exact Moves.refl u

/-- R122: the counts after a pass. -/
theorem Job.passed_lawful {j : Job} (h : j.Lawful) {start : Micros} {answered stuck : Bool}
    (hp : j.phase = .pass start answered stuck) :
    ((j.passed answered stuck).round = 1 ∨ (j.passed answered stuck).round = 2)
      ∧ (j.passed answered stuck).stuckRun < 3 ∧ (j.passed answered stuck).good ≤ (j.passed answered stuck).p
      ∧ 0 < (j.passed answered stuck).p := by
  obtain ⟨h1, h2, h3, h4, h5, -⟩ := h
  have hbelow := (h5 _ _ _ hp).1
  unfold Job.passed
  split
  · exact ⟨h1, Nat.zero_lt_succ 2, hbelow, h4⟩
  · exact ⟨h1, h2, h3, h4⟩

/-- R122: a pass keeps the owner. -/
theorem Job.passed_owner (j : Job) (answered stuck : Bool) : (j.passed answered stuck).owner = j.owner := by
  unfold Job.passed
  split <;> rfl

theorem execPassEnd_moves (s : State) : s.Runs (execPassEnd s) := by
  refine s.event_moves _ fun u => ?_
  split
  · exact Moves.refl u
  next j hj =>
  split
  case h_1 start answered stuck hphase =>
    split
    · refine u.atMoment_moves _ _ fun v hv => ?_
      have hjob : v.job = some j := (State.job_of_bare hv).trans hj
      exact v.waitForStep_moves _ (fun ho => .inr ⟨j, hjob, (j.passed_owner _ _).symm.trans ho⟩)
        fun _ hl => Job.passed_lawful (hl j hjob) hphase
    · exact Moves.refl u
  all_goals exact Moves.refl u

theorem execVerifyResult_moves (reading : VerifyReading) (s : State) : s.Runs (execVerifyResult reading s) := by
  refine s.event_moves _ fun u => ?_
  split
  · exact Moves.refl u
  next j hj =>
  split
  case h_1 =>
    exact u.atMoment_moves _ _ fun v hv => v.verifyJob_moves j reading ((State.job_of_bare hv).trans hj)
  all_goals exact Moves.refl u

/-! ### The reservoir, expiries and RST_N -/

theorem execResReadyRise_moves (s : State) : s.Runs (execResReadyRise s) := by
  refine s.event_moves _ fun u => ?_
  dsimp only
  split
  · exact Moves.refl u
  have hjob : Moves u (match u.job with
      | none => { u with resReady := true }
      | some j => if j.phase = .waiting then State.waitForStep j { u with resReady := true }
        else { u with resReady := true }) := by
    refine (Moves.of_bare (s := u) (t := { u with resReady := true }) rfl).trans ?_
    split
    · exact Moves.refl _
    next j hj =>
    split
    · refine State.waitForStep_moves _ _ (fun ho => .inr ⟨j, hj, ho⟩) fun _ hl => ?_
      obtain ⟨h1, h2, h3, h4, -⟩ := hl j hj
      exact ⟨h1, h2, h3, h4⟩
    · exact Moves.refl _
  split
  · next h => exact hjob.trans (State.endStarting_moves _ (.inr h.2))
  · exact hjob

theorem execReservoirTimeout_moves (s : State) : s.Runs (execReservoirTimeout s) := by
  refine s.event_moves _ fun u => u.atMoment?_moves _ _ fun h v hv => ?_
  refine (Moves.of_bare (s := v) (t := v.latch .reservoirShort) rfl).trans (State.endStarting_moves _ (.inr ?_))
  change v.reservoirWait.isSome = true
  rw [State.reservoirWait_of_bare hv]
  simpa using h

theorem execIntentExpiry_moves (s : State) : s.Runs (execIntentExpiry s) :=
  s.event_moves _ fun u => u.atMoment?_moves _ _ fun _ v _ =>
    Move.moves <| Move.withdraw v.grants none (List.Sublist.refl _) (.inl rfl) rfl

theorem execGrantExpiry_moves (s : State) : s.Runs (execGrantExpiry s) := by
  refine s.event_moves _ fun u => ?_
  split
  · exact Moves.refl u
  · refine u.atMoment_moves _ _ fun v _ => ?_
    unfold State.dropExpired
    dsimp only
    split
    · exact v.dropGrants_moves .expiry
    · exact Move.moves <| Move.withdraw _ v.intent List.filter_sublist (.inr rfl) rfl

theorem execRstN_moves (s : State) : s.Runs (execRstN s) := by
  refine s.event_moves _ fun u => ?_
  dsimp only
  split
  · exact Moves.refl u
  have hlow : Moves u { u with rstLow := true } := Moves.of_bare rfl
  split
  · exact hlow.trans (State.resetEffects_moves _)
  · exact hlow

theorem execRstNRise_moves (s : State) : s.Runs (execRstNRise s) := by
  refine s.event_moves _ fun u => ?_
  split <;> exact Moves.of_bare rfl

end Sys2Proof.Machine
end

