-- ==== Sys2Proof/Proofs/MovesOfSupplies.lean ====
section
/-! The supplies: entries to OFF, the loss of VMAIN and the power-ons, each as a start that its events set and the moves
from there; and with them every step. -/

namespace Sys2Proof.Machine

/-! ### What the copies of a set hold -/

/-- Both copies of a set hold what `P` asks. -/
def TwoCopies.Both {α : Type} (P : α → Prop) (t : TwoCopies α) : Prop := ∀ i : CopyId, P (t.get i).content

section Both

variable {α : Type} {P : α → Prop} {t : TwoCopies α}

theorem TwoCopies.both_iff : t.Both P ↔ P t.a.content ∧ P t.b.content :=
  ⟨fun h => ⟨h .a, h .b⟩, fun ⟨ha, hb⟩ i => by cases i; exacts [ha, hb]⟩

theorem TwoCopies.Both.put (h : t.Both P) {c : Copy α} (hc : P c.content) (i : CopyId) : (t.put c i).Both P := by
  obtain ⟨ha, hb⟩ := TwoCopies.both_iff.1 h
  rw [TwoCopies.both_iff]
  cases i
  · exact ⟨hc, hb⟩
  · exact ⟨ha, hc⟩

/-- R1: a commit writes the new content, once or twice. -/
theorem TwoCopies.Both.write (h : t.Both P) {x : α} (hx : P x) (commits : List (SetId × BitVec 32)) :
    (t.write commits x).Both P := by
  unfold TwoCopies.write
  dsimp only
  split
  · exact TwoCopies.both_iff.2 ⟨hx, hx⟩
  · exact h.put hx _

theorem TwoCopies.Both.fail (h : t.Both P) (i : CopyId) : (t.fail i).Both P := by
  unfold TwoCopies.fail
  refine h.put ?_ i
  split <;> exact h i

theorem TwoCopies.Both.reject (h : t.Both P) : t.reject.Both P :=
  (h.fail t.first).put (c := (t.get (otherCopy t.first)).listed) (h (otherCopy t.first)) (otherCopy t.first)

theorem TwoCopies.Both.rejectBeside (h : t.Both P) : t.rejectBeside.Both P := by
  unfold TwoCopies.rejectBeside
  split
  · exact h.reject
  · exact h.put (c := (t.get t.first).listed) (h t.first) t.first

theorem TwoCopies.Both.taken (h : t.Both P) : P t.taken := h _

/-- R1: a cut commit leaves contents from before it and after it. -/
theorem TwoCopies.Both.cutSet {after : TwoCopies α} (h : t.Both P) (ha : after.Both P) (cut : Cut)
    (sets : List SetId) (id : SetId) : (cutSet cut sets id t after).Both P := by
  have hfirst : (firstWriting cut id t after).Both P := by
    unfold firstWriting
    split
    · exact h.put (ha _) _
    split
    · exact h.put (c := (t.get t.target).broken) (h t.target) t.target
    · exact h
  have hsecond : ∀ l, (secondWriting l id t after).Both P := fun l => by
    unfold secondWriting
    split
    · exact ha.put (c := (after.get (otherCopy t.target)).broken) (ha (otherCopy t.target)) (otherCopy t.target)
    · exact ha
  unfold Machine.cutSet
  split
  · exact h
  split
  · exact hfirst
  split
  · exact hsecond _
  · exact hfirst

end Both

/-- R98, R118, R20, of the copies. -/
theorem Nvs.bounded_iff (n : Nvs) :
    n.Bounded ↔ n.evidence.Both Evidence.Bounded ∧ n.credentials.Both (fun c => c.failures ≤ 255) := by
  rw [TwoCopies.both_iff, TwoCopies.both_iff]
  unfold Nvs.Bounded
  tauto

/-- R1: a commit of bounded records keeps the bounds of the store. -/
theorem State.commit_nvs_bounded {s : State} (hn : s.nvs.Bounded) (he : s.evid.Bounded) (hc : s.cred.failures ≤ 255)
    (sets : List SetId) : (s.commit sets).nvs.Bounded := by
  rw [Nvs.bounded_iff] at hn ⊢
  obtain ⟨hevid, hcred⟩ := hn
  unfold State.commit
  dsimp only
  constructor
  · split
    · exact hevid.write he _
    · exact hevid
  · split
    · exact hcred.write hc _
    · exact hcred

/-- R1: a cut commit keeps them. -/
theorem cutWrite_bounded {image : WriteImage} {after : Nvs} (hb : image.before.Bounded) (ha : after.Bounded)
    (cut : Cut) : (cutWrite cut image after).Bounded := by
  rw [Nvs.bounded_iff] at hb ha ⊢
  unfold cutWrite
  dsimp only
  split
  · exact hb
  · exact ⟨hb.1.cutSet ha.1 _ _ _, hb.2.cutSet ha.2 _ _ _⟩

/-- R1: what a restore settles keeps them. -/
theorem Nvs.settled_bounded {n : Nvs} (h : n.Bounded) : n.settled.Bounded := by
  rw [Nvs.bounded_iff] at h ⊢
  obtain ⟨hevid, hcred⟩ := h
  unfold Nvs.settled
  dsimp only
  constructor
  · split
    · exact hevid.rejectBeside
    · exact hevid
  · split
    · exact hcred.rejectBeside
    · exact hcred

/-- What a power loss leaves of the store, from what every write of the command found and what stands. -/
theorem State.nvsAfterLoss_of {P : Nvs → Prop} {s : State} (hn : P s.nvs) (hw : ∀ w ∈ s.writeImages, P w.before)
    (hcut : ∀ (cut : Cut) (image : WriteImage) (after : Nvs), P image.before → P after → P (cutWrite cut image after))
    (cut : Option Cut) : P (s.nvsAfterLoss cut) := by
  unfold State.nvsAfterLoss
  split
  · exact hn
  next cut =>
  have hmem : ∀ w ∈ s.writeImages.drop cut.write, P w.before := fun w h => hw w (List.mem_of_mem_drop h)
  split
  · exact hn
  · next image h => exact hcut _ _ _ (hmem image (by rw [h]; exact List.mem_cons_self)) hn
  · next image later rest h =>
    exact hcut _ _ _ (hmem image (by rw [h]; exact List.mem_cons_self))
      (hmem later (by rw [h]; exact List.mem_cons_of_mem _ List.mem_cons_self))

/-! ### Power-ons -/

/-- The factory part's volatile state over a store, with the settings and records that a restore has taken so far. -/
structure State.Fresh (s u : State) : Prop where
  bare : u.bare = State.bare
    { State.reset with
      pending := s.pending, life := u.life, cred := u.cred, evid := u.evid, settings := u.settings, nvs := u.nvs
      writeImages := u.writeImages, reservoirWait := none }
  store : s.nvs.Bounded → u.nvs.Bounded ∧ ∀ w ∈ u.writeImages, w.before.Bounded
  pass : 0 < s.nvs.settings.record.p → u.PassLaw

/-- What a restore leaves before it acts: the records are those that the store gave. -/
structure State.Restored (s u : State) : Prop extends s.Fresh u where
  records : s.nvs.Bounded → u.evid.Bounded ∧ u.cred.failures ≤ 255

/-- R140: the state at the start of a power-on. -/
def State.poweredUp (vmain vaux : Bool) (d : StoreDamage) (s : State) : State :=
  { s.enterOff with
    nvs := damaged d s.nvs
    now := s.nvs.seconds * Config.second
    mode := .starting
    vmain := vmain
    vaux := vaux }

/-- R168: what a power-on finds failing its check holds the record that was written. -/
theorem damaged_record (d : StoreDamage) (n : Nvs) : (damaged d n).settings.record = n.settings.record := by
  have hbroken : ∀ r : StoredSettings, r.broken.record = r.record := fun ⟨_, _⟩ => rfl
  change (if d.settings then n.settings.broken else n.settings).record = _
  split
  · exact hbroken _
  · rfl

/-- R168: the settings restored. -/
theorem State.restoreSettings_fresh (vmain vaux : Bool) (d : StoreDamage) (s : State) :
    s.Fresh (s.poweredUp vmain vaux d).restoreSettings := by
  have hbounded : s.nvs.Bounded → (damaged d s.nvs).Bounded := id
  have hrecord := damaged_record d s.nvs
  unfold State.restoreSettings
  split
  · refine ⟨rfl, fun h => ⟨hbounded h, fun w hw => absurd hw List.not_mem_nil⟩, fun h => ?_⟩
    have hp : 0 < (damaged d s.nvs).settings.record.p := hrecord ▸ h
    exact ⟨hp, hp, fun w hw => absurd hw List.not_mem_nil⟩
  · refine ⟨rfl, fun h => ⟨hbounded h, fun w hw => ?_⟩, fun h => ?_⟩
    · have hw' : w = ⟨damaged d s.nvs, []⟩ := List.mem_singleton.1 hw
      rw [hw']; exact hbounded h
    · have hp : 0 < (damaged d s.nvs).settings.record.p := hrecord ▸ h
      have hdefaults : 0 < Settings.defaults.p := by decide
      refine ⟨hdefaults, hdefaults, fun w hw => ?_⟩
      have hw' : w = ⟨damaged d s.nvs, []⟩ := List.mem_singleton.1 hw
      rw [hw']; exact hp

/-- R140: it is in STARTING. -/
theorem State.Fresh.mode {s u : State} (h : s.Fresh u) : u.mode = .starting := by
  have hm : u.bare.mode = .starting := by rw [h.bare]; rfl
  exact hm

/-- R1: the sets restored. -/
theorem State.Fresh.restoreSets {s u : State} (h : s.Fresh u) : s.Restored u.startTamper.restoreSets where
  bare := by
    have hsets : u.startTamper.restoreSets.bare =
        { u.bare with
          life := u.startTamper.restoreSets.life
          cred := u.startTamper.restoreSets.cred
          evid := u.startTamper.restoreSets.evid
          nvs := u.startTamper.restoreSets.nvs } := rfl
    rw [hsets, h.bare]; rfl
  store hs := ⟨Nvs.settled_bounded (h.store hs).1, (h.store hs).2⟩
  pass := h.pass
  records hs := by
    have hboth := (Nvs.bounded_iff _).1 (Nvs.settled_bounded (h.store hs).1)
    exact ⟨hboth.1.taken, hboth.2.taken⟩

/-- R16: what the loss of the lifecycle record writes. -/
theorem State.lifecycleLost_form (s : State) : ∃ (r : LifecycleRecord) (e : Evidence) (l : BitVec 10),
    s.lifecycleLost = { State.commit [.lifecycle, .evidence] { s with life := r, evid := e } with latched := l }
      ∧ (s.evid.Bounded → e.Bounded) := by
  have hlatch : ∀ (r : LifecycleRecord) (e : Evidence), (s.evid.Bounded → e.Bounded) →
      ∃ (r' : LifecycleRecord) (e' : Evidence) (l : BitVec 10),
        (if s.evid.stage != .wipe then
            (State.commit [.lifecycle, .evidence] { s with life := r, evid := e }).latch .stageRise
          else State.commit [.lifecycle, .evidence] { s with life := r, evid := e })
            = { State.commit [.lifecycle, .evidence] { s with life := r', evid := e' } with latched := l }
          ∧ (s.evid.Bounded → e'.Bounded) := fun r e he => by
    split
    · exact ⟨r, e, _, rfl, he⟩
    · exact ⟨r, e, s.latched, rfl, he⟩
  have hwiping : s.evid.Bounded →
      (Evidence.append s.seconds .wipeStart 0 s.evid.score .wipe { s.evid with stage := .wipe }).Bounded :=
    fun h => Evidence.append_bounded (h.withStage _) _ _ _ _ _
  unfold State.lifecycleLost
  dsimp only
  by_cases hroot : s.cells[(0 : Fin 26)] ≠ .faulted
  · simp only [if_pos hroot]
    exact hlatch ⟨.wiping, some ⟨0, []⟩⟩ _ hwiping
  · simp only [if_neg hroot]
    by_cases hheld : anyHolding s.cells = true
    · simp only [if_pos hheld]
      exact hlatch ⟨.wiping, some ⟨1, [0]⟩⟩ _ hwiping
    · simp only [if_neg hheld]
      exact hlatch ⟨.disabled, some ⟨26, faultedCells s.cells⟩⟩ _ fun h => h.withStage .wipe

/-- R16: nor does that commit lose what a restore has taken. -/
theorem State.Restored.lifecycleLost {s u : State} (h : s.Restored u) : s.Restored u.lifecycleLost := by
  obtain ⟨r, e, l, hform, he⟩ := u.lifecycleLost_form
  rw [hform]
  set v := State.commit [.lifecycle, .evidence] { u with life := r, evid := e } with hv
  have himages : v.writeImages = u.writeImages ++ [⟨u.nvs, [.lifecycle, .evidence]⟩] := rfl
  have hmem : ∀ {P : Nvs → Prop}, P u.nvs → (∀ w ∈ u.writeImages, P w.before) → ∀ w ∈ v.writeImages, P w.before := by
    intro P hn hw w hmem
    rw [himages] at hmem
    rcases List.mem_append.1 hmem with hmem | hmem
    · exact hw w hmem
    · rw [List.mem_singleton.1 hmem]; exact hn
  refine ⟨⟨?_, fun hs => ⟨?_, ?_⟩, fun hp => ?_⟩, fun hs => ⟨?_, ?_⟩⟩
  · have hbare : ({ v with latched := l } : State).bare =
        { u.bare with life := r, evid := e, nvs := v.nvs, writeImages := v.writeImages } := rfl
    rw [hbare, h.bare]; rfl
  · exact State.commit_nvs_bounded (s := { u with life := r, evid := e }) (h.store hs).1 (he (h.records hs).1)
      (h.records hs).2 _
  · exact hmem (h.store hs).1 (h.store hs).2
  · obtain ⟨h1, h2, h3⟩ := h.pass hp
    exact ⟨h1, h2, hmem (P := fun n => 0 < n.settings.record.p) h2 h3⟩
  · exact he (h.records hs).1
  · exact (h.records hs).2

/-- R1, R16: the sets as a restore takes them, and the lifecycle record lost. -/
def State.restoreRecords (s : State) : State :=
  if s.restoreSets.nvs.lifecycle.anyGood then s.restoreSets else s.restoreSets.lifecycleLost

/-- R140: what a restore leaves before it acts. -/
theorem State.restoreRecords_restored (vmain vaux : Bool) (d : StoreDamage) (s : State) :
    s.Restored (s.poweredUp vmain vaux d).restoreSettings.startTamper.restoreRecords := by
  have h := (s.restoreSettings_fresh vmain vaux d).restoreSets
  unfold State.restoreRecords
  split
  · exact h
  · exact h.lifecycleLost

/-- R15: what a restore does. -/
theorem State.restoreActions_moves (s : State) : Moves s s.restoreActions := by
  unfold State.restoreActions
  split
  · exact Moves.refl s
  · dsimp only
    split
    · exact s.resolveMarker_moves.trans (Moves.of_bare (State.startLayout_bare _ _))
    · exact s.resolveMarker_moves
  · next hl =>
    have hclaim : Moves s s.resumeWipe := Move.moves <| Move.claim hl rfl
    exact hclaim.trans (State.resolveMarker_moves _)
  · exact Moves.refl s

/-- States that agree in what the laws speak of are in the same mode. -/
theorem State.mode_of_bare {s t : State} (h : t.bare = s.bare) : t.mode = s.mode := by
  have hm : t.bare.mode = s.bare.mode := congrArg (fun x : State => x.mode) h
  exact hm

/-- R15: a restore leaves the mode. -/
theorem State.restoreActions_mode (s : State) : s.restoreActions.mode = s.mode := by
  unfold State.restoreActions
  split
  · rfl
  · dsimp only
    split
    · rw [State.mode_of_bare (State.startLayout_bare _ _)]; exact s.resolveMarker_subsides.1
    · exact s.resolveMarker_subsides.1
  · exact (State.resolveMarker_subsides s.resumeWipe).1
  · rfl

/-- R127: a grant leaves the mode. -/
theorem State.grantIfReady_mode (s : State) : s.grantIfReady.mode = s.mode := by
  unfold State.grantIfReady State.grantJob
  split_ifs
  · split <;> rfl
  · split <;> rfl
  · rfl

theorem State.grantIfReady_moves (s : State) : Moves s s.grantIfReady := by
  unfold State.grantIfReady
  split
  · exact s.grantJob_moves
  · exact Moves.refl s

/-- R140: a power-on is a restore and moves. -/
theorem State.powerOn_moves (vmain vaux : Bool) (r : Restore) (s : State) :
    ∃ u, s.Restored u ∧ Moves u (s.powerOn vmain vaux r) := by
  have hpowerOn : s.powerOn vmain vaux r =
      (r.held.foldl State.answerHeld (s.poweredUp vmain vaux
        r.damage).restoreSettings.startTamper.restoreRecords.restoreActions.grantIfReady.reevaluate.beginStarting).endIfReady :=
    rfl
  have hrestored := s.restoreRecords_restored vmain vaux r.damage
  rw [hpowerOn]
  generalize (s.poweredUp vmain vaux r.damage).restoreSettings.startTamper.restoreRecords = u at hrestored ⊢
  refine ⟨u, hrestored, ?_⟩
  have hmode := hrestored.toFresh.mode
  have hgranted : u.restoreActions.grantIfReady.mode = .starting :=
    ((State.grantIfReady_mode _).trans u.restoreActions_mode).trans hmode
  have hactive : u.restoreActions.grantIfReady.mode ≠ .active := by rw [hgranted]; decide
  have hevaluated : Moves u u.restoreActions.grantIfReady.reevaluate :=
    (u.restoreActions_moves.trans (State.grantIfReady_moves _)).trans (State.reevaluate_moves _ (.inr hactive))
  have hstarting : Moves u u.restoreActions.grantIfReady.reevaluate.beginStarting :=
    hevaluated.tail (Move.beginStarting _ (by rw [(State.reevaluate_subsides _).1]; exact hactive) rfl)
  obtain ⟨reply, frameFault, hheld⟩ := foldl_answerHeld_form r.held
    u.restoreActions.grantIfReady.reevaluate.beginStarting
  rw [hheld]
  exact hstarting.trans ((State.endIfReady_moves _ (.inr rfl)).of_bare_left rfl)

end Sys2Proof.Machine
end

