-- ==== Sys2Proof/Proofs/StepsAsMoves.lean ====
section
/-! What any step does: moves from the state it meets, moves from the state of a lost VMAIN or of a restored store, or an
entry to OFF. -/

namespace Sys2Proof.Machine

/-- R144, R76: the state that a loss of VMAIN in ACTIVE acts on. -/
def State.unpowered (s : State) : State := State.emptyEngine { s.begin with mode := .aux, vmain := false }

/-- What a step can do. -/
inductive State.Steps (s t : State) : Prop where
  | moves (h : Moves s t)
  | off (cut : Option Cut) (h : t.bare = (State.enterOff { s with nvs := s.nvsAfterLoss cut }).bare)
  | restored (u : State) (hu : s.Restored u) (h : Moves u t)
  | mainLost (hm : s.mode = .active) (h : Moves s.unpowered t) (hi : t.intent = none) (hd : t.derivation = none)

/-- A command answers a next state by a step. -/
def State.Answers (s : State) (r : Result) : Prop := ∃ t, r = .next t ∧ s.Steps t

/-- A command that moves answers. -/
theorem State.Runs.answers {s : State} {r : Result} (h : s.Runs r) : s.Answers r := by
  obtain ⟨t, hr, hm⟩ := h
  exact ⟨t, hr, .moves hm⟩

/-- An event answers as it steps. -/
theorem State.event_answers (f : State → State) (s : State) (h : s.Steps (f s.begin)) : s.Answers (event f s) :=
  ⟨_, rfl, h⟩

/-- An event that does nothing. -/
theorem State.steps_begin (s : State) : s.Steps s.begin := .moves s.begin_moves

/-- A power-on as a step. -/
theorem State.powerOn_steps (vmain vaux : Bool) (r : Restore) (s : State) : s.Steps (s.begin.powerOn vmain vaux r) := by
  obtain ⟨u, ⟨⟨hbare, hstore, hpass⟩, hrecords⟩, hu⟩ := s.begin.powerOn_moves vmain vaux r
  exact .restored u ⟨⟨hbare, hstore, hpass⟩, hrecords⟩ hu

/-- R146: an entry to OFF, with no write of its own. -/
theorem State.enterOff_steps (s : State) : s.Steps s.begin.enterOff := .off none rfl

/-- R144: what the loss of VMAIN takes leaves no intent. -/
theorem State.takeGrants_intent (s : State) : s.takeGrants.intent = none := by
  unfold State.takeGrants
  split
  · rfl
  · assumption

/-- R144: nor does it start a derivation. -/
theorem State.takeGrants_derivation (s : State) : s.takeGrants.derivation = s.derivation := by
  unfold State.takeGrants
  split <;> rfl

/-- R144: the state after the taking of grants has forgotten what AUX does not keep. -/
def State.forgetActive (s : State) : State :=
  State.startBeacon
    { s with
      draft := none, verified := 0, window := .none, dormancyCount := 0, satisfied := false, reply := none
      frameFault := false }

/-- R144: the loss of VMAIN by which of the failure resolution and the grant-taking comes first. -/
theorem State.loseMain_eq (settleFirst : Bool) (s : State) :
    s.begin.loseMain settleFirst =
      if settleFirst then s.unpowered.abandonDerivation.takeGrants.forgetActive
      else s.unpowered.takeGrants.forgetActive.abandonDerivation := by cases settleFirst <;> rfl

/-- R144: the loss of VMAIN as a step. -/
theorem State.loseMain_steps (settleFirst : Bool) (s : State) (hm : s.mode = .active) :
    s.Steps (s.begin.loseMain settleFirst) := by
  have hforget : ∀ u : State, Moves u u.forgetActive := fun u => Moves.of_bare rfl
  have htake : ∀ u : State, u.mode = .aux → Moves u u.takeGrants := fun u h => Move.moves <| Move.takeGrants h rfl
  have haux : s.unpowered.mode = .aux := rfl
  rw [State.loseMain_eq]
  generalize hu : s.unpowered = u at haux ⊢
  obtain ⟨⟨hmode, -⟩, hgone⟩ := u.abandonDerivation_subsides
  cases settleFirst
  · rw [if_neg (by decide)]
    obtain ⟨⟨-, -, hintent, -⟩, hgone'⟩ := u.takeGrants.forgetActive.abandonDerivation_subsides
    refine .mainLost hm ?_ (hintent u.takeGrants_intent) hgone'
    rw [hu]
    exact ((htake u haux).trans (hforget _)).trans (State.abandonDerivation_moves _)
  · rw [if_pos rfl]
    refine .mainLost hm ?_ (State.takeGrants_intent _) ((State.takeGrants_derivation _).trans hgone)
    rw [hu]
    exact (u.abandonDerivation_moves.trans (htake _ (hmode.trans haux))).trans (hforget _)

/-- R143: a level of VMAIN in STARTING. -/
theorem State.mainInStarting_steps (good : Bool) (s : State) : s.Steps (s.begin.mainInStarting good) := by
  unfold State.mainInStarting
  split
  · exact .moves (s.begin_moves.trans (Moves.of_bare rfl))
  · exact s.enterOff_steps

theorem execPowerOn_answers (vmain vaux : Bool) (r : Restore) (s : State) : s.Answers (execPowerOn vmain vaux r s) := by
  refine s.event_answers _ ?_
  split
  · exact s.powerOn_steps vmain vaux r
  · exact s.steps_begin

theorem execVmainLoss_answers (settleFirst : Bool) (s : State) : s.Answers (execVmainLoss settleFirst s) := by
  refine s.event_answers _ ?_
  split
  · next hm =>
    split
    · exact s.loseMain_steps settleFirst hm
    · exact s.enterOff_steps
  · exact s.mainInStarting_steps false
  all_goals exact s.steps_begin

/-- R141: the entry to STARTING from AUX. -/
theorem State.enterStarting_moves (s : State) (hm : s.mode ≠ .active) : Moves s s.enterStarting := by
  have hbegin : Moves s s.beginStarting := Move.moves <| Move.beginStarting s.now hm rfl
  exact hbegin.trans (State.endIfReady_moves _ (.inr rfl))

theorem execVmainReturn_answers (s : State) : s.Answers (execVmainReturn s) := by
  refine s.event_answers _ ?_
  split
  · next hm =>
    refine .moves (s.begin_moves.trans ((State.enterStarting_moves _ ?_).of_bare_left rfl))
    change s.begin.mode ≠ .active
    rw [hm]; decide
  · exact s.mainInStarting_steps true
  · exact s.steps_begin
  · exact s.powerOn_steps _ _ _

theorem execVmainChangeDuringStarting_answers (good : Bool) (s : State) :
    s.Answers (execVmainChangeDuringStarting good s) := by
  refine s.event_answers _ ?_
  split
  · exact s.mainInStarting_steps good
  · exact s.steps_begin

theorem execVauxLoss_answers (s : State) : s.Answers (execVauxLoss s) := by
  refine s.event_answers _ ?_
  split
  · exact s.steps_begin
  split
  · exact .moves (s.begin_moves.trans (Moves.of_bare rfl))
  · exact s.enterOff_steps

theorem execVauxReturn_answers (s : State) : s.Answers (execVauxReturn s) := by
  refine s.event_answers _ ?_
  split
  · exact s.powerOn_steps _ _ _
  · exact .moves (s.begin_moves.trans (Moves.of_bare rfl))

theorem execFullPowerLoss_answers (cut : Option Cut) (s : State) : s.Answers (execFullPowerLoss cut s) := by
  refine ⟨_, rfl, ?_⟩
  split
  · exact s.steps_begin
  · exact .off cut rfl

/-- Every command answers by a step. -/
theorem exec_answers (c : Instr) (s : State) : s.Answers (exec c s) := by
  cases c with
  | identify tag body => exact (execIdentify_moves tag body s).answers
  | status tag body => exact (execStatus_moves tag body s).answers
  | flags tag body => exact (execFlags_moves tag body s).answers
  | mask tag body => exact (execMask_moves tag body s).answers
  | opstate tag body => exact (execOpstate_moves tag body s).answers
  | readPolicy tag body => exact (execReadPolicy_moves tag body s).answers
  | provision tag body => exact (execProvision_moves tag body s).answers
  | wipe tag body => exact (execWipe_moves tag body s).answers
  | verify tag body => exact (execVerify_moves tag body s).answers
  | enroll tag body => exact (execEnroll_moves tag body s).answers
  | remove tag body => exact (execRemove_moves tag body s).answers
  | suspendSlot tag body => exact (execSuspendSlot_moves tag body s).answers
  | restoreSlot tag body => exact (execRestoreSlot_moves tag body s).answers
  | changeSecret tag body => exact (execChangeSecret_moves tag body s).answers
  | draftRange tag body => exact (execDraftRange_moves tag body s).answers
  | readRanges tag body => exact (execReadRanges_moves tag body s).answers
  | applyLayout tag body => exact (execApplyLayout_moves tag body s).answers
  | rekey tag body => exact (execRekey_moves tag body s).answers
  | unlock tag body => exact (execUnlock_moves tag body s).answers
  | lock tag body => exact (execLock_moves tag body s).answers
  | lockAll tag body => exact (execLockAll_moves tag body s).answers
  | prebootDone tag body => exact (execPrebootDone_moves tag body s).answers
  | setPolicy tag body => exact (execSetPolicy_moves tag body s).answers
  | readScore tag body => exact (execReadScore_moves tag body s).answers
  | readTrail tag body => exact (execReadTrail_moves tag body s).answers
  | standDown tag body => exact (execStandDown_moves tag body s).answers
  | bindPlatform tag body => exact (execBindPlatform_moves tag body s).answers
  | platformReport tag body => exact (execPlatformReport_moves tag body s).answers
  | suspend tag body => exact (execSuspend_moves tag body s).answers
  | unknownKind code tag body => exact (execUnknownKind_moves code tag body s).answers
  | badFrame frame => exact (execBadFrame_moves frame s).answers
  | provisionComplete => exact (execProvisionComplete_moves s).answers
  | verifyComplete => exact (execVerifyComplete_moves s).answers
  | enrollComplete => exact (execEnrollComplete_moves s).answers
  | changeOldComplete => exact (execChangeOldComplete_moves s).answers
  | changeNewComplete => exact (execChangeNewComplete_moves s).answers
  | backoffDeadline => exact (execBackoffDeadline_moves s).answers
  | syncCompare => exact (execSyncCompare_moves s).answers
  | klAck klRes => exact (execKlAck_moves klRes s).answers
  | ackTimeout => exact (execAckTimeout_moves s).answers
  | kpurgeFall => exact (execKpurgeFall_moves s).answers
  | presRisingEdge => exact (execPresRisingEdge_moves s).answers
  | beaconLost dropFirst => exact (execBeaconLost_moves dropFirst s).answers
  | tampChange isOpen => exact (execTampChange_moves isOpen s).answers
  | tamperDeglitchEnd dropFirst => exact (execTamperDeglitchEnd_moves dropFirst s).answers
  | dormant => exact (execDormant_moves s).answers
  | reportWindowDeadline => exact (execReportWindowDeadline_moves s).answers
  | decayTick => exact (execDecayTick_moves s).answers
  | arbiterGrant => exact (execArbiterGrant_moves s).answers
  | resReadyRise => exact (execResReadyRise_moves s).answers
  | resReadyFall => exact (execResReadyFall_moves s).answers
  | driverAnswer => exact (execDriverAnswer_moves s).answers
  | passStuck => exact (execPassStuck_moves s).answers
  | passEnd => exact (execPassEnd_moves s).answers
  | verifyResult reading => exact (execVerifyResult_moves reading s).answers
  | powerOn vmain vaux restore => exact execPowerOn_answers vmain vaux restore s
  | reservoirTimeout => exact (execReservoirTimeout_moves s).answers
  | vmainLoss settleFirst => exact execVmainLoss_answers settleFirst s
  | vmainReturn => exact execVmainReturn_answers s
  | fullPowerLoss cut => exact execFullPowerLoss_answers cut s
  | intentExpiry => exact (execIntentExpiry_moves s).answers
  | grantExpiry => exact (execGrantExpiry_moves s).answers
  | rstN => exact (execRstN_moves s).answers
  | presFallingChange level => exact (execPresFallingChange_moves level s).answers
  | vauxLoss => exact execVauxLoss_answers s
  | vauxReturn => exact execVauxReturn_answers s
  | vmainChangeDuringStarting good => exact execVmainChangeDuringStarting_answers good s
  | rstNRise => exact (execRstNRise_moves s).answers

/-- While no command waits, time passes (log entry 3). -/
theorem State.tick_moves (s : State) : Moves s s.tick := by
  unfold State.tick
  dsimp only
  split
  · exact s.begin_moves.trans (Moves.of_bare (State.runTo_bare _ _))
  · exact s.begin_moves

/-- Every step is a step on the state, or on the state with the rest of its queue of commands. -/
theorem steps_of_step {s t : State} (h : step s = .next t) : ∃ p, State.Steps { s with pending := p } t := by
  unfold step at h
  split at h
  · next hp =>
    cases h
    refine ⟨s.pending, ?_⟩
    exact .moves s.tick_moves
  · next c rest _ =>
    obtain ⟨u, hu, hs⟩ := exec_answers c { s with pending := rest }
    rw [hu] at h
    cases h
    exact ⟨rest, hs⟩

/-- What the laws need of `P` to be kept by every step that meets `Q`. -/
theorem kept_by_steps {P Q : State → Prop} (hpending : ∀ (s : State) p, Q s → Q { s with pending := p })
    (hmoves : ∀ s t : State, Q s → Moves s t → P t)
    (hoff : ∀ (s t : State) cut, Q s → t.bare = (State.enterOff { s with nvs := s.nvsAfterLoss cut }).bare → P t)
    (hrestored : ∀ s u t : State, Q s → s.Restored u → Moves u t → P t)
    (hmain : ∀ s t : State, Q s → s.mode = .active → Moves s.unpowered t → t.intent = none → t.derivation = none → P t)
    {s t : State} (hs : Q s) (h : step s = .next t) : P t := by
  obtain ⟨p, hp⟩ := steps_of_step h
  have hq := hpending s p hs
  cases hp with
  | moves hm => exact hmoves _ _ hq hm
  | off cut hb => exact hoff _ _ cut hq hb
  | restored u hu hm => exact hrestored _ _ _ hq hu hm
  | mainLost ha hm hi hd => exact hmain _ _ hq ha hm hi hd

end Sys2Proof.Machine
end

