-- ==== Sys2Proof/Proofs/LinkLaw.lean ====
section
/-! O3 and O53: every command answers, and every step keeps the law of the key link. -/

namespace Sys2Proof.Machine

/-! ### The queue of commands -/

/-- States that agree in what the laws speak of hold the same commands. -/
theorem State.pending_of_bare {s t : State} (h : t.bare = s.bare) : t.pending = s.pending := by
  have hp : t.bare.pending = s.bare.pending := congrArg (fun x : State => x.pending) h
  exact hp

theorem State.changeDesired_pending (g : Vector Gates 16) (v : View) (s : State) :
    (s.changeDesired g v).pending = s.pending := by
  obtain ⟨q, f, h⟩ := s.changeDesired_form g v
  rw [h]

theorem State.enqueueDiffering_pending (s : State) : s.enqueueDiffering.pending = s.pending := by
  unfold State.enqueueDiffering
  split <;> rfl

theorem State.purge_pending (s : State) : s.purge.pending = s.pending := by
  unfold State.purge
  split <;> rfl

/-- No move touches the queue of commands. -/
theorem Move.pending {s t : State} (h : Move s t) : t.pending = s.pending := by
  have hp : ∀ {u : State}, t.bare = u.bare → u.pending = s.pending → t.pending = s.pending :=
    fun hb hu => (State.pending_of_bare hb).trans hu
  cases h with
  | frame h => exact hp h rfl
  | forget h => exact hp h rfl
  | record _ _ hu _ _ h => exact hp h (State.pending_of_bare hu :)
  | settings _ _ h => exact hp h rfl
  | desired g v _ h => exact hp h (s.changeDesired_pending g v)
  | handOn j h =>
    refine hp h ?_
    obtain ⟨q, f, hform⟩ := s.handOn_form j
    rw [hform]
  | purge h => exact hp h s.purge_pending
  | withdraw _ _ _ _ h => exact hp h rfl
  | intend _ _ _ _ h => exact hp h rfl
  | abandon h => exact hp h rfl
  | derive _ _ h => exact hp h rfl
  | provision _ _ _ hu _ h => exact hp h (State.pending_of_bare hu :)
  | wipeStart _ _ _ _ _ hu _ _ h => exact hp h (State.pending_of_bare hu :)
  | wipeEnd _ _ _ hu _ _ _ h => exact hp h (State.pending_of_bare hu :)
  | rootLost _ _ _ hu _ _ _ h => exact hp h (State.pending_of_bare hu :)
  | job _ _ h => exact hp h rfl
  | claim _ h => exact hp h rfl
  | faultPurge _ h => exact hp h (State.purge_pending _)
  | faultRun _ _ h => exact hp h rfl
  | faultReset h => exact hp h rfl
  | restart _ h => exact hp h (State.enqueueDiffering_pending _)
  | pulseEnd _ h => exact hp h (State.enqueueDiffering_pending _)
  | accept f _ _ _ h =>
    refine hp h ?_
    unfold State.accept State.acceptTransfer
    cases f.transfer <;> rfl
  | dequeue _ _ _ _ _ h => exact hp h rfl
  | send _ _ _ _ _ _ _ _ h => exact hp h rfl
  | emptyMirror _ h => exact hp h rfl
  | takeGrants _ h =>
    refine hp h ?_
    unfold State.takeGrants
    split <;> rfl
  | activate g u _ hu h =>
    refine hp h ((State.enqueueDiffering_pending _).trans ?_)
    split
    · exact (State.pending_of_bare hu :)
    · exact (u.changeDesired_pending g .hidden).trans (State.pending_of_bare hu :)
  | enterAux _ h => exact hp h rfl
  | beginStarting _ _ h => exact hp h rfl

/-- Nor do moves. -/
theorem Moves.pending {s t : State} (h : Moves s t) : t.pending = s.pending :=
  h.keep (P := fun u => u.pending = s.pending) (fun _ _ hm hp => hm.pending.trans hp) rfl

/-- Settles O3: every command answers by a step, and none touches the queue of commands. -/
theorem everyCommandAnswersANextState : Obligations.EveryCommandAnswersANextState := by
  intro c s
  obtain ⟨t, ht, hs⟩ := exec_answers c s
  refine ⟨t, ht, ?_⟩
  cases hs with
  | moves hm => exact hm.pending
  | off cut hb => exact (State.pending_of_bare hb :)
  | restored u hu hm => exact hm.pending.trans (State.pending_of_bare hu.bare :)
  | mainLost _ hm _ _ => exact hm.pending

/-! ### The link law -/

/-- The link law reads the fields that the laws speak of. -/
theorem State.linkLaw_of_bare {s t : State} (h : t.bare = s.bare) (hs : s.LinkLaw) : t.LinkLaw :=
  State.of_bare (P := State.LinkLaw) (fun _ => Iff.rfl) h hs

/-- R64: a hand-on keeps it. -/
theorem State.LinkLaw.handOn {s : State} (h : s.LinkLaw) (j : Fin 17) : (s.handOn j).LinkLaw := by
  obtain ⟨hnodup, hown, hidle, hpulse, hstop, hwait⟩ := h
  unfold State.handOn
  split
  · exact ⟨hnodup, hown, hidle, hpulse, hstop, hwait⟩
  next hactive =>
  obtain ⟨hmode, -⟩ := not_or.1 hactive
  split
  · exact ⟨hnodup, hown, hidle, hpulse, hstop, hwait⟩
  next hq =>
  have hjoin : (s.queue ++ [j]).Nodup :=
    List.nodup_append.2 ⟨hnodup, List.nodup_singleton j, fun a ha b hb hab => by
      rw [List.mem_singleton.1 hb] at hab; exact hq (hab ▸ ha)⟩
  split
  · next f hf =>
    split
    · next hslot =>
      refine ⟨hnodup, fun g hg => ?_, fun hm => absurd hm hmode, fun hk => ?_, fun hr => ?_, hwait⟩
      · cases hg; rw [← hslot] at hq; exact hq
      · rw [hpulse hk] at hf; cases hf
      · rw [hstop hr] at hf; cases hf
    · next hslot =>
      refine ⟨hjoin, fun g hg => ?_, fun hm => absurd hm hmode, hpulse, hstop, hwait⟩
      have hfg : f = g := Option.some.inj (hf.symm.trans hg)
      rw [← hfg, List.mem_append, List.mem_singleton, not_or]
      exact ⟨hown f hf, hslot⟩
  · next hf =>
    refine ⟨hjoin, fun g hg => ?_, fun hm => absurd hm hmode, hpulse, hstop, hwait⟩
    have hg' : s.inFlight = some g := hg
    rw [hf] at hg'; cases hg'

/-- R48: a change of desired states keeps it. -/
theorem State.LinkLaw.changeDesired {s : State} (h : s.LinkLaw) (g : Vector Gates 16) (v : View) :
    (s.changeDesired g v).LinkLaw := by
  unfold State.changeDesired State.handOnAll
  refine List.foldlRecOn _ _ ?_ fun u hu j _ => hu.handOn j
  rw [State.dropRootIfClosed_form]
  exact h

/-- R73, R74, R77: with no transfer in flight, the slots that differ join without a double. -/
theorem State.LinkLaw.enqueueDiffering {s : State} (h : s.LinkLaw) (hf : s.inFlight = none) :
    s.enqueueDiffering.LinkLaw := by
  obtain ⟨hnodup, hown, hidle, hpulse, hstop, hwait⟩ := h
  unfold State.enqueueDiffering
  split
  · exact ⟨hnodup, hown, hidle, hpulse, hstop, hwait⟩
  next hactive =>
  obtain ⟨hmode, -⟩ := not_or.1 hactive
  refine ⟨List.nodup_append.2 ⟨hnodup, List.Nodup.filter _ (by decide), fun a ha b hb hab => ?_⟩, fun g hg => ?_,
    fun hm => absurd hm hmode, hpulse, hstop, hwait⟩
  · have hnot := (List.mem_filter.1 hb).2
    rw [← hab] at hnot
    simp [ha] at hnot
  · have hg' : s.inFlight = some g := hg
    rw [hf] at hg'; cases hg'

/-- R74: a purge keeps it. -/
theorem State.LinkLaw.purge {s : State} (h : s.LinkLaw) : s.purge.LinkLaw := by
  unfold State.purge
  split
  · exact h
  obtain ⟨-, -, -, -, -, hwait⟩ := h
  refine ⟨List.nodup_nil, fun _ hf => (by cases hf), fun hm => ⟨rfl, rfl, ?_⟩, fun _ => rfl, fun _ => rfl, hwait⟩
  exact if_neg hm

/-- A transfer given up leaves the law. -/
theorem State.LinkLaw.dropTransfer {s : State} (h : s.LinkLaw) : State.LinkLaw { s with inFlight := none } := by
  obtain ⟨hnodup, -, hidle, -, -, hwait⟩ := h
  exact ⟨hnodup, fun _ hf => (by cases hf), fun hm => ⟨(hidle hm).1, rfl, (hidle hm).2.2⟩, fun _ => rfl, fun _ => rfl,
    hwait⟩

/-- R71: an acceptance keeps it. -/
theorem State.LinkLaw.accept {s : State} (h : s.LinkLaw) {f : InFlight} (hf : s.inFlight = some f)
    (hm : s.mode = .active) : (s.accept f).LinkLaw := by
  obtain ⟨hnodup, hown, -, -, -, hwait⟩ := h
  have hform : (s.accept f).queue = (if f.rejoin then s.queue ++ [f.slot] else s.queue)
      ∧ (s.accept f).inFlight = none ∧ (s.accept f).mode = s.mode
      ∧ (s.accept f).reservoirWait = s.reservoirWait := by
    unfold State.accept State.acceptTransfer
    cases f.transfer <;> exact ⟨rfl, rfl, rfl, rfl⟩
  obtain ⟨hq, hin, hmode, hres⟩ := hform
  refine ⟨?_, ?_, fun hne => absurd (hmode.trans hm) hne, fun _ => hin, fun _ => hin, ?_⟩
  · rw [hq]
    split
    · refine List.nodup_append.2 ⟨hnodup, List.nodup_singleton _, fun a ha b hb hab => ?_⟩
      rw [List.mem_singleton.1 hb] at hab
      exact hown f hf (hab ▸ ha)
    · exact hnodup
  · rw [hin]; intro _ hg; cases hg
  · rw [hres, hmode]; exact hwait

/-- R142: while the reservoir wait stands the part is not in ACTIVE. -/
theorem State.LinkLaw.not_active {s : State} (h : s.LinkLaw) (hm : s.mode ≠ .active ∨ s.reservoirWait.isSome = true) :
    s.mode ≠ .active := by
  obtain ⟨-, -, -, -, -, hwait⟩ := h
  refine hm.elim id fun hr => ?_
  rw [hwait hr]; decide

/-- Every move keeps the link law. -/
theorem Move.linkLaw (s t : State) (h : Move s t) (hs : s.LinkLaw) : t.LinkLaw := by
  have hb : ∀ {u : State}, t.bare = u.bare → u.LinkLaw → t.LinkLaw := State.linkLaw_of_bare
  have hs' := hs
  obtain ⟨hnodup, hown, hidle, hpulse, hstop, hwait⟩ := hs'
  cases h with
  | frame h => exact hb h hs
  | forget h => exact hb h hs
  | record _ u hu _ _ h => exact hb h (State.linkLaw_of_bare (t := u) hu hs)
  | settings _ _ h => exact hb h hs
  | desired g v _ h => exact hb h (hs.changeDesired g v)
  | handOn j h => exact hb h (hs.handOn j)
  | purge h => exact hb h hs.purge
  | withdraw _ _ _ _ h => exact hb h hs
  | intend _ _ _ _ h => exact hb h hs
  | abandon h => exact hb h hs
  | derive _ _ h => exact hb h hs
  | provision _ u _ hu _ h => exact hb h (State.linkLaw_of_bare (t := u) hu hs)
  | wipeStart _ u _ _ _ hu _ _ h => exact hb h (State.linkLaw_of_bare (t := u) hu hs)
  | wipeEnd _ u _ hu _ _ _ h => exact hb h (State.linkLaw_of_bare (t := u) hu hs)
  | rootLost _ u _ hu _ _ _ h =>
    obtain ⟨-, -, -, -, -, hwait'⟩ := State.linkLaw_of_bare (t := u) hu hs
    exact hb h ⟨List.nodup_nil, fun _ hf => (by cases hf), fun _ => ⟨rfl, rfl, rfl⟩, fun _ => rfl, fun _ => rfl, hwait'⟩
  | job _ _ h => exact hb h hs
  | claim _ h => exact hb h hs
  | faultPurge _ h => exact hb h hs.dropTransfer.purge
  | faultRun x hx h =>
    refine hb h ⟨hnodup, hown, hidle, hpulse, fun hr => ?_, hwait⟩
    rcases hx with hx | hx
    · exact hstop (hx ▸ hr)
    · exact hx
  | faultReset h => exact hb h hs
  | restart hr h =>
    have hrun : State.LinkLaw { s with linkState := .running, faultRun := 0 } :=
      ⟨hnodup, hown, hidle, hpulse, fun hr => (by cases hr), hwait⟩
    exact hb h (hrun.enqueueDiffering (hstop hr))
  | pulseEnd hk h =>
    have hlow : State.LinkLaw { s with kpurge := none } :=
      ⟨hnodup, hown, fun hm => ⟨(hidle hm).1, (hidle hm).2.1, rfl⟩, fun hk => (by cases hk), hstop, hwait⟩
    exact hb h (hlow.enqueueDiffering (hpulse hk))
  | accept f hf hm _ h => exact hb h (hs.accept hf hm)
  | dequeue j rest hq hl _ h =>
    rw [hq] at hnodup hown
    refine hb h ⟨(List.nodup_cons.1 hnodup).2, fun f hf => ?_, fun hm => absurd hl.1 hm, hpulse, hstop, hwait⟩
    exact fun hmem => hown f hf (List.mem_cons_of_mem j hmem)
  | send j rest f m hq hl hf _ h =>
    obtain ⟨hm, -, hk, hr, -⟩ := hl
    rw [hq] at hnodup
    obtain ⟨hj, hrest⟩ := List.nodup_cons.1 hnodup
    refine hb h ⟨hrest, fun g hg => ?_, fun hne => absurd hm hne, fun hk' => ?_, fun hr' => ?_, hwait⟩
    · cases hg; rw [hf]; exact hj
    · change s.kpurge.isSome = true at hk'
      rw [hk] at hk'; cases hk'
    · change s.linkState = .stopped at hr'
      rw [hr] at hr'; cases hr'
  | emptyMirror _ h => exact hb h hs
  | takeGrants _ h =>
    refine hb h ?_
    unfold State.takeGrants
    split <;> exact hs
  | activate g u hm hu h =>
    have hnone : s.inFlight = none := (hidle (hs.not_active hm)).2.1
    have hu' : u.LinkLaw := State.linkLaw_of_bare hu
      ⟨hnodup, hown, fun hne => absurd rfl hne, hpulse, fun hr => (by cases hr), fun hr => (by cases hr)⟩
    have hu'' : u.inFlight = none := (State.inFlight_of_bare hu).trans hnone
    refine hb h ?_
    split
    · exact hu'.enqueueDiffering hu''
    · exact (hu'.changeDesired g .hidden).enqueueDiffering (u.changeDesired_inFlight_none g .hidden hu'')
  | enterAux hm h =>
    exact hb h ⟨hnodup, hown, fun _ => hidle (hs.not_active hm), hpulse, hstop, fun hr => (by cases hr)⟩
  | beginStarting _ hm h => exact hb h ⟨hnodup, hown, fun _ => hidle hm, hpulse, hstop, fun _ => rfl⟩

/-- A link at rest out of ACTIVE, with no reservoir wait. -/
theorem State.linkLaw_of_idle {s : State} (hq : s.queue = []) (hf : s.inFlight = none) (hk : s.kpurge = none)
    (hr : s.reservoirWait.isSome → s.mode = .starting) : s.LinkLaw := by
  refine ⟨by rw [hq]; exact List.nodup_nil, ?_, fun _ => ⟨hq, hf, hk⟩, fun _ => hf, fun _ => hf, hr⟩
  rw [hf]; intro _ h; cases h

/-- R146: OFF keeps it. -/
theorem State.off_linkLaw {s t : State} {n : Nvs} (h : t.bare = (State.enterOff { s with nvs := n }).bare) :
    t.LinkLaw :=
  State.linkLaw_of_bare h (State.linkLaw_of_idle rfl rfl rfl fun hr => by cases hr)

/-- R140: a restored state meets it. -/
theorem State.Fresh.linkLaw {s u : State} (h : s.Fresh u) : u.LinkLaw :=
  State.linkLaw_of_bare h.bare (State.linkLaw_of_idle rfl rfl rfl fun _ => rfl)

/-- R76: an engine without power meets it. -/
theorem State.LinkLaw.unpowered {s : State} (h : s.LinkLaw) (hm : s.mode = .active) : s.unpowered.LinkLaw := by
  refine State.linkLaw_of_idle rfl rfl rfl fun hr => ?_
  have hr' : s.reservoirWait.isSome = true := hr
  exact absurd hm (h.not_active (.inr hr'))

/-- Every step keeps the link law. -/
theorem State.LinkLaw.step {s t : State} (hs : s.LinkLaw) (h : step s = .next t) : t.LinkLaw :=
  kept_by_steps (P := State.LinkLaw) (Q := State.LinkLaw) (fun _ _ h => h) (fun _ _ h hm => hm.keep Move.linkLaw h)
    (fun _ _ _ _ hb => State.off_linkLaw hb) (fun _ _ _ _ hu hm => hm.keep Move.linkLaw hu.toFresh.linkLaw)
    (fun _ _ h ha hm _ _ => hm.keep Move.linkLaw (h.unpowered ha)) hs h

/-- Settles O53: every move keeps the law, and a queue without a double holds each of the 17 slots at most once. -/
theorem stepsKeepTheLinkLaw : Obligations.StepsKeepTheLinkLaw := by
  intro s t hs h
  have ht : t.LinkLaw := hs.step h
  refine ⟨ht, ?_⟩
  have hcard := ht.1.length_le_card
  simpa using hcard

end Sys2Proof.Machine
end

