-- ==== Sys2Proof/Proofs/BoundsLaw.lean ====
section
/-! O59, and the second part of O58: every step keeps the bounds, the pass count and the lawful job. -/

namespace Sys2Proof.Machine

/-! ### The write images -/

/-- What a commit or a write of the settings adds to the images is the store before it. -/
theorem forall_image_append {P : Nvs → Prop} {ws : List WriteImage} {n : Nvs} (sets : List SetId)
    (hw : ∀ w ∈ ws, P w.before) (hn : P n) : ∀ w ∈ ws ++ [⟨n, sets⟩], P w.before := by
  intro w hmem
  rcases List.mem_append.1 hmem with hmem | hmem
  · exact hw w hmem
  · rw [List.mem_singleton.1 hmem]; exact hn

/-! ### The bounds law -/

/-- The bounds law reads the fields that the laws speak of. -/
theorem State.boundsLaw_of_bare {s t : State} (h : t.bare = s.bare) (hs : s.BoundsLaw) : t.BoundsLaw :=
  State.of_bare (P := State.BoundsLaw) (fun _ => Iff.rfl) h hs

/-- R1: a commit keeps it. -/
theorem State.BoundsLaw.commit {s : State} (h : s.BoundsLaw) (sets : List SetId) : (s.commit sets).BoundsLaw := by
  obtain ⟨he, hc, hr, hn, hw⟩ := h
  exact ⟨he, hc, hr, State.commit_nvs_bounded hn he hc sets, forall_image_append sets hw hn⟩

/-- A commit's new records keep it. -/
theorem State.BoundsLaw.of_keeps {s u : State} (h : s.BoundsLaw) (hb : s.KeepsBounds u) {v : State}
    (hu : u.bare = v.bare) (hv : v.evid = u.evid ∧ v.cred = u.cred ∧ v.faultRun = s.faultRun ∧ v.nvs = s.nvs
      ∧ v.writeImages = s.writeImages) : u.BoundsLaw := by
  obtain ⟨he, hc, hr, hn, hw⟩ := h
  obtain ⟨hevid, hcred, hrun, hnvs, himages⟩ := hv
  refine State.boundsLaw_of_bare hu ⟨?_, ?_, ?_, ?_, ?_⟩
  · rw [hevid]; exact hb.1 he
  · rw [hcred]; exact hb.2 hc
  · rw [hrun]; exact hr
  · rw [hnvs]; exact hn
  · rw [himages]; exact hw

/-- Changes of desired states, hand-ons and purges are not among what it reads. -/
theorem State.BoundsLaw.changeDesired {s : State} (h : s.BoundsLaw) (g : Vector Gates 16) (v : View) :
    (s.changeDesired g v).BoundsLaw := by
  obtain ⟨q, f, hform⟩ := s.changeDesired_form g v
  rw [hform]; exact h

theorem State.BoundsLaw.enqueueDiffering {s : State} (h : s.BoundsLaw) : s.enqueueDiffering.BoundsLaw := by
  unfold State.enqueueDiffering
  split <;> exact h

theorem State.BoundsLaw.purge {s : State} (h : s.BoundsLaw) : s.purge.BoundsLaw := by
  unfold State.purge
  split <;> exact h

/-- Every move keeps the bounds law. -/
theorem Move.boundsLaw (s t : State) (h : Move s t) (hs : s.BoundsLaw) : t.BoundsLaw := by
  have hb : ∀ {u : State}, t.bare = u.bare → u.BoundsLaw → t.BoundsLaw := State.boundsLaw_of_bare
  have hs' := hs
  obtain ⟨he, hc, hr, hn, hw⟩ := hs'
  cases h with
  | frame h => exact hb h hs
  | forget h => exact hb h ⟨he, hc, hr, hn, fun _ hw => absurd hw List.not_mem_nil⟩
  | record sets u hu hk _ h => exact hb h ((hs.of_keeps hk hu ⟨rfl, rfl, rfl, rfl, rfl⟩).commit sets)
  | settings c _ h => exact hb h ⟨he, hc, hr, hn, forall_image_append [] hw hn⟩
  | desired g v _ h => exact hb h (hs.changeDesired g v)
  | handOn j h =>
    refine hb h ?_
    obtain ⟨q, f, hform⟩ := s.handOn_form j
    rw [hform]; exact hs
  | purge h => exact hb h hs.purge
  | withdraw _ _ _ _ h => exact hb h hs
  | intend _ _ _ _ h => exact hb h hs
  | abandon h => exact hb h hs
  | derive _ _ h => exact hb h hs
  | provision sets u _ hu hk h =>
    have hevid : u.evid = .factory := congrArg (fun x : State => x.evid) hu
    exact hb h ((hs.of_keeps hk hu ⟨hevid.symm, rfl, rfl, rfl, rfl⟩).commit sets)
  | wipeStart sets u _ _ _ hu _ hk h =>
    exact hb h ((hs.of_keeps hk hu ⟨rfl, rfl, rfl, rfl, rfl⟩).commit sets)
  | wipeEnd sets u _ hu _ _ hk h =>
    exact hb h ((hs.of_keeps hk hu ⟨rfl, rfl, rfl, rfl, rfl⟩).commit sets)
  | rootLost sets u _ hu _ _ hk h =>
    exact hb h ((hs.of_keeps hk hu ⟨rfl, rfl, rfl, rfl, rfl⟩).commit sets)
  | job _ _ h => exact hb h hs
  | claim _ h => exact hb h hs
  | faultPurge _ h => exact hb h (State.BoundsLaw.purge (s := { s with inFlight := none }) hs)
  | faultRun _ _ h => exact hb h ⟨he, hc, min_le_left 3 _, hn, hw⟩
  | faultReset h => exact hb h ⟨he, hc, Nat.zero_le 3, hn, hw⟩
  | restart _ h =>
    exact hb h (State.BoundsLaw.enqueueDiffering (s := { s with linkState := .running, faultRun := 0 })
      ⟨he, hc, Nat.zero_le 3, hn, hw⟩)
  | pulseEnd _ h => exact hb h (State.BoundsLaw.enqueueDiffering (s := { s with kpurge := none }) hs)
  | accept f _ _ _ h =>
    refine hb h ?_
    unfold State.accept State.acceptTransfer
    cases f.transfer <;> exact ⟨he, hc, Nat.zero_le 3, hn, hw⟩
  | dequeue _ _ _ _ _ h => exact hb h hs
  | send _ _ _ _ _ _ _ _ h => exact hb h hs
  | emptyMirror _ h => exact hb h hs
  | takeGrants _ h =>
    refine hb h ?_
    unfold State.takeGrants
    split <;> exact hs
  | activate g u _ hu h =>
    have hu' : u.BoundsLaw := State.boundsLaw_of_bare hu ⟨he, hc, Nat.zero_le 3, hn, hw⟩
    refine hb h (State.BoundsLaw.enqueueDiffering ?_)
    split
    · exact hu'
    · exact hu'.changeDesired g .hidden
  | enterAux _ h => exact hb h hs
  | beginStarting _ _ h => exact hb h hs

/-- Every step keeps the bounds law. -/
theorem State.BoundsLaw.step {s t : State} (hs : s.BoundsLaw) (h : Machine.step s = .next t) : t.BoundsLaw := by
  refine kept_by_steps (P := State.BoundsLaw) (Q := State.BoundsLaw) (fun _ _ h => h)
    (fun _ _ h hm => hm.keep Move.boundsLaw h) ?off ?restored ?main hs h
  case off =>
    intro s t cut hs hb
    obtain ⟨he, hc, -, hn, hw⟩ := hs
    have hnvs : (s.nvsAfterLoss cut).Bounded :=
      State.nvsAfterLoss_of (P := Nvs.Bounded) hn hw (fun cut _ _ hb ha => cutWrite_bounded hb ha cut) cut
    exact State.boundsLaw_of_bare hb ⟨he, hc, Nat.zero_le 3, hnvs, fun _ hw => absurd hw List.not_mem_nil⟩
  case restored =>
    intro s u t hs hu hm
    obtain ⟨-, -, -, hn, -⟩ := hs
    obtain ⟨he, hc⟩ := hu.records hn
    obtain ⟨hn', hw⟩ := hu.toFresh.store hn
    have hrun : u.faultRun = 0 := by
      have h : u.bare.faultRun = 0 := by rw [hu.toFresh.bare]; rfl
      exact h
    exact hm.keep Move.boundsLaw ⟨he, hc, hrun ▸ Nat.zero_le 3, hn', hw⟩
  case main =>
    intro s t hs _ hm _ _
    obtain ⟨he, hc, hr, hn, -⟩ := hs
    exact hm.keep Move.boundsLaw ⟨he, hc, hr, hn, fun _ hw => absurd hw List.not_mem_nil⟩

/-- Settles O59: every move keeps the bounds, and so do the three starts of the supplies. -/
theorem stepsKeepTheBounds : Obligations.StepsKeepTheBounds := fun _ _ hs h => hs.step h

/-! ### The pass count and the job -/

/-- R115, R120: the pass count is above 0, and a job in progress is lawful. -/
def State.WorkLaw (s : State) : Prop := s.PassLaw ∧ ∀ j ∈ s.job, j.Lawful

/-- It reads the fields that the laws speak of. -/
theorem State.workLaw_of_bare {s t : State} (h : t.bare = s.bare) (hs : s.WorkLaw) : t.WorkLaw :=
  State.of_bare (P := State.WorkLaw) (fun _ => Iff.rfl) h hs

/-- R1: a commit writes no settings. -/
theorem State.WorkLaw.commit {s : State} (h : s.WorkLaw) (sets : List SetId) : (s.commit sets).WorkLaw := by
  obtain ⟨⟨hp, hn, hw⟩, hj⟩ := h
  exact ⟨⟨hp, hn, forall_image_append (P := fun n => 0 < n.settings.record.p) sets hw hn⟩, hj⟩

/-- Where no job stands. -/
theorem State.WorkLaw.withoutJob {s : State} (h : s.WorkLaw) : State.WorkLaw { s with job := none } :=
  ⟨h.1, fun _ h => by cases h⟩

theorem State.WorkLaw.changeDesired {s : State} (h : s.WorkLaw) (g : Vector Gates 16) (v : View) :
    (s.changeDesired g v).WorkLaw := by
  obtain ⟨q, f, hform⟩ := s.changeDesired_form g v
  rw [hform]; exact h

theorem State.WorkLaw.enqueueDiffering {s : State} (h : s.WorkLaw) : s.enqueueDiffering.WorkLaw := by
  unfold State.enqueueDiffering
  split <;> exact h

theorem State.WorkLaw.purge {s : State} (h : s.WorkLaw) : s.purge.WorkLaw := by
  unfold State.purge
  split <;> exact h

/-- Every move keeps it. -/
theorem Move.workLaw (s t : State) (h : Move s t) (hs : s.WorkLaw) : t.WorkLaw := by
  have hb : ∀ {u : State}, t.bare = u.bare → u.WorkLaw → t.WorkLaw := State.workLaw_of_bare
  have hs' := hs
  obtain ⟨⟨hp, hn, hw⟩, hj⟩ := hs'
  cases h with
  | frame h => exact hb h hs
  | forget h => exact hb h ⟨⟨hp, hn, fun _ hw => absurd hw List.not_mem_nil⟩, hj⟩
  | record sets u hu _ _ h => exact hb h ((State.workLaw_of_bare (t := u) hu hs).commit sets)
  | settings c hc h =>
    exact hb h ⟨⟨hc, hc, forall_image_append (P := fun n => 0 < n.settings.record.p) [] hw hn⟩, hj⟩
  | desired g v _ h => exact hb h (hs.changeDesired g v)
  | handOn j h =>
    refine hb h ?_
    obtain ⟨q, f, hform⟩ := s.handOn_form j
    rw [hform]; exact hs
  | purge h => exact hb h hs.purge
  | withdraw _ _ _ _ h => exact hb h hs
  | intend _ _ _ _ h => exact hb h hs
  | abandon h => exact hb h hs
  | derive _ _ h => exact hb h hs
  | provision sets u _ hu _ h => exact hb h ((State.workLaw_of_bare (t := u) hu hs).commit sets)
  | wipeStart sets u _ _ _ hu _ _ h => exact hb h ((State.workLaw_of_bare (t := u) hu hs).commit sets)
  | wipeEnd sets u _ hu _ _ _ h => exact hb h ((State.workLaw_of_bare (t := u) hu hs).commit sets).withoutJob
  | rootLost sets u _ hu _ _ _ h => exact hb h ((State.workLaw_of_bare (t := u) hu hs).commit sets).withoutJob
  | job j hm h => exact hb h ⟨⟨hp, hn, hw⟩, fun i hi => (hm i hi).2 hp hj⟩
  | claim _ h => exact hb h hs
  | faultPurge _ h => exact hb h (State.WorkLaw.purge (s := { s with inFlight := none }) hs)
  | faultRun _ _ h => exact hb h hs
  | faultReset h => exact hb h hs
  | restart _ h =>
    exact hb h (State.WorkLaw.enqueueDiffering (s := { s with linkState := .running, faultRun := 0 }) hs)
  | pulseEnd _ h => exact hb h (State.WorkLaw.enqueueDiffering (s := { s with kpurge := none }) hs)
  | accept f _ _ _ h =>
    refine hb h ?_
    unfold State.accept State.acceptTransfer
    cases f.transfer <;> exact hs
  | dequeue _ _ _ _ _ h => exact hb h hs
  | send _ _ _ _ _ _ _ _ h => exact hb h hs
  | emptyMirror _ h => exact hb h hs
  | takeGrants _ h =>
    refine hb h ?_
    unfold State.takeGrants
    split <;> exact hs
  | activate g u _ hu h =>
    have hu' : u.WorkLaw := State.workLaw_of_bare hu hs
    refine hb h (State.WorkLaw.enqueueDiffering ?_)
    split
    · exact hu'
    · exact hu'.changeDesired g .hidden
  | enterAux _ h => exact hb h hs
  | beginStarting _ _ h => exact hb h hs

/-- R168: a cut write leaves the pass count of a record that was written. -/
theorem cutWrite_pass {image : WriteImage} {after : Nvs} (hb : 0 < image.before.settings.record.p)
    (ha : 0 < after.settings.record.p) (cut : Cut) : 0 < (cutWrite cut image after).settings.record.p := by
  have hbroken : after.settings.broken.record = after.settings.record := by cases after.settings; rfl
  unfold cutWrite
  dsimp only
  split
  · change 0 < after.settings.broken.record.p
    rw [hbroken]; exact ha
  · exact hb

/-- Every step keeps it. -/
theorem State.WorkLaw.step {s t : State} (hs : s.WorkLaw) (h : Machine.step s = .next t) : t.WorkLaw := by
  refine kept_by_steps (P := State.WorkLaw) (Q := State.WorkLaw) (fun _ _ h => h)
    (fun _ _ h hm => hm.keep Move.workLaw h) ?off ?restored ?main hs h
  case off =>
    intro s t cut hs hb
    obtain ⟨⟨hp, hn, hw⟩, -⟩ := hs
    have hnvs : 0 < (s.nvsAfterLoss cut).settings.record.p :=
      State.nvsAfterLoss_of (P := fun n => 0 < n.settings.record.p) hn hw
        (fun cut _ _ hb ha => cutWrite_pass hb ha cut) cut
    exact State.workLaw_of_bare hb
      ⟨⟨hp, hnvs, fun _ hw => absurd hw List.not_mem_nil⟩, fun _ hj => by cases hj⟩
  case restored =>
    intro s u t hs hu hm
    obtain ⟨⟨-, hn, -⟩, -⟩ := hs
    have hjob : u.job = none := by
      have h : u.bare.job = none := by rw [hu.toFresh.bare]; rfl
      exact h
    exact hm.keep Move.workLaw ⟨hu.toFresh.pass hn, by rw [hjob]; intro _ h; cases h⟩
  case main =>
    intro s t hs _ hm _ _
    obtain ⟨⟨hp, hn, -⟩, hj⟩ := hs
    exact hm.keep Move.workLaw ⟨⟨hp, hn, fun _ hw => absurd hw List.not_mem_nil⟩, hj⟩

end Sys2Proof.Machine
end

