-- ==== Sys2Proof/Proofs/AccessLaws.lean ====
section
/-! What the moves keep of claims, derivations, grants and the withdrawal of access. The grant and derivation laws stand
here without the mode: a loss of VMAIN takes the intent and abandons the derivation only as it ends. -/

namespace Sys2Proof.Machine

/-! ### Transfers in flight under hand-ons -/

/-- A transfer in flight is as before but for the rejoin mark, which is not cleared. -/
def State.SameFlight (s t : State) : Prop :=
  ∀ g ∈ t.inFlight, ∃ f ∈ s.inFlight, g.slot = f.slot ∧ g.transfer = f.transfer ∧ (f.rejoin = true → g.rejoin = true)

theorem State.SameFlight.of_eq {s t : State} (h : t.inFlight = s.inFlight) : s.SameFlight t :=
  fun g hg => ⟨g, h ▸ hg, rfl, rfl, id⟩

theorem State.SameFlight.trans {s t u : State} (h : s.SameFlight t) (h' : t.SameFlight u) : s.SameFlight u := by
  intro x hx
  obtain ⟨g, hg, h1, h2, h3⟩ := h' x hx
  obtain ⟨f, hf, h4, h5, h6⟩ := h g hg
  exact ⟨f, hf, h1.trans h4, h2.trans h5, h3 ∘ h6⟩

/-- R64. -/
theorem State.handOn_sameFlight (j : Fin 17) (s : State) : s.SameFlight (s.handOn j) := by
  unfold State.handOn
  split
  · exact .of_eq rfl
  split
  · exact .of_eq rfl
  split
  · next f hf =>
    split
    · intro g hg
      cases hg
      exact ⟨f, hf, rfl, rfl, fun _ => rfl⟩
    · exact .of_eq rfl
  · exact .of_eq rfl

/-- R48. -/
theorem State.changeDesired_sameFlight (g : Vector Gates 16) (v : View) (s : State) :
    s.SameFlight (s.changeDesired g v) := by
  unfold State.changeDesired State.handOnAll
  refine List.foldlRecOn _ _ ?_ fun u hu j _ => hu.trans (State.handOn_sameFlight j u)
  rw [State.dropRootIfClosed_form]
  exact .of_eq rfl

/-! ### Claims -/

/-- R2: out of WIPING neither the claim nor a WIPE job stands. -/
theorem State.ClaimLaw.wiping {s : State} (h : s.ClaimLaw) (hj : ∃ j ∈ s.job, j.owner = .wipe) :
    s.life.lifecycle = .wiping := by
  obtain ⟨hclaim, hjob⟩ := h
  obtain ⟨j, hj, ho⟩ := hj
  exact hclaim (hjob j hj ho)

/-- It reads the fields that the laws speak of. -/
theorem State.claimLaw_of_bare {s t : State} (h : t.bare = s.bare) (hs : s.ClaimLaw) : t.ClaimLaw :=
  State.of_bare (P := State.ClaimLaw) (fun _ => Iff.rfl) h hs

/-- A lifecycle in which neither a claim nor a job stands. -/
theorem State.ClaimLaw.of_not_wiping {s : State} (h : s.ClaimLaw) (hl : s.life.lifecycle ≠ .wiping)
    (r : LifecycleRecord) : State.ClaimLaw { s with life := r } := by
  obtain ⟨hclaim, hjob⟩ := h
  exact ⟨fun hc => absurd (hclaim hc) hl, hjob⟩

/-- What a derivation in flight says of the lifecycle (R2, R19). -/
def State.HomeLaw (s : State) : Prop := ∀ d ∈ s.derivation, s.life.lifecycle = d.work.home

theorem State.homeLaw_of_bare {s t : State} (h : t.bare = s.bare) (hs : s.HomeLaw) : t.HomeLaw :=
  State.of_bare (P := State.HomeLaw) (fun _ => Iff.rfl) h hs

/-- R2: a derivation of PROVISION stands in UNPROVISIONED. -/
theorem State.HomeLaw.unprovisioned {s : State} (h : s.HomeLaw) (hd : ∃ d ∈ s.derivation, d.work.home = .unprovisioned) :
    s.life.lifecycle = .unprovisioned := by
  obtain ⟨d, hd, hw⟩ := hd
  exact (h d hd).trans hw

/-- R26: in WIPING no derivation is in flight. -/
theorem State.HomeLaw.none_of_wiping {s : State} (h : s.HomeLaw) (hl : s.life.lifecycle = .wiping) :
    s.derivation = none := by
  cases hd : s.derivation with
  | none => rfl
  | some d =>
    have hhome := h d hd
    rw [hl] at hhome
    cases hw : d.work <;> rw [hw] at hhome <;> cases hhome

/-- Changes of desired states leave claims, jobs, derivations and records. -/
theorem State.ClaimLaw.changeDesired {s : State} (h : s.ClaimLaw) (g : Vector Gates 16) (v : View) :
    (s.changeDesired g v).ClaimLaw := by
  obtain ⟨q, f, hform⟩ := s.changeDesired_form g v
  rw [hform]; exact h

theorem State.ClaimLaw.enqueueDiffering {s : State} (h : s.ClaimLaw) : s.enqueueDiffering.ClaimLaw := by
  unfold State.enqueueDiffering
  split <;> exact h

theorem State.ClaimLaw.purge {s : State} (h : s.ClaimLaw) : s.purge.ClaimLaw := by
  unfold State.purge
  split <;> exact h

theorem State.HomeLaw.changeDesired {s : State} (h : s.HomeLaw) (g : Vector Gates 16) (v : View) :
    (s.changeDesired g v).HomeLaw := by
  obtain ⟨q, f, hform⟩ := s.changeDesired_form g v
  rw [hform]; exact h

theorem State.HomeLaw.enqueueDiffering {s : State} (h : s.HomeLaw) : s.enqueueDiffering.HomeLaw := by
  unfold State.enqueueDiffering
  split <;> exact h

theorem State.HomeLaw.purge {s : State} (h : s.HomeLaw) : s.purge.HomeLaw := by
  unfold State.purge
  split <;> exact h

/-- Every move keeps the claim law, beside the home of a derivation. -/
theorem Move.claimLaw {s t : State} (h : Move s t) (hhome : s.HomeLaw) (hs : s.ClaimLaw) : t.ClaimLaw := by
  have hb : ∀ {u : State}, t.bare = u.bare → u.ClaimLaw → t.ClaimLaw := State.claimLaw_of_bare
  have hs' := hs
  obtain ⟨hclaim, hjob⟩ := hs'
  cases h
  case record sets u hu _ _ h => exact hb h (State.claimLaw_of_bare (t := u) hu hs)
  case desired g v _ h => exact hb h (hs.changeDesired g v)
  case handOn j h =>
    refine hb h ?_
    obtain ⟨q, f, hform⟩ := s.handOn_form j
    rw [hform]; exact hs
  case purge h => exact hb h hs.purge
  case provision sets u hd hu _ h =>
    have hnot : s.life.lifecycle ≠ .wiping := by rw [hhome.unprovisioned hd]; decide
    exact hb h (State.claimLaw_of_bare (t := u) hu (hs.of_not_wiping hnot _))
  case wipeStart sets u _ _ _ hu hlife _ h => exact hb h ⟨fun _ => hlife, fun _ _ _ => rfl⟩
  case wipeEnd sets u _ hu _ _ _ h => exact hb h ⟨fun hc => (by cases hc), fun _ hj => (by cases hj)⟩
  case rootLost sets u _ hu _ _ _ h => exact hb h ⟨fun hc => (by cases hc), fun _ hj => (by cases hj)⟩
  case job j hm h =>
    refine hb h ⟨hclaim, fun i hi ho => ((hm i hi).1 ho).elim id fun hw => ?_⟩
    obtain ⟨i', hi', ho'⟩ := hw
    exact hjob i' hi' ho'
  case claim hl h => exact hb h ⟨fun _ => hl, fun _ _ _ => rfl⟩
  case faultPurge _ h => exact hb h (State.ClaimLaw.purge (s := { s with inFlight := none }) hs)
  case restart _ h =>
    exact hb h (State.ClaimLaw.enqueueDiffering (s := { s with linkState := .running, faultRun := 0 }) hs)
  case pulseEnd _ h => exact hb h (State.ClaimLaw.enqueueDiffering (s := { s with kpurge := none }) hs)
  case accept f _ _ _ h =>
    refine hb h ?_
    unfold State.accept State.acceptTransfer
    cases f.transfer <;> exact hs
  case takeGrants _ h =>
    refine hb h ?_
    unfold State.takeGrants
    split <;> exact hs
  case activate g u _ hu h =>
    have hu' : u.ClaimLaw := State.claimLaw_of_bare hu hs
    refine hb h (State.ClaimLaw.enqueueDiffering ?_)
    split
    · exact hu'
    · exact hu'.changeDesired g .hidden
  all_goals (rename_i h; exact hb h hs)

/-- Every move keeps the home of a derivation, beside the claim law. -/
theorem Move.homeLaw {s t : State} (h : Move s t) (hclaim : s.ClaimLaw) (hs : s.HomeLaw) : t.HomeLaw := by
  have hb : ∀ {u : State}, t.bare = u.bare → u.HomeLaw → t.HomeLaw := State.homeLaw_of_bare
  have hgone : ∀ {u : State}, u.derivation = none → u.HomeLaw := fun hn d hd => by rw [hn] at hd; cases hd
  cases h
  case record sets u hu _ _ h => exact hb h (State.homeLaw_of_bare (t := u) hu hs)
  case desired g v _ h => exact hb h (hs.changeDesired g v)
  case handOn j h =>
    refine hb h ?_
    obtain ⟨q, f, hform⟩ := s.handOn_form j
    rw [hform]; exact hs
  case purge h => exact hb h hs.purge
  case abandon h => exact hb h (hgone rfl)
  case derive d hd h =>
    refine hb h fun d' hd' => ?_
    cases hd'
    rcases hd with ⟨-, hl⟩ | ⟨d', hd', hw⟩
    · exact hl
    · exact (hs d' hd').trans hw
  case provision sets u _ hu _ h =>
    exact hb h (hgone (State.derivation_of_bare hu :))
  case wipeStart sets u _ hd _ hu _ _ h => exact hb h (hgone ((State.derivation_of_bare hu :).trans hd))
  case wipeEnd sets u hj hu _ _ _ h =>
    exact hb h (hgone ((State.derivation_of_bare hu :).trans (hs.none_of_wiping (hclaim.wiping hj))))
  case rootLost sets u hj hu _ _ _ h =>
    exact hb h (hgone ((State.derivation_of_bare hu :).trans (hs.none_of_wiping (hclaim.wiping hj))))
  case faultPurge _ h => exact hb h (State.HomeLaw.purge (s := { s with inFlight := none }) hs)
  case restart _ h =>
    exact hb h (State.HomeLaw.enqueueDiffering (s := { s with linkState := .running, faultRun := 0 }) hs)
  case pulseEnd _ h => exact hb h (State.HomeLaw.enqueueDiffering (s := { s with kpurge := none }) hs)
  case accept f _ _ _ h =>
    refine hb h ?_
    unfold State.accept State.acceptTransfer
    cases f.transfer <;> exact hs
  case takeGrants _ h =>
    refine hb h ?_
    unfold State.takeGrants
    split <;> exact hs
  case activate g u _ hu h =>
    have hu' : u.HomeLaw := State.homeLaw_of_bare hu hs
    refine hb h (State.HomeLaw.enqueueDiffering ?_)
    split
    · exact hu'
    · exact hu'.changeDesired g .hidden
  all_goals (rename_i h; exact hb h hs)

/-! ### Grants -/

/-- R148 to R150 without the mode of an intent. -/
def State.SuspendLaw (s : State) : Prop :=
  (s.intent.isSome → s.evid.stage = .calm)
    ∧ (s.grants ≠ [] → (s.mode = .aux ∨ s.mode = .starting) ∧ s.evid.stage = .calm)
    ∧ (s.grants.map Grant.range).Nodup
    ∧ ∀ g ∈ s.grants, g.gates.anyOpen

theorem State.suspendLaw_of_bare {s t : State} (h : t.bare = s.bare) (hs : s.SuspendLaw) : t.SuspendLaw :=
  State.of_bare (P := State.SuspendLaw) (fun _ => Iff.rfl) h hs

/-- Where no grant and no intent stands. -/
theorem State.Unsuspended.suspendLaw {s : State} (h : s.Unsuspended) : s.SuspendLaw := by
  obtain ⟨hg, hi⟩ := h
  refine ⟨fun h => ?_, fun h => absurd hg h, ?_, ?_⟩
  · rw [hi] at h; cases h
  · rw [hg]; exact List.nodup_nil
  · rw [hg]; intro _ h; cases h

/-- In CALM the stage asks nothing. -/
theorem State.SuspendLaw.of_calm {s : State} (h : s.SuspendLaw) {e : Evidence} (he : e.stage = .calm) :
    State.SuspendLaw { s with evid := e } := by
  obtain ⟨-, hg, hnodup, hopen⟩ := h
  exact ⟨fun _ => he, fun h => ⟨(hg h).1, he⟩, hnodup, hopen⟩

theorem State.SuspendLaw.changeDesired {s : State} (h : s.SuspendLaw) (g : Vector Gates 16) (v : View) :
    (s.changeDesired g v).SuspendLaw := by
  obtain ⟨q, f, hform⟩ := s.changeDesired_form g v
  rw [hform]; exact h

theorem State.SuspendLaw.enqueueDiffering {s : State} (h : s.SuspendLaw) : s.enqueueDiffering.SuspendLaw := by
  unfold State.enqueueDiffering
  split <;> exact h

theorem State.SuspendLaw.purge {s : State} (h : s.SuspendLaw) : s.purge.SuspendLaw := by
  unfold State.purge
  split <;> exact h

/-- R149: one grant for a range, each with a gate OPEN. -/
theorem State.grantsFor_lawful (i : Intent) (s : State) :
    ((s.grantsFor i).map Grant.range).Nodup ∧ ∀ g ∈ s.grantsFor i, g.gates.anyOpen := by
  unfold State.grantsFor
  constructor
  · rw [List.map_filterMap]
    refine List.Nodup.filterMap (fun a a' b hb hb' => ?_) (by decide)
    simp only [Option.mem_def, Option.map_eq_some_iff] at hb hb'
    obtain ⟨x, hx, rfl⟩ := hb
    obtain ⟨y, hy, hxy⟩ := hb'
    split_ifs at hx hy
    cases hx; cases hy
    exact hxy.symm
  · intro g hg
    obtain ⟨k, -, hk⟩ := List.mem_filterMap.1 hg
    split_ifs at hk with hopen
    cases hk
    exact hopen.1

/-- Every move keeps it. -/
theorem Move.suspendLaw {s t : State} (h : Move s t) (hs : s.SuspendLaw) : t.SuspendLaw := by
  have hb : ∀ {u : State}, t.bare = u.bare → u.SuspendLaw → t.SuspendLaw := State.suspendLaw_of_bare
  have hs' := hs
  obtain ⟨hintent, hgrants, hnodup, hopen⟩ := hs'
  cases h
  case record sets u hu _ hstand h =>
    refine hb h (State.suspendLaw_of_bare (t := u) hu ?_)
    rcases hstand with heq | hcalm | ⟨-, hun⟩ | ⟨-, hshut⟩
    · refine ⟨fun h => ?_, fun h => ⟨(hgrants h).1, ?_⟩, hnodup, hopen⟩
      · exact heq.trans (hintent h)
      · exact heq.trans (hgrants h).2
    · exact hs.of_calm hcalm
    · exact State.Unsuspended.suspendLaw hun
    · exact State.Unsuspended.suspendLaw hshut.2.2.1
  case desired g v _ h => exact hb h (hs.changeDesired g v)
  case handOn j h =>
    refine hb h ?_
    obtain ⟨q, f, hform⟩ := s.handOn_form j
    rw [hform]; exact hs
  case purge h => exact hb h hs.purge
  case withdraw gs i hg hi h =>
    refine hb h ⟨fun hsome => ?_, fun hne => hgrants fun he => hne ?_, (hg.map _).nodup hnodup,
      fun g hmem => hopen g (hg.subset hmem)⟩
    · rcases hi with rfl | rfl
      · cases hsome
      · exact hintent hsome
    · rw [he] at hg; exact List.sublist_nil.1 hg
  case intend i _ hcalm _ h => exact hb h ⟨fun _ => hcalm, hgrants, hnodup, hopen⟩
  case provision sets u _ hu _ h =>
    exact hb h (State.suspendLaw_of_bare (t := u) hu (hs.of_calm (e := .factory) rfl))
  case wipeStart sets u hshut _ _ hu _ _ h =>
    refine hb h (State.suspendLaw_of_bare (t := u) hu ?_)
    exact State.Unsuspended.suspendLaw hshut.2.2.1
  case wipeEnd sets u _ hu _ hcalm _ h =>
    exact hb h (State.suspendLaw_of_bare (t := u) hu (hs.of_calm hcalm))
  case rootLost sets u _ hu _ hsame _ h =>
    refine hb h (State.suspendLaw_of_bare (t := u) hu
      ⟨fun h => hsame.trans (hintent h), fun h => ⟨(hgrants h).1, hsame.trans (hgrants h).2⟩, hnodup, hopen⟩)
  case faultPurge _ h => exact hb h (State.SuspendLaw.purge (s := { s with inFlight := none }) hs)
  case restart _ h =>
    exact hb h (State.SuspendLaw.enqueueDiffering (s := { s with linkState := .running, faultRun := 0 }) hs)
  case pulseEnd _ h => exact hb h (State.SuspendLaw.enqueueDiffering (s := { s with kpurge := none }) hs)
  case accept f _ _ _ h =>
    refine hb h ?_
    unfold State.accept State.acceptTransfer
    cases f.transfer <;> exact hs
  case takeGrants hm h =>
    refine hb h ?_
    unfold State.takeGrants
    split
    · next i hi =>
      have hcalm := hintent (by rw [hi]; rfl)
      obtain ⟨hnodup', hopen'⟩ := s.grantsFor_lawful i
      exact ⟨fun h => (by cases h), fun _ => ⟨.inl hm, hcalm⟩, hnodup', hopen'⟩
    · exact hs
  case activate g u _ hu h =>
    have hu' : u.SuspendLaw := State.suspendLaw_of_bare hu
      ⟨hintent, fun h => absurd rfl h, List.nodup_nil, fun _ h => (by cases h)⟩
    refine hb h (State.SuspendLaw.enqueueDiffering ?_)
    split
    · exact hu'
    · exact hu'.changeDesired g .hidden
  case enterAux _ h => exact hb h ⟨hintent, fun h => ⟨.inl rfl, (hgrants h).2⟩, hnodup, hopen⟩
  case beginStarting _ _ h => exact hb h ⟨hintent, fun h => ⟨.inr rfl, (hgrants h).2⟩, hnodup, hopen⟩
  all_goals (rename_i h; exact hb h hs)

/-! ### Access withdrawn -/

theorem State.withdrawnLaw_of_bare {s t : State} (h : t.bare = s.bare) (hs : s.WithdrawnLaw) : t.WithdrawnLaw :=
  State.of_bare (P := State.WithdrawnLaw) (fun _ => Iff.rfl) h hs

/-- R68: what is restricted after a change of the stage below WIPE. -/
theorem State.restricted_iff (s : State) :
    s.restricted = true ↔ (s.evid.stage = .lockdown ∨ s.evid.stage = .wipe ∨ s.life.lifecycle = .wiping
      ∨ s.life.lifecycle = .disabled) := by
  simp [State.restricted, or_assoc]

/-- A change of desired states leaves what restricts. -/
theorem State.changeDesired_restricted (g : Vector Gates 16) (v : View) (s : State) :
    (s.changeDesired g v).restricted = s.restricted := by
  obtain ⟨q, f, h⟩ := s.changeDesired_form g v
  rw [h]; rfl

theorem State.enqueueDiffering_restricted (s : State) : s.enqueueDiffering.restricted = s.restricted := by
  unfold State.enqueueDiffering
  split <;> rfl

/-- R52, R108: what is shut gives no access. -/
theorem State.Shut.withdrawn {s : State} (h : s.Shut) (hlink : s.LinkLaw) :
    s.gates = allClosed ∧ s.shadow = .shown ∧ s.grants = [] ∧ s.intent = none ∧ s.inFlight = none := by
  obtain ⟨hg, hv, ⟨hgr, hi⟩, hf⟩ := h
  obtain ⟨-, -, -, hpulse, -, -⟩ := hlink
  exact ⟨hg, hv, hgr, hi, hf.elim hpulse id⟩

/-- A gate that a CLOSED one does not exceed is CLOSED. -/
theorem Gates.eq_closed_of_exceed {g : Gates} (h : g.exceed .closed = false) : g = .closed := by
  obtain ⟨r, w⟩ := g
  cases r <;> cases w <;> first | rfl | cases h

/-- Gates that open nothing beside closed ones are closed. -/
theorem State.Closes.eq_allClosed {s : State} {g : Vector Gates 16} {v : View} (h : s.Closes g v)
    (hs : s.gates = allClosed) : g = allClosed := by
  obtain ⟨hg, -⟩ := h
  refine Vector.ext fun i hi => ?_
  have hk := hg ⟨i, hi⟩
  have hclosed : s.gates[(⟨i, hi⟩ : Fin 16)] = .closed := by rw [hs]; simp [allClosed]
  rw [hclosed] at hk
  rw [show g[i] = .closed from Gates.eq_closed_of_exceed hk]
  simp [allClosed]

/-- Closing a lock-on set of closed gates. -/
theorem closeLockOn_allClosed (selects : Editable → Bool) (l : Layout) : closeLockOn selects l allClosed = allClosed := by
  unfold closeLockOn
  refine Vector.ext fun i hi => ?_
  simp [allClosed]

/-- What gives no access: the withdrawn law's conclusion. -/
def State.Withdrawn (s : State) : Prop :=
  s.gates = allClosed ∧ s.shadow = .shown ∧ s.grants = [] ∧ s.intent = none
    ∧ ∀ f ∈ s.inFlight, f.transfer.gives = false

/-- A change of desired states that opens nothing gives none. -/
theorem State.Withdrawn.changeDesired {s : State} (h : s.Withdrawn) {g : Vector Gates 16} {v : View}
    (hc : s.Closes g v) : (s.changeDesired g v).Withdrawn := by
  have hflight := s.changeDesired_sameFlight g v
  obtain ⟨hg, hv, hgr, hi, hf⟩ := h
  have hshown : v = .shown := hc.2.elim id fun h => h.trans hv
  have hclosed := hc.eq_allClosed hg
  have hfields : (s.changeDesired g v).gates = g ∧ (s.changeDesired g v).shadow = v
      ∧ (s.changeDesired g v).grants = s.grants ∧ (s.changeDesired g v).intent = s.intent := by
    obtain ⟨q, f, hform⟩ := s.changeDesired_form g v
    rw [hform]; exact ⟨rfl, rfl, rfl, rfl⟩
  obtain ⟨h1, h2, h3, h4⟩ := hfields
  refine ⟨h1.trans hclosed, h2.trans hshown, h3.trans hgr, h4.trans hi, fun x hx => ?_⟩
  obtain ⟨f, hf', -, htransfer, -⟩ := hflight x hx
  rw [htransfer]; exact hf f hf'

/-- R68: where access is restricted a comparison sends nothing that gives it. -/
theorem State.MaySend.gives {s : State} {j : Fin 17} {t : Transfer} {m : Vector MirrorRecord 16}
    (h : s.MaySend j t m) (hr : s.restricted = true) : t.gives = false := by
  have hwant : ∀ k, (s.wantGates k).anyOpen = false := fun k => by
    unfold State.wantGates
    rw [if_pos hr]; rfl
  rcases h with ⟨k, _, _, _, -, rfl, hopen, -⟩ | ⟨k, -, rfl, hopen, -⟩ | ⟨k, -, rfl, -⟩ | ⟨-, rfl, -⟩
  · rw [hwant k] at hopen; cases hopen
  · rw [hwant k] at hopen; cases hopen
  · rfl
  · unfold State.wantView
    rw [if_pos hr]; rfl

/-- What a state shares with another that gives no access. -/
theorem State.Withdrawn.of_eq {s t : State} (h : s.Withdrawn) (hg : t.gates = s.gates) (hv : t.shadow = s.shadow)
    (hgr : t.grants = s.grants) (hi : t.intent = s.intent) (hf : s.SameFlight t) : t.Withdrawn := by
  obtain ⟨h1, h2, h3, h4, h5⟩ := h
  refine ⟨hg.trans h1, hv.trans h2, hgr.trans h3, hi.trans h4, fun x hx => ?_⟩
  obtain ⟨f, hf', -, htransfer, -⟩ := hf x hx
  rw [htransfer]; exact h5 f hf'

/-- Every move keeps the withdrawal of access, beside the link and claim laws. -/
theorem Move.withdrawnLaw {s t : State} (h : Move s t) (hlink : s.LinkLaw) (hclaim : s.ClaimLaw)
    (hs : s.WithdrawnLaw) : t.WithdrawnLaw := by
  have hb : ∀ {u : State}, t.bare = u.bare → u.WithdrawnLaw → t.WithdrawnLaw := State.withdrawnLaw_of_bare
  have hw : s.restricted = true → s.Withdrawn := hs
  cases h
  case record sets u hu _ hstand h =>
    refine hb h (State.withdrawnLaw_of_bare (t := u) hu fun hr => ?_)
    have hkeep : s.restricted = true → s.Withdrawn := hw
    rw [State.restricted_iff] at hr
    have hrecords : (u.evid.stage = .lockdown ∧ s.Shut) ∨ s.restricted = true := by
      rcases hstand with heq | hcalm | ⟨halert, -⟩ | ⟨hlock, hshut⟩
      · refine .inr ((State.restricted_iff s).2 ?_)
        rw [← heq]; exact hr
      · refine .inr ((State.restricted_iff s).2 ?_)
        change u.evid.stage = _ ∨ u.evid.stage = _ ∨ s.life.lifecycle = _ ∨ s.life.lifecycle = _ at hr
        rw [hcalm] at hr
        rcases hr with hr | hr | hr
        · cases hr
        · cases hr
        · exact .inr (.inr hr)
      · refine .inr ((State.restricted_iff s).2 ?_)
        change u.evid.stage = _ ∨ u.evid.stage = _ ∨ s.life.lifecycle = _ ∨ s.life.lifecycle = _ at hr
        rw [halert] at hr
        rcases hr with hr | hr | hr
        · cases hr
        · cases hr
        · exact .inr (.inr hr)
      · exact .inl ⟨hlock, hshut⟩
    rcases hrecords with ⟨-, hshut⟩ | hrs
    · obtain ⟨h1, h2, h3, h4, h5⟩ := hshut.withdrawn hlink
      refine ⟨h1, h2, h3, h4, fun f hf => ?_⟩
      have hf' : s.inFlight = some f := hf
      rw [h5] at hf'; cases hf'
    · exact hw hrs
  case desired g v hg h =>
    refine hb h fun hr => ?_
    have hrs : s.restricted = true := by
      obtain ⟨q, f, hform⟩ := s.changeDesired_form g v
      rw [hform] at hr; exact hr
    rcases hg with hg | hg
    · rw [hg] at hrs; cases hrs
    · exact (hw hrs).changeDesired hg
  case handOn j h =>
    refine hb h fun hr => ?_
    have hflight := s.handOn_sameFlight j
    obtain ⟨q, f, hform⟩ := s.handOn_form j
    rw [hform] at hr hflight ⊢
    exact (hw hr).of_eq rfl rfl rfl rfl hflight
  case purge h =>
    refine hb h ?_
    unfold State.purge
    split
    · exact hs
    · intro hr
      obtain ⟨h1, h2, h3, h4, -⟩ := hw hr
      exact ⟨h1, h2, h3, h4, fun _ h => (by cases h)⟩
  case withdraw gs i hg hi h =>
    refine hb h fun hr => ?_
    obtain ⟨h1, h2, h3, h4, h5⟩ := hw hr
    refine ⟨h1, h2, ?_, ?_, h5⟩
    · rw [h3] at hg; exact List.sublist_nil.1 hg
    · exact hi.elim id fun h => h.trans h4
  case intend i _ _ hfree h =>
    refine hb h fun hr => ?_
    have hr' : s.restricted = true := hr
    rw [hfree] at hr'; cases hr'
  case provision sets u _ hu _ h =>
    refine hb h (State.withdrawnLaw_of_bare (t := u) hu fun hr => ?_)
    cases hr
  case wipeStart sets u hshut _ _ hu _ _ h =>
    refine hb h (State.withdrawnLaw_of_bare (t := u) hu fun _ => ?_)
    obtain ⟨h1, h2, h3, h4, h5⟩ := hshut.withdrawn hlink
    refine ⟨h1, h2, h3, h4, fun f hf => ?_⟩
    have hf' : s.inFlight = some f := hf
    rw [h5] at hf'; cases hf'
  case wipeEnd sets u _ _ hlife hcalm _ h =>
    refine hb h fun hr => ?_
    rw [State.restricted_iff] at hr
    change u.evid.stage = _ ∨ u.evid.stage = _ ∨ u.life.lifecycle = _ ∨ u.life.lifecycle = _ at hr
    rw [hlife, hcalm] at hr
    simp at hr
  case rootLost sets u hj hu _ _ _ h =>
    have hrs : s.restricted = true := (State.restricted_iff s).2 (.inr (.inr (.inl (hclaim.wiping hj))))
    refine hb h fun _ => (hw hrs).of_eq ?_ ?_ ?_ ?_ fun _ h => (by cases h)
    · exact (congrArg (fun x : State => x.gates) hu :)
    · exact (congrArg (fun x : State => x.shadow) hu :)
    · exact (congrArg (fun x : State => x.grants) hu :)
    · exact (congrArg (fun x : State => x.intent) hu :)
  case faultPurge _ h =>
    refine hb h ?_
    unfold State.purge
    split
    · exact fun hr => (hw hr).of_eq rfl rfl rfl rfl fun _ h => (by cases h)
    · exact fun hr => (hw hr).of_eq rfl rfl rfl rfl fun _ h => (by cases h)
  case restart _ h =>
    refine hb h ?_
    unfold State.enqueueDiffering
    split
    · exact hs
    · exact hs
  case pulseEnd _ h =>
    refine hb h ?_
    unfold State.enqueueDiffering
    split
    · exact hs
    · exact hs
  case accept f _ _ _ h =>
    refine hb h ?_
    unfold State.accept State.acceptTransfer
    cases f.transfer <;> exact fun hr => (hw hr).of_eq rfl rfl rfl rfl fun _ h => (by cases h)
  case send j rest f m hq hl hf hsend h =>
    refine hb h fun hr => ?_
    obtain ⟨h1, h2, h3, h4, -⟩ := hw hr
    refine ⟨h1, h2, h3, h4, fun g hg => ?_⟩
    cases hg
    exact hsend.gives hr
  case takeGrants hm h =>
    refine hb h fun hr => ?_
    have hrs : s.restricted = true := by
      unfold State.takeGrants at hr
      split at hr <;> exact hr
    obtain ⟨h1, h2, h3, h4, h5⟩ := hw hrs
    unfold State.takeGrants
    split
    · next hi => rw [h4] at hi; cases hi
    · have hgates := congrArg (closeLockOn (fun e => e.lockOn.power) s.layout) h1
      exact ⟨hgates.trans (closeLockOn_allClosed _ _), h2, h3, h4, h5⟩
  case activate g u _ hu h =>
    refine hb h fun hr => ?_
    have hsame : u.restricted = s.restricted :=
      State.of_bare (P := fun v => v.restricted = s.restricted) (fun _ => Iff.rfl) hu rfl
    have hrs : s.restricted = true := by
      rw [State.enqueueDiffering_restricted] at hr
      split at hr
      · rwa [hsame] at hr
      · rwa [State.changeDesired_restricted, hsame] at hr
    obtain ⟨h1, h2, h3, h4, h5⟩ := hw hrs
    rw [if_pos h3]
    have hu' : u.Withdrawn := by
      have hbare : State.Withdrawn
          { s with mode := .active, linkState := .running, faultRun := 0, grants := [], reservoirWait := none } :=
        ⟨h1, h2, rfl, h4, h5⟩
      exact State.of_bare (P := State.Withdrawn) (fun _ => Iff.rfl) hu hbare
    unfold State.enqueueDiffering
    split
    · exact hu'
    · exact hu'
  case beginStarting _ _ h =>
    refine hb h fun hr => ?_
    obtain ⟨h1, -, h3, h4, h5⟩ := hw hr
    exact ⟨h1, rfl, h3, h4, h5⟩
  all_goals (rename_i h; exact hb h hs)

end Sys2Proof.Machine
end

