-- ==== Sys2Proof/Proofs/MirrorLaw.lean ====
section
/-! What the moves keep of the mirror (R80): while the range table holds a gate closed that the mirror shows open, the
slot is queued or in flight. -/

namespace Sys2Proof.Machine

/-! ### Slots handed on -/

/-- A slot is queued, or in flight with the rejoin mark (R64). -/
def State.Queued (s : State) (j : Fin 17) : Prop :=
  j ∈ s.queue ∨ ∃ f ∈ s.inFlight, f.slot = j ∧ f.rejoin = true

/-- From `s` to `t` no slot leaves the queue, and the transfer in flight stays. -/
structure State.HandsOn (s t : State) : Prop where
  queue : ∀ j ∈ s.queue, j ∈ t.queue
  flight : s.SameFlight t
  stays : ∀ f ∈ s.inFlight, ∃ g ∈ t.inFlight, g.slot = f.slot ∧ (f.rejoin = true → g.rejoin = true)

theorem State.HandsOn.refl (s : State) : s.HandsOn s := ⟨fun _ => id, .of_eq rfl, fun f hf => ⟨f, hf, rfl, id⟩⟩

theorem State.HandsOn.trans {s t u : State} (h : s.HandsOn t) (h' : t.HandsOn u) : s.HandsOn u := by
  refine ⟨fun j hj => h'.queue j (h.queue j hj), h.flight.trans h'.flight, fun f hf => ?_⟩
  obtain ⟨g, hg, hslot, hrejoin⟩ := h.stays f hf
  obtain ⟨x, hx, hslot', hrejoin'⟩ := h'.stays g hg
  exact ⟨x, hx, hslot'.trans hslot, hrejoin' ∘ hrejoin⟩

theorem State.HandsOn.queued {s t : State} (h : s.HandsOn t) {j : Fin 17} (hj : s.Queued j) : t.Queued j := by
  rcases hj with hj | ⟨f, hf, hslot, hrejoin⟩
  · exact .inl (h.queue j hj)
  · obtain ⟨g, hg, hslot', hrejoin'⟩ := h.stays f hf
    exact .inr ⟨g, hg, hslot'.trans hslot, hrejoin' hrejoin⟩

/-- R64: a hand-on. -/
theorem State.handOn_handsOn (j : Fin 17) (s : State) : s.HandsOn (s.handOn j) := by
  have hflight := s.handOn_sameFlight j
  unfold State.handOn at hflight ⊢
  split
  · exact .refl s
  split
  · exact .refl s
  next hactive hq =>
  rw [if_neg hactive, if_neg hq] at hflight
  split
  · next f hf =>
    rw [hf] at hflight
    split
    · next hslot =>
      dsimp only at hflight
      rw [if_pos hslot] at hflight
      refine ⟨fun _ => id, hflight, fun g hg => ⟨_, rfl, ?_⟩⟩
      have hfg : f = g := Option.some.inj (hf.symm.trans hg)
      exact ⟨by rw [hfg], fun _ => rfl⟩
    · exact ⟨fun i hi => List.mem_append_left _ hi, .of_eq rfl, fun g hg => ⟨g, hg, rfl, id⟩⟩
  · exact ⟨fun i hi => List.mem_append_left _ hi, .of_eq rfl, fun g hg => ⟨g, hg, rfl, id⟩⟩

/-- R64: in ACTIVE and out of DISABLED a slot that is handed on is queued. -/
theorem State.handOn_queued (j : Fin 17) (s : State) (hm : s.mode = .active) (hl : s.life.lifecycle ≠ .disabled) :
    (s.handOn j).Queued j := by
  unfold State.handOn
  rw [if_neg (by simp [hm, hl])]
  split
  · next hq => exact .inl hq
  split
  · split
    · next hslot => exact .inr ⟨_, rfl, hslot, rfl⟩
    · exact .inl (List.mem_append_right _ (List.mem_singleton_self j))
  · exact .inl (List.mem_append_right _ (List.mem_singleton_self j))

/-- R48: hand-ons, one after the other. -/
theorem State.handOnAll_handsOn (js : List (Fin 17)) (s : State) : s.HandsOn (s.handOnAll js) := by
  unfold State.handOnAll
  exact List.foldlRecOn _ _ (.refl s) fun u hu j _ => hu.trans (u.handOn_handsOn j)

/-- R48: what they hand on is queued. -/
theorem State.handOnAll_queued (js : List (Fin 17)) (s : State) (hm : s.mode = .active)
    (hl : s.life.lifecycle ≠ .disabled) : ∀ j ∈ js, (s.handOnAll js).Queued j := by
  induction js generalizing s with
  | nil => intro j hj; cases hj
  | cons i js ih =>
    have hform : (s.handOn i).mode = .active ∧ (s.handOn i).life.lifecycle ≠ .disabled := by
      obtain ⟨q, f, h⟩ := s.handOn_form i
      rw [h]; exact ⟨hm, hl⟩
    intro j hj
    rcases List.mem_cons.1 hj with rfl | hj
    · exact (State.handOnAll_handsOn js (s.handOn j)).queued (s.handOn_queued j hm hl)
    · exact ih _ hform.1 hform.2 j hj

/-- R48: a change of desired states hands on. -/
theorem State.changeDesired_handsOn (g : Vector Gates 16) (v : View) (s : State) : s.HandsOn (s.changeDesired g v) := by
  have h := State.handOnAll_handsOn (changedSlots s.gates g s.shadow v)
    (State.dropRootIfClosed s.anyGateOpen { s with gates := g, shadow := v })
  rw [State.dropRootIfClosed_form] at h
  unfold State.changeDesired
  rw [State.dropRootIfClosed_form]
  exact ⟨h.queue, h.flight, h.stays⟩

/-- R48: a range whose gates change is among the slots that change. -/
theorem mem_changedSlots {g g' : Vector Gates 16} {k : Fin 16} (h : g'[k] ≠ g[k]) (v v' : View) :
    rangeSlot k ∈ changedSlots g g' v v' := by
  unfold changedSlots
  refine List.mem_append_left _ (List.mem_map.2 ⟨k, List.mem_filter.2 ⟨mem_allRanges k, ?_⟩, rfl⟩)
  simpa using fun h' => h h'.symm

/-- R48: a range whose gates change is queued. -/
theorem State.changeDesired_queued (g : Vector Gates 16) (v : View) (s : State) (hm : s.mode = .active)
    (hl : s.life.lifecycle ≠ .disabled) {k : Fin 16} (hk : g[k] ≠ s.gates[k]) :
    (s.changeDesired g v).Queued (rangeSlot k) := by
  unfold State.changeDesired
  refine State.handOnAll_queued _ _ ?_ ?_ _ (mem_changedSlots hk _ _)
  · rw [State.dropRootIfClosed_form]; exact hm
  · rw [State.dropRootIfClosed_form]; exact hl

/-! ### The mirror law -/

theorem State.mirrorLaw_of_bare {s t : State} (h : t.bare = s.bare) (hs : s.MirrorLaw) : t.MirrorLaw :=
  State.of_bare (P := State.MirrorLaw) (fun _ => Iff.rfl) h hs

/-- R62: an EMPTY record shows every gate CLOSED. -/
theorem emptyMirror_get (k : Fin 16) : emptyMirror[k] = MirrorRecord.none := by simp [emptyMirror]

/-- An empty mirror and no transfer meet the law, whatever the mode. -/
theorem State.mirrorLaw_of_empty {s : State} (hm : s.mirror = emptyMirror) (hf : s.inFlight = none) : s.MirrorLaw := by
  refine ⟨fun k _ he => ?_, ?_, ?_, fun k _ => ?_, fun _ => hm⟩
  · rw [hm, emptyMirror_get] at he; cases he
  · rw [hf]; intro _ h; cases h
  · rw [hf]; intro _ h; cases h
  · rw [hm, emptyMirror_get]; rfl

/-- R68: a transfer that gives no access leaves no gate open that is closed. -/
theorem Transfer.leaves_of_not_gives {t : Transfer} (h : t.gives = false) {x : Fin 16 × Gates} (hx : x ∈ t.leaves) :
    x.2 = .closed := by
  cases t with
  | load => cases h
  | gates => cases h
  | clear k => cases hx; rfl
  | shadow => cases hx

/-- Hand-ons that leave the gates keep it. -/
theorem State.MirrorLaw.of_handsOn {s t : State} (h : s.MirrorLaw) (hh : s.HandsOn t) (hm : t.mirror = s.mirror)
    (hg : t.gates = s.gates) (hl : t.life = s.life) (hmode : t.mode = s.mode) : t.MirrorLaw := by
  obtain ⟨hshown, hown, hrejoin, hclosed, hempty⟩ := h
  refine ⟨fun k hk he => ?_, fun f hf => ?_, fun f hf x hx he => ?_, fun k hk => ?_, fun ha => ?_⟩
  · rw [hl] at hk
    rw [hm, hg] at he
    rcases hshown k hk he with hq | ⟨f, hf, hslot⟩
    · exact .inl (hh.queue _ hq)
    · obtain ⟨x, hx, hslot', -⟩ := hh.stays f hf
      exact .inr ⟨x, hx, hslot'.trans hslot⟩
  · obtain ⟨f', hf', hslot, htransfer, -⟩ := hh.flight f hf
    rw [htransfer, hslot]; exact hown f' hf'
  · obtain ⟨f', hf', -, htransfer, hr⟩ := hh.flight f hf
    rw [htransfer] at hx
    rw [hg] at he
    exact hr (hrejoin f' hf' x hx he)
  · rw [hm] at hk ⊢; exact hclosed k hk
  · rw [hm]; exact hempty (hmode ▸ ha)

/-- R48: a change of desired states keeps it. -/
theorem State.MirrorLaw.changeDesired {s : State} (h : s.MirrorLaw) (hlink : s.LinkLaw)
    (hgives : s.life.lifecycle = .disabled → ∀ f ∈ s.inFlight, f.transfer.gives = false) (g : Vector Gates 16)
    (v : View) : (s.changeDesired g v).MirrorLaw := by
  have hlink' := hlink.changeDesired g v
  have hhands := s.changeDesired_handsOn g v
  have hnone := s.changeDesired_inFlight_none g v
  have hqueued := fun hm hl k hk => s.changeDesired_queued g v hm hl (k := k) hk
  have hfields : (s.changeDesired g v).mirror = s.mirror ∧ (s.changeDesired g v).gates = g
      ∧ (s.changeDesired g v).life = s.life ∧ (s.changeDesired g v).mode = s.mode := by
    obtain ⟨q, f, hform⟩ := s.changeDesired_form g v
    rw [hform]; exact ⟨rfl, rfl, rfl, rfl⟩
  generalize s.changeDesired g v = t at hlink' hhands hnone hqueued hfields ⊢
  obtain ⟨hmirror, hgates, hlife, hmode⟩ := hfields
  obtain ⟨hshown, hown, hrejoin, hclosed, hempty⟩ := h
  by_cases hm : s.mode = .active
  swap
  · obtain ⟨-, -, hidle, -, -, -⟩ := hlink
    exact State.mirrorLaw_of_empty (hmirror.trans (hempty hm)) (hnone (hidle hm).2.1)
  refine ⟨fun k hk he => ?_, fun f hf => ?_, fun f hf x hx he => ?_, fun k hk => ?_, fun ha => absurd (hmode.trans hm) ha⟩
  · rw [hlife] at hk
    rw [hmirror, hgates] at he
    by_cases hsame : g[k] = s.gates[k]
    · rw [hsame] at he
      rcases hshown k hk he with hq | ⟨f, hf, hslot⟩
      · exact .inl (hhands.queue _ hq)
      · obtain ⟨x, hx, hslot', -⟩ := hhands.stays f hf
        exact .inr ⟨x, hx, hslot'.trans hslot⟩
    · rcases hqueued hm hk k hsame with hq | ⟨f, hf, hslot, -⟩
      · exact .inl hq
      · exact .inr ⟨f, hf, hslot⟩
  · obtain ⟨f', hf', hslot, htransfer, -⟩ := hhands.flight f hf
    rw [htransfer, hslot]; exact hown f' hf'
  · obtain ⟨f', hf', hslot, htransfer, hr⟩ := hhands.flight f hf
    rw [htransfer] at hx
    rw [hgates] at he
    by_cases hl : s.life.lifecycle = .disabled
    · rw [Transfer.leaves_of_not_gives (hgives hl f' hf') hx] at he; cases he
    by_cases hsame : g[x.1] = s.gates[x.1]
    · rw [hsame] at he
      exact hr (hrejoin f' hf' x hx he)
    · have hrange : slotRange f.slot = some x.1 := by
        rw [hslot, ← hown f' hf']
        exact congrArg (Option.map fun x : Fin 16 × Gates => x.1) hx
      have hf'' : f.slot = rangeSlot x.1 := eq_rangeSlot_of_slotRange hrange
      rcases hqueued hm hl x.1 hsame with hq | ⟨f₂, hf₂, -, hrejoin₂⟩
      · rw [← hf''] at hq
        exact absurd hq (hlink'.2.1 f hf)
      · have hff : f = f₂ := Option.some.inj (hf.symm.trans hf₂)
        rw [hff]; exact hrejoin₂
  · rw [hmirror] at hk ⊢; exact hclosed k hk

/-- R73, R74, R77: slots that differ join the queue. -/
theorem State.MirrorLaw.enqueueDiffering {s : State} (h : s.MirrorLaw) : s.enqueueDiffering.MirrorLaw := by
  have hhands : s.HandsOn s.enqueueDiffering := by
    unfold State.enqueueDiffering
    split
    · exact .refl s
    · exact ⟨fun j hj => List.mem_append_left _ hj, .of_eq rfl, fun f hf => ⟨f, hf, rfl, id⟩⟩
  refine h.of_handsOn hhands ?_ ?_ ?_ ?_ <;> (unfold State.enqueueDiffering; split <;> rfl)

/-- R68: what a comparison takes as desired opens nothing that the table holds closed. -/
theorem State.wantGates_exceed (k : Fin 16) (s : State) : (s.wantGates k).exceed s.gates[k] = false := by
  unfold State.wantGates
  split
  · exact Gates.closed_exceed _
  · exact Gates.exceed_self _

/-- R71: the acceptance of a transfer that leaves gates in a range's record. -/
theorem State.MirrorLaw.acceptRange {s : State} (h : s.MirrorLaw) {f : InFlight} (hf : s.inFlight = some f)
    (hmode : s.mode = .active) {k : Fin 16} {m : MirrorRecord} (hleaves : f.transfer.leaves = some (k, m.gates))
    (hm : m.state = .loaded ∨ m.gates = .closed) :
    State.MirrorLaw
      { s with
        mirror := s.mirror.set k m, inFlight := none, faultRun := 0
        queue := if f.rejoin then s.queue ++ [f.slot] else s.queue } := by
  obtain ⟨hshown, hown, hrejoin, hclosed, -⟩ := h
  have hslot : f.slot = rangeSlot k := by
    refine eq_rangeSlot_of_slotRange ?_
    rw [← hown f hf, hleaves]; rfl
  have hgrows : ∀ j ∈ s.queue, j ∈ (if f.rejoin then s.queue ++ [f.slot] else s.queue) := fun j hj => by
    split
    · exact List.mem_append_left _ hj
    · exact hj
  refine ⟨fun i hi he => .inl ?_, fun _ h => (by cases h), fun _ h => (by cases h), fun i hi => ?_,
    fun ha => absurd hmode ha⟩
  · by_cases hik : i = k
    · subst hik
      have he' : m.gates.exceed s.gates[i] = true := by simpa using he
      rw [if_pos (hrejoin f hf _ hleaves he'), hslot]
      exact List.mem_append_right _ (List.mem_singleton_self _)
    · have he' : s.mirror[i].gates.exceed s.gates[i] = true := by
        simpa [Vector.getElem_set_ne, Fin.val_inj, Ne.symm hik] using he
      rcases hshown i hi he' with hq | ⟨g, hg, hgslot⟩
      · exact hgrows _ hq
      · have hfg : f = g := Option.some.inj (hf.symm.trans hg)
        rw [← hfg, hslot] at hgslot
        exact absurd (Fin.ext (by simpa [rangeSlot] using congrArg Fin.val hgslot.symm)) hik
  · by_cases hik : i = k
    · subst hik
      have hi' : m.state = .empty ∨ m.state = .loading := by simpa using hi
      have hgates : m.gates = .closed := hm.elim (fun hl => by rw [hl] at hi'; simp at hi') id
      simpa using hgates
    · have hi' : s.mirror[i].state = .empty ∨ s.mirror[i].state = .loading := by
        simpa [Vector.getElem_set_ne, Fin.val_inj, Ne.symm hik] using hi
      simpa [Vector.getElem_set_ne, Fin.val_inj, Ne.symm hik] using hclosed i hi'

/-- R71: an acceptance keeps it. -/
theorem State.MirrorLaw.accept {s : State} (h : s.MirrorLaw) {f : InFlight} (hf : s.inFlight = some f)
    (hmode : s.mode = .active) : (s.accept f).MirrorLaw := by
  unfold State.accept State.acceptTransfer
  cases ht : f.transfer with
  | load k key g response extent =>
    exact h.acceptRange hf hmode (m := ⟨.loaded, g⟩) (by rw [ht]; rfl) (.inl rfl)
  | gates k g => exact h.acceptRange hf hmode (m := ⟨.loaded, g⟩) (by rw [ht]; rfl) (.inl rfl)
  | clear k => exact h.acceptRange hf hmode (m := .none) (by rw [ht]; rfl) (.inr rfl)
  | shadow view length =>
    obtain ⟨hshown, hown, -, hclosed, -⟩ := h
    refine ⟨fun i hi he => .inl ?_, fun _ h => (by cases h), fun _ h => (by cases h), hclosed,
      fun ha => absurd hmode ha⟩
    rcases hshown i hi he with hq | ⟨g, hg, hgslot⟩
    · dsimp only
      split
      · exact List.mem_append_left _ hq
      · exact hq
    · have hfg : f = g := Option.some.inj (hf.symm.trans hg)
      have hrange := hown f hf
      rw [hfg, hgslot, slotRange_rangeSlot, ← hfg, ht] at hrange
      cases hrange

/-- R66, R67: what a comparison leaves of the mirror and what its transfer would. -/
theorem State.MaySend.forms {s : State} {j : Fin 17} {t : Transfer} {m : Vector MirrorRecord 16} (h : s.MaySend j t m)
    (hclosed : ∀ k : Fin 16, (s.mirror[k].state = .empty ∨ s.mirror[k].state = .loading) → s.mirror[k].gates = .closed) :
    (∀ k : Fin 16, m[k].gates = s.mirror[k].gates)
      ∧ (∀ k : Fin 16, (m[k].state = .empty ∨ m[k].state = .loading) → m[k].gates = .closed)
      ∧ (t.leaves.map fun x => x.1) = slotRange j ∧ ∀ x ∈ t.leaves, x.2.exceed s.gates[x.1] = false := by
  have hset : ∀ (k : Fin 16) (x : MirrorState) (i : Fin 16),
      (s.mirror.set k { s.mirror[k] with state := x })[i].gates = s.mirror[i].gates := fun k x i => by
    by_cases hik : i = k
    · subst hik; simp
    · simp [Vector.getElem_set_ne, Fin.val_inj, Ne.symm hik]
  have hstate : ∀ (k : Fin 16) (x : MirrorState) (i : Fin 16), i ≠ k →
      (s.mirror.set k { s.mirror[k] with state := x })[i] = s.mirror[i] := fun k x i hik => by
    simp [Vector.getElem_set_ne, Fin.val_inj, Ne.symm hik]
  rcases h with ⟨k, key, response, extent, rfl, rfl, -, hempty, rfl⟩ | ⟨k, rfl, rfl, -, rfl⟩ | ⟨k, rfl, rfl, rfl⟩
    | ⟨rfl, rfl, rfl⟩
  · refine ⟨hset k _, fun i hi => ?_, by simp [Transfer.leaves], fun x hx => ?_⟩
    · rw [hset]
      by_cases hik : i = k
      · rw [hik]; exact hclosed k (.inl hempty)
      · rw [hstate k _ i hik] at hi; exact hclosed i hi
    · cases hx; exact s.wantGates_exceed k
  · refine ⟨fun _ => rfl, hclosed, by simp [Transfer.leaves], fun x hx => ?_⟩
    cases hx; exact s.wantGates_exceed k
  · refine ⟨hset k _, fun i hi => ?_, by simp [Transfer.leaves], fun x hx => ?_⟩
    · rw [hset]
      by_cases hik : i = k
      · subst hik; simp at hi
      · rw [hstate k _ i hik] at hi; exact hclosed i hi
    · cases hx; rfl
  · exact ⟨fun _ => rfl, hclosed, by simp [Transfer.leaves], fun x hx => by cases hx⟩

/-- Every move keeps the mirror law, beside the others. -/
theorem Move.mirrorLaw {s t : State} (h : Move s t) (hlink : s.LinkLaw) (hwith : s.WithdrawnLaw) (hclaim : s.ClaimLaw)
    (hhome : s.HomeLaw) (hs : s.MirrorLaw) : t.MirrorLaw := by
  have hb : ∀ {u : State}, t.bare = u.bare → u.MirrorLaw → t.MirrorLaw := State.mirrorLaw_of_bare
  have hgives : s.life.lifecycle = .disabled → ∀ f ∈ s.inFlight, f.transfer.gives = false := fun hl => by
    obtain ⟨-, -, -, -, hf⟩ := hwith ((State.restricted_iff s).2 (.inr (.inr (.inr hl))))
    exact hf
  have hs' := hs
  obtain ⟨hshown, hown, hrejoin, hclosed, hempty⟩ := hs'
  have hlife : ∀ r : LifecycleRecord, s.life.lifecycle ≠ .disabled ∨ s.mode ≠ .active →
      State.MirrorLaw { s with life := r } := by
    intro r hl
    refine ⟨fun k _ he => ?_, hown, hrejoin, hclosed, hempty⟩
    rcases hl with hl | hl
    · exact hshown k hl he
    · have he' : s.mirror[k].gates.exceed s.gates[k] = true := he
      rw [hempty hl, emptyMirror_get] at he'; cases he'
  cases h
  case record sets u hu _ _ h => exact hb h (State.mirrorLaw_of_bare (t := u) hu hs)
  case desired g v _ h => exact hb h (hs.changeDesired hlink hgives g v)
  case handOn j h =>
    refine hb h (hs.of_handsOn (s.handOn_handsOn j) ?_ ?_ ?_ ?_) <;>
      (obtain ⟨q, f, hform⟩ := s.handOn_form j; rw [hform])
  case purge h =>
    refine hb h ?_
    unfold State.purge
    split
    · exact hs
    · exact State.mirrorLaw_of_empty rfl rfl
  case provision sets u hd hu _ h =>
    have hnot : s.life.lifecycle ≠ .disabled := by rw [hhome.unprovisioned hd]; decide
    exact hb h (State.mirrorLaw_of_bare (t := u) hu (hlife _ (.inl hnot)))
  case wipeStart sets u _ _ hl hu _ _ h => exact hb h (State.mirrorLaw_of_bare (t := u) hu (hlife _ hl))
  case wipeEnd sets u hj hu _ _ _ h =>
    have hnot : s.life.lifecycle ≠ .disabled := by rw [hclaim.wiping hj]; decide
    exact hb h (State.mirrorLaw_of_bare (t := u) hu (hlife _ (.inl hnot)))
  case rootLost sets u hj hu hdisabled _ _ h =>
    have hmirror : u.mirror = s.mirror := (congrArg (fun x : State => x.mirror) hu :)
    have hmode : u.mode = s.mode := (State.mode_of_bare hu :)
    refine hb h ⟨fun _ hl => absurd hdisabled hl, fun _ hf => (by cases hf), fun _ hf => (by cases hf), ?_, ?_⟩
    · change ∀ k : Fin 16, (u.mirror[k].state = .empty ∨ u.mirror[k].state = .loading) → u.mirror[k].gates = .closed
      rw [hmirror]; exact hclosed
    · intro ha
      exact hmirror.trans (hempty fun hm => ha (hmode.trans hm))
  case faultPurge hf h =>
    refine hb h ?_
    have hlow : s.kpurge = none := by
      obtain ⟨-, -, -, hpulse, -, -⟩ := hlink
      cases hk : s.kpurge with
      | none => rfl
      | some _ => rw [hpulse (by rw [hk]; rfl)] at hf; cases hf
    rw [State.purge_form { s with inFlight := none } hlow]
    exact State.mirrorLaw_of_empty rfl rfl
  case restart _ h =>
    exact hb h (State.MirrorLaw.enqueueDiffering (s := { s with linkState := .running, faultRun := 0 }) hs)
  case pulseEnd _ h => exact hb h (State.MirrorLaw.enqueueDiffering (s := { s with kpurge := none }) hs)
  case accept f hf hm _ h => exact hb h (hs.accept hf hm)
  case dequeue j rest hq hl hm h =>
    refine hb h ⟨fun k hk he => ?_, hown, hrejoin, hclosed, hempty⟩
    rcases hshown k hk he with hmem | hflight
    · rw [hq] at hmem
      rcases List.mem_cons.1 hmem with hj | hmem
      · have he' : s.mirror[k].gates.exceed s.gates[k] = true := he
        rcases hm k hj.symm with hstate | hgates
        · rw [hclosed k (.inl hstate)] at he'; cases he'
        · rw [hgates, s.wantGates_exceed k] at he'; cases he'
      · exact .inl hmem
    · exact .inr hflight
  case send j rest f m hq hl hf hsend h =>
    obtain ⟨hmode, hnone, -⟩ := hl
    obtain ⟨hgates, hclosed', hrange, hleaves⟩ := hsend.forms hclosed
    refine hb h ⟨fun k hk he => ?_, fun g hg => ?_, fun g hg x hx he => ?_, hclosed', fun ha => absurd hmode ha⟩
    · have he' : s.mirror[k].gates.exceed s.gates[k] = true := by rw [← hgates k]; exact he
      rcases hshown k hk he' with hmem | ⟨g, hg, -⟩
      · rw [hq] at hmem
        rcases List.mem_cons.1 hmem with hj | hmem
        · exact .inr ⟨f, rfl, hf.trans hj.symm⟩
        · exact .inl hmem
      · rw [hnone] at hg; cases hg
    · cases hg
      rw [hf]; exact hrange
    · cases hg
      have he' : x.2.exceed s.gates[x.1] = true := he
      rw [hleaves x hx] at he'; cases he'
  case emptyMirror hl h =>
    refine hb h ⟨fun k hk => absurd hl hk, hown, fun f hf x hx he => ?_, fun k _ => ?_, fun _ => rfl⟩
    · rw [Transfer.leaves_of_not_gives (hgives hl f hf) hx] at he; cases he
    · simp [Machine.emptyMirror, MirrorRecord.none]
  case takeGrants hm h =>
    have hne : s.mode ≠ .active := by rw [hm]; decide
    obtain ⟨-, -, hidle, -, -, -⟩ := hlink
    refine hb h (State.mirrorLaw_of_empty ?_ ?_)
    · unfold State.takeGrants; split <;> exact hempty hne
    · unfold State.takeGrants; split <;> exact (hidle hne).2.1
  case activate g u hm hu h =>
    have hne := hlink.not_active hm
    obtain ⟨-, -, hidle, -, -, -⟩ := hlink
    have hmirror : u.mirror = Machine.emptyMirror := (congrArg (fun x : State => x.mirror) hu :).trans (hempty hne)
    have hnone : u.inFlight = none := (State.inFlight_of_bare hu :).trans (hidle hne).2.1
    have hu' : u.MirrorLaw := State.mirrorLaw_of_empty hmirror hnone
    refine hb h (State.MirrorLaw.enqueueDiffering ?_)
    split
    · exact hu'
    · refine State.mirrorLaw_of_empty ?_ (u.changeDesired_inFlight_none g .hidden hnone)
      obtain ⟨q, f, hform⟩ := u.changeDesired_form g .hidden
      rw [hform]; exact hmirror
  case enterAux hm h =>
    exact hb h ⟨hshown, hown, hrejoin, hclosed, fun _ => hempty (hlink.not_active hm)⟩
  case beginStarting _ hm h => exact hb h ⟨hshown, hown, hrejoin, hclosed, fun _ => hempty hm⟩
  all_goals (rename_i h; exact hb h hs)

end Sys2Proof.Machine
end

