-- ==== Sys2Proof/Proofs/LawfulSteps.lean ====
section
/-! O55, O56 and the first part of O58: every step keeps the laws together. -/

namespace Sys2Proof.Machine

/-! ### The laws together -/

/-- The laws that every move keeps, without the modes in which an intent and a derivation stand. -/
structure State.Safe (s : State) : Prop where
  link : s.LinkLaw
  withdrawn : s.WithdrawnLaw
  suspend : s.SuspendLaw
  mirror : s.MirrorLaw
  home : s.HomeLaw
  claim : s.ClaimLaw

/-- Every move keeps them. -/
theorem Move.safe (s t : State) (h : Move s t) (hs : s.Safe) : t.Safe where
  link := h.linkLaw s t hs.link
  withdrawn := h.withdrawnLaw hs.link hs.claim hs.withdrawn
  suspend := h.suspendLaw hs.suspend
  mirror := h.mirrorLaw hs.link hs.withdrawn hs.claim hs.home hs.mirror
  home := h.homeLaw hs.claim hs.home
  claim := h.claimLaw hs.home hs.claim

/-- R148, R25: an intent and a derivation stand in ACTIVE alone. -/
def State.ActiveLaw (s : State) : Prop :=
  (s.intent.isSome → s.mode = .active) ∧ (s.derivation.isSome → s.mode = .active)

theorem State.activeLaw_of_bare {s t : State} (h : t.bare = s.bare) (hs : s.ActiveLaw) : t.ActiveLaw :=
  State.of_bare (P := State.ActiveLaw) (fun _ => Iff.rfl) h hs

/-- The law out of ACTIVE. -/
theorem State.ActiveLaw.none {s : State} (h : s.ActiveLaw) (hm : s.mode ≠ .active) :
    s.intent = .none ∧ s.derivation = .none := by
  obtain ⟨hi, hd⟩ := h
  constructor
  · exact Option.not_isSome_iff_eq_none.1 fun h => hm (hi h)
  · exact Option.not_isSome_iff_eq_none.1 fun h => hm (hd h)

theorem State.activeLaw_of_none {s : State} (hi : s.intent = .none) (hd : s.derivation = .none) : s.ActiveLaw := by
  refine ⟨fun h => ?_, fun h => ?_⟩
  · rw [hi] at h; cases h
  · rw [hd] at h; cases h

theorem State.ActiveLaw.changeDesired {s : State} (h : s.ActiveLaw) (g : Vector Gates 16) (v : View) :
    (s.changeDesired g v).ActiveLaw := by
  obtain ⟨q, f, hform⟩ := s.changeDesired_form g v
  rw [hform]; exact h

theorem State.ActiveLaw.enqueueDiffering {s : State} (h : s.ActiveLaw) : s.enqueueDiffering.ActiveLaw := by
  unfold State.enqueueDiffering
  split <;> exact h

theorem State.ActiveLaw.purge {s : State} (h : s.ActiveLaw) : s.purge.ActiveLaw := by
  unfold State.purge
  split <;> exact h

/-- Every move keeps it, beside the link law. -/
theorem Move.activeLaw {s t : State} (h : Move s t) (hlink : s.LinkLaw) (hs : s.ActiveLaw) : t.ActiveLaw := by
  have hb : ∀ {u : State}, t.bare = u.bare → u.ActiveLaw → t.ActiveLaw := State.activeLaw_of_bare
  have hs' := hs
  obtain ⟨hintent, hderivation⟩ := hs'
  have hgone : ∀ {u : State}, u.intent = s.intent → u.mode = s.mode → u.derivation = none → u.ActiveLaw :=
    fun hi hm hd => ⟨fun h => hm.trans (hintent (hi ▸ h)), fun h => by rw [hd] at h; cases h⟩
  cases h
  case record sets u hu _ _ h => exact hb h (State.activeLaw_of_bare (t := u) hu hs)
  case desired g v _ h => exact hb h (hs.changeDesired g v)
  case handOn j h =>
    refine hb h ?_
    obtain ⟨q, f, hform⟩ := s.handOn_form j
    rw [hform]; exact hs
  case purge h => exact hb h hs.purge
  case withdraw gs i _ hi h =>
    refine hb h ⟨fun hsome => ?_, hderivation⟩
    rcases hi with rfl | rfl
    · cases hsome
    · exact hintent hsome
  case intend i hm _ _ h => exact hb h ⟨fun _ => hm, hderivation⟩
  case abandon h => exact hb h (hgone rfl rfl rfl)
  case derive d hd h =>
    refine hb h ⟨hintent, fun _ => ?_⟩
    rcases hd with ⟨hm, -⟩ | ⟨d', hd', -⟩
    · exact hm
    · exact hderivation (by rw [hd']; rfl)
  case provision sets u _ hu _ h =>
    exact hb h (State.activeLaw_of_bare (t := u) hu (hgone rfl rfl rfl))
  case wipeStart sets u _ _ _ hu _ _ h => exact hb h (State.activeLaw_of_bare (t := u) hu hs)
  case wipeEnd sets u _ hu _ _ _ h => exact hb h (State.activeLaw_of_bare (t := u) hu hs)
  case rootLost sets u _ hu _ _ _ h => exact hb h (State.activeLaw_of_bare (t := u) hu hs)
  case faultPurge _ h => exact hb h (State.ActiveLaw.purge (s := { s with inFlight := .none }) hs)
  case restart _ h =>
    exact hb h (State.ActiveLaw.enqueueDiffering (s := { s with linkState := .running, faultRun := 0 }) hs)
  case pulseEnd _ h => exact hb h (State.ActiveLaw.enqueueDiffering (s := { s with kpurge := .none }) hs)
  case accept f _ _ _ h =>
    refine hb h ?_
    unfold State.accept State.acceptTransfer
    cases f.transfer <;> exact hs
  case takeGrants _ h =>
    refine hb h ?_
    unfold State.takeGrants
    split
    · exact ⟨fun h => (by cases h), hderivation⟩
    · exact hs
  case activate g u _ hu h =>
    have hu' : u.ActiveLaw := State.activeLaw_of_bare hu ⟨fun _ => rfl, fun _ => rfl⟩
    refine hb h (State.ActiveLaw.enqueueDiffering ?_)
    split
    · exact hu'
    · exact hu'.changeDesired g .hidden
  case enterAux hm h =>
    obtain ⟨hi, hd⟩ := hs.none (hlink.not_active hm)
    exact hb h (State.activeLaw_of_none hi hd)
  case beginStarting _ hm h =>
    obtain ⟨hi, hd⟩ := hs.none hm
    exact hb h (State.activeLaw_of_none hi hd)
  all_goals (rename_i h; exact hb h hs)

/-! ### The laws of the statements -/

/-- What a derivation in flight says of the lifecycle, as the law of the statements writes it. -/
theorem State.derivationLaw_iff (s : State) :
    s.DerivationLaw ↔ s.HomeLaw ∧ (s.derivation.isSome → s.mode = .active) := by
  constructor
  · intro h
    refine ⟨fun d hd => ?_, fun hd => ?_⟩
    · rw [(h d hd).2]; cases d.work <;> rfl
    · obtain ⟨d, hd⟩ := Option.isSome_iff_exists.1 hd
      exact (h d hd).1
  · rintro ⟨hhome, hmode⟩ d hd
    refine ⟨hmode (by rw [hd]; rfl), ?_⟩
    rw [hhome d hd]; cases d.work <;> rfl

/-- The law of intents and grants, as the statements write it. -/
theorem State.grantLaw_iff (s : State) : s.GrantLaw ↔ s.SuspendLaw ∧ (s.intent.isSome → s.mode = .active) := by
  unfold State.GrantLaw State.SuspendLaw
  tauto

/-- Lawful states are those that are safe with intents and derivations in ACTIVE alone. -/
theorem State.lawful_iff (s : State) : s.Lawful ↔ s.Safe ∧ s.ActiveLaw := by
  unfold State.Lawful
  rw [State.derivationLaw_iff, State.grantLaw_iff]
  constructor
  · rintro ⟨hlink, hwith, ⟨hsuspend, hi⟩, hmirror, ⟨hhome, hd⟩, hclaim⟩
    exact ⟨⟨hlink, hwith, hsuspend, hmirror, hhome, hclaim⟩, hi, hd⟩
  · rintro ⟨⟨hlink, hwith, hsuspend, hmirror, hhome, hclaim⟩, hi, hd⟩
    exact ⟨hlink, hwith, ⟨hsuspend, hi⟩, hmirror, ⟨hhome, hd⟩, hclaim⟩

/-- Moves keep lawful states lawful. -/
theorem Moves.lawful {s t : State} (h : Moves s t) (hs : s.Lawful) : t.Lawful := by
  rw [State.lawful_iff] at hs ⊢
  exact h.keep (P := fun u => u.Safe ∧ u.ActiveLaw) (fun s t hm ⟨hsafe, hactive⟩ =>
    ⟨hm.safe s t hsafe, hm.activeLaw hsafe.link hactive⟩) hs

/-- A state in which nothing that the laws speak of stands. -/
theorem State.lawful_of_idle {s : State} (hlink : s.LinkLaw) (hg : s.gates = allClosed) (hv : s.shadow = .shown)
    (hgr : s.grants = []) (hi : s.intent = none) (hf : s.inFlight = none) (hm : s.mirror = emptyMirror)
    (hd : s.derivation = none) (hj : s.job = none) (hw : s.wipeClaim = false) : s.Lawful := by
  rw [State.lawful_iff]
  refine ⟨⟨hlink, fun _ => ⟨hg, hv, hgr, hi, ?_⟩, State.Unsuspended.suspendLaw ⟨hgr, hi⟩,
    State.mirrorLaw_of_empty hm hf, ?_, ?_, ?_⟩, State.activeLaw_of_none hi hd⟩
  · rw [hf]; intro _ h; cases h
  · intro _ h; rw [hd] at h; cases h
  · intro h; rw [hw] at h; cases h
  · intro _ h; rw [hj] at h; cases h

/-- Lawfulness reads the fields that the laws speak of. -/
theorem State.lawful_of_bare {s t : State} (h : t.bare = s.bare) (hs : s.Lawful) : t.Lawful :=
  State.of_bare (P := State.Lawful) (fun _ => Iff.rfl) h hs

/-- R76, R144: a loss of VMAIN leaves a safe state. -/
theorem State.Safe.unpowered {s : State} (h : s.Safe) (hm : s.mode = .active) : s.unpowered.Safe where
  link := h.link.unpowered hm
  withdrawn hr := by
    obtain ⟨h1, h2, h3, h4, -⟩ := h.withdrawn hr
    exact ⟨h1, h2, h3, h4, fun _ h => by cases h⟩
  suspend := by
    obtain ⟨hi, hg, hnodup, hopen⟩ := h.suspend
    exact ⟨hi, fun hne => ⟨.inl rfl, (hg hne).2⟩, hnodup, hopen⟩
  mirror := State.mirrorLaw_of_empty rfl rfl
  home := h.home
  claim := h.claim

/-- Every step keeps lawful states lawful. -/
theorem State.Lawful.step {s t : State} (hs : s.Lawful) (h : Machine.step s = .next t) : t.Lawful := by
  refine kept_by_steps (P := State.Lawful) (Q := State.Lawful) (fun _ _ h => h) (fun _ _ h hm => hm.lawful h)
    ?off ?restored ?main hs h
  case off =>
    intro s t cut _ hb
    exact State.lawful_of_bare hb (State.lawful_of_idle
      (State.linkLaw_of_idle rfl rfl rfl fun hr => by cases hr) rfl rfl rfl rfl rfl rfl rfl rfl rfl)
  case restored =>
    intro s u t _ hu hm
    exact hm.lawful (State.lawful_of_bare hu.toFresh.bare (State.lawful_of_idle
      (State.linkLaw_of_idle rfl rfl rfl fun _ => rfl) rfl rfl rfl rfl rfl rfl rfl rfl rfl))
  case main =>
    intro s t hs ha hm hi hd
    obtain ⟨hsafe, -⟩ := (State.lawful_iff s).1 hs
    exact (State.lawful_iff t).2 ⟨hm.keep Move.safe (hsafe.unpowered ha), State.activeLaw_of_none hi hd⟩

/-- Settles O55: every step keeps the laws together, the withdrawal of access among them. -/
theorem stepsKeepAccessWithdrawn : Obligations.StepsKeepAccessWithdrawn := by
  intro s t hs h
  obtain ⟨-, hwith, -⟩ := hs.step h
  exact hwith

/-- Settles O56: every step keeps the laws together, those of grants and of the mirror among them. -/
theorem stepsKeepTheGrantAndMirrorLaws : Obligations.StepsKeepTheGrantAndMirrorLaws := by
  constructor
  · intro s t hs h
    obtain ⟨-, -, hgrant, -⟩ := hs.step h
    exact hgrant
  · intro s t hs h
    obtain ⟨-, -, -, hmirror, -⟩ := hs.step h
    exact hmirror

/-- Settles O58: claims and derivations are kept with the laws together, the pass count and the job by every move. -/
theorem stepsKeepClaimsDerivationsAndJobs : Obligations.StepsKeepClaimsDerivationsAndJobs := by
  constructor
  · intro s t hs h
    obtain ⟨-, -, -, -, hderivation, hclaim⟩ := hs.step h
    exact ⟨hclaim, hderivation⟩
  · intro s t hp hj h
    exact State.WorkLaw.step ⟨hp, hj⟩ h

end Sys2Proof.Machine
end

