-- ==== Sys2Proof/Proofs/StepsAndTime.lean ====
section
/-! The step and powered time (O1, O2), and the backoff (O15). -/

namespace Sys2Proof.Machine

/-- Settles O1: a step is the front command's by its definition. -/
theorem stepRunsTheFrontCommand : Obligations.StepRunsTheFrontCommand := by
  intro c rest s h
  unfold step
  rw [h]

/-- With no command waiting a step is a tick. -/
theorem step_of_no_command {s : State} (h : s.pending = []) : step s = .next s.tick := by
  unfold step
  rw [h]

/-- R170: powered time runs on, and with it the counts that run. -/
theorem State.reaching_eq (t : Micros) (s : State) :
    s.reaching t =
      { s.begin with
        now := max s.now t
        dormancyCount := s.dormancyCount + if s.dormancyState = .counting then t - s.now else 0
        decayCount := s.decayCount + if s.decayState = .running then t - s.now else 0 } := by
  have hdormancy : s.begin.dormancyState = s.dormancyState := rfl
  have hdecay : s.begin.decayState = s.decayState := rfl
  unfold State.reaching State.runTo
  rw [hdormancy, hdecay]
  by_cases h : s.now < t
  · refine (if_pos h).trans ?_
    rw [max_eq_right h.le]
    split_ifs <;> rfl
  · have hpast : t - s.now = 0 := Nat.sub_eq_zero_of_le (not_lt.1 h)
    refine (if_neg h).trans ?_
    rw [max_eq_left (not_lt.1 h), hpast]
    split_ifs <;> rfl

/-- Settles O2: a tick runs to the next microsecond where nothing is due, and idles otherwise. -/
theorem emptyQueuePassesAMicrosecond : Obligations.EmptyQueuePassesAMicrosecond := by
  refine ⟨fun s hs => ⟨fun hm ht => ?passes, fun h => ?idles⟩, fun t s => ⟨s.reaching_eq t, rfl⟩⟩
  case passes =>
    rw [step_of_no_command hs]
    exact congrArg _ (if_pos ⟨hm, List.all_eq_true.2 fun t h => decide_eq_true (ht t h)⟩)
  case idles =>
    rw [step_of_no_command hs]
    refine congrArg _ (if_neg ?_)
    rintro ⟨hm, hall⟩
    rcases h with h | ⟨t, ht, hle⟩
    · exact hm h
    · exact absurd (of_decide_eq_true (List.all_eq_true.1 hall t ht)) (not_lt.2 hle)

/-! ### The backoff -/

/-- R29: the delay at and above 4 failures. -/
theorem backoffDelay_of_le {c : Nat} (h : 4 ≤ c) : backoffDelay c = some (min (2 ^ (c - 4)) 1024 * 1000) :=
  if_neg (not_lt.2 h)

/-- R170: at a moment still ahead powered time reads that moment. -/
theorem State.reaching_now {t : Micros} {s : State} (h : s.now ≤ t) : (s.reaching t).now = t := by
  rw [State.reaching_eq]
  exact max_eq_right h

/-- Settles O15: the delay by the power of two it is, and the deadline's event. -/
theorem backoffDoublesToItsCap : Obligations.BackoffDoublesToItsCap := by
  refine ⟨fun c h => if_pos h, rfl, fun c h hc => ?doubles, fun c h => ?cap, fun t s hb ht hm => ?deadline⟩
  case doubles =>
    rw [backoffDelay_of_le h, backoffDelay_of_le (Nat.le_succ_of_le h), Option.map_some]
    interval_cases c <;> rfl
  case cap =>
    rw [backoffDelay_of_le (le_trans (by decide) h)]
    have hpow : 1024 ≤ 2 ^ (c - 4) := le_trans (by decide : 1024 ≤ 2 ^ 10) (Nat.pow_le_pow_right (by decide) (by omega))
    rw [min_eq_right hpow]
  case deadline =>
    have hahead : s.now ≤ t * 1000 := ((Nat.div_lt_iff_lt_mul (by decide)).1 ht).le
    have hbackoff : (s.reaching (t * 1000)).backoff = some t := by rw [State.reaching_eq]; exact hb
    refine ⟨?_, ?_⟩
    · change execBackoffDeadline s = _
      have hnot : ¬(s.mode = .off ∨ s.backoffOver = true) := by
        rw [State.backoffOver_false ⟨t, hb, ht⟩]
        simp [hm]
      simp only [execBackoffDeadline, event, State.begin_backoff, State.begin_mode, hb]
      exact congrArg _ (if_neg hnot)
    · refine State.backoffOver_true ?_
      rintro ⟨t', ht', hlt⟩
      rw [Option.mem_def, hbackoff] at ht'
      cases ht'
      unfold State.millis at hlt
      rw [State.reaching_now hahead, Nat.mul_div_cancel t (by decide)] at hlt
      exact lt_irrefl t hlt

end Sys2Proof.Machine
end

