-- ==== Sys2Proof/Proofs/FramesAndReplies.lean ====
section
/-! The frames of the command link and the key link (O4), and what becomes of them before an owner sees them (O5, O6). -/

namespace Sys2Proof.Machine

/-! ### Sums and numbers -/

/-- R155: the sum of a run of bytes and one more. -/
theorem byteSum_append_singleton (bs : Bytes) (b : Byte) : byteSum (bs ++ [b]) = byteSum bs + b.toNat := by
  simp [byteSum, List.foldl_append]

/-- Section 9.1: the check byte brings the sum to 0 modulo 256. -/
theorem byteSum_checked (bs : Bytes) : byteSum (bs ++ [checkByte bs]) % 256 = 0 := by
  rw [byteSum_append_singleton]
  unfold checkByte
  rw [BitVec.toNat_ofNat]
  omega

/-- Section 10: a number read with one more byte. -/
theorem ofBe_append_singleton (bs : Bytes) (b : Byte) : ofBe (bs ++ [b]) = ofBe bs * 256 + b.toNat := by
  simp [ofBe, List.foldl_append]

/-- Reading bytes from a number already read. -/
theorem foldl_be (w n a : Nat) :
    (be w n).foldl (fun m b => m * 256 + b.toNat) a = a * 256 ^ w + n % 256 ^ w := by
  induction w generalizing a with
  | zero => simp [be, Nat.mod_one]
  | succ w ih =>
    rw [be, List.foldl_cons, ih, BitVec.toNat_ofNat]
    have hsplit : n % 256 ^ (w + 1) = n / 256 ^ w % 256 * 256 ^ w + n % 256 ^ w := by
      rw [pow_succ, Nat.mod_mul]
      ring
    rw [hsplit]
    ring

/-- Section 10: the number that its bytes write. -/
theorem ofBe_be (w n : Nat) : ofBe (be w n) = n % 256 ^ w := by
  rw [ofBe, foldl_be]
  ring

/-- A byte's number. -/
theorem be_one (n : Nat) : be 1 n = [BitVec.ofNat 8 n] := by simp [be]

/-! ### Request frames -/

/-- Section 9.1: the fields of a request frame. -/
theorem requestFields_requestFrame (kind tag : Byte) (body : Bytes) (h : body.length ≤ 240) :
    requestFields (requestFrame kind tag body) = some (kind, tag, body) := by
  have hsum := byteSum_checked (kind :: tag :: be 2 body.length ++ body)
  have hbytes : requestFrame kind tag body
      = kind :: tag :: BitVec.ofNat 8 (body.length / 256) :: BitVec.ofNat 8 body.length
        :: (body ++ [checkByte (kind :: tag :: be 2 body.length ++ body)]) := by
    simp [requestFrame, be]
  have hlength : (requestFrame kind tag body).length = 5 + body.length := by
    rw [hbytes]; simp; omega
  have hfield : (BitVec.ofNat 8 (body.length / 256)).toNat * 256 + (BitVec.ofNat 8 body.length).toNat = body.length := by
    rw [BitVec.toNat_ofNat, BitVec.toNat_ofNat]; omega
  change byteSum (requestFrame kind tag body) % 256 = 0 at hsum
  unfold requestFields
  rw [hbytes] at hlength hsum ⊢
  dsimp only
  rw [hfield, if_neg (by omega), if_neg (by omega), if_neg (by omega), List.dropLast_concat]

/-- Section 9.1: a request frame is judged as the request it carries. -/
theorem judgeFrame_requestFrame (kind tag : Byte) (body : Bytes) (h : body.length ≤ 240) :
    judgeFrame ⟨requestFrame kind tag body, []⟩ = .request kind tag body := by
  have hhigh : BitVec.ofNat 8 (body.length / 256) ≠ (0xFF : Byte) := by
    have hzero : body.length / 256 = 0 := Nat.div_eq_of_lt (by omega)
    rw [hzero]; decide
  have hsome : (requestFrame kind tag body).isEmpty = false := by simp [requestFrame]
  have hnotRead : (requestFrame kind tag body).all (· == 0xFF) = false := by
    simp only [requestFrame, be, List.cons_append, List.all_cons, Bool.and_eq_false_iff, beq_eq_false_iff_ne]
    exact .inr (.inr (.inl (by simpa using hhigh)))
  unfold judgeFrame
  dsimp only
  rw [hsome, hnotRead, requestFields_requestFrame kind tag body h]
  rfl

/-! ### Replies and transfers -/

/-- Section 9.1: a reply is its fields and their check byte. -/
theorem replyBytes_eq (kind tag : Byte) (code : ReplyCode) (summary : Nat) (body : Bytes) :
    replyBytes kind tag code summary body =
      ([kind, tag, code.code] ++ be 2 summary ++ be 2 body.length ++ body)
        ++ [checkByte ([kind, tag, code.code] ++ be 2 summary ++ be 2 body.length ++ body)] := rfl

/-- R70, section 10.6: a transfer is its fields and their check byte. -/
theorem Transfer.bytes_sum (t : Transfer) : byteSum t.bytes % 256 = 0 := byteSum_checked _

/-- The bit at a place of a run of bytes, most significant first. -/
theorem getElem?_flatMap_bits (bs : Bytes) (i : Nat) (hi : i < 8 * bs.length) :
    (bs.flatMap fun b => (List.range 8).map fun i => b.getLsbD (7 - i))[i]?
      = (bs[i / 8]?).map fun b => b.getLsbD (7 - i % 8) := by
  induction bs generalizing i with
  | nil => simp at hi
  | cons b bs ih =>
    rw [List.flatMap_cons]
    by_cases h : i < 8
    · rw [List.getElem?_append_left (by simpa using h)]
      have hdiv : i / 8 = 0 := Nat.div_eq_of_lt h
      have hmod : i % 8 = i := Nat.mod_eq_of_lt h
      simp [hdiv, hmod, h]
    · rw [List.getElem?_append_right (by simpa using h)]
      have hlen : ((List.range 8).map fun i => b.getLsbD (7 - i)).length = 8 := by simp
      have hdiv : i / 8 = (i - 8) / 8 + 1 := by omega
      have hmod : (i - 8) % 8 = i % 8 := by omega
      rw [hlen, ih (i - 8) (by simp at hi; omega), hdiv, hmod, List.getElem?_cons_succ]

/-- Section 10.6: eight bits for each byte. -/
theorem length_flatMap_bits (bs : Bytes) :
    (bs.flatMap fun b => (List.range 8).map fun i => b.getLsbD (7 - i)).length = 8 * bs.length := by
  simp [List.length_flatMap, mul_comm]

/-- Section 10.6: the fields of a transfer. -/
theorem Transfer.bytes_dropLast (t : Transfer) :
    t.bytes.dropLast = match t with
        | .load k key g response (.span x) =>
          [0x01, rangeByte k] ++ key ++ [flag g.read, flag g.write, response.code]
            ++ be 6 x.start ++ be 6 x.length
        | .load k key g response (.wholeDrive capacity spans) =>
          [0x01, rangeByte k] ++ key ++ [flag g.read, flag g.write, response.code]
            ++ be 6 capacity ++ be 1 spans.length ++ spans.flatMap fun x => be 6 x.start ++ be 6 x.length
        | .gates k g => [0x02, rangeByte k, flag g.read, flag g.write]
        | .clear k => [0x03, rangeByte k]
        | .shadow view length => [0x04, 16, view.code] ++ be 2 length := by
  cases t with
  | load k key g response extent =>
    cases extent with
    | span x => exact List.dropLast_concat.trans (by simp [be_one, rangeByte])
    | wholeDrive capacity spans => exact List.dropLast_concat.trans (by simp [be_one, rangeByte])
  | gates k g => exact List.dropLast_concat.trans (by simp [be_one, rangeByte])
  | clear k => exact List.dropLast_concat.trans (by simp [be_one, rangeByte])
  | shadow view length => exact List.dropLast_concat

/-- R174: what a step clocks. -/
theorem clockedOnKlD_eq (before after : State) :
    clockedOnKlD before after =
      if before.inFlight = none then (after.inFlight.map fun f => f.transfer.bits).getD [] else [] := by
  unfold clockedOnKlD
  cases before.inFlight <;> cases after.inFlight <;> rfl

/-- Settles O4: each frame is its fields and their check byte, and its bits are those of its bytes. -/
theorem framesCarryTheirFields : Obligations.FramesCarryTheirFields := by
  refine ⟨judgeFrame_requestFrame, fun kind tag code summary body => ⟨?sum, ?length, ?fields⟩,
    ⟨rfl, ⟨rfl, fun k => by cases k <;> decide⟩, fun w n => ⟨be_length w n, ofBe_be w n⟩, rfl, ofBe_append_singleton⟩,
    fun t => ⟨t.bytes_sum, t.bytes_dropLast⟩,
    fun t => ⟨length_flatMap_bits t.bytes, getElem?_flatMap_bits t.bytes⟩,
    fun before after => ⟨fun hb f ha => ?starts, fun h => ?others⟩, fun s => rfl⟩
  case sum => exact byteSum_checked _
  case length => rw [replyBytes_eq]; simp [be_length]; omega
  case fields => rw [replyBytes_eq, List.dropLast_concat]
  case starts => rw [clockedOnKlD_eq, if_pos hb, ha]; rfl
  case others =>
    rw [clockedOnKlD_eq]
    split
    · next hb => rw [h.resolve_left (not_not.2 hb)]; rfl
    · rfl

/-! ### Requests stopped before their owner -/

/-- Every request frame's command is a request of its kind. -/
theorem exec_of_requestOf {c : Instr} {k : Kind} {tag : Byte} {body : Bytes} (h : requestOf c = some (k, tag, body))
    (s : State) : ∃ owner, exec c s = request k tag body owner s := by
  cases c <;> cases h <;> exact ⟨_, rfl⟩

/-- R2: the kinds that each lifecycle state admits. -/
theorem Lifecycle.admits_iff (k : Kind) :
    (Lifecycle.unprovisioned.admits k = true ↔
        k ∈ [Kind.identify, .status, .flags, .mask, .opstate, .readTrail, .readScore, .readPolicy, .setPolicy, .provision])
      ∧ (Lifecycle.provisioned.admits k = true ↔ k ≠ .provision)
      ∧ (Lifecycle.wiping.admits k = true ↔
        k ∈ [Kind.identify, .status, .flags, .mask, .opstate, .readTrail, .readScore, .readPolicy])
      ∧ (Lifecycle.disabled.admits k = true ↔ k ∈ [Kind.identify, .status, .flags, .opstate, .readTrail]) := by
  simp [Lifecycle.admits]

/-- R159 step 3: in STARTING every kind but two is NOT_READY. -/
theorem request_notReady {k : Kind} {tag : Byte} {body : Bytes} {owner : State → Answer} {s : State}
    (hm : s.mode = .starting) (hr : s.rstLow = false) (hl : body.length ≤ 240) (hi : k ≠ .identify) (hs : k ≠ .status) :
    request k tag body owner s = .next (s.begin.replied k tag .notReady []) := by
  rw [request_judged _ _ _ _ _ (by simp [State.judgesFrames, hm, hr]) hl, answer_replied]
  simp [checkOrder, hm, hi, hs, refuse]

/-- R155: a body that no frame holds. -/
theorem request_tooLong {k : Kind} {tag : Byte} {body : Bytes} {owner : State → Answer} {s : State}
    (hj : s.judgesFrames = true) (hl : 240 < body.length) :
    request k tag body owner s = .next s.begin.frameFaultReply := by
  have hj' : s.begin.judgesFrames = true := hj
  simp only [request, hj']
  rw [if_neg (by simp), if_pos hl]

/-- R157: where no frame is judged a request does nothing. -/
theorem request_unjudged {k : Kind} {tag : Byte} {body : Bytes} {owner : State → Answer} {s : State}
    (hj : s.judgesFrames = false) : request k tag body owner s = .next s.begin := by
  have hj' : s.begin.judgesFrames = false := hj
  simp only [request, hj']
  rw [if_pos (by simp)]

/-- Settles O5: each request's command is a request of its kind, and the check order stops it by its first four steps. -/
theorem requestsStoppedBeforeTheirOwner : Obligations.RequestsStoppedBeforeTheirOwner := by
  refine ⟨Lifecycle.admits_iff, fun c k tag body s hc => ?_⟩
  obtain ⟨owner, hexec⟩ := exec_of_requestOf hc s
  rw [hexec]
  exact ⟨fun hm hr hl hi hs => request_notReady hm hr hl hi hs, fun hm hr hl ha => request_wrongState hm hr hl ha,
    fun hj hl => request_tooLong hj hl, fun hj => request_unjudged hj⟩

/-! ### Faulty and unknown frames, and SDO -/

/-- R154: a frame of whole bytes of ones is a read frame. -/
theorem judgeFrame_read {f : Frame} (hb : f.bytes ≠ []) (hones : ∀ b ∈ f.bytes, b = 0xFF) (hr : f.rest = []) :
    judgeFrame f = .read := by
  have hsome : f.bytes.isEmpty = false := by simpa using hb
  have hall : f.bytes.all (· == 0xFF) = true := by simpa using hones
  unfold judgeFrame
  rw [hsome, hall, hr]
  rfl

/-- Section 9.1: a frame that collects no reply reads ones. -/
theorem clockedOut_nil (f : Frame) (h : f.rest.length < 8) :
    clockedOut [] f = ⟨List.replicate f.bytes.length 0xFF, List.replicate f.rest.length true⟩ := by
  have hbits : ((List.range 8).map fun i => (((([] : Bytes)[f.bytes.length]?).getD 0xFF).getLsbD (7 - i)))
      = List.replicate 8 true := by
    rw [List.getElem?_nil]; decide
  unfold clockedOut
  rw [hbits, List.take_replicate, Nat.min_eq_left h.le, List.nil_append, List.take_replicate, Nat.min_self]

/-- Settles O6: a faulty frame, an unknown kind, and the line SDO by what its frame is judged. -/
theorem faultyAndUnknownFramesAreAnswered : Obligations.FaultyAndUnknownFramesAreAnswered := by
  refine ⟨fun f s hj hf => ?faulty, fun code tag body s hj hc hl => ?unknown, fun f s => ⟨rfl, ?judges, ?silent, ?reads, ?ones⟩⟩
  case faulty =>
    have hcond : (s.begin.judgesFrames && judgeFrame f == .fault) = true := by
      rw [hf]; simpa using (show s.begin.judgesFrames = true from hj)
    change execBadFrame f s = _
    exact congrArg _ (if_pos hcond)
  case unknown =>
    have hnone : kindOf code = none := (kindOf_eq_none code).2 hc
    have hcond : ¬(!s.begin.judgesFrames || (kindOf code).isSome) = true := by
      rw [hnone]; simpa using (show s.begin.judgesFrames = true from hj)
    change execUnknownKind code tag body s = _
    refine congrArg _ ((if_neg hcond).trans ((if_neg (not_lt.2 hl)).trans ?_))
    rfl
  case judges => simp [State.judgesFrames]
  case silent =>
    intro hj
    exact if_pos (by rw [hj]; rfl)
  case reads =>
    intro hj hb hones hr
    have hread := judgeFrame_read hb hones hr
    refine ⟨hread, ?_, ?_⟩
    · refine (if_neg (by rw [hj]; decide)).trans ?_
      rw [if_pos hread]
      unfold clockedOut
      rw [hr]
      rfl
    · change execBadFrame f s = _
      exact congrArg _ (if_neg (by rw [hread]; simp))
  case ones =>
    intro hj hnot hr
    refine (if_neg (by rw [hj]; decide)).trans ?_
    rw [if_neg hnot, clockedOut_nil f hr]

end Sys2Proof.Machine
end

