-- ==== Sys2Proof/Proofs/Reports.lean ====
section
/-! The reports (O7): each record of section 10.4 field by field, and the requests that answer it. -/

namespace Sys2Proof.Machine

/-! ### Fields -/

/-- R173: a count that saturates. -/
theorem beSat_one (n : Nat) : beSat 1 n = be 1 (min n 255) := rfl
theorem beSat_two (n : Nat) : beSat 2 n = be 2 (min n 65535) := rfl
theorem beSat_four (n : Nat) : beSat 4 n = be 4 (min n 4294967295) := rfl

@[simp] theorem beSat_length (w n : Nat) : (beSat w n).length = w := be_length w _

/-- R173: an absent field reads 0. -/
theorem optional_eq (w : Nat) (x : Option Nat) : optional w x = be w (min (x.getD 0) (256 ^ w - 1)) := by
  cases x with
  | none => simp [optional]
  | some n => rfl

@[simp] theorem optional_length (w : Nat) (x : Option Nat) : (optional w x).length = w := by
  rw [optional_eq, be_length]

/-- A set of members as a byte. -/
theorem be_one_toNat (b : Byte) : be 1 b.toNat = [b] := by
  rw [be_one, BitVec.ofNat_toNat, BitVec.setWidth_eq]

/-- A range index as a byte. -/
theorem be_one_range (k : Fin 16) : be 1 k.val = [rangeByte k] := be_one _

/-- Presence marks as a byte. -/
theorem presence_eq (a b c : Bool) :
    a.toNat + 2 * b.toNat + 4 * c.toNat
      = (if a = true then 1 else 0) + (if b = true then 2 else 0) + (if c = true then 4 else 0) := by
  cases a <;> cases b <;> cases c <;> rfl

/-- A list each of whose records has one length. -/
theorem length_flatMap_const {α β : Type} (l : List α) (f : α → List β) (n : Nat) (h : ∀ a, (f a).length = n) :
    (l.flatMap f).length = n * l.length := by
  induction l with
  | nil => rfl
  | cons a l ih => rw [List.flatMap_cons, List.length_append, h, ih, List.length_cons]; ring

/-! ### IDENTIFY and STATUS -/

/-- Section 10.4: the fields of IDENTIFY. -/
theorem identifyBody_eq (s : State) :
    identifyBody s =
        [0x4B, 0x57, 0x3C, 0x60, 1, 0x00, 0xF0, 0x02, 0x00] ++ be 1 s.life.lifecycle.code
          ++ s.cells.toList.map Cell.code
          ++ (match s.life.journal with
            | none => [0, 0, 0]
            | some j => [1] ++ be 1 j.next.val ++ be 1 j.faults.length ++ j.faults.flatMap fun c => be 1 c.val) := by
  have hhead : be 2 0x4B57 ++ be 2 0x3C60 ++ [1] ++ be 2 240 ++ be 2 512
      = [0x4B, 0x57, 0x3C, 0x60, 1, 0x00, 0xF0, 0x02, 0x00] := by decide
  unfold identifyBody
  rw [hhead, be_one]
  cases s.life.journal with
  | none => rfl
  | some j =>
    have hfaults : (j.faults.flatMap fun c => be 1 c.val) = j.faults.map fun c => BitVec.ofNat 8 c.val := by
      simp only [be_one]
      exact List.map_eq_flatMap.symm
    dsimp only
    rw [hfaults, be_one, be_one]
    rfl

theorem identifyBody_length (s : State) :
    (identifyBody s).length = 39 + ((s.life.journal.map fun j => j.faults.length).getD 0) := by
  rw [identifyBody_eq]
  cases s.life.journal with
  | none => simp [be_length]
  | some j => simp [be_one, List.length_flatMap]; omega

/-- R161: the credential record of STATUS. -/
theorem credentialRecord_eq (s : State) :
    credentialRecord s =
      ((List.finRange 8).flatMap fun (k : Fin 8) =>
          [s.cred.slots[k].state.code, if k = 0 then 1 else 0] ++ be 2 s.cred.slots[k].access.toNat ++ [flag s.cred.slots[k].resumeAllowed])
        ++ [s.verified] ++ be 1 s.cred.failures
        ++ be 4 (min ((s.backoff.map fun t => t - s.millis).getD 0) 4294967295) := by
  have hslots : allSlotIndices = List.finRange 8 := by decide
  unfold credentialRecord
  rw [hslots, be_one_toNat, beSat_four]
  cases s.backoff <;> rfl

theorem credentialRecord_length (s : State) : (credentialRecord s).length = 46 := by
  have hslots : (allSlotIndices.flatMap fun k =>
      let slot := s.cred.slots[k]
      [slot.state.code, roleCode k] ++ be 2 slot.access.toNat ++ [flag slot.resumeAllowed]).length = 5 * 8 :=
    length_flatMap_const allSlotIndices _ 5 fun k => by simp [be_length]
  unfold credentialRecord
  simp only [List.length_append, hslots, be_length, beSat_length]

/-- R96: the sense record of STATUS. -/
theorem senseRecord_eq (s : State) :
    senseRecord s =
      (match s.beacon with
          | none => [0, 0, 0]
          | some b => [1, flag (b.level == some true)] ++ be 1 (min ((b.deadline - s.now) / 1000000) 255))
        ++ [s.tamper.code, flag s.tampOpen, s.dormancyState.code]
        ++ be 1 (min (if s.dormancyState = .counting then s.dormancyCount / 60000000 else 0) 255)
        ++ [flag s.binding.isSome, s.window.code]
        ++ (match s.window with
          | .waiting t => be 1 (min ((t - s.now) / 1000000) 255)
          | .none => [0]
          | .matched => [0]
          | .foreign => [0]) := by
  have hzero : beSat 1 0 = [0] := by decide
  unfold senseRecord
  cases s.window with
  | waiting t => cases s.beacon <;> rfl
  | none | matched | foreign =>
    dsimp only
    rw [hzero]
    cases s.beacon <;> rfl

theorem senseRecord_length (s : State) : (senseRecord s).length = 10 := by
  unfold senseRecord
  cases s.beacon <;> simp

/-- R138: the erase record of STATUS. -/
theorem eraseRecord_eq (s : State) :
    eraseRecord s =
      match s.job with
      | none => [0, 0, 0, 0, 0, 0, 0, 0]
      | some j =>
        [j.owner.code] ++ be 1 j.cell.val ++ [j.phase.code]
          ++ be 1 j.round ++ be 1 j.good ++ be 1 j.stuckRun ++ be 1 j.p ++ [flag s.resReady] := by
  unfold eraseRecord
  cases s.job with
  | none =>
    have hzero : be 8 0 = [0, 0, 0, 0, 0, 0, 0, 0] := by decide
    exact hzero
  | some j => rfl

theorem eraseRecord_length (s : State) : (eraseRecord s).length = 8 := by
  rw [eraseRecord_eq]
  cases s.job <;> simp [be_one]

/-- R153: the supply record of STATUS. -/
theorem supplyRecord_eq (s : State) :
    supplyRecord s =
      [s.mode.code, flag s.vmain, flag s.vaux, flag s.resReady]
        ++ (match s.intent with
          | none => [0, 0, 0]
          | some i => [1] ++ be 1 i.hold ++ be 1 (min ((i.expiry - s.now) / 1000000) 255))
        ++ be 1 s.grants.length
        ++ (s.grants.flatMap fun g =>
          [rangeByte g.range, flag g.gates.read, flag g.gates.write]
            ++ be 2 (min ((g.expiry - s.now) / 1000000) 65535))
        ++ be 1 s.report.taken ++ [dropCauseCode s.report.dropCause]
        ++ be 2 s.report.consumed.toNat := by
  unfold supplyRecord
  simp only [be_one_range]
  cases s.intent <;> rfl

theorem supplyRecord_length (s : State) : (supplyRecord s).length = 12 + 5 * s.grants.length := by
  have hgrants : (s.grants.flatMap fun g =>
      be 1 g.range.val ++ [flag g.gates.read, flag g.gates.write] ++ beSat 2 (s.secondsTo g.expiry)).length
        = 5 * s.grants.length := length_flatMap_const s.grants _ 5 fun g => by simp [be_length]
  unfold supplyRecord
  cases s.intent with
  | none => simp only [List.length_append, hgrants, be_length, List.length_cons, List.length_nil]; omega
  | some i => simp only [List.length_append, hgrants, be_length, beSat_length, List.length_cons, List.length_nil]; omega

/-- Section 10.4: STATUS. -/
theorem statusBody_length (s : State) : (statusBody s).length = 80 + 5 * s.grants.length := by
  unfold statusBody linkRecord
  simp only [List.length_append, credentialRecord_length, senseRecord_length, eraseRecord_length, supplyRecord_length,
    be_length, List.length_cons, List.length_nil]
  omega

/-! ### READ_SCORE and READ_TRAIL -/

/-- R117, section 10.4: the fields of READ_SCORE. -/
theorem scoreBody_eq (s : State) :
    scoreBody s =
        be 2 s.evid.score ++ be 1 s.evid.stage.code ++ [flag s.settings.scoreWipe]
          ++ be 1 ((if s.margin.isSome then 1 else 0) + (if s.fallPoint.isSome then 2 else 0)
            + if (s.evid.trail.getLast?.map TrailEntry.time).isSome then 4 else 0)
          ++ be 2 (BitVec.ofInt 16 (s.margin.getD 0)).toNat ++ be 2 (min (s.fallPoint.getD 0) 65535)
          ++ [s.decayState.code]
          ++ be 2 (min (if s.decayState = .running then
              (s.settings.idc * 60000000 - s.decayCount) / 1000000 else 0) 65535)
          ++ be 4 (min ((s.evid.trail.getLast?.map TrailEntry.time).getD 0) 4294967295) := by
  unfold scoreBody
  dsimp only
  rw [presence_eq, optional_eq, optional_eq]
  rfl

theorem scoreBody_length (s : State) : (scoreBody s).length = 16 := by
  rw [scoreBody_eq]
  simp [be_length]

/-- R117: the largest S at which ALERT falls. -/
theorem State.fallPoint_some {s : State} {n : Nat} (h : s.fallPoint = some n) :
    s.evid.stage = .alert ∧ ∀ score, (score = 0 ∨ score + s.settings.h < s.settings.ta) ↔ score ≤ n := by
  unfold State.fallPoint at h
  split at h
  · next ha =>
    refine ⟨ha, fun score => ?_⟩
    cases h
    split <;> omega
  all_goals cases h

/-- R119, section 10.4: the fields of READ_TRAIL. -/
theorem trailBody_eq (page : Nat) (s : State) :
    trailBody page s =
        be 1 s.evid.trail.length ++ be 2 s.evid.appended
          ++ be 1 ((s.evid.trail.drop (8 * page)).take 8).length
          ++ ((s.evid.trail.drop (8 * page)).take 8).flatMap fun e =>
            be 4 (min e.time 4294967295) ++ [e.kind.code] ++ be 2 e.contribution ++ be 2 e.score ++ be 1 e.stage.code :=
  rfl

/-! ### READ_RANGES -/

/-- Section 10.4: a range's record. -/
theorem rangeRecordBytes_eq (k : Fin 16) (e : Editable) (g : Gates) (mark : Bool) (health reported : Byte) :
    rangeRecordBytes k e g mark health reported =
      [rangeByte k, flag e.enabled]
          ++ (match e.extent with
            | some x => be 6 x.start ++ be 6 x.length
            | none => [0, 0, 0, 0, 0, 0, 0, 0, 0, 0, 0, 0])
          ++ [flag g.read, flag g.write, e.lockOn.code, e.response.code, flag e.resumeEligible, flag mark, health,
            reported] := by
  have hzero : be 12 0 = [0, 0, 0, 0, 0, 0, 0, 0, 0, 0, 0, 0] := by decide
  unfold rangeRecordBytes
  rw [be_one_range]
  cases e.extent with
  | none => rw [extentBytes, hzero]; rfl
  | some x => rfl

theorem rangeRecordBytes_length (k : Fin 16) (e : Editable) (g : Gates) (mark : Bool) (health reported : Byte) :
    (rangeRecordBytes k e g mark health reported).length = 22 := by
  rw [rangeRecordBytes_eq]
  cases e.extent <;> simp [be_length]

/-- R60: what is reported of a range. -/
theorem State.reported_code (k : Fin 16) (s : State) :
    (s.reported k).code =
      (if s.settled (rangeSlot k) = false then 3
        else if s.gates[k] = ⟨false, false⟩ then 0
        else if s.gates[k] = ⟨true, true⟩ then 1
        else 2) := by
  unfold State.reported
  dsimp only
  generalize s.gates[k] = g
  obtain ⟨r, w⟩ := g
  cases s.settled (rangeSlot k) <;> cases r <;> cases w <;> rfl

/-- R60: what is reported of the shadow. -/
theorem State.shadowReported_eq (s : State) :
    s.shadowReported = if s.settled 16 = false then 3 else s.shadow.code := by
  unfold State.shadowReported
  change (if s.settled 16 then s.shadow.code else 3) = _
  cases s.settled 16 <;> rfl

theorem rangesBody_length (selDraft : Bool) (s : State) : (rangesBody selDraft s).length = 364 := by
  have hranges : allRanges.length = 16 := rfl
  unfold rangesBody
  rw [List.length_append, length_flatMap_const allRanges _ 22, hranges]
  · simp [be_length]
  · intro k
    dsimp only
    split <;> exact rangeRecordBytes_length _ _ _ _ _ _

/-! ### The requests -/

/-- R161: a report is answered with its body, and nothing else changes. -/
theorem request_readOnly {k : Kind} {tag : Byte} {reply : State → Bytes} {s : State} (h : s.Admits k)
    (hr : reply s.begin = reply s) :
    request k tag [] (readOnly [] reply) s = .next (s.begin.replied k tag .done (reply s)) :=
  request_taken h (Nat.zero_le _) (by rw [← hr]; rfl)

/-- R160, R161: IDENTIFY and STATUS are answered wherever frames are judged. -/
theorem request_readOnly_of_judged {k : Kind} {tag : Byte} {reply : State → Bytes} {s : State}
    (h : s.judgesFrames = true) (hk : k = .identify ∨ k = .status) (hr : reply s.begin = reply s) :
    request k tag [] (readOnly [] reply) s = .next (s.begin.replied k tag .done (reply s)) := by
  have hstarting : ¬(s.begin.mode = .starting ∧ k ≠ .identify ∧ k ≠ .status) := by tauto
  have hadmits : s.begin.life.lifecycle.admits k = true := by
    rcases hk with rfl | rfl <;> cases s.begin.life.lifecycle <;> rfl
  have hcheck : checkOrder k (readOnly [] reply) s.begin = ⟨.done, reply s, s.begin⟩ := by
    unfold checkOrder
    rw [if_neg hstarting, if_pos hadmits, ← hr]
    rfl
  rw [request_judged _ _ _ _ _ h (Nat.zero_le _), hcheck, answer_replied]

/-- R119: a page of the trail. -/
theorem execReadTrail_page {tag : Byte} {s : State} (h : s.Admits .readTrail) (page : Byte) :
    execReadTrail tag [page] s = .next
          (if page.toNat ≤ 2 then s.begin.replied .readTrail tag .done (trailBody page.toNat s)
           else s.begin.replied .readTrail tag .badValue []) := by
  by_cases hp : page.toNat ≤ 2
  · rw [if_pos hp]
    exact request_taken h (by simp) (if_pos hp)
  · rw [if_neg hp]
    exact request_taken h (by simp) (if_neg hp)

/-- Settles O7: each report is read from the state, field by field, and its request answers it. -/
theorem reportsReadTheState : Obligations.ReportsReadTheState := by
  refine ⟨fun tag s => ⟨fun hj => ⟨?identify, ?status⟩, fun ha => ?policy, fun ha => ?score⟩,
    fun tag s => ⟨fun ha page => ?trail, fun ha => ⟨?active, ?draft⟩⟩,
    fun s => ⟨identifyBody_eq s, identifyBody_length s, ?statusFields, statusBody_length s⟩,
    fun s => ⟨scoreBody_eq s, scoreBody_length s, rfl, fun n hn => State.fallPoint_some hn, ?falls,
      fun page => trailBody_eq page s⟩,
    fun s => ⟨?activeFields, ?draftFields, rangesBody_length false s, rangesBody_length true s⟩, ?codes⟩
  case identify => exact request_readOnly_of_judged hj (.inl rfl) rfl
  case status => exact request_readOnly_of_judged hj (.inr rfl) rfl
  case policy => exact request_readOnly (reply := fun s => s.settings.toBytes) ha rfl
  case score => exact request_readOnly ha rfl
  case trail => exact execReadTrail_page ha page
  case active => exact request_taken ha (by decide) (if_pos rfl)
  case draft => exact request_taken ha (by decide) ((if_neg (by decide)).trans (if_pos rfl))
  case statusFields =>
    unfold statusBody linkRecord
    rw [credentialRecord_eq, senseRecord_eq, eraseRecord_eq, supplyRecord_eq]
    simp only [List.append_assoc] <;> rfl
  case falls =>
    intro ha
    unfold State.fallPoint
    rw [ha]; rfl
  case activeFields =>
    have hranges : allRanges = List.finRange 16 := by decide
    unfold rangesBody
    rw [hranges, State.shadowReported_eq]
    simp only [rangeRecordBytes_eq, State.reported_code]
    rfl
  case draftFields =>
    have hranges : allRanges = List.finRange 16 := by decide
    unfold rangesBody
    rw [hranges, State.shadowReported_eq]
    simp only [rangeRecordBytes_eq]
    rfl
  case codes =>
    refine ⟨rfl, rfl, rfl, fun _ => rfl, fun _ => rfl, rfl, rfl, fun _ => rfl, rfl, fun _ => rfl, rfl, fun _ _ _ => rfl,
      rfl, rfl, rfl, rfl, rfl, rfl, by decide, rfl, rfl, rfl⟩

end Sys2Proof.Machine
end

