-- ==== Sys2Proof/Proofs/Indicators.lean ====
section
/-! Indicators, masks, operation records and the status summary (O8). -/

namespace Sys2Proof.Machine

/-! ### MASK -/

/-- The bit of one indicator. -/
theorem single_ten_getLsbD : ∀ a i : Fin 10, (single 10 a.val).getLsbD i.val = decide (i = a) := by decide

/-- R171: a list of indicator codes is read as the set of them. -/
theorem readIndicatorSet_of (list : Bytes) (h : ∀ b ∈ list, b.toNat < 10) :
    ∃ set, readIndicatorSet list = some set
      ∧ ∀ i : Fin 10, set.getLsbD i.val = decide (BitVec.ofNat 8 i.val ∈ list) := by
  induction list with
  | nil => exact ⟨0, rfl, by simp⟩
  | cons b list ih =>
    obtain ⟨set, hset, hbits⟩ := ih fun x hx => h x (List.mem_cons_of_mem b hx)
    have hb : b.toNat < 10 := h b List.mem_cons_self
    refine ⟨set ||| single 10 b.toNat, ?_, fun i => ?_⟩
    · simp only [readIndicatorSet, hset]
      exact if_pos hb
    · have hbit := single_ten_getLsbD ⟨b.toNat, hb⟩ i
      have hcode : i = ⟨b.toNat, hb⟩ ↔ BitVec.ofNat 8 i.val = b := by
        rw [Fin.ext_iff, ← BitVec.toNat_inj, BitVec.toNat_ofNat, Nat.mod_eq_of_lt (by omega)]
      rw [BitVec.getLsbD_or, hbits, hbit]
      simp only [hcode, List.mem_cons, Bool.decide_or, Bool.or_comm]

/-- R164: the body of MASK is read back. -/
theorem readMask_of (set : Bool) (list : Bytes) (hl : list.length ≤ 10) (h : ∀ b ∈ list, b.toNat < 10) :
    ∃ named : BitVec 10,
      readMask ((if set then 1 else 2) :: BitVec.ofNat 8 list.length :: list) = some (set, named)
        ∧ ∀ i : Fin 10, named.getLsbD i.val = decide (BitVec.ofNat 8 i.val ∈ list) := by
  obtain ⟨named, hnamed, hbits⟩ := readIndicatorSet_of list h
  refine ⟨named, ?_, hbits⟩
  have hlist := readList_append list [] (by omega)
  rw [List.append_nil] at hlist
  simp only [readMask, hlist, hnamed]
  rw [if_neg (by omega)]
  cases set <;> rfl

/-- R164: the masks that a taken MASK leaves. -/
def maskedWith (set : Bool) (named masks : BitVec 10) : BitVec 10 := if set then masks ||| named else masks &&& ~~~named

/-- R164: they differ from those before in the named ones alone. -/
theorem maskedWith_getLsbD (set : Bool) (named masks : BitVec 10) (i : Fin 10) :
    (maskedWith set named masks).getLsbD i.val = if named.getLsbD i.val then set else masks.getLsbD i.val := by
  cases set
  · change (masks &&& ~~~named).getLsbD i.val = _
    rw [BitVec.getLsbD_and, BitVec.getLsbD_not]
    cases named.getLsbD i.val <;> cases masks.getLsbD i.val <;> simp
  · change (masks ||| named).getLsbD i.val = _
    rw [BitVec.getLsbD_or]
    cases named.getLsbD i.val <;> cases masks.getLsbD i.val <;> rfl

/-- R164: a taken MASK. -/
theorem execMask_taken {tag : Byte} {body : Bytes} {s : State} {set : Bool} {named : BitVec 10} (h : s.Admits .mask)
    (hl : body.length ≤ 240) (hb : readMask body = some (set, named)) :
    execMask tag body s = .next
      (State.replied .mask tag .done (be 2 (maskedWith set named s.masks).toNat)
        { s.begin with masks := maskedWith set named s.masks }) :=
  request_taken h hl (by rw [hb]; rfl)

/-! ### The status summary and ATTN_N -/

/-- R158: some latched indicator is unmasked. -/
theorem State.indicatorItem_eq (s : State) :
    s.indicatorItem = decide (∃ i : Fin 10, s.latched.getLsbD i.val = true ∧ s.masks.getLsbD i.val = false) := by
  unfold State.indicatorItem
  rw [Bool.eq_iff_iff, bne_iff_ne, decide_eq_true_iff, ne_eq, ← not_iff_not, not_not, not_exists]
  constructor
  · rintro h i ⟨hl, hm⟩
    have hbit : (s.latched &&& ~~~s.masks).getLsbD i.val = (0 : BitVec 10).getLsbD i.val := by rw [h]
    rw [BitVec.getLsbD_and, BitVec.getLsbD_not, hl, hm] at hbit
    simp at hbit
  · intro h
    refine BitVec.eq_of_getLsbD_eq fun i hi => ?_
    have hbit := h ⟨i, hi⟩
    rw [BitVec.getLsbD_and, BitVec.getLsbD_not]
    cases hl : s.latched.getLsbD i <;> cases hm : s.masks.getLsbD i <;> simp_all

/-- R158: some record is ENDED and unseen. -/
theorem State.endedItem_eq (s : State) :
    s.endedItem = decide (∃ r ∈ [s.credOp, s.layoutOp, s.wipeOp], r.state = .ended ∧ r.unseen = true) := by
  unfold State.endedItem OpRecord.drawsAttention
  rw [Bool.eq_iff_iff]
  simp [or_assoc]

/-- Section 10.2: the status summary. -/
theorem State.summary_eq (s : State) :
    s.summary =
      s.life.lifecycle.code * 16384 + s.evid.stage.code * 4096 + (if s.mode = .starting then 2048 else 0)
        + (if s.indicatorItem then 1024 else 0) + (if s.endedItem then 512 else 0) + (if s.frameFault then 256 else 0)
        + (if s.latched.getLsbD 6 then 128 else 0) + (if s.verified = 0 then 0 else 64) := by
  have hbit : ∀ (b : Bool) (n : Nat), b.toNat * n = if b then n else 0 := fun b n => by cases b <;> simp
  have hmode : (s.mode == .starting) = decide (s.mode = .starting) := by cases s.mode <;> rfl
  have hverified : ((s.verified != 0).toNat) * 64 = if s.verified = 0 then 0 else 64 := by
    by_cases h : s.verified = 0
    · rw [h]; rfl
    · rw [bne_iff_ne.2 h, if_neg h]; rfl
  unfold State.summary
  rw [← hverified, hmode]
  simp only [Indicator.code, Nat.reducePow, hbit, decide_eq_true_eq]

/-! ### OPSTATE -/

/-- Section 10: a moment to the millisecond. -/
theorem stamp_eq (t : Option Millis) :
    (match t with
      | some t => stamp t
      | none => be 6 0) = be 4 (min (t.getD 0 / 1000) 4294967295) ++ be 2 (t.getD 0 % 1000) := by
  cases t with
  | none =>
    have hzero : be 6 0 = be 4 (min (0 / 1000) 4294967295) ++ be 2 (0 % 1000) := by decide
    exact hzero
  | some t => rfl

/-- Section 10.4: the fields of OPSTATE. -/
theorem opstateBody_eq (n : Nat) (r : OpRecord) :
    opstateBody n r =
      be 1 n
        ++ [(r.kind.map OpKind.code).getD 0, r.state.code, (r.outcome.map OpOutcome.code).getD 0]
        ++ be 1 ((if r.detail.isSome then 1 else 0) + (if r.startedAt.isSome then 2 else 0)
          + if r.endedAt.isSome then 4 else 0)
        ++ be 1 (min (r.detail.getD 0) 255)
        ++ (be 4 (min (r.startedAt.getD 0 / 1000) 4294967295) ++ be 2 (r.startedAt.getD 0 % 1000))
        ++ (be 4 (min (r.endedAt.getD 0 / 1000) 4294967295) ++ be 2 (r.endedAt.getD 0 % 1000)) ++ [flag r.unseen] := by
  have hstart := stamp_eq r.startedAt
  have hend := stamp_eq r.endedAt
  unfold opstateBody
  rw [presence_eq, optional_eq, ← hstart, ← hend]
  rfl

/-- Settles O8: FLAGS, MASK and OPSTATE by their bodies, and the summary bit by bit. -/
theorem indicatorsMasksAndRecordsAreRead : Obligations.IndicatorsMasksAndRecordsAreRead := by
  refine ⟨fun tag s ha => request_taken ha (Nat.zero_le _) rfl, fun tag set list s ha hl hb => ?mask,
    fun tag s ha => ⟨?cred, ?layout, ?wipe⟩, fun n r => ⟨opstateBody_eq n r, ?length⟩, fun s => ⟨?summary, ?attention⟩⟩
  case mask =>
    obtain ⟨named, hread, hbits⟩ := readMask_of set list hl hb
    refine ⟨maskedWith set named s.masks, execMask_taken ha (by simp; omega) hread, fun i => ?_⟩
    rw [maskedWith_getLsbD, hbits]
    simp only [decide_eq_true_eq]
  case cred => exact request_taken ha (by simp) (if_pos rfl)
  case layout => exact request_taken ha (by simp) ((if_neg (by decide)).trans (if_pos rfl))
  case wipe =>
    exact request_taken ha (by simp) ((if_neg (by decide)).trans ((if_neg (by decide)).trans (if_pos rfl)))
  case length => rw [opstateBody_eq]; simp [be_length]
  case summary =>
    rw [State.summary_eq, State.indicatorItem_eq, State.endedItem_eq]
  case attention =>
    unfold State.attention
    rw [State.indicatorItem_eq, State.endedItem_eq]
    cases s.mode <;> rfl

end Sys2Proof.Machine
end

