-- ==== Sys2Proof/Proofs/CredentialRequests.lean ====
section
/-! The requests that start a derivation or manage a slot: PROVISION (O9), VERIFY (O13), ENROLL (O16), REMOVE,
SUSPEND_SLOT and RESTORE_SLOT (O18). -/

namespace Sys2Proof.Machine

/-! ### Conditions in their order -/

/-- R159: a taken request answers what its owner answers. -/
theorem request_answered {k : Kind} {tag : Byte} {body : Bytes} {owner : State → Answer} {s t : State}
    (h : s.Admits k) (hl : body.length ≤ 240) (ho : answer k.code tag (owner s.begin) = t) :
    request k tag body owner s = .next t := by
  rw [← ho]
  exact request_taken h hl rfl

/-- R159: a condition that fails answers its refusal, and else the later conditions decide. -/
theorem answer_check {k : Kind} {tag : Byte} {code : ReplyCode} {a : Answer} {s t : State} {p q : Prop} [Decidable p]
    [Decidable q] (hpq : p ↔ q) (h : ¬q → answer k.code tag a = t) :
    answer k.code tag (if p then refuse code s else a) = if q then s.replied k tag code [] else t := by
  by_cases hq : q
  · rw [if_pos hq, if_pos (hpq.2 hq)]; rfl
  · rw [if_neg hq, if_neg (mt hpq.1 hq), h hq]

/-- R21, R35: the deadline is still ahead. -/
theorem State.backoff_ahead_iff (s : State) : (!s.backoffOver) = true ↔ ∃ t ∈ s.backoff, s.millis < t := by
  by_cases h : ∃ t ∈ s.backoff, s.millis < t
  · exact iff_of_true (by rw [State.backoffOver_false h]; rfl) h
  · exact iff_of_false (by simp [State.backoffOver_true h]) h

/-- R31: slot 0 is not among the verifications. -/
theorem State.not_adminVerified_iff (s : State) : (!s.adminVerified) = true ↔ s.verified.getLsbD 0 = false := by
  simp [State.adminVerified]

/-- R171: a secret is out of its range. -/
theorem not_goodSecret_iff (b : Bytes) : (!goodSecret b) = true ↔ b.length < 8 ∨ 64 < b.length := by
  simp [goodSecret]

/-! ### PROVISION -/

/-- R171: a secret's length. -/
theorem goodSecret_iff (b : Bytes) : goodSecret b = true ↔ 8 ≤ b.length ∧ b.length ≤ 64 := by simp [goodSecret]

/-- R3: the body of PROVISION is read back. -/
theorem readProvision_of {capacity : Nat} {code secret : Bytes} (h8 : capacity % 8 = 0) (hlo : 65536 ≤ capacity)
    (hhi : capacity ≤ 2 ^ 48 - 8) (hcode : code.length = 16) (hs : goodSecret secret = true) :
    readProvision (be 6 capacity ++ code ++ secret) = some ⟨capacity, code, secret⟩ := by
  have hbe : (be 6 capacity).length = 6 := be_length 6 capacity
  have htake : (be 6 capacity ++ code ++ secret).take 6 = be 6 capacity := by
    rw [List.append_assoc]; exact List.take_left' hbe
  have hsecret : (be 6 capacity ++ code ++ secret).drop 22 = secret :=
    List.drop_left' (by rw [List.length_append, hbe, hcode])
  have hwipe : ((be 6 capacity ++ code ++ secret).drop 6).take 16 = code := by
    rw [List.append_assoc, List.drop_left' hbe, ← hcode, List.take_left]
  unfold readProvision
  rw [htake, hsecret, hwipe, ofBe_be_six capacity (by omega)]
  exact if_pos ⟨h8, hlo, hhi, hs⟩

/-- R3: a capacity or a secret out of its range. -/
theorem readProvision_bad {body : Bytes}
    (h : body.length < 30 ∨ 86 < body.length ∨ ofBe (body.take 6) % 8 ≠ 0 ∨ ofBe (body.take 6) < 65536
      ∨ 2 ^ 48 - 8 < ofBe (body.take 6)) : readProvision body = none := by
  refine if_neg ?_
  rintro ⟨h8, hlo, hhi, hs⟩
  rw [goodSecret_iff, List.length_drop] at hs
  omega

/-- Settles O9: the derivation unit decides first, then the body. -/
theorem provisionStartsADerivation : Obligations.ProvisionStartsADerivation := by
  refine ⟨fun tag capacity code secret s h h8 hlo hhi hcode hs hs' => ?taken, fun tag body s h hd hl hbad => ?refused⟩
  case taken =>
    have hbody := readProvision_of h8 hlo hhi hcode ((goodSecret_iff secret).2 ⟨hs, hs'⟩)
    have hl : (be 6 capacity ++ code ++ secret).length ≤ 240 := by
      simp only [List.length_append, be_length]; omega
    change execProvision tag _ s = _
    split
    case isTrue hbusy => exact request_taken h hl (if_pos hbusy)
    case isFalse hfree => exact request_taken h hl ((if_neg hfree).trans (by rw [hbody]; rfl))
  case refused =>
    refine request_taken h hl ((if_neg (by simp [hd])).trans ?_)
    rw [readProvision_bad hbad]
    rfl

/-! ### VERIFY -/

/-- The slot that a body names in its first byte. -/
theorem bodySlot_slotByte (k : Fin 8) (rest : Bytes) : bodySlot (slotByte k :: rest) = some k := readSlot_slotByte k

/-- The user slot that a body names in its first byte. -/
theorem bodyUserSlot_slotByte {k : Fin 8} (hk : k ≠ 0) (rest : Bytes) : bodyUserSlot (slotByte k :: rest) = some k :=
  readUserSlot_slotByte k hk

/-- Settles O13: the conditions of R21 in their order, and the start. -/
theorem verifyIsCountedAndStarted : Obligations.VerifyIsCountedAndStarted := by
  intro tag k secret s h hl
  refine request_answered h hl ?_
  rw [bodySlot_slotByte]
  exact answer_check Iff.rfl fun _ => answer_check Iff.rfl fun _ => answer_check s.begin.backoff_ahead_iff fun _ =>
    answer_check Iff.rfl fun _ => answer_check (not_goodSecret_iff secret) fun _ => rfl

/-! ### ENROLL -/

/-- R32: the body of ENROLL is read back. -/
theorem readEnroll_of {k : Fin 8} {resume : Bool} {ranges : List (Fin 16)} {secret : Bytes} (hr : ranges.Nodup)
    (hs : goodSecret secret = true) :
    ∃ access : BitVec 16, (∀ j : Fin 16, access.getLsbD j.val = decide (j ∈ ranges)) ∧
      readEnroll (slotByte k :: flag resume :: BitVec.ofNat 8 ranges.length :: (ranges.map rangeByte ++ secret))
        = some ⟨resume, access, secret⟩ := by
  obtain ⟨access, haccess, hbits⟩ := readRangeSet_map ranges hr
  have hlist := readList_append (ranges.map rangeByte) secret
    (by have := length_le_of_nodup ranges hr; rw [List.length_map]; omega)
  rw [List.length_map] at hlist
  refine ⟨access, hbits, ?_⟩
  simp only [readEnroll, readFlag_flag, hlist, haccess, hs, if_true]

/-- Settles O16: the conditions of R32 in their order, and the start. -/
theorem enrollStartsADerivation : Obligations.EnrollStartsADerivation := by
  intro tag k resume ranges secret s h hk hr hs hs'
  have hgood : goodSecret secret = true := (goodSecret_iff secret).2 ⟨hs, hs'⟩
  obtain ⟨access, hbits, hbody⟩ := readEnroll_of (k := k) (resume := resume) hr hgood
  have hl := length_le_of_nodup ranges hr
  refine ⟨access, hbits, request_answered h (by simp only [List.length_cons, List.length_append, List.length_map]; omega) ?_⟩
  rw [bodyUserSlot_slotByte hk]
  refine answer_check s.begin.not_adminVerified_iff fun _ => answer_check Iff.rfl fun _ => answer_check Iff.rfl fun _ =>
    answer_check Iff.rfl fun _ => ?_
  rw [hbody]
  rfl

/-! ### REMOVE, SUSPEND_SLOT and RESTORE_SLOT -/

/-- R33, R34: the conditions that the three share, in their order, of a body that names a user slot alone. -/
theorem manageSlot_answered {kind : Kind} {tag : Byte} {k : Fin 8} {gives : Bool} {states : List SlotState}
    {act : Fin 8 → State → State} {s : State} (hk : k ≠ 0) :
    answer kind.code tag (manageSlot [slotByte k] gives states act s) =
      if s.verified.getLsbD 0 = false then s.replied kind tag .notPermitted []
      else if gives = true ∧ s.evid.stage = .lockdown then s.replied kind tag .notPermitted []
      else if s.cred.slots[k].state ∉ states then s.replied kind tag .wrongState []
      else if ∃ d ∈ s.derivation, d.slot = k then s.replied kind tag .busy []
      else (act k s).replied kind tag .done [] := by
  unfold manageSlot
  rw [bodyUserSlot_slotByte hk]
  refine answer_check s.not_adminVerified_iff fun _ => answer_check Iff.rfl fun _ => answer_check (by simp) fun _ =>
    answer_check (s.derivationNames_iff k) fun _ => ?_
  rw [if_neg (by simp)]
  rfl

/-- Settles O18: the shared conditions, with the slot states that each of the three takes. -/
theorem slotsAreManaged : Obligations.SlotsAreManaged := by
  intro tag k s hk
  refine ⟨fun h => ?remove, fun h => ?suspend, fun h => ?restore⟩
  case remove =>
    refine request_answered h (by simp) ((manageSlot_answered hk).trans ?_)
    have hstate : s.cred.slots[k].state ∉ [SlotState.active, .suspended] ↔ s.cred.slots[k].state = .empty := by
      cases s.cred.slots[k].state <;> simp
    exact if_congr Iff.rfl rfl ((if_neg (by simp)).trans (if_congr hstate rfl (if_congr (by simp) rfl rfl)))
  case suspend =>
    refine request_answered h (by simp) ((manageSlot_answered hk).trans ?_)
    exact if_congr Iff.rfl rfl ((if_neg (by simp)).trans (if_congr (by simp) rfl (if_congr (by simp) rfl rfl)))
  case restore =>
    refine request_answered h (by simp) ((manageSlot_answered hk).trans ?_)
    exact if_congr Iff.rfl rfl (if_congr (by simp) rfl (if_congr (by simp) rfl (if_congr (by simp) rfl rfl)))

end Sys2Proof.Machine
end

