-- ==== Sys2Proof/Proofs/EvidenceEvents.lean ====
section
/-! What an evidence event leaves as it is, whatever stage it raises. -/

namespace Sys2Proof.Machine

/-! ### What powered time leaves as it is -/

@[simp] theorem State.reaching_life (t : Micros) (s : State) : (s.reaching t).life = s.life := by
  rw [State.reaching_eq]; rfl
@[simp] theorem State.reaching_cells (t : Micros) (s : State) : (s.reaching t).cells = s.cells := by
  rw [State.reaching_eq]; rfl
@[simp] theorem State.reaching_cred (t : Micros) (s : State) : (s.reaching t).cred = s.cred := by
  rw [State.reaching_eq]; rfl
@[simp] theorem State.reaching_layout (t : Micros) (s : State) : (s.reaching t).layout = s.layout := by
  rw [State.reaching_eq]; rfl
@[simp] theorem State.reaching_binding (t : Micros) (s : State) : (s.reaching t).binding = s.binding := by
  rw [State.reaching_eq]; rfl
@[simp] theorem State.reaching_evid (t : Micros) (s : State) : (s.reaching t).evid = s.evid := by
  rw [State.reaching_eq]; rfl
@[simp] theorem State.reaching_settings (t : Micros) (s : State) : (s.reaching t).settings = s.settings := by
  rw [State.reaching_eq]; rfl
@[simp] theorem State.reaching_nvs (t : Micros) (s : State) : (s.reaching t).nvs = s.nvs := by
  rw [State.reaching_eq]; rfl
@[simp] theorem State.reaching_draws (t : Micros) (s : State) : (s.reaching t).draws = s.draws := by
  rw [State.reaching_eq]; rfl
@[simp] theorem State.reaching_rootCopy (t : Micros) (s : State) : (s.reaching t).rootCopy = s.rootCopy := by
  rw [State.reaching_eq]; rfl
@[simp] theorem State.reaching_derivation (t : Micros) (s : State) : (s.reaching t).derivation = s.derivation := by
  rw [State.reaching_eq]; rfl
@[simp] theorem State.reaching_backoff (t : Micros) (s : State) : (s.reaching t).backoff = s.backoff := by
  rw [State.reaching_eq]; rfl
@[simp] theorem State.reaching_verified (t : Micros) (s : State) : (s.reaching t).verified = s.verified := by
  rw [State.reaching_eq]; rfl
@[simp] theorem State.reaching_gates (t : Micros) (s : State) : (s.reaching t).gates = s.gates := by
  rw [State.reaching_eq]; rfl
@[simp] theorem State.reaching_draft (t : Micros) (s : State) : (s.reaching t).draft = s.draft := by
  rw [State.reaching_eq]; rfl
@[simp] theorem State.reaching_shadow (t : Micros) (s : State) : (s.reaching t).shadow = s.shadow := by
  rw [State.reaching_eq]; rfl
@[simp] theorem State.reaching_mirror (t : Micros) (s : State) : (s.reaching t).mirror = s.mirror := by
  rw [State.reaching_eq]; rfl
@[simp] theorem State.reaching_mirrorShadow (t : Micros) (s : State) : (s.reaching t).mirrorShadow = s.mirrorShadow := by
  rw [State.reaching_eq]; rfl
@[simp] theorem State.reaching_queue (t : Micros) (s : State) : (s.reaching t).queue = s.queue := by
  rw [State.reaching_eq]; rfl
@[simp] theorem State.reaching_inFlight (t : Micros) (s : State) : (s.reaching t).inFlight = s.inFlight := by
  rw [State.reaching_eq]; rfl
@[simp] theorem State.reaching_kpurge (t : Micros) (s : State) : (s.reaching t).kpurge = s.kpurge := by
  rw [State.reaching_eq]; rfl
@[simp] theorem State.reaching_linkState (t : Micros) (s : State) : (s.reaching t).linkState = s.linkState := by
  rw [State.reaching_eq]; rfl
@[simp] theorem State.reaching_faultRun (t : Micros) (s : State) : (s.reaching t).faultRun = s.faultRun := by
  rw [State.reaching_eq]; rfl
@[simp] theorem State.reaching_tampOpen (t : Micros) (s : State) : (s.reaching t).tampOpen = s.tampOpen := by
  rw [State.reaching_eq]; rfl
@[simp] theorem State.reaching_beacon (t : Micros) (s : State) : (s.reaching t).beacon = s.beacon := by
  rw [State.reaching_eq]; rfl
@[simp] theorem State.reaching_tamper (t : Micros) (s : State) : (s.reaching t).tamper = s.tamper := by
  rw [State.reaching_eq]; rfl
@[simp] theorem State.reaching_satisfied (t : Micros) (s : State) : (s.reaching t).satisfied = s.satisfied := by
  rw [State.reaching_eq]; rfl
@[simp] theorem State.reaching_window (t : Micros) (s : State) : (s.reaching t).window = s.window := by
  rw [State.reaching_eq]; rfl
@[simp] theorem State.reaching_job (t : Micros) (s : State) : (s.reaching t).job = s.job := by
  rw [State.reaching_eq]; rfl
@[simp] theorem State.reaching_wipeClaim (t : Micros) (s : State) : (s.reaching t).wipeClaim = s.wipeClaim := by
  rw [State.reaching_eq]; rfl
@[simp] theorem State.reaching_layoutWork (t : Micros) (s : State) : (s.reaching t).layoutWork = s.layoutWork := by
  rw [State.reaching_eq]; rfl
@[simp] theorem State.reaching_resReady (t : Micros) (s : State) : (s.reaching t).resReady = s.resReady := by
  rw [State.reaching_eq]; rfl
@[simp] theorem State.reaching_mode (t : Micros) (s : State) : (s.reaching t).mode = s.mode := by
  rw [State.reaching_eq]; rfl
@[simp] theorem State.reaching_vmain (t : Micros) (s : State) : (s.reaching t).vmain = s.vmain := by
  rw [State.reaching_eq]; rfl
@[simp] theorem State.reaching_vaux (t : Micros) (s : State) : (s.reaching t).vaux = s.vaux := by
  rw [State.reaching_eq]; rfl
@[simp] theorem State.reaching_reservoirWait (t : Micros) (s : State) : (s.reaching t).reservoirWait = s.reservoirWait := by
  rw [State.reaching_eq]; rfl
@[simp] theorem State.reaching_intent (t : Micros) (s : State) : (s.reaching t).intent = s.intent := by
  rw [State.reaching_eq]; rfl
@[simp] theorem State.reaching_grants (t : Micros) (s : State) : (s.reaching t).grants = s.grants := by
  rw [State.reaching_eq]; rfl
@[simp] theorem State.reaching_report (t : Micros) (s : State) : (s.reaching t).report = s.report := by
  rw [State.reaching_eq]; rfl
@[simp] theorem State.reaching_rstLow (t : Micros) (s : State) : (s.reaching t).rstLow = s.rstLow := by
  rw [State.reaching_eq]; rfl
@[simp] theorem State.reaching_latched (t : Micros) (s : State) : (s.reaching t).latched = s.latched := by
  rw [State.reaching_eq]; rfl
@[simp] theorem State.reaching_masks (t : Micros) (s : State) : (s.reaching t).masks = s.masks := by
  rw [State.reaching_eq]; rfl
@[simp] theorem State.reaching_credOp (t : Micros) (s : State) : (s.reaching t).credOp = s.credOp := by
  rw [State.reaching_eq]; rfl
@[simp] theorem State.reaching_layoutOp (t : Micros) (s : State) : (s.reaching t).layoutOp = s.layoutOp := by
  rw [State.reaching_eq]; rfl
@[simp] theorem State.reaching_wipeOp (t : Micros) (s : State) : (s.reaching t).wipeOp = s.wipeOp := by
  rw [State.reaching_eq]; rfl
@[simp] theorem State.reaching_writeImages (t : Micros) (s : State) : (s.reaching t).writeImages = [] := by
  rw [State.reaching_eq]; rfl

/-! ### What an evidence event leaves as it is -/

/-- From `s` to `t` the clock, C and a FOREIGN window stay, and without a derivation in flight the credential table and
its operation record with them. -/
def State.Spares (s t : State) : Prop :=
  t.now = s.now ∧ t.cred.failures = s.cred.failures ∧ (s.window = .foreign → t.window = .foreign)
    ∧ (s.derivation = none → t.derivation = none ∧ t.cred = s.cred ∧ t.credOp = s.credOp)

theorem State.Spares.refl (s : State) : s.Spares s := ⟨rfl, rfl, id, fun h => ⟨h, rfl, rfl⟩⟩

theorem State.Spares.trans {s t u : State} (h : s.Spares t) (h' : t.Spares u) : s.Spares u := by
  obtain ⟨hn, hc, hw, hd⟩ := h
  obtain ⟨hn', hc', hw', hd'⟩ := h'
  refine ⟨hn'.trans hn, hc'.trans hc, hw' ∘ hw, fun h => ?_⟩
  obtain ⟨hnone, hcred, hop⟩ := hd h
  obtain ⟨hnone', hcred', hop'⟩ := hd' hnone
  exact ⟨hnone', hcred'.trans hcred, hop'.trans hop⟩

/-- A change of none of these. -/
theorem State.spares_of_eq {s t : State} (hn : t.now = s.now) (hc : t.cred = s.cred) (hw : t.window = s.window)
    (hd : t.derivation = s.derivation) (ho : t.credOp = s.credOp) : s.Spares t :=
  ⟨hn, by rw [hc], by rw [hw]; exact id, fun h => ⟨hd.trans h, hc, ho⟩⟩

theorem State.purge_spares (s : State) : s.Spares s.purge := by
  unfold State.purge
  split
  · exact State.Spares.refl s
  · exact State.spares_of_eq rfl rfl rfl rfl rfl

theorem State.changeDesired_spares (g : Vector Gates 16) (v : View) (s : State) : s.Spares (s.changeDesired g v) := by
  obtain ⟨q, f, h⟩ := s.changeDesired_form g v
  rw [h]
  exact State.spares_of_eq rfl rfl rfl rfl rfl

theorem State.withdrawSuspend_spares (s : State) : s.Spares s.withdrawSuspend := by
  rw [State.withdrawSuspend_form]
  exact State.spares_of_eq rfl rfl rfl rfl rfl

theorem State.shutDown_spares (ve : BitVec 8) (d : Micros) (s : State) : s.Spares (s.shutDown ve d) := by
  have hclear : s.purge.closeAll.Spares { s.purge.closeAll with verified := ve, decayCount := d } :=
    State.spares_of_eq rfl rfl rfl rfl rfl
  exact ((s.purge_spares.trans (State.changeDesired_spares _ _ _)).trans hclear).trans (State.withdrawSuspend_spares _)

theorem State.foldl_enterStage_spares (levels : List Stage) (s : State) :
    s.Spares (levels.foldl State.enterStage s) := by
  induction levels generalizing s with
  | nil => exact State.Spares.refl s
  | cons l levels ih =>
    refine State.Spares.trans ?_ (ih _)
    cases l with
    | calm | wipe => exact State.Spares.refl s
    | alert => exact s.withdrawSuspend_spares
    | lockdown => exact s.shutDown_spares 0 0

/-- R26: a derivation that a wipe start abandons leaves C. -/
theorem State.abandonInWipe_spares (s : State) : s.Spares s.abandonInWipe := by
  unfold State.abandonInWipe
  split
  · exact State.Spares.refl s
  · next d hd =>
    have hnone : s.derivation = none → False := fun h => by rw [hd] at h; cases h
    dsimp only
    split
    · rw [State.setBackoff_form]
      exact ⟨rfl, rfl, id, fun h => (hnone h).elim⟩
    · exact ⟨rfl, rfl, id, fun h => (hnone h).elim⟩

theorem State.wipeStartActions_spares (s : State) : s.Spares s.wipeStartActions := by
  rw [State.wipeStartActions_eq]
  refine ((s.shutDown_spares 0 s.purge.closeAll.decayCount).trans ?_).trans (State.abandonInWipe_spares _)
  obtain ⟨w, o, j, h, -⟩ := State.supersedeLayout_job
    { s.shutDown 0 s.purge.closeAll.decayCount with
      window := (s.shutDown 0 s.purge.closeAll.decayCount).window.stopWaiting
      dormancyCount := 0
      decayCount := 0
      wipeOp := .start .wipe none (s.shutDown 0 s.purge.closeAll.decayCount).millis
      wipeClaim := true }
  rw [h]
  exact ⟨rfl, rfl, fun hw => congrArg ReportWindow.stopWaiting hw, fun hd => ⟨hd, rfl, rfl⟩⟩

theorem State.settleRise_spares (levels : List Stage) (extra : List SetId) (s : State) :
    s.Spares (s.settleRise levels extra) := by
  unfold State.settleRise
  split
  · exact ((State.spares_of_eq (t := (s.wipeStartCommit extra).latch .stageRise) rfl rfl rfl rfl rfl).trans
      (State.foldl_enterStage_spares levels _)).trans (State.wipeStartActions_spares _)
  split
  · exact State.spares_of_eq rfl rfl rfl rfl rfl
  · exact (State.spares_of_eq (t := (s.commit (extra ++ [.evidence])).latch .stageRise) rfl rfl rfl rfl rfl).trans
      (State.foldl_enterStage_spares levels _)

/-- R101: an evidence event leaves the clock and C, and without a derivation in flight the credentials. -/
theorem State.takeEvidence_spares (kind : TrailKind) (w : Nat) (extra : List SetId) (s : State) :
    s.Spares (s.takeEvidence kind w extra) := by
  unfold State.takeEvidence
  split
  · exact (State.spares_of_eq rfl rfl rfl rfl rfl).trans (State.settleRise_spares _ extra _)
  split
  · exact State.Spares.refl s
  · exact State.spares_of_eq rfl rfl rfl rfl rfl

/-! ### Failure resolutions -/

/-- R29: the deadline that a failure leaving `c` sets at `now`, in milliseconds; below 4 the deadline stays. -/
def deadlineAfter (c : Nat) (now : Millis) (before : Option Millis) : Option Millis :=
  if c < 4 then before else some (now + min (2 ^ (c - 4)) 1024 * 1000)

/-- R24, R135: a BAD_SECRET event with its deadline and its indicator. -/
theorem State.takeBadSecret_eq (w c : Nat) (s : State) (hc : s.cred.failures = c) :
    let u := s.takeEvidence .badSecret w [.credentials]
    u.setBackoff.latch .badSecret =
      { u with backoff := deadlineAfter c s.millis u.backoff, latched := u.latched ||| 1 } := by
  intro u
  obtain ⟨hnow, hfailures, -, -⟩ := State.takeEvidence_spares .badSecret w [.credentials] s
  rw [State.setBackoff_form, hfailures, hc, State.millis, hnow]
  rfl

/-- R24: a failure resolution, its event taken with the marker clear. -/
theorem State.failureResolution_eq (s : State) :
    let u := State.takeEvidence .badSecret (s.settings.wBad * min s.cred.failures 8) [.credentials]
      { s with cred := { s.cred with openAttempt := false } }
    s.failureResolution =
      { u with backoff := deadlineAfter s.cred.failures s.millis u.backoff, latched := u.latched ||| 1 } :=
  State.takeBadSecret_eq _ _ _ rfl

/-- R24, R37: what follows the BAD_SECRET event of a failed attempt that leaves `c`, its operation record the one
given. -/
def State.attemptFailed (o : OpOutcome) (c : Nat) (now : Millis) (op : OpRecord) (u : State) : State :=
  { u with
    backoff := deadlineAfter c now u.backoff
    latched := u.latched ||| 1
    credOp := { op with state := .ended, outcome := some o, endedAt := some now, unseen := true } }

/-- R24, R25: a failure resolution that ends an attempt, its operation with it. -/
theorem State.failedAttempt_eq (o : OpOutcome) (s : State) (hd : s.derivation = none) :
    s.failureResolution.endCred o = State.attemptFailed o s.cred.failures s.millis s.credOp
      (State.takeEvidence .badSecret (s.settings.wBad * min s.cred.failures 8) [.credentials]
        { s with cred := { s.cred with openAttempt := false } }) := by
  obtain ⟨hnow, -, -, hkept⟩ := State.takeEvidence_spares .badSecret (s.settings.wBad * min s.cred.failures 8)
    [.credentials] { s with cred := { s.cred with openAttempt := false } }
  obtain ⟨-, -, hop⟩ := hkept hd
  rw [s.failureResolution_eq]
  unfold State.endCred OpRecord.finish State.millis State.attemptFailed
  dsimp only
  rw [hop, hnow]

/-- R24: the same where the event raises no stage. -/
theorem State.failedAttempt_quiet (o : OpOutcome) (s : State) (hd : s.derivation = none)
    (hl : s.life.lifecycle.takesEvidence = true) :
    let w := s.settings.wBad * min s.cred.failures 8
    let score := min 4095 (s.evid.score + w)
    evaluate s.settings score s.evid.stage = s.evid.stage →
    s.failureResolution.endCred o = State.attemptFailed o s.cred.failures s.millis s.credOp
      (State.commit [.credentials, .evidence]
        { s with
          cred := { s.cred with openAttempt := false }
          evid := Evidence.append s.seconds .badSecret w score s.evid.stage { s.evid with score := score } }) := by
  intro w score hquiet
  rw [s.failedAttempt_eq o hd]
  exact congrArg _ (State.takeEvidence_quiet .badSecret w [.credentials]
    { s with cred := { s.cred with openAttempt := false } } hl hquiet)

end Sys2Proof.Machine
end

