-- ==== Sys2Proof/Proofs/Completions.lean ====
section
/-! The completions of derivations: PROVISION (O10), VERIFY (O14), ENROLL and CHANGE_NEW (O17), and CHANGE_SECRET with
its CHANGE_OLD (O19). -/

namespace Sys2Proof.Machine

/-- R37: the CREDENTIAL record ended. -/
theorem State.endCred_eq {s : State} {r : OpRecord} (o : OpOutcome) (hr : s.credOp = r) :
    s.endCred o =
      { s with
        credOp := { r with state := .ended, outcome := some o, endedAt := some s.millis, unseen := true } } := by
  subst hr; rfl

/-! ### ENROLL and CHANGE_NEW -/

/-- Settles O17: each completion acts on the state at its moment. -/
theorem newVerifiersAreCommitted : Obligations.NewVerifiersAreCommitted := by
  intro d s hd
  refine ⟨fun access resume hw => ?enroll, fun selfForm hw => ?change⟩
  case enroll =>
    change execEnrollComplete s = _
    simp only [execEnrollComplete, event, State.begin_derivation, hd, hw, State.begin_atMoment, State.reaching_evid,
      State.reaching_cells, State.reaching_cred]
    exact congrArg _ (if_congr Iff.rfl (State.endCred_eq _ (State.reaching_credOp _ s))
      (State.endCred_eq _ (State.reaching_credOp _ s)))
  case change =>
    change execChangeNewComplete s = _
    simp only [execChangeNewComplete, event, State.begin_derivation, hd, hw, State.begin_atMoment, State.reaching_evid,
      State.reaching_cells, State.reaching_cred]
    exact congrArg _ (if_congr (by cases selfForm <;> simp) (State.endCred_eq _ (State.reaching_credOp _ s))
      (State.endCred_eq _ (State.reaching_credOp _ s)))

/-! ### CHANGE_SECRET -/

/-- R35: the body of the self form. -/
theorem readSelfSecrets_of (old new : Bytes) (h : old.length < 256) :
    readSelfSecrets (BitVec.ofNat 8 old.length :: (old ++ new)) =
      if old.length < 8 ∨ 64 < old.length ∨ new.length < 8 ∨ 64 < new.length then none else some (old, new) := by
  have hn : (BitVec.ofNat 8 old.length).toNat = old.length := by simp; omega
  have hgood : ((old.length ≤ (old ++ new).length) ∧ goodSecret old = true ∧ goodSecret new = true)
      ↔ ¬(old.length < 8 ∨ 64 < old.length ∨ new.length < 8 ∨ 64 < new.length) := by
    rw [goodSecret_iff, goodSecret_iff, List.length_append]; omega
  simp only [readSelfSecrets, hn, List.take_left, List.drop_left]
  rw [if_congr hgood rfl rfl, ite_not]

/-- An answer behind a list of conditions of which the first that fails gives the code. -/
def Answer.behind (refusal : Option ReplyCode) (s : State) (a : Answer) : Answer :=
  match refusal with
  | some code => refuse code s
  | none => a

/-- The first condition fails, or the others decide. -/
theorem answer_behind_check {k : Kind} {tag : Byte} {code : ReplyCode} {r : Option ReplyCode} {a : Answer} {s t : State}
    {p q : Prop} [Decidable p] [Decidable q] (hpq : p ↔ q) (h : ¬q → answer k.code tag (a.behind r s) = t) :
    answer k.code tag (a.behind (if p then some code else r) s) = if q then s.replied k tag code [] else t := by
  by_cases hq : q
  · rw [if_pos hq, if_pos (hpq.2 hq)]; rfl
  · rw [if_neg hq, if_neg (mt hpq.1 hq), h hq]

/-- A condition that cannot fail. -/
theorem answer_behind_skip {k : Kind} {tag : Byte} {code : ReplyCode} {r : Option ReplyCode} {a : Answer} {s t : State}
    {p : Prop} [Decidable p] (hp : ¬p) (h : answer k.code tag (a.behind r s) = t) :
    answer k.code tag (a.behind (if p then some code else r) s) = t := by
  rw [if_neg hp, h]

/-- Two conditions with one refusal. -/
theorem ite_ite_same {α : Type} {p q r : Prop} [Decidable p] [Decidable q] [Decidable r] (h : p ∨ q ↔ r) (x y : α) :
    (if p then x else if q then x else y) = if r then x else y := by
  by_cases hp : p
  · rw [if_pos hp, if_pos (h.1 (.inl hp))]
  · rw [if_neg hp]
    exact if_congr (by rw [← h]; exact (or_iff_right hp).symm) rfl rfl

/-- R35: the self form of CHANGE_SECRET. -/
theorem execChangeSecret_self {tag : Byte} {k : Fin 8} {old new : Bytes} {s : State} (h : s.Admits .changeSecret)
    (hl : old.length + new.length ≤ 237) :
    execChangeSecret tag (1 :: slotByte k :: BitVec.ofNat 8 old.length :: (old ++ new)) s = .next
      (if s.evid.stage = .lockdown ∧ k ≠ 0 then s.begin.replied .changeSecret tag .notPermitted []
       else if s.cred.slots[k].state ≠ .active then s.begin.replied .changeSecret tag .wrongState []
       else if (∃ t ∈ s.backoff, s.millis < t) then s.begin.replied .changeSecret tag .tooSoon []
       else if s.derivation.isSome then s.begin.replied .changeSecret tag .busy []
       else if old.length < 8 ∨ 64 < old.length ∨ new.length < 8 ∨ 64 < new.length then
        s.begin.replied .changeSecret tag .badValue []
       else State.replied .changeSecret tag .started []
        { State.commit [.credentials]
            { s.begin with
              cred := { s.cred with failures := min 255 (s.cred.failures + 1), openAttempt := true } } with
          derivation := some ⟨.changeOld new, k, s.now, old, s.cred.slots[k].salt.getD []⟩
          credOp := ⟨some .changeSecret, .running, none, some k.val, some s.millis, none, false⟩ }) := by
  have hhead : readChangeHead (1 :: slotByte k :: BitVec.ofNat 8 old.length :: (old ++ new)) =
      some ⟨true, k, BitVec.ofNat 8 old.length :: (old ++ new)⟩ := by simp [readChangeHead, readSlot_slotByte]
  have hslot : s.cred.slots[k].state = .empty ∨ s.cred.slots[k].state = .suspended ↔ s.cred.slots[k].state ≠ .active := by
    cases s.cred.slots[k].state <;> simp
  refine request_answered h (by simp only [List.length_cons, List.length_append]; omega) ?_
  rw [hhead]
  dsimp only
  rw [readSelfSecrets_of old new (by omega)]
  change answer _ _ (Answer.behind (s.begin.changeRefusal ⟨true, k, _⟩) s.begin (match (if _ then none else some (old, new)) with
    | none => refuse .badValue s.begin
    | some (old, new) =>
      ⟨.started, [],
        (s.begin.countAttempt.startDerivation (.changeOld new) k old (s.begin.slotSalt k)).startCred .changeSecret k⟩)) = _
  refine answer_behind_skip (by simp) (answer_behind_check (by simp) fun _ => ?_)
  rw [← ite_ite_same hslot]
  refine answer_behind_check Iff.rfl fun _ => answer_behind_check (by simp) fun _ =>
    answer_behind_check s.begin.backoff_ahead_iff fun _ => answer_behind_check Iff.rfl fun _ => ?_
  by_cases hbad : old.length < 8 ∨ 64 < old.length ∨ new.length < 8 ∨ 64 < new.length
  · rw [if_pos hbad, if_pos hbad]; rfl
  · rw [if_neg hbad, if_neg hbad]; rfl

/-- R35: the admin form of CHANGE_SECRET. -/
theorem execChangeSecret_admin {tag : Byte} {k : Fin 8} {new : Bytes} {s : State} (h : s.Admits .changeSecret)
    (hk : k ≠ 0) (hl : new.length ≤ 238) :
    execChangeSecret tag (2 :: slotByte k :: new) s = .next
      (if s.verified.getLsbD 0 = false then s.begin.replied .changeSecret tag .notPermitted []
       else if s.evid.stage = .lockdown then s.begin.replied .changeSecret tag .notPermitted []
       else if s.cred.slots[k].state = .empty then s.begin.replied .changeSecret tag .wrongState []
       else if (∃ t ∈ s.backoff, s.millis < t) then s.begin.replied .changeSecret tag .tooSoon []
       else if s.derivation.isSome then s.begin.replied .changeSecret tag .busy []
       else if new.length < 8 ∨ 64 < new.length then s.begin.replied .changeSecret tag .badValue []
       else State.replied .changeSecret tag .started []
        { s.begin with
          draws := s.draws + 1
          derivation := some ⟨.changeNew false, k, s.now, new, (Config.random16 s.draws).toList⟩
          credOp := ⟨some .changeSecret, .running, none, some k.val, some s.millis, none, false⟩ }) := by
  have hhead : readChangeHead (2 :: slotByte k :: new) = some ⟨false, k, new⟩ := by
    simp [readChangeHead, readUserSlot_slotByte k hk]
  refine request_answered h (by simp only [List.length_cons]; omega) ?_
  rw [hhead]
  dsimp only
  change answer _ _ (Answer.behind (s.begin.changeRefusal ⟨false, k, new⟩) s.begin
    (if (!goodSecret new) = true then refuse .badValue s.begin
     else ⟨.started, [],
      (State.startDerivation (.changeNew false) k new (Config.random16 s.draws).toList
        { s.begin with draws := s.draws + 1 }).startCred .changeSecret k⟩)) = _
  exact answer_behind_check (by simp [State.adminVerified]) fun _ => answer_behind_check (by simp) fun _ =>
    answer_behind_check Iff.rfl fun _ => answer_behind_skip (by simp) <|
    answer_behind_check s.begin.backoff_ahead_iff fun _ => answer_behind_check Iff.rfl fun _ =>
    answer_check (not_goodSecret_iff new) fun _ => rfl

/-- R171: a slot index byte above 7. -/
theorem readSlot_of_le {b : Byte} (h : 8 ≤ b.toNat) : readSlot b = none := dif_neg (by omega)

/-- R35: a body that names no form, or no slot of its form. -/
theorem readChangeHead_bad {form slot : Byte} {rest : Bytes}
    (h : (form ≠ 1 ∧ form ≠ 2) ∨ 8 ≤ slot.toNat ∨ (form = 2 ∧ slot = 0)) :
    readChangeHead (form :: slot :: rest) = none := by
  unfold readChangeHead readUserSlot
  rcases h with ⟨h1, h2⟩ | h | ⟨rfl, rfl⟩
  · exact (if_neg h1).trans (if_neg h2)
  · simp [readSlot_of_le h]
  · simp

/-- R23, R24, R36: what the completion of a counted derivation does, by the comparison of its verifier. -/
theorem State.compare_verifier_iff (d : Derivation) (t : Micros) (s : State) :
    (s.reaching t).cells[verifierCell d.slot].compare (Config.derive d.secret d.salt).toList = true ↔
      s.cells[verifierCell d.slot] = .holding (.plain (Config.derive d.secret d.salt).toList) := by
  rw [State.reaching_cells]
  exact Cell.compare_iff _ _

/-- R24, R36: the failed attempt of a derivation at its moment. -/
theorem State.wrongSecret_eq (t : Micros) (s : State) :
    State.endCred .wrongSecret (State.failureResolution { s.reaching t with derivation := none }) =
      State.attemptFailed .wrongSecret s.cred.failures (s.reaching t).millis s.credOp
        (State.takeEvidence .badSecret (s.settings.wBad * min s.cred.failures 8) [.credentials]
          { s.reaching t with derivation := none, cred := { s.cred with openAttempt := false } }) := by
  have h := State.failedAttempt_eq .wrongSecret { s.reaching t with derivation := none } rfl
  simp only [State.reaching_settings, State.reaching_cred, State.reaching_credOp] at h ⊢
  exact h

/-- Settles O19: the two forms, the bodies of neither, and the completion of CHANGE_OLD by its comparison. -/
theorem changeSecretRunsItsTwoDerivations : Obligations.ChangeSecretRunsItsTwoDerivations := by
  refine ⟨fun tag k old new s h => ⟨execChangeSecret_self h, execChangeSecret_admin h, fun form slot rest hl hbad => ?bad⟩,
    fun d new s hd hw hcell => ?wrong, fun d new s hd hw hcell => ?correct⟩
  case bad =>
    exact request_taken h (by simp only [List.length_cons]; omega) (by rw [readChangeHead_bad hbad]; rfl)
  case wrong =>
    change execChangeOldComplete s = _
    simp only [execChangeOldComplete, event, State.begin_derivation, hd, hw, State.begin_atMoment]
    refine congrArg _ ((if_neg (mt (s.compare_verifier_iff d _).1 hcell)).trans ?_)
    exact s.wrongSecret_eq _
  case correct =>
    change execChangeOldComplete s = _
    simp only [execChangeOldComplete, event, State.begin_derivation, hd, hw, State.begin_atMoment]
    refine congrArg _ ((if_pos ((s.compare_verifier_iff d _).2 hcell)).trans ?_)
    simp only [State.clearFailures, State.reaching_cred, State.reaching_evid, State.commit_evid, State.commit_draws, State.reaching_draws]
    exact if_congr Iff.rfl (State.endCred_eq _ (State.reaching_credOp _ s)) rfl

/-! ### VERIFY_COMPLETE -/

/-- R113: relief with its entry, and the fall test after it. -/
theorem Evidence.relieve_eq (c : Settings) (time r : Nat) (e : Evidence) :
    let score := e.score - e.score * r / 16
    let relieved : Evidence :=
      if e.score = 0 then e else Evidence.append time .relief 0 score e.stage { e with score := score }
    e.relieve c time r =
      if e.stage = .alert ∧ (score = 0 ∨ score + c.h < c.ta) then
        Evidence.append time .stage 0 score .calm { relieved with stage := .calm }
      else relieved := by
  intro score relieved
  have hscore : relieved.score = score := by
    by_cases h : e.score = 0
    · simp only [relieved, score, if_pos h, h, Nat.zero_sub]
    · simp only [relieved, if_neg h]; rfl
  have hstage : relieved.stage = e.stage := by
    by_cases h : e.score = 0
    · simp only [relieved, if_pos h]
    · simp only [relieved, if_neg h]; rfl
  have heq : e.relieve c time r = relieved.fall c time := by
    unfold Evidence.relieve
    by_cases h : e.score = 0
    · have hsame : { e with score := score } = e := by
        have h0 : score = e.score := by simp only [score, h, Nat.zero_sub]
        rw [h0]
      simp only [relieved, if_pos h]
      rw [if_neg (by omega)]
      exact congrArg _ hsame
    · simp only [relieved, if_neg h]
      rw [if_pos (by omega)]
  rw [heq, Evidence.fall, hstage, hscore]

/-- R23: what a correct secret leaves, by the evidence, the verifications and the outcome that the stage gives. -/
structure State.Verified (k : Fin 8) (s : State) (e : Evidence) (v : BitVec 8) (sat : Bool) (o : OpOutcome) : Prop where
  relieved : s.evid.stage = .calm ∨ s.evid.stage = .alert →
    e = s.evid.relieve s.settings s.seconds (s.reliefFraction k) ∧ v = s.verified ||| single 8 k.val ∧ sat = true
      ∧ o = .accepted
  locked : s.evid.stage = .lockdown →
    e = s.evid ∧ (k = 0 → v = s.verified ||| single 8 0 ∧ sat = true ∧ o = .accepted)
      ∧ (k ≠ 0 → v = s.verified ∧ sat = s.satisfied ∧ o = .superseded)

/-- R23: a verification changes the verifications, the mark and the dormancy count. -/
theorem State.verifySlot_form (k : Fin 8) (s : State) : ∃ c,
    s.verifySlot k = { s with verified := s.verified ||| single 8 k.val, satisfied := true, dormancyCount := c } := by
  unfold State.verifySlot
  split <;> exact ⟨_, rfl⟩

/-- R23: the commit of a settled attempt, with what follows it. -/
def State.settledAttempt (e : Evidence) (v : BitVec 8) (sat : Bool) (c : Micros) (o : OpOutcome) (s : State) : State :=
  { State.commit (if e = s.evid then [.credentials] else [.credentials, .evidence])
      { s with cred := { s.cred with failures := 0, openAttempt := false }, backoff := none, evid := e } with
    verified := v
    satisfied := sat
    dormancyCount := c
    credOp := { s.credOp with state := .ended, outcome := some o, endedAt := some s.millis, unseen := true } }

/-- R23: in CALM and ALERT the slot joins the verifications with relief. -/
theorem State.verifySuccess_open {k : Fin 8} {s : State} (h : s.evid.stage = .calm ∨ s.evid.stage = .alert) : ∃ c,
    s.verifySuccess k =
      s.settledAttempt (s.evid.relieve s.settings s.seconds (s.reliefFraction k)) (s.verified ||| single 8 k.val) true c
        .accepted := by
  generalize he : s.evid.relieve s.settings s.seconds (s.reliefFraction k) = e
  have hr : s.verifySuccess k = State.endCred .accepted (State.verifySlot k (State.commit
      (if e = s.evid then [.credentials] else [.credentials, .evidence]) { s.clearFailures with evid := e })) := by
    rw [← he]
    unfold State.verifySuccess
    have hs : s.clearFailures.evid.stage = s.evid.stage := rfl
    dsimp only
    rw [hs]
    rcases h with h | h <;> rw [h] <;> rfl
  obtain ⟨c, hc⟩ := State.verifySlot_form k (State.commit
    (if e = s.evid then [.credentials] else [.credentials, .evidence]) { s.clearFailures with evid := e })
  exact ⟨c, by rw [hr, hc]; rfl⟩

/-- R23: in the other stages slot 0 joins the verifications without relief, and a user slot ends SUPERSEDED. -/
theorem State.verifySuccess_shut {k : Fin 8} {s : State} (h : s.evid.stage = .lockdown ∨ s.evid.stage = .wipe) : ∃ c,
    s.verifySuccess k =
      if k = 0 then s.settledAttempt s.evid (s.verified ||| single 8 k.val) true c .accepted
      else s.settledAttempt s.evid s.verified s.satisfied s.dormancyCount .superseded := by
  have hr : s.verifySuccess k =
      if k = 0 then State.endCred .accepted (State.verifySlot k (s.clearFailures.commit [.credentials]))
      else (s.clearFailures.commit [.credentials]).endCred .superseded := by
    unfold State.verifySuccess
    have hs : s.clearFailures.evid.stage = s.evid.stage := rfl
    dsimp only
    rw [hs]
    rcases h with h | h <;> rw [h]
  obtain ⟨c, hc⟩ := State.verifySlot_form k (s.clearFailures.commit [.credentials])
  refine ⟨c, hr.trans (if_congr Iff.rfl ?_ ?_)⟩
  · rw [hc, State.settledAttempt, if_pos rfl]; rfl
  · rw [State.settledAttempt, if_pos rfl]; rfl

/-- R23: what a correct secret leaves. -/
theorem State.verifySuccess_form (k : Fin 8) (s : State) : ∃ e v sat c o, State.Verified k s e v sat o ∧
    s.verifySuccess k = s.settledAttempt e v sat c o := by
  have hstage : (s.evid.stage = .calm ∨ s.evid.stage = .alert) ∨ (s.evid.stage = .lockdown ∨ s.evid.stage = .wipe) := by
    cases s.evid.stage <;> simp
  rcases hstage with h | h
  · obtain ⟨c, hc⟩ := State.verifySuccess_open (k := k) h
    refine ⟨_, _, _, c, _, ⟨fun _ => ⟨rfl, rfl, rfl, rfl⟩, fun hl => ?_⟩, hc⟩
    rcases h with h | h <;> rw [h] at hl <;> cases hl
  · obtain ⟨c, hc⟩ := State.verifySuccess_shut (k := k) h
    have hnot : ¬(s.evid.stage = .calm ∨ s.evid.stage = .alert) := by rcases h with h | h <;> simp [h]
    by_cases hk : k = 0
    · rw [if_pos hk] at hc
      exact ⟨_, _, _, c, _, ⟨fun h => (hnot h).elim, fun _ => ⟨rfl, fun _ => ⟨by rw [hk]; rfl, rfl, rfl⟩,
        fun hk' => (hk' hk).elim⟩⟩, hc⟩
    · rw [if_neg hk] at hc
      exact ⟨_, _, _, _, _, ⟨fun h => (hnot h).elim, fun _ => ⟨rfl, fun hk' => (hk hk').elim,
        fun _ => ⟨rfl, rfl, rfl⟩⟩⟩, hc⟩

/-- What a VERIFY's completion does, by the comparison of its verifier (R23, R24). -/
theorem execVerifyComplete_eq {d : Derivation} {s : State} (hd : s.derivation = some d) (hw : d.work = .verify) :
    execVerifyComplete s =
      let r := { s.reaching (d.startedAt + Config.derivationTime) with derivation := none }
      .next
        (if s.cells[verifierCell d.slot] = .holding (.plain (Config.derive d.secret d.salt).toList) then
          r.verifySuccess d.slot
         else r.failureResolution.endCred .wrongSecret) := by
  simp only [execVerifyComplete, event, State.begin_derivation, hd, hw, State.begin_atMoment]
  exact congrArg _ (if_congr (s.compare_verifier_iff d _) rfl rfl)

/-- R24: the same where the event raises no stage. -/
theorem State.wrongSecret_quiet (t : Micros) (s : State) (hl : s.life.lifecycle = .provisioned) :
    let w := s.settings.wBad * min s.cred.failures 8
    let score := min 4095 (s.evid.score + w)
    evaluate s.settings score s.evid.stage = s.evid.stage →
    State.endCred .wrongSecret (State.failureResolution { s.reaching t with derivation := none }) =
      State.attemptFailed .wrongSecret s.cred.failures (s.reaching t).millis s.credOp
        (State.commit [.credentials, .evidence]
          { s.reaching t with
            derivation := none
            cred := { s.cred with openAttempt := false }
            evid :=
              Evidence.append (s.reaching t).seconds .badSecret w score s.evid.stage { s.evid with score := score } }) := by
  have h := State.failedAttempt_quiet .wrongSecret { s.reaching t with derivation := none } rfl
    (by simp only [State.reaching_life, hl]; rfl)
  simp only [State.reaching_settings, State.reaching_cred, State.reaching_credOp, State.reaching_evid] at h ⊢
  exact h

/-- Settles O14: a correct secret by the stage, a wrong one with and without a rise. -/
theorem verificationsAreSettled : Obligations.VerificationsAreSettled := by
  refine ⟨fun d s hd hw hcell => ?correct, fun d s hd hw hl hcell => ?quiet, fun d s hd hw hcell => ?wrong⟩
  case correct =>
    obtain ⟨e, v, sat, c, o, hv, ht⟩ := State.verifySuccess_form d.slot
      { s.reaching (d.startedAt + Config.derivationTime) with derivation := none }
    refine ⟨_, (execVerifyComplete_eq hd hw).trans (congrArg _ ((if_pos hcell).trans ht)), rfl, rfl, ?_⟩
    obtain ⟨hrelieved, hlocked⟩ := hv
    simp only [State.reaching_evid, State.reaching_verified, State.reaching_satisfied, State.reaching_settings] at hrelieved hlocked
    refine ⟨congrArg (fun c : CredentialTable => { c with failures := 0, openAttempt := false }) (State.reaching_cred _ s),
      fun h => ?opened, fun h => ?locked, rfl, rfl, rfl,
      (congrArg OpRecord.detail (State.reaching_credOp (d.startedAt + Config.derivationTime) s) :),
      State.reaching_settings _ s, State.reaching_cells _ s, State.reaching_layout _ s, State.reaching_gates _ s,
      State.reaching_shadow _ s, State.reaching_life _ s, State.reaching_queue _ s, State.reaching_mirror _ s,
      State.reaching_latched _ s, State.reaching_masks _ s, State.reaching_intent _ s, State.reaching_rootCopy _ s, ?store⟩
    case opened =>
      obtain ⟨he, hverified, hsatisfied, houtcome⟩ := hrelieved h
      exact ⟨hverified, hsatisfied, he.trans (Evidence.relieve_eq _ _ _ _), congrArg some houtcome⟩
    case locked =>
      obtain ⟨he, hadmin, huser⟩ := hlocked h
      refine ⟨he, fun hk => ?_, fun hk => ?_⟩
      · obtain ⟨hverified, hsatisfied, houtcome⟩ := hadmin hk
        exact ⟨hverified, hsatisfied, congrArg some houtcome⟩
      · obtain ⟨hverified, hsatisfied, houtcome⟩ := huser hk
        exact ⟨hverified, hsatisfied, congrArg some houtcome⟩
    case store =>
      simp only [State.settledAttempt, State.reaching_evid]
      rfl
  case quiet =>
    intro r c w score hquiet
    change execVerifyComplete s = _
    rw [execVerifyComplete_eq hd hw]
    refine congrArg _ ((if_neg hcell).trans ((s.wrongSecret_quiet _ hl hquiet).trans ?_))
    simp only [State.attemptFailed, State.commit_backoff, State.commit_latched, State.reaching_backoff,
      State.reaching_latched]
    rfl
  case wrong =>
    change execVerifyComplete s = _
    rw [execVerifyComplete_eq hd hw]
    refine congrArg _ ((if_neg hcell).trans ?_)
    exact s.wrongSecret_eq _

end Sys2Proof.Machine
end

