-- ==== Sys2Proof/Proofs/Provisioning.lean ====
section
/-! The completion of PROVISION (O10). -/

namespace Sys2Proof.Machine

/-! ### What the cell writes leave -/

/-- One entry of a vector after another was set. -/
theorem Vector.get_set_fin {α : Type} {n : Nat} (v : Vector α n) (c j : Fin n) (x : α) :
    (v.set c x)[j] = if j = c then x else v[j] := by
  by_cases h : j = c
  · subst h; simp
  · rw [if_neg h]
    simp only [Fin.getElem_fin]
    exact Vector.getElem_set_ne _ _ (fun hc => h (Fin.ext hc.symm))

/-- R6: a key cell written. -/
theorem writeKeyCell_get (c j : Fin 26) (x : CellContent) (cells : Vector Cell 26) :
    (writeKeyCell c x cells)[j] = if j = c ∧ cells[c] = .blank then .holding x else cells[j] := by
  unfold writeKeyCell
  by_cases hb : cells[c] = .blank
  · rw [if_pos hb]
    rw [Vector.get_set_fin]
    exact if_congr (and_iff_left hb).symm rfl rfl
  · rw [if_neg hb, if_neg fun h => hb h.2]

/-- R6: a check cell written. -/
theorem writeCheckCell_get (c j : Fin 26) (x : CellContent) (cells : Vector Cell 26) :
    (writeCheckCell c x cells)[j] = if j = c then .holding x else cells[j] :=
  Vector.get_set_fin _ _ _ _

/-- R4: the cells that the provisioning commit writes. -/
def provisionedCells (root code verifier key : Bytes) (cells : Vector Cell 26) : Vector Cell 26 :=
  writeKeyCell (rangeCell 0) (wrapKey root key) <| writeCheckCell (verifierCell 0) (.plain verifier) <|
    writeCheckCell 1 (.plain code) <| writeKeyCell 0 (.plain root) cells

theorem provisionedCells_get (root code verifier key : Bytes) (cells : Vector Cell 26) (c : Fin 26) :
    (provisionedCells root code verifier key cells)[c] =
      if c = 0 then (if cells[(0 : Fin 26)] = .blank then .holding (.plain root) else cells[(0 : Fin 26)])
      else if c = 1 then .holding (.plain code)
      else if c = 2 then .holding (.plain verifier)
      else if c = 10 then (if cells[(10 : Fin 26)] = .blank then .holding (wrapKey root key) else cells[(10 : Fin 26)])
      else cells[c] := by
  have h2 : verifierCell 0 = 2 := rfl
  have h10 : rangeCell 0 = 10 := rfl
  have hten : ∀ x : Vector Cell 26, (writeCheckCell 2 (.plain verifier) <|
    writeCheckCell 1 (.plain code) <| writeKeyCell 0 (.plain root) x)[(10 : Fin 26)] = x[(10 : Fin 26)] := fun x => by
    rw [writeCheckCell_get, writeCheckCell_get, writeKeyCell_get]; rfl
  unfold provisionedCells
  rw [h2, h10, writeKeyCell_get, hten, writeCheckCell_get, writeCheckCell_get, writeKeyCell_get]
  by_cases h : c = 10
  · subst h; simp
  by_cases h : c = 2
  · subst h; simp
  by_cases h : c = 1
  · subst h; simp
  by_cases h : c = 0
  · subst h; simp
  simp [*]

/-! ### The layout that a PROVISION leaves -/

/-- R4, R133: the default layout, range 0 marked where its cell is FAULTED. -/
def provisionedLayout (capacity : Nat) (faulted : Bool) : Layout :=
  if faulted then
    { Layout.default (some capacity) with
      ranges := (Layout.default (some capacity)).ranges.set 0 { RangeRecord.default true with rekeyPending := true } }
  else Layout.default (some capacity)

theorem provisionedLayout_get (capacity : Nat) (faulted : Bool) (k : Fin 16) :
    (provisionedLayout capacity faulted).ranges[k] =
      ⟨⟨k = 0, none, ⟨true, true, true⟩, .refuse, false⟩, k = 0 ∧ faulted, .good⟩ := by
  have hdefault : (Layout.default (some capacity)).ranges[k] = RangeRecord.default (k = 0) := by
    have hz : ∀ i : Fin 16, (i.val == 0) = decide (i = 0) := by decide
    simp [Layout.default, hz]
  cases faulted
  · change (Layout.default (some capacity)).ranges[k] = _
    rw [hdefault]
    simp [RangeRecord.default]
  · change ((Layout.default (some capacity)).ranges.set (0 : Fin 16) { RangeRecord.default true with rekeyPending := true })[k] = _
    rw [Vector.get_set_fin, hdefault]
    by_cases hk : k = 0
    · subst hk; rfl
    · simp [RangeRecord.default, hk]

/-- R129: the lowest mark of that layout. -/
theorem provisionedLayout_lowest (capacity : Nat) (faulted : Bool) :
    lowestMarked 0 (provisionedLayout capacity faulted) = if faulted then some 0 else none := by
  cases faulted
  · refine (lowestMarked_none _ _).2 fun k _ => ?_
    rw [provisionedLayout_get]; simp
  · have hmark : (provisionedLayout capacity true).ranges[(0 : Fin 16)].rekeyPending = true := by
      rw [provisionedLayout_get]; rfl
    exact List.find?_cons_of_pos (by rw [hmark]; rfl)

/-- R4: the provisioning commit writes those cells and that layout. -/
theorem State.provisionCommit_eq (capacity : Nat) (code : Bytes) (d : Derivation) (s : State) :
    s.provisionCommit capacity code d =
      State.commit [.lifecycle, .cells, .credentials, .layout, .evidence]
        { s with
          draws := s.draws + 2
          cells :=
            provisionedCells (Config.random32 s.draws).toList code (Config.derive d.secret d.salt).toList
              (Config.random32 (s.draws + 1)).toList s.cells
          cred :=
            { slots := (Vector.replicate 8 Slot.none).set 0 ⟨.active, some d.salt, BitVec.allOnes 16, false⟩
              failures := 0
              openAttempt := false }
          backoff := none
          layout := provisionedLayout capacity (s.cells[(10 : Fin 26)] = .faulted)
          evid := ⟨0, .calm, [], 0⟩
          life := ⟨.provisioned, none⟩ } := by
  have hlayout : provisionedLayout capacity (decide (s.cells[(10 : Fin 26)] = .faulted)) =
      if s.cells[rangeCell 0] = .faulted then
        { Layout.default (some capacity) with
          ranges :=
            (Layout.default (some capacity)).ranges.set 0 { RangeRecord.default true with rekeyPending := true } }
      else Layout.default (some capacity) := if_congr decide_eq_true_iff rfl rfl
  rw [hlayout]
  rfl

/-- R46: the LAYOUT operation starts at a mark, and nothing without one. -/
theorem State.startLayout_eq (kind : OpKind) (s : State) :
    s.startLayout kind =
      { s with
        layoutOp :=
          match lowestMarked 0 s.layout with
          | some k => ⟨some kind, .running, none, some k.val, some s.millis, none, false⟩
          | none => s.layoutOp
        layoutWork :=
          match lowestMarked 0 s.layout with
          | some k => some ⟨k, none⟩
          | none => s.layoutWork } := by
  unfold State.startLayout
  cases lowestMarked 0 s.layout <;> rfl

/-- Settles O10: the commit, the end of the derivation's record, and the LAYOUT operation where range 0 is marked. -/
theorem provisionCompletes : Obligations.ProvisionCompletes := by
  intro d capacity code s hd hw
  refine ⟨provisionedCells (Config.random32 s.draws).toList code (Config.derive d.secret d.salt).toList
    (Config.random32 (s.draws + 1)).toList s.cells, provisionedLayout capacity (s.cells[(10 : Fin 26)] = .faulted), ?next,
    (provisionedCells_get _ _ _ _ _ _).trans rfl, (provisionedCells_get _ _ _ _ _ _).trans rfl,
    (provisionedCells_get _ _ _ _ _ _).trans rfl, (provisionedCells_get _ _ _ _ _ _).trans rfl,
    fun c h0 h1 h2 h10 => (provisionedCells_get _ _ _ _ _ _).trans (by simp [h0, h1, h2, h10]), ?capacity,
    fun k => provisionedLayout_get _ _ k⟩
  case capacity => cases decide (s.cells[(10 : Fin 26)] = .faulted) <;> rfl
  case next =>
    change execProvisionComplete s = _
    simp only [execProvisionComplete, event, State.begin_derivation, hd, hw, State.begin_atMoment]
    rw [State.provisionCommit_eq, State.startLayout_eq]
    simp only [State.endCred_layout, State.commit_layout, provisionedLayout_lowest]
    simp only [State.endCred_layoutOp, State.commit_layoutOp, State.reaching_layoutOp, State.endCred_layoutWork,
      State.commit_layoutWork, State.reaching_layoutWork, State.endCred_credOp, State.commit_credOp, State.reaching_credOp,
      State.reaching_cells, State.reaching_draws]
    cases decide (s.cells[(10 : Fin 26)] = .faulted)
    · rfl
    · rfl

end Sys2Proof.Machine
end

