-- ==== Sys2Proof/Proofs/WipeRequest.lean ====
section
/-! The WIPE request (O12), STAND_DOWN (O32) and the decay tick (O33). -/

namespace Sys2Proof.Machine

/-- An answer by a last condition. -/
theorem answer_ite {k : Kind} {tag : Byte} {a b : Answer} {t u : State} {p q : Prop} [Decidable p] [Decidable q]
    (hpq : p ↔ q) (ha : answer k.code tag a = t) (hb : answer k.code tag b = u) :
    answer k.code tag (if p then a else b) = if q then t else u := by
  rw [apply_ite (answer k.code tag), ha, hb]
  exact if_congr hpq rfl rfl

/-! ### WIPE -/

/-- R135: a wrong wipe code is counted, and its event taken. -/
theorem State.countWrongCode_eq (s : State) :
    let c := min 255 (s.cred.failures + 1)
    let u := State.takeEvidence .badSecret (s.settings.wBad * min c 8) [.credentials]
      { s with cred := { s.cred with failures := c } }
    s.countWrongCode = { u with backoff := deadlineAfter c s.millis u.backoff, latched := u.latched ||| 1 } :=
  State.takeBadSecret_eq _ _ { s with cred := { s.cred with failures := min 255 (s.cred.failures + 1) } } rfl

/-- R134: the code form of WIPE. -/
theorem execWipe_code {tag : Byte} {code : Bytes} {s : State} (h : s.Admits .wipe) (hc : code.length = 16) :
    execWipe tag code s = .next
      (if s.derivation.isSome then s.begin.replied .wipe tag .busy []
       else if s.cells[(1 : Fin 26)] = .holding (.plain code) then s.begin.startWipe.replied .wipe tag .started []
       else s.begin.countWrongCode.replied .wipe tag .notPermitted []) := by
  have hne : code ≠ [] := fun hn => by rw [hn] at hc; cases hc
  refine request_answered h (by omega) ?_
  rw [if_neg hne, if_neg (not_not.2 hc)]
  exact answer_check Iff.rfl fun _ => answer_ite (Cell.compare_iff _ _) rfl rfl

/-- Settles O12: the forms of WIPE, and the count of a wrong code with and without a rise. -/
theorem wipeRequestStartsTheWipeOrIsCounted : Obligations.WipeRequestStartsTheWipeOrIsCounted := by
  refine ⟨fun tag code s h => ⟨?admin, execWipe_code h, fun hne hlen hl => ?bad⟩, fun s hl => ?quiet,
    fun s => s.countWrongCode_eq⟩
  case admin =>
    exact request_answered h (Nat.zero_le _) ((congrArg _ (if_pos rfl)).trans (answer_ite Iff.rfl rfl rfl))
  case bad => exact request_taken h hl ((if_neg hne).trans (if_pos hlen))
  case quiet =>
    intro c w score hquiet
    have htake := State.takeEvidence_quiet .badSecret w [.credentials] { s with cred := { s.cred with failures := c } }
      (by rw [show State.life _ = s.life from rfl, hl]; rfl) hquiet
    rw [s.countWrongCode_eq, htake]
    rfl

/-! ### STAND_DOWN -/

/-- Settles O32: the conditions of R114 in their order, and the commit. -/
theorem standDownReturnsToCalm : Obligations.StandDownReturnsToCalm := by
  intro tag s hm hr
  change execStandDown tag [] s = _
  split
  case isTrue hl =>
    exact request_wrongState hm hr (Nat.zero_le _) (Lifecycle.admits_eq_false_of_unprovisioned hl rfl)
  case isFalse hl =>
    refine request_answered (State.admits_of_provisioned hm hr (not_not.1 hl) (by decide)) (Nat.zero_le _) ?_
    exact answer_check s.begin.not_adminVerified_iff fun _ => answer_check Iff.rfl fun _ => rfl

/-! ### The decay tick -/

/-- R111: the decay timer by the stage and the mode. -/
theorem State.decayState_eq (s : State) :
    s.decayState =
      if s.settings.idc = 0 then .off
      else match s.evid.stage, s.mode with
        | .lockdown, _ => .stopped
        | .wipe, _ => .stopped
        | _, .active => .running
        | _, .aux => .running
        | _, .starting => .held
        | _, .off => .held := by
  unfold State.decayState
  split
  · rfl
  · cases s.evid.stage <;> cases s.mode <;> rfl

/-- R112: what a tick at a moment leaves, by the score it leaves. -/
def State.ticked (t : Micros) (s : State) : State :=
  let r := { s.reaching t with decayCount := 0 }
  let score := s.evid.score - min s.evid.score s.settings.d;
  if s.evid.score = 0 ∨ s.settings.d = 0 then r
  else State.commit [.evidence]
    { r with
      evid :=
        if s.evid.stage = .alert ∧ (score = 0 ∨ score + s.settings.h < s.settings.ta) then
          Evidence.append r.seconds .stage 0 score .calm { s.evid with score := score, stage := .calm }
        else { s.evid with score := score } }

/-- R112: nothing is written where S or D is 0. -/
theorem State.decay_eq (s : State) :
    s.decay =
      if s.evid.score = 0 ∨ s.settings.d = 0 then s
      else State.commit [.evidence]
        { s with
          evid :=
            Evidence.fall s.settings s.seconds
              { s.evid with score := s.evid.score - min s.evid.score s.settings.d } } :=
  if_congr (by omega) rfl rfl

/-- R112: the decay step at its moment. -/
theorem State.decay_reaching (t : Micros) (s : State) :
    State.decay { s.reaching t with decayCount := 0 } = s.ticked t := by
  simp only [State.decay_eq, State.reaching_evid, State.reaching_settings, State.ticked, Evidence.fall]

/-- A timed event acts on the state at its moment. -/
theorem State.begin_atMoment? (t : Micros) (f : State → State) (s : State) :
    s.begin.atMoment? (some t) f = f (s.reaching t) := rfl

/-- R111: the decay state does not read what a command wrote before. -/
theorem State.begin_decayState (s : State) : s.begin.decayState = s.decayState := rfl

/-- R111: the moment at which a running decay timer ticks. -/
theorem State.begin_decayMoment {s : State} (h : s.decayState = .running) :
    s.begin.decayMoment = some (s.now + (s.settings.idc * Config.minute - s.decayCount)) := by
  unfold State.decayMoment
  rw [State.begin_decayState, if_pos h]
  simp only [State.begin_now, State.begin_settings, State.begin_decayCount]

/-- A tick is a timed event. -/
theorem exec_decayTick (s : State) :
    exec .decayTick s =
      .next (s.begin.atMoment? s.begin.decayMoment fun s => State.decay { s with decayCount := 0 }) := rfl

/-- R111, R112: a tick of the running timer comes at its moment. -/
theorem exec_decayTick_running {s : State} (h : s.decayState = .running) :
    exec .decayTick s = .next (s.ticked (s.now + (s.settings.idc * Config.minute - s.decayCount))) := by
  rw [exec_decayTick, State.begin_decayMoment h, State.begin_atMoment?, State.decay_reaching]

/-- Settles O33: without a moment no tick, and at its moment the step. -/
theorem decayTickLowersTheScore : Obligations.DecayTickLowersTheScore := by
  refine ⟨fun s => ⟨s.decayState_eq, fun h => ?_⟩, fun s h => exec_decayTick_running h⟩
  have hmoment : s.begin.decayMoment = none := if_neg h
  rw [exec_decayTick, hmoment]
  rfl

end Sys2Proof.Machine
end

