-- ==== Sys2Proof/Proofs/Sensing.lean ====
section
/-! Theft sensing: the platform binding and its reports (O34), the presence beacon (O35), the events of the watches (O36),
and the tamper loop (O37). -/

namespace Sys2Proof.Machine

/-! ### The platform binding -/

/-- R94: BIND leaves FOREIGN and makes every other window MATCHED. -/
theorem ReportWindow.bind_eq (w : ReportWindow) : w.bind = if w = .foreign then .foreign else .matched := by
  cases w <;> rfl

/-- R93: a body of the form BIND. -/
theorem readBind_bind {token : Bytes} (h : token.length = 16) : readBind (1 :: token) = some (some token) :=
  if_pos ⟨rfl, h⟩

/-- R93: a body that is neither form. -/
theorem readBind_bad {body : Bytes} (h2 : body ≠ [2]) (h1 : ∀ bound : Bytes, body = 1 :: bound → bound.length ≠ 16) :
    readBind body = none := by
  cases body with
  | nil => rfl
  | cons form token =>
    have hbind : ¬(form = 1 ∧ token.length = 16) := by
      rintro ⟨rfl, h⟩
      exact h1 token rfl h
    have hclear : ¬(form = 2 ∧ token = []) := by
      rintro ⟨rfl, rfl⟩
      exact h2 rfl
    exact (if_neg hbind).trans (if_neg hclear)

/-- R93: BIND_PLATFORM by what its body reads. -/
theorem execBindPlatform_taken {tag : Byte} {body : Bytes} {token : Option Bytes} {s : State} (h : s.Admits .bindPlatform)
    (hv : s.verified.getLsbD 0 = true) (hs : s.evid.stage ≠ .lockdown) (hl : body.length ≤ 240)
    (hread : readBind body = some token) :
    execBindPlatform tag body s = .next ((s.begin.bindPlatform token).replied .bindPlatform tag .done []) := by
  refine request_taken h hl ((if_neg (by simp [State.adminVerified, hv])).trans ((if_neg hs).trans ?_))
  rw [hread]

/-- R93: without slot 0 verified, or in LOCKDOWN. -/
theorem execBindPlatform_notPermitted {tag : Byte} {body : Bytes} {s : State} (h : s.Admits .bindPlatform)
    (hl : body.length ≤ 240) (hno : s.verified.getLsbD 0 = false ∨ s.evid.stage = .lockdown) :
    execBindPlatform tag body s = .next (s.begin.replied .bindPlatform tag .notPermitted []) := by
  refine request_taken h hl ?_
  rcases hno with hv | hs
  · exact if_pos (s.begin.not_adminVerified_iff.2 hv)
  · split
    · rfl
    · exact if_pos hs

/-- R93: a body of neither form. -/
theorem execBindPlatform_badValue {tag : Byte} {body : Bytes} {s : State} (h : s.Admits .bindPlatform)
    (hl : body.length ≤ 240) (hv : s.verified.getLsbD 0 = true) (hs : s.evid.stage ≠ .lockdown)
    (hread : readBind body = none) :
    execBindPlatform tag body s = .next (s.begin.replied .bindPlatform tag .badValue []) := by
  refine request_taken h hl ((if_neg (by simp [State.adminVerified, hv])).trans ((if_neg hs).trans ?_))
  rw [hread]
  rfl

/-! ### Platform reports -/

/-- R95: FOREIGN raised. -/
theorem State.raiseForeign_eq (s : State) :
    s.raiseForeign = State.takeEvidence .foreign s.settings.wForeign []
      { s with window := .foreign, latched := s.latched ||| 16 } := rfl

/-- R95: a report of 0 or 16 bytes answers the window that it leaves. -/
theorem execPlatformReport_settled {tag : Byte} {token : Bytes} {s t : State} {c : Byte} (h : s.Admits .platformReport)
    (hl : token.length = 0 ∨ token.length = 16) (ht : s.begin.settleReport token = t) (hc : t.window.code = c) :
    execPlatformReport tag token s = .next (t.replied .platformReport tag .done [c]) := by
  refine request_taken h (by omega) ((if_neg (by omega)).trans ?_)
  rw [← hc, ← ht]

/-- Settles O34: the binding by its body, a report by the window it finds, and the deadline. -/
theorem platformBindingAndReports : Obligations.PlatformBindingAndReports := by
  intro tag token s
  refine ⟨fun h hv hs => ⟨fun hl => ?bind, ?clear⟩,
    fun body h hl => ⟨execBindPlatform_notPermitted h hl, fun hv hs h2 h1 =>
      execBindPlatform_badValue h hl hv hs (readBind_bad h2 h1)⟩,
    fun h h0 h16 hl => request_taken h hl (if_pos ⟨h0, h16⟩),
    fun h hl => ⟨fun hw => ?none, fun hw => ?matched, fun hw => ?foreign, fun t hw => ⟨fun hb => ?right, fun hb => ?wrong⟩⟩,
    fun t hw => ?deadline⟩
  case bind =>
    refine (execBindPlatform_taken h hv hs (by rw [List.length_cons]; omega) (readBind_bind hl)).trans ?_
    rw [← ReportWindow.bind_eq]; rfl
  case clear =>
    exact (execBindPlatform_taken h hv hs (by decide) (token := none) rfl).trans rfl
  case none => exact execPlatformReport_settled h hl (by simp only [State.settleReport, State.begin_window, hw]) (by rw [State.begin_window, hw]; rfl)
  case matched => exact execPlatformReport_settled h hl (by simp only [State.settleReport, State.begin_window, hw]) (by rw [State.begin_window, hw]; rfl)
  case foreign => exact execPlatformReport_settled h hl (by simp only [State.settleReport, State.begin_window, hw]) (by rw [State.begin_window, hw]; rfl)
  case right =>
    refine execPlatformReport_settled h hl ?_ rfl
    simp only [State.settleReport, State.begin_window, hw]
    exact if_pos hb
  case wrong =>
    intro u
    have hu : u.window = .foreign := (State.takeEvidence_spares _ _ _ _).2.2.1 rfl
    refine ⟨hu, execPlatformReport_settled h hl ?_ (by rw [hu]; rfl)⟩
    simp only [State.settleReport, State.begin_window, hw]
    exact if_neg hb
  case deadline =>
    change execReportWindowDeadline s = _
    have hmoment : s.begin.windowMoment = some t := by simp only [State.windowMoment, State.begin_window, hw]
    simp only [execReportWindowDeadline, event, hmoment]
    rw [State.begin_atMoment?, State.raiseForeign_eq, State.reaching_settings, State.reaching_latched]

/-! ### The presence beacon -/

/-- R82: the level may have been held. -/
theorem BeaconWatch.held_iff (now : Micros) (b : BeaconWatch) : b.held now = true ↔ b.changed + 1000 ≤ now :=
  decide_eq_true_iff

/-- R84: an edge by the reference edge before it. -/
theorem BeaconWatch.edge_eq (w : Nat) (now : Micros) (b : BeaconWatch) :
    b.edge w now =
      { level := some true
        changed := now
        reference := some now
        deadline :=
          match b.reference with
          | some t => if t + 250000 ≤ now ∧ now ≤ t + 4000000 then now + w * 1000000 else b.deadline
          | none => b.deadline } := by
  unfold BeaconWatch.edge
  cases b.reference with
  | none => rfl
  | some t =>
    have hvalid : validBeacon (some t) now = true ↔ t + 250000 ≤ now ∧ now ≤ t + 4000000 :=
      (Bool.and_eq_true _ _).to_iff.trans (and_congr decide_eq_true_iff decide_eq_true_iff)
    exact congrArg (BeaconWatch.mk _ _ _) (if_congr hvalid rfl rfl)

/-- Settles O35: a rising edge counts from a low level held long enough. -/
theorem risingEdgesAreJudged : Obligations.RisingEdgesAreJudged := by
  intro b s hb
  refine ⟨fun hlow hheld => ?taken, fun hno => ?disregarded⟩
  case taken =>
    change execPresRisingEdge s = _
    simp only [execPresRisingEdge, event, State.begin_beacon, hb]
    refine congrArg _ ((if_pos ⟨hlow, (b.held_iff s.now).2 hheld⟩).trans ?_)
    rw [b.edge_eq]
    rfl
  case disregarded =>
    change execPresRisingEdge s = _
    simp only [execPresRisingEdge, event, State.begin_beacon, hb]
    refine congrArg _ (if_neg ?_)
    rintro ⟨hlow, hheld⟩
    rcases hno with h | h
    · exact h hlow
    · exact absurd ((b.held_iff s.now).1 hheld) (not_le.2 h)

/-! ### The events of the watches -/

/-- R82: a falling change counts once the level before it was held. -/
theorem execPresFallingChange_taken {b : BeaconWatch} {level : Bool} {s : State} (hb : s.beacon = some b)
    (hlevel : b.level = none ∨ (b.level = some true ∧ level = false)) (hheld : b.changed + 1000 ≤ s.now) :
    execPresFallingChange level s =
      .next { s.begin with beacon := some { b with level := some level, changed := s.now } } := by
  simp only [execPresFallingChange, event, State.begin_beacon, hb]
  exact congrArg _ (if_pos ⟨hlevel, (b.held_iff s.now).2 hheld⟩)

/-- R90: the dormancy state by what holds of it. -/
theorem State.dormancyState_eq (s : State) :
    s.dormancyState =
      if s.settings.dormId = 0 then .off
      else if s.mode ≠ .active ∨ s.life.lifecycle ≠ .provisioned then .idle
      else if s.satisfied = true then .satisfied
      else .counting := rfl

/-- R90: DORMANT is a timed event. -/
theorem exec_dormant (s : State) :
    exec .dormant s = .next (s.begin.atMoment? s.begin.dormantMoment fun s =>
      State.senseEvent .dormant .dormant s.settings.wDorm { s with dormancyCount := 0 }) := rfl

/-- R90: the dormancy state does not read what a command wrote before. -/
theorem State.begin_dormancyState (s : State) : s.begin.dormancyState = s.dormancyState := rfl

/-- R90: the moment at which a counting timer is dormant. -/
theorem State.begin_dormantMoment {s : State} (h : s.dormancyState = .counting) :
    s.begin.dormantMoment = some (s.now + (s.settings.dormId * Config.minute - s.dormancyCount)) := by
  unfold State.dormantMoment
  rw [State.begin_dormancyState, if_pos h]
  simp only [State.begin_now, State.begin_settings, State.begin_dormancyCount]

/-- R90: what DORMANT leaves at its moment. -/
def State.dormantAt (t : Micros) (s : State) : State :=
  State.takeEvidence .dormant s.settings.wDorm []
    { s.reaching t with dormancyCount := 0, latched := s.latched ||| 8 }

theorem State.senseEvent_dormant (t : Micros) (s : State) :
    State.senseEvent .dormant .dormant (s.reaching t).settings.wDorm { s.reaching t with dormancyCount := 0 } =
      s.dormantAt t := by
  unfold State.dormantAt
  rw [State.reaching_settings, ← State.reaching_latched t s]
  rfl

/-- Settles O36: the running-out of the beacon window in its two orders, the falling changes, and DORMANT. -/
theorem watchesRaiseTheirEvents : Obligations.WatchesRaiseTheirEvents := by
  refine ⟨fun b s hb => ⟨?_, ?_⟩, fun s => ⟨fun b hb hlevel hheld => ?low, fun b level hb hlevel hheld => ?first,
    fun b level hb hshort => ?early, fun h => ?dormant, fun h => ?still, s.dormancyState_eq⟩⟩
  · change execBeaconLost true s = _
    simp only [execBeaconLost, event, State.begin_beacon, hb, State.begin_atMoment, State.beaconOut, State.reaching_settings]
    rfl
  · change execBeaconLost false s = _
    simp only [execBeaconLost, event, State.begin_beacon, hb, State.begin_atMoment, State.beaconOut, State.reaching_settings]
    rfl
  case low => exact execPresFallingChange_taken hb (.inr ⟨hlevel, rfl⟩) hheld
  case first => exact execPresFallingChange_taken hb (.inl hlevel) hheld
  case early =>
    change execPresFallingChange level s = _
    simp only [execPresFallingChange, event, State.begin_beacon, hb]
    exact congrArg _ (if_neg fun h => absurd ((b.held_iff s.now).1 h.2) (not_le.2 hshort))
  case dormant =>
    rw [exec_dormant, State.begin_dormantMoment h, State.begin_atMoment?, State.senseEvent_dormant]
    rfl
  case still =>
    have hmoment : s.begin.dormantMoment = none := if_neg h
    rw [exec_dormant, hmoment]
    rfl

/-! ### The tamper loop -/

/-- R87: the moment of a timing in progress. -/
theorem State.begin_tamperMoment {t : Micros} {s : State} (hm : s.mode = .active ∨ s.mode = .aux)
    (ht : s.tamper = .opening t ∨ s.tamper = .closing t) :
    s.begin.tamperMoment = some (t + deglitchTime s.settings.tamperCode) := by
  unfold State.tamperMoment
  rw [State.begin_mode, State.begin_tamper, State.begin_settings]
  rcases hm with hm | hm <;> rcases ht with ht | ht <;> rw [hm, ht] <;> rfl

/-- R88: the modes in which the watch runs. -/
theorem State.tamperRuns_iff {s : State} : s.mode.tamperRuns = true ↔ s.mode = .active ∨ s.mode = .aux := by
  cases s.mode <;> simp [Mode.tamperRuns]

/-- R87: the table of the watch. -/
theorem TamperState.read_eq (isOpen : Bool) (now : Micros) (x : TamperState) :
    x.read isOpen now =
      match x with
      | .off => .off
      | .armed => if isOpen then .opening now else .armed
      | .opening t => if isOpen then .opening t else .armed
      | .tripped => if isOpen then .tripped else .closing now
      | .closing t => if isOpen then .tripped else .closing t := by
  cases x <;> rfl

/-- Settles O37: the deglitch times, the line's changes and the ends of the two timings. -/
theorem tamperLoopIsWatched : Obligations.TamperLoopIsWatched := by
  refine ⟨rfl, fun isOpen s => ⟨fun hm => ?reads, fun hm => ?deaf, fun hm t dropFirst => ⟨fun ht => ?closed, fun ht => ⟨?_, ?_⟩⟩⟩⟩
  case reads =>
    change execTampChange isOpen s = _
    refine congrArg _ ((if_pos (State.tamperRuns_iff.2 hm)).trans ?_)
    rw [TamperState.read_eq]
    rfl
  case deaf =>
    have hstill : ¬(s.mode = .active ∨ s.mode = .aux) := by rcases hm with hm | hm <;> simp [hm]
    exact congrArg _ (if_neg (mt State.tamperRuns_iff.1 hstill))
  case closed => 
    change execTamperDeglitchEnd dropFirst s = _
    simp only [execTamperDeglitchEnd, event]
    rw [State.begin_tamperMoment hm (.inr ht), State.begin_atMoment?]
    simp only [State.tamperTimed, State.reaching_tamper, ht]
  · change execTamperDeglitchEnd true s = _
    simp only [execTamperDeglitchEnd, event]
    rw [State.begin_tamperMoment hm (.inl ht), State.begin_atMoment?]
    simp only [State.tamperTimed, State.reaching_tamper, ht, State.reaching_settings]
    rfl
  · change execTamperDeglitchEnd false s = _
    simp only [execTamperDeglitchEnd, event]
    rw [State.begin_tamperMoment hm (.inl ht), State.begin_atMoment?]
    simp only [State.tamperTimed, State.reaching_tamper, ht, State.reaching_settings]
    rfl

end Sys2Proof.Machine
end

