-- ==== Sys2Proof/Proofs/DesiredStates.lean ====
section
/-! Changes of desired states and what they hand on (O28), with the requests that open and close gates: UNLOCK (O24) and
LOCK (O25). -/

namespace Sys2Proof.Machine

/-! ### Hand-ons in closed form -/

/-- R64: a slot that is handed on joins the tail: it neither waits nor is in flight. -/
def State.joins (s : State) (j : Fin 17) : Bool :=
  decide (j ∉ s.queue) && decide (s.inFlight.map InFlight.slot ≠ some j)

theorem State.joins_iff (s : State) (j : Fin 17) :
    s.joins j = true ↔ j ∉ s.queue ∧ ∀ f, s.inFlight = some f → f.slot ≠ j := by
  unfold State.joins
  rw [Bool.and_eq_true, decide_eq_true_iff, decide_eq_true_iff]
  cases s.inFlight <;> simp

/-- R64: the queue after a hand-on. -/
theorem State.handOn_queue (j : Fin 17) (s : State) (hm : s.mode = .active) (hl : s.life.lifecycle ≠ .disabled) :
    (s.handOn j).queue = s.queue ++ if s.joins j then [j] else [] := by
  unfold State.handOn
  rw [if_neg (by simp [hm, hl])]
  split
  · next hq => rw [if_neg (fun h => ((s.joins_iff j).1 h).1 hq), List.append_nil]
  next hq =>
  split
  · next f hf =>
    split
    · next hslot => rw [if_neg (fun h => ((s.joins_iff j).1 h).2 f hf hslot), List.append_nil]
    · next hslot =>
      rw [if_pos ((s.joins_iff j).2 ⟨hq, fun g hg => by rw [hf] at hg; cases hg; exact hslot⟩)]
  · next hf => rw [if_pos ((s.joins_iff j).2 ⟨hq, fun g hg => by rw [hf] at hg; cases hg⟩)]

/-- A slot that a hand-on of another does not concern joins as before. -/
theorem State.handOn_joins {i j : Fin 17} (s : State) (hm : s.mode = .active) (hl : s.life.lifecycle ≠ .disabled)
    (hij : i ≠ j) : (s.handOn j).joins i = s.joins i := by
  have hqueue : i ∉ (s.handOn j).queue ↔ i ∉ s.queue := by
    rw [s.handOn_queue j hm hl]
    split <;> simp [hij]
  have hslot : (s.handOn j).inFlight.map InFlight.slot = s.inFlight.map InFlight.slot := by
    rw [s.handOn_inFlight j hm hl, Option.map_map]
    rfl
  unfold State.joins
  rw [hslot]
  simp only [hqueue]

/-- R48, R64: the queue after hand-ons of different slots. -/
theorem State.handOnAll_queue (js : List (Fin 17)) (s : State) (hm : s.mode = .active)
    (hl : s.life.lifecycle ≠ .disabled) (hjs : js.Nodup) : (s.handOnAll js).queue = s.queue ++ js.filter s.joins := by
  induction js generalizing s with
  | nil => exact (List.append_nil _).symm
  | cons j js ih =>
    obtain ⟨hj, hjs⟩ := List.nodup_cons.1 hjs
    obtain ⟨q, f, hform⟩ := s.handOn_form j
    have hrest : js.filter (s.handOn j).joins = js.filter s.joins :=
      List.filter_congr fun i hi => s.handOn_joins hm hl fun hij => hj (hij ▸ hi)
    have hih := ih (s.handOn j) (by rw [hform]; exact hm) (by rw [hform]; exact hl) hjs
    change ((s.handOn j).handOnAll js).queue = _
    rw [hih, s.handOn_queue j hm hl, hrest, List.filter_cons, List.append_assoc]
    split <;> rfl

/-- R64: the rejoin mark after hand-ons. -/
theorem State.handOnAll_inFlight (js : List (Fin 17)) (s : State) (hm : s.mode = .active)
    (hl : s.life.lifecycle ≠ .disabled) :
    (s.handOnAll js).inFlight =
      s.inFlight.map fun f => { f with rejoin := f.rejoin || decide (f.slot ∈ js ∧ f.slot ∉ s.queue) } := by
  induction js generalizing s with
  | nil => cases h : s.inFlight <;> simp [State.handOnAll, h]
  | cons j js ih =>
    obtain ⟨q, f, hform⟩ := s.handOn_form j
    have hih := ih (s.handOn j) (by rw [hform]; exact hm) (by rw [hform]; exact hl)
    change ((s.handOn j).handOnAll js).inFlight = _
    rw [hih, s.handOn_inFlight j hm hl, s.handOn_queue j hm hl, Option.map_map]
    cases hf : s.inFlight with
    | none => rfl
    | some f =>
      have hmark : ∀ q, (q = if s.joins j then [j] else []) →
          (decide (f.slot = j ∧ j ∉ s.queue) || decide (f.slot ∈ js ∧ f.slot ∉ s.queue ++ q))
            = decide (f.slot ∈ j :: js ∧ f.slot ∉ s.queue) := by
        intro q hq
        by_cases hslot : f.slot = j
        · have hno : s.joins j = false := by
            rw [← Bool.not_eq_true, State.joins_iff]
            exact fun h => h.2 f hf hslot
          rw [hno] at hq
          subst hq
          by_cases hmem : j ∈ s.queue <;> simp [hslot, hmem]
        · have hout : f.slot ∉ q := by rw [hq]; split <;> simp [hslot]
          simp [hslot, hout]
      simp only [Option.map_some, Function.comp, Bool.or_assoc]
      rw [hmark _ rfl]

/-- R76, R79: nothing is handed on out of ACTIVE or in DISABLED. -/
theorem State.handOnAll_still (js : List (Fin 17)) (s : State) (h : s.mode ≠ .active ∨ s.life.lifecycle = .disabled) :
    s.handOnAll js = s := by
  unfold State.handOnAll
  exact List.foldlRecOn (motive := fun t => t = s) js _ rfl fun t ht j _ => by rw [ht]; exact if_pos h

/-! ### The slots that change -/

/-- A range's slot is not the shadow's. -/
theorem rangeSlot_ne_shadow (k : Fin 16) : rangeSlot k ≠ 16 := by
  intro h
  have hval := congrArg Fin.val h
  simp [rangeSlot] at hval
  omega

theorem rangeSlot_injective : Function.Injective rangeSlot := fun i k h => by
  have hval := congrArg Fin.val h
  exact Fin.ext hval

/-- R48: a range's slot changes with its gates. -/
theorem rangeSlot_mem_changedSlots (g g' : Vector Gates 16) (v v' : View) (k : Fin 16) :
    rangeSlot k ∈ changedSlots g g' v v' ↔ g[k] ≠ g'[k] := by
  refine ⟨fun h => ?_, fun h => mem_changedSlots (Ne.symm h) v v'⟩
  rcases List.mem_append.1 h with h | h
  · obtain ⟨i, hi, heq⟩ := List.mem_map.1 h
    cases rangeSlot_injective heq
    exact of_decide_eq_true (List.mem_filter.1 hi).2
  · split at h
    · cases h
    · exact absurd (List.mem_singleton.1 h) (rangeSlot_ne_shadow k)

/-- R48: slot 16 changes with the view. -/
theorem shadow_mem_changedSlots (g g' : Vector Gates 16) (v v' : View) : 16 ∈ changedSlots g g' v v' ↔ v ≠ v' := by
  have hranges : ∀ l : List (Fin 16), (16 : Fin 17) ∉ l.map rangeSlot := fun l h => by
    obtain ⟨i, -, heq⟩ := List.mem_map.1 h
    exact rangeSlot_ne_shadow i heq
  unfold changedSlots
  rw [List.mem_append, or_iff_right (hranges _)]
  by_cases h : v = v'
  · simp [h]
  · rw [if_neg h]
    exact iff_of_true (List.mem_singleton_self _) h

/-- R48: they come in ascending order, slot 16 last. -/
theorem changedSlots_pairwise (g g' : Vector Gates 16) (v v' : View) : (changedSlots g g' v v').Pairwise (· < ·) := by
  have hall : allRanges.Pairwise (· < ·) := by decide
  refine List.pairwise_append.2 ⟨List.pairwise_map.2 ((hall.filter _).imp fun h => h), ?_, fun i hi j hj => ?_⟩
  · split <;> simp
  · obtain ⟨k, -, rfl⟩ := List.mem_map.1 hi
    split at hj
    · cases hj
    · rw [List.mem_singleton.1 hj]
      exact k.isLt

/-! ### A change of desired states -/

/-- Settles O28: the hand-ons in closed form, of the slots that change. -/
theorem desiredStatesAreHandedOn : Obligations.DesiredStatesAreHandedOn := by
  intro gates view s
  generalize hjs : changedSlots s.gates gates s.shadow view = js
  have hpairwise : js.Pairwise (· < ·) := hjs ▸ changedSlots_pairwise _ _ _ _
  obtain ⟨u, hchange, hmode, hlife, hqueue, hflight⟩ : ∃ u : State, s.changeDesired gates view = u.handOnAll js
      ∧ u.mode = s.mode ∧ u.life = s.life ∧ u.queue = s.queue ∧ u.inFlight = s.inFlight := by
    unfold State.changeDesired
    rw [State.dropRootIfClosed_form, hjs]
    exact ⟨_, rfl, rfl, rfl, rfl, rfl⟩
  obtain ⟨q, f, hform⟩ := State.changeDesired_form gates view s
  refine ⟨by rw [hform], by rw [hform], fun hm hl => ⟨fun j hj => ?queued, ?tail, ?mark⟩,
    fun k => hjs ▸ rangeSlot_mem_changedSlots _ _ _ _ k, hjs ▸ shadow_mem_changedSlots _ _ _ _, hpairwise,
    fun h => ?still, ?root, ?rest⟩
  case queued =>
    rw [hchange]
    exact State.handOnAll_queued js u (hmode.trans hm) (hlife ▸ hl) j hj
  case tail =>
    refine ⟨js.filter u.joins, ?_, hpairwise.filter _, fun j => ?_⟩
    · rw [hchange, ← hqueue]
      exact State.handOnAll_queue js u (hmode.trans hm) (hlife ▸ hl) (hpairwise.imp ne_of_lt)
    · rw [List.mem_filter, State.joins_iff, hqueue, hflight]
  case mark =>
    rw [hchange, ← hqueue, ← hflight]
    exact State.handOnAll_inFlight js u (hmode.trans hm) (hlife ▸ hl)
  case still =>
    rw [hchange, State.handOnAll_still js u (by rw [hmode, hlife]; exact h)]
    exact ⟨hqueue, hflight⟩
  case root => rw [hform]; rfl
  case rest => rw [hform]

/-! ### UNLOCK -/

/-- A set of ranges lies in an access list. -/
theorem and_not_eq_zero_iff (x y : BitVec 16) :
    x &&& ~~~y = 0 ↔ ∀ j : Fin 16, x.getLsbD j.val = true → y.getLsbD j.val = true := by
  constructor
  · intro h j hx
    have hbit := congrArg (fun z : BitVec 16 => z.getLsbD j.val) h
    simp only [BitVec.getLsbD_and, BitVec.getLsbD_not, hx, j.isLt] at hbit
    simpa using hbit
  · intro h
    refine BitVec.eq_of_getLsbD_eq fun i hi => ?_
    have hbit := h ⟨i, hi⟩
    rw [BitVec.getLsbD_and, BitVec.getLsbD_not]
    cases hx : x.getLsbD i <;> simp_all

/-- Every slot is in the list of all. -/
theorem mem_allSlotIndices : ∀ k : Fin 8, k ∈ allSlotIndices := by decide

/-- R49, the authority: some one verified slot has access to every named range. -/
theorem State.accessTo_iff {set : BitVec 16} {ranges : List (Fin 16)} (s : State)
    (hset : ∀ j : Fin 16, set.getLsbD j.val = decide (j ∈ ranges)) :
    s.accessTo set = true ↔ ∃ v : Fin 8, s.verified.getLsbD v.val = true
      ∧ ∀ k ∈ ranges, s.cred.slots[v].access.getLsbD k.val = true := by
  unfold State.accessTo
  rw [List.any_eq_true]
  refine exists_congr fun v => ?_
  rw [Bool.and_eq_true, beq_iff_eq, and_not_eq_zero_iff]
  refine (and_iff_right (mem_allSlotIndices v)).trans (and_congr_right fun _ => forall_congr' fun k => ?_)
  rw [hset, decide_eq_true_iff]

/-- R48: a usable range. -/
theorem RangeRecord.usable_iff (r : RangeRecord) :
    r.usable = true ↔ r.edit.enabled = true ∧ r.rekeyPending = false ∧ r.health = .good := by
  simp [RangeRecord.usable, and_assoc]

/-- R49, the last condition: every named range is usable. -/
theorem State.allUsable_iff {set : BitVec 16} {ranges : List (Fin 16)} (s : State)
    (hset : ∀ j : Fin 16, set.getLsbD j.val = decide (j ∈ ranges)) :
    s.allUsable set = true ↔ ∀ k ∈ ranges, s.layout.ranges[k].edit.enabled = true
      ∧ s.layout.ranges[k].rekeyPending = false ∧ s.layout.ranges[k].health = .good := by
  unfold State.allUsable
  rw [List.all_eq_true]
  refine forall_congr' fun k => ?_
  rw [hset, Bool.or_eq_true, RangeRecord.usable_iff, Bool.not_eq_true', decide_eq_false_iff_not]
  exact ⟨fun h hk => (h (mem_allRanges k)).resolve_left (not_not.2 hk), fun h _ => or_iff_not_imp_left.2 fun hk => h (not_not.1 hk)⟩

/-- R49, R50: the body of UNLOCK and LOCK fits a frame. -/
theorem gateBody_length {ranges : List (Fin 16)} (h : ranges.Nodup) (a b : Byte) :
    (a :: b :: ranges.map rangeByte).length ≤ 240 := by
  have hl := length_le_of_nodup ranges h
  simp only [List.length_cons, List.length_map]
  omega

/-- The negation of a Boolean test. -/
theorem not_eq_true_iff_not {b : Bool} {p : Prop} (h : b = true ↔ p) : (!b) = true ↔ ¬p := by
  rw [← h]; simp

/-- Settles O24: the conditions of R49 in their order, and the gates. -/
theorem unlockOpensTheNamedGates : Obligations.UnlockOpensTheNamedGates := by
  intro tag read write ranges s h hgate hne hnodup
  obtain ⟨set, hset, hbody⟩ := readGateBody_of read write ranges hgate hne hnodup
  refine ⟨openNamed ⟨read, write, set⟩ s.gates, fun k => ?gates, ?next⟩
  case gates =>
    simp only [openNamed, Fin.getElem_fin, Vector.getElem_ofFn]
    exact if_congr (by rw [hset, decide_eq_true_iff]) rfl rfl
  case next =>
    refine request_answered h (gateBody_length hnodup _ _) ?_
    rw [hbody, State.begin_gates, State.begin_shadow]
    refine answer_check (not_eq_true_iff_not (s.begin.accessTo_iff hset)) fun _ =>
      answer_check ?_ fun _ => answer_check (not_eq_true_iff_not (s.begin.allUsable_iff hset)) fun _ => by
        rw [answer_replied]
    rw [Bool.not_eq_true', Stage.open_eq_false_iff]
    rfl

/-! ### LOCK -/

/-- Settles O25: LOCK has no condition but the lifecycle. -/
theorem lockClosesTheNamedGates : Obligations.LockClosesTheNamedGates := by
  intro tag read write ranges s hm hr hgate hne hnodup
  obtain ⟨set, hset, hbody⟩ := readGateBody_of read write ranges hgate hne hnodup
  refine ⟨closeNamed ⟨read, write, set⟩ s.gates, fun k => ?gates, ?next⟩
  case gates =>
    simp only [closeNamed, Fin.getElem_fin, Vector.getElem_ofFn]
    exact if_congr (by rw [hset, decide_eq_true_iff]) rfl rfl
  case next =>
    change execLock tag _ s = _
    split
    case isTrue hl =>
      exact request_wrongState hm hr (gateBody_length hnodup _ _) (Lifecycle.admits_eq_false_of_unprovisioned hl rfl)
    case isFalse hl =>
      refine request_answered (State.admits_of_provisioned hm hr (not_not.1 hl) (by decide)) (gateBody_length hnodup _ _) ?_
      rw [hbody, State.begin_gates, State.begin_shadow]
      dsimp only
      rw [answer_replied]

end Sys2Proof.Machine
end

