-- ==== Sys2Proof/Proofs/RangeGeometry.lean ====
section
/-! The geometry of ranges: the overlap test (O21) and DRAFT_RANGE (O20). -/

namespace Sys2Proof.Machine

/-! ### The first of an ascending list -/

/-- In an ascending list that holds everything, what stands before an element is what lies below it. -/
theorem mem_before_iff {n : Nat} {l before after : List (Fin n)} {a x : Fin n} (hs : l.Pairwise (· < ·))
    (hall : ∀ i, i ∈ l) (hl : l = before ++ a :: after) : x ∈ before ↔ x < a := by
  subst hl
  obtain ⟨-, hafter, hbefore⟩ := List.pairwise_append.1 hs
  refine ⟨fun h => hbefore x h a List.mem_cons_self, fun h => ?_⟩
  rcases List.mem_append.1 (hall x) with hx | hx
  · exact hx
  · rcases List.mem_cons.1 hx with rfl | hx
    · exact absurd h (lt_irrefl x)
    · exact absurd h (lt_asymm ((List.pairwise_cons.1 hafter).1 x hx))

theorem allSlots_pairwise : allSlots.Pairwise (· < ·) := by decide

theorem mem_allSlots : ∀ j : Fin 17, j ∈ allSlots := by decide

/-- What a search through the slots finds is the lowest. -/
theorem find_allSlots {p : Fin 17 → Bool} {k : Fin 17} (h : allSlots.find? p = some k) :
    p k = true ∧ ∀ i < k, p i = false := by
  obtain ⟨hk, before, after, hl, hno⟩ := List.find?_eq_some_iff_append.1 h
  refine ⟨hk, fun i hi => ?_⟩
  have hmem := (mem_before_iff allSlots_pairwise mem_allSlots hl).2 hi
  simpa using hno i hmem

theorem find_allSlots_none {p : Fin 17 → Bool} (h : allSlots.find? p = none) (i : Fin 17) : p i = false := by
  simpa using List.find?_eq_none.1 h i (mem_allSlots i)

/-! ### The overlap test -/

/-- R41: a search for a pair finds the lowest. -/
theorem lowestOverlap_some {edits : Vector Editable 16} {L : Nat} {i j : Fin 17}
    (h : lowestOverlap edits L = some (i, j)) :
    i < j ∧ pairOverlaps edits L i j = true
      ∧ ∀ i' j' : Fin 17, i' < j' → pairOverlaps edits L i' j' = true → i < i' ∨ (i = i' ∧ j ≤ j') := by
  obtain ⟨before, a, after, hl, ha, hno⟩ := List.findSome?_eq_some_iff.1 h
  obtain ⟨b, hb, hab⟩ := Option.map_eq_some_iff.1 ha
  cases hab
  obtain ⟨hij, hlow⟩ := find_allSlots hb
  obtain ⟨hlt, hover⟩ := (Bool.and_eq_true _ _).to_iff.1 hij
  refine ⟨of_decide_eq_true hlt, hover, fun i' j' hij' hover' => ?_⟩
  rcases lt_trichotomy i i' with hi | rfl | hi
  · exact .inl hi
  · refine .inr ⟨rfl, not_lt.1 fun hj => ?_⟩
    have hfalse := hlow j' hj
    simp [hij', hover'] at hfalse
  · have hnone := hno i' ((mem_before_iff allSlots_pairwise mem_allSlots hl).2 hi)
    have hfalse := find_allSlots_none (Option.map_eq_none_iff.1 hnone) j'
    simp [hij', hover'] at hfalse

theorem lowestOverlap_none {edits : Vector Editable 16} {L : Nat} (h : lowestOverlap edits L = none) {i j : Fin 17}
    (hij : i < j) : pairOverlaps edits L i j = false := by
  have hnone := List.findSome?_eq_none_iff.1 h i (mem_allSlots i)
  have hfalse := find_allSlots_none (Option.map_eq_none_iff.1 hnone) j
  simpa [hij] using hfalse

/-- R41: the span of an enabled range 1 to 15. -/
theorem testSpan_rangeSlot {edits : Vector Editable 16} {L : Nat} {i : Fin 16} {x : Span} :
    testSpan edits L (rangeSlot i) = some x ↔ i ≠ 0 ∧ edits[i].enabled = true ∧ edits[i].extent = some x := by
  unfold testSpan
  rw [slotRange_rangeSlot]
  dsimp only
  split
  · next h => exact ⟨fun hx => ⟨h.1, h.2, hx⟩, fun hx => hx.2.2⟩
  · next h => exact iff_of_false (by simp) fun hx => h ⟨hx.1, hx.2.1⟩

/-- R41: the span of the shadow area. -/
theorem testSpan_shadow {edits : Vector Editable 16} {L : Nat} {x : Span} :
    testSpan edits L 16 = some x ↔ 0 < L ∧ x = ⟨0, L⟩ := by
  change (if 0 < L then some ⟨0, L⟩ else none) = some x ↔ _
  split
  · next h => simp [h, eq_comm]
  · next h => simp [h]

/-- R41: two numbers overlap where both take part and their spans do. -/
theorem pairOverlaps_iff {edits : Vector Editable 16} {L : Nat} {i j : Fin 17} :
    pairOverlaps edits L i j = true ↔
      ∃ x y, testSpan edits L i = some x ∧ testSpan edits L j = some y
        ∧ x.start < y.start + y.length ∧ y.start < x.start + x.length := by
  unfold pairOverlaps
  cases testSpan edits L i <;> cases testSpan edits L j <;> simp [Span.overlaps]

/-- Settles O21: the searches find the lowest, and the pairs by the spans that take part. -/
theorem overlapNamesTheLowestPair : Obligations.OverlapNamesTheLowestPair := by
  refine fun edits L => ⟨fun i j => lowestOverlap_some, fun h i j => lowestOverlap_none h, fun i j => ?ranges,
    fun i => ?shadow, fun k h => ?under, fun h i hi => ?free⟩
  case ranges =>
    simp only [pairOverlaps_iff, testSpan_rangeSlot]
    constructor
    · rintro ⟨x, y, ⟨hi, hei, hx⟩, ⟨hj, hej, hy⟩, hxy, hyx⟩
      exact ⟨hi, hj, hei, hej, x, y, hx, hy, hxy, hyx⟩
    · rintro ⟨hi, hj, hei, hej, x, y, hx, hy, hxy, hyx⟩
      exact ⟨x, y, ⟨hi, hei, hx⟩, ⟨hj, hej, hy⟩, hxy, hyx⟩
  case shadow =>
    simp only [pairOverlaps_iff, testSpan_rangeSlot, testSpan_shadow]
    constructor
    · rintro ⟨x, y, ⟨hi, hei, hx⟩, ⟨hL, rfl⟩, hxy, hyx⟩
      exact ⟨hi, hei, hL, x, hx, by simpa using hxy, hyx⟩
    · rintro ⟨hi, hei, hL, x, hx, hxy, hyx⟩
      exact ⟨x, _, ⟨hi, hei, hx⟩, ⟨hL, rfl⟩, by simpa using hxy, hyx⟩
  case under =>
    obtain ⟨hk, hlow⟩ := find_allSlots h
    obtain ⟨hlt, hover⟩ := (Bool.and_eq_true _ _).to_iff.1 hk
    have hk16 : k < 16 := of_decide_eq_true hlt
    refine ⟨hk16, hover, fun i hi => ?_⟩
    have hi16 : i < shadowSlot := lt_trans hi hk16
    exact (Bool.and_eq_false_iff.1 (hlow i hi)).resolve_left (by simp [hi16])
  case free =>
    have hi16 : i < shadowSlot := hi
    exact (Bool.and_eq_false_iff.1 (find_allSlots_none h i)).resolve_left (by simp [hi16])

/-! ### The fields of DRAFT_RANGE -/

/-- R40: an extent on 8-block granules within a capacity. -/
abbrev Span.fits (capacity : Option Nat) (x : Span) : Prop :=
  x.start % 8 = 0 ∧ x.length % 8 = 0 ∧ 8 ≤ x.length ∧ x.start + x.length ≤ capacity.getD 0

/-- R43: the fields of a DRAFT_RANGE after the range index. -/
def draftFields (enabled : Bool) (lockOn : BitVec 3) (refuses resume : Bool) (extent : Bytes) : Bytes :=
  [flag enabled, lockOn.setWidth 8, flag refuses, flag resume] ++ extent

/-- R43: the editable fields that they name. -/
def draftEdit (enabled : Bool) (lockOn : BitVec 3) (refuses resume : Bool) (extent : Option Span) : Editable :=
  ⟨enabled, extent, ⟨lockOn.getLsbD 0, lockOn.getLsbD 1, lockOn.getLsbD 2⟩, if refuses then .refuse else .zero, resume⟩

/-- R43: the fields of a body whose values are in their ranges. -/
theorem readEditable_of (k : Fin 16) (capacity : Option Nat) (enabled refuses resume : Bool) (lockOn : BitVec 3)
    (extent : Bytes) :
    let edit := draftEdit enabled lockOn refuses resume
    let span : Span := ⟨ofBe (extent.take 6), ofBe (extent.drop 6)⟩
    readEditable k capacity (draftFields enabled lockOn refuses resume extent) =
      if k = 0 then (if enabled = true ∧ extent = [] then some (edit none) else none)
      else if enabled = true then
        (if extent.length = 12 ∧ span.fits capacity then some (edit (some span)) else none)
      else if extent.length = 12 ∨ extent = [] then some (edit none) else none := by
  intro edit span
  have hlock : ¬8 ≤ (lockOn.setWidth 8).toNat := by
    have := lockOn.isLt
    rw [BitVec.toNat_setWidth, Nat.mod_eq_of_lt (by omega)]
    omega
  have hbit : ∀ i, i < 3 → (lockOn.setWidth 8).getLsbD i = lockOn.getLsbD i := fun i hi => by
    rw [BitVec.getLsbD_setWidth, decide_eq_true (by omega), Bool.true_and]
  simp only [readEditable, draftFields, List.cons_append, List.nil_append, readFlag_flag, hbit 0 (by decide), hbit 1 (by decide),
    hbit 2 (by decide)]
  exact if_neg hlock

/-- R171: a flag byte out of its values. -/
theorem readFlag_bad {b : Byte} (h : 1 < b.toNat) : readFlag b = none := by
  unfold readFlag
  rw [if_neg, if_neg]
  · rintro rfl; exact absurd h (by decide)
  · rintro rfl; exact absurd h (by decide)

/-- R43: fewer than four fields. -/
theorem readEditable_short {k : Fin 16} {capacity : Option Nat} {rest : Bytes} (h : rest.length < 4) :
    readEditable k capacity rest = none := by
  match rest, h with
  | [], _ | [_], _ | [_, _], _ | [_, _, _], _ => rfl

/-- R171: a field out of its values. -/
theorem readEditable_bad {k : Fin 16} {capacity : Option Nat} {enabled lockOn response resume : Byte} {extent : Bytes}
    (h : 1 < enabled.toNat ∨ 8 ≤ lockOn.toNat ∨ 1 < response.toNat ∨ 1 < resume.toNat) :
    readEditable k capacity (enabled :: lockOn :: response :: resume :: extent) = none := by
  simp only [readEditable]
  split
  · next he hr hm =>
    rcases h with h | h | h | h
    · rw [readFlag_bad h] at he; cases he
    · exact if_pos h
    · rw [readFlag_bad h] at hr; cases hr
    · rw [readFlag_bad h] at hm; cases hm
  · rfl

/-! ### DRAFT_RANGE -/

/-- R42: the draft, or the active layout where it is absent. -/
theorem State.draft_get (s : State) (j : Fin 16) :
    (s.draft.getD s.layout.edits)[j] =
      match s.draft with
      | some d => d[j]
      | none => s.layout.ranges[j].edit := by
  cases s.draft with
  | some d => rfl
  | none => simp [Layout.edits]

/-- R43: what the fields decide, past the range index and the authority. -/
theorem execDraftRange_taken {tag : Byte} {k : Fin 16} {rest : Bytes} {e : Editable} {s : State} (h : s.Admits .draftRange)
    (hv : s.verified.getLsbD 0 = true) (hl : rest.length ≤ 239) (hread : readEditable k s.layout.capacity rest = some e) :
    execDraftRange tag (rangeByte k :: rest) s = .next
      (State.replied .draftRange tag .done []
        { s.begin with draft := some ((s.draft.getD s.layout.edits).set k e) }) := by
  have hk : bodyRange (rangeByte k :: rest) = some k := readRange_rangeByte k
  refine request_taken h (by rw [List.length_cons]; omega) ?_
  rw [hk]
  refine (if_neg (by simp [State.adminVerified, hv])).trans ?_
  change (match readEditable k s.layout.capacity rest with
    | none => refuse .badValue s.begin
    | some e => ⟨.done, [], { s.begin with draft := some ((s.draft.getD s.layout.edits).set k e) }⟩) = _
  rw [hread]

theorem execDraftRange_badValue {tag : Byte} {k : Fin 16} {rest : Bytes} {s : State} (h : s.Admits .draftRange)
    (hv : s.verified.getLsbD 0 = true) (hl : rest.length ≤ 239) (hread : readEditable k s.layout.capacity rest = none) :
    execDraftRange tag (rangeByte k :: rest) s = .next (s.begin.replied .draftRange tag .badValue []) := by
  have hk : bodyRange (rangeByte k :: rest) = some k := readRange_rangeByte k
  refine request_taken h (by rw [List.length_cons]; omega) ?_
  rw [hk]
  refine (if_neg (by simp [State.adminVerified, hv])).trans ?_
  change (match readEditable k s.layout.capacity rest with
    | none => refuse .badValue s.begin
    | some e => ⟨.done, [], { s.begin with draft := some ((s.draft.getD s.layout.edits).set k e) }⟩) = _
  rw [hread]
  rfl

/-- R43: the draft that a taken DRAFT_RANGE leaves. -/
theorem execDraftRange_takes {tag : Byte} {k : Fin 16} {rest : Bytes} {e : Editable} {s : State} (h : s.Admits .draftRange)
    (hv : s.verified.getLsbD 0 = true) (hl : rest.length ≤ 239) (hread : readEditable k s.layout.capacity rest = some e) :
    ∃ draft : Vector Editable 16,
      execDraftRange tag (rangeByte k :: rest) s = .next
        (State.replied .draftRange tag .done [] { s.begin with draft := some draft })
      ∧ draft[k] = e
      ∧ ∀ j : Fin 16, j ≠ k → draft[j] = match s.draft with
          | some d => d[j]
          | none => s.layout.ranges[j].edit := by
  refine ⟨_, execDraftRange_taken h hv hl hread, ?_, fun j hj => ?_⟩
  · rw [Vector.get_set_fin, if_pos rfl]
  · rw [Vector.get_set_fin, if_neg hj]
    exact s.draft_get j

/-- R171: a range index byte. -/
theorem rangeByte_of_lt {b : Byte} (h : b.toNat < 16) : b = rangeByte ⟨b.toNat, h⟩ := by
  apply BitVec.eq_of_toNat_eq
  rw [rangeByte_toNat]

/-- Settles O20: the range index, the authority, then the fields. -/
theorem draftRangeTakesTheFields : Obligations.DraftRangeTakesTheFields := by
  refine ⟨fun tag k start length lockOn refuses resume rest s h => ⟨fun hl hv => ?unverified, fun hv => ⟨fun hk => ?zero, fun hk => ?user⟩⟩,
    fun tag first enabled lockOn response resume rest s h => ⟨?_, fun hbig hl => ?_, fun hfirst hv => ⟨fun hshort => ?_, fun hbad hl => ?_⟩⟩⟩
  case unverified =>
    refine request_taken h (by rw [List.length_cons]; omega) ?_
    rw [show bodyRange (rangeByte k :: rest) = some k from readRange_rangeByte k]
    exact if_pos (s.begin.not_adminVerified_iff.2 hv)
  case zero =>
    have hread := fun enabled => readEditable_of k s.layout.capacity enabled refuses resume lockOn
    simp only [if_pos hk] at hread
    refine ⟨execDraftRange_takes h hv (Nat.le_of_ble_eq_true rfl) ((hread true []).trans (if_pos ⟨rfl, rfl⟩)),
      fun hne hl => execDraftRange_badValue h hv (Nat.add_le_add_right hl 4) ((hread true rest).trans (if_neg fun hx => hne hx.2)),
      fun hl => execDraftRange_badValue h hv (Nat.add_le_add_right hl 4) ((hread false rest).trans (if_neg fun hx => by cases hx.1))⟩
  case user =>
    have hread := fun enabled => readEditable_of k s.layout.capacity enabled refuses resume lockOn
    simp only [if_neg hk] at hread
    have hbad : ∀ hl : rest.length ≤ 235, ∀ enabled, rest.length ≠ 12 → (enabled = false → rest ≠ []) →
        execDraftRange tag (rangeByte k :: draftFields enabled lockOn refuses resume rest) s =
          .next (s.begin.replied .draftRange tag .badValue []) := fun hl enabled h12 hne => by
      refine execDraftRange_badValue h hv (Nat.add_le_add_right hl 4) ((hread enabled rest).trans ?_)
      cases enabled
      · rw [if_neg (by decide), if_neg (not_or.2 ⟨h12, hne rfl⟩)]
      · rw [if_pos rfl, if_neg fun hx => h12 hx.1]
    refine ⟨fun hrest => ?_, fun h12 hne hl => hbad hl false h12 fun _ => hne, fun h12 hl => hbad hl true h12 (by simp), fun hstart hlength => ?_⟩
    · have hl : rest.length ≤ 235 := by rcases hrest with hrest | hrest <;> simp [hrest]
      exact execDraftRange_takes h hv (Nat.add_le_add_right hl 4)
        ((hread false rest).trans ((if_neg (by decide)).trans (if_pos hrest)))
    · have hspan := hread true (be 6 start ++ be 6 length)
      rw [if_pos rfl, List.take_left' (be_length 6 start), List.drop_left' (be_length 6 start), ofBe_be_six start hstart,
        ofBe_be_six length hlength] at hspan
      have hl : (be 6 start ++ be 6 length).length = 12 := by rw [List.length_append, be_length, be_length]
      have hfits : (be 6 start ++ be 6 length).length ≤ 235 := by omega
      exact ⟨fun hgood => execDraftRange_takes h hv (Nat.add_le_add_right hfits 4) (hspan.trans (if_pos ⟨hl, hgood⟩)),
        fun hgood => execDraftRange_badValue h hv (Nat.add_le_add_right hfits 4) (hspan.trans (if_neg fun hx => hgood hx.2))⟩
  · exact request_taken h (Nat.zero_le _) rfl
  · refine request_taken h (by rw [List.length_cons]; omega) ?_
    rw [show bodyRange (first :: rest) = none from dif_neg (by omega)]
    rfl
  · rw [rangeByte_of_lt hfirst]
    exact execDraftRange_badValue h hv (by omega) (readEditable_short hshort)
  · rw [rangeByte_of_lt hfirst]
    exact execDraftRange_badValue h hv (Nat.add_le_add_right hl 4) (readEditable_bad hbad)

end Sys2Proof.Machine
end

