-- ==== Sys2Proof/Proofs/Layouts.lean ====
section
/-! APPLY_LAYOUT (O22) and REKEY (O23). -/

namespace Sys2Proof.Machine

/-! ### The draft installed -/

/-- R45: the geometry of a range differs. -/
theorem geometryDiffers_eq (draft active : Editable) :
    geometryDiffers draft active =
      decide (draft.enabled ≠ active.enabled
        ∨ (draft.enabled = true ∧ active.enabled = true ∧ draft.extent ≠ active.extent)) := by
  rw [Bool.eq_iff_iff, decide_eq_true_iff]
  simp [geometryDiffers, and_assoc]

/-- R45: some range 1 to 15 differs in its geometry. -/
theorem anyGeometryDiffers_iff (draft active : Vector Editable 16) :
    anyGeometryDiffers draft active = true ↔ ∃ j : Fin 16, j ≠ 0 ∧ geometryDiffers draft[j] active[j] = true := by
  unfold anyGeometryDiffers
  rw [List.any_eq_true]
  refine exists_congr fun j => (and_iff_right (mem_allRanges j)).trans ?_
  rw [Bool.and_eq_true, decide_eq_true_iff]

/-- R45: a range of the draft is changed. -/
theorem rangeChanged_iff (draft active : Vector Editable 16) (k : Fin 16) :
    rangeChanged draft active k = true ↔
      geometryDiffers draft[k] active[k] = true ∨ draft[k].lockOn ≠ active[k].lockOn
        ∨ (k = 0 ∧ ∃ j : Fin 16, j ≠ 0 ∧ geometryDiffers draft[j] active[j] = true) := by
  unfold rangeChanged
  rw [Bool.or_eq_true, Bool.or_eq_true, or_assoc, Bool.and_eq_true, anyGeometryDiffers_iff, decide_eq_true_iff, bne_iff_ne]

/-- R42: the editable fields of the active layout. -/
theorem Layout.edits_get (l : Layout) (k : Fin 16) : l.edits[k] = l.ranges[k].edit := by simp [Layout.edits]

/-- R45: the committed layout. -/
theorem applyDraft_get (draft : Vector Editable 16) (l : Layout) (k : Fin 16) :
    (applyDraft draft l).ranges[k] =
      ⟨draft[k], l.ranges[k].rekeyPending || (k ≠ 0 && geometryDiffers draft[k] l.ranges[k].edit), l.ranges[k].health⟩ := by
  simp [applyDraft]

/-- R45: the gates of every changed range close. -/
theorem closeChanged_get (draft : Vector Editable 16) (l : Layout) (g : Vector Gates 16) (k : Fin 16) :
    (closeChanged draft l g)[k] = if rangeChanged draft l.edits k = true then .closed else g[k] := by
  simp [closeChanged]

/-! ### APPLY_LAYOUT -/

/-- R45: a taken APPLY_LAYOUT of a draft is a commit and a change of desired states. -/
theorem State.applyLayout_eq (draft : Vector Editable 16) (s : State) :
    s.applyLayout draft =
      (State.commit [.layout] { s with layout := applyDraft draft s.layout, draft := none }).changeDesired
        (closeChanged draft s.layout s.gates) s.shadow := rfl

/-- R44: DONE without a mark. -/
theorem answer_startOrDone_none {tag : Byte} {u : State} (h : lowestMarked 0 u.layout = none) :
    answer Kind.applyLayout.code tag (startOrDone u) = u.replied .applyLayout tag .done [] := by
  unfold startOrDone
  rw [h]
  rfl

/-- R44, R46: STARTED over the lowest mark. -/
theorem answer_startOrDone_some {tag : Byte} {u : State} {k : Fin 16} (h : lowestMarked 0 u.layout = some k) :
    answer Kind.applyLayout.code tag (startOrDone u) =
      State.replied .applyLayout tag .started []
        { u with
          layoutWork := some ⟨k, none⟩
          layoutOp := ⟨some .applyLayout, .running, none, some k.val, some u.millis, none, false⟩ } := by
  unfold startOrDone State.startLayout
  rw [h]
  rfl

/-- R48: a change of desired states leaves the layout and the clock. -/
theorem State.changeDesired_layout (g : Vector Gates 16) (v : View) (s : State) :
    (s.changeDesired g v).layout = s.layout ∧ (s.changeDesired g v).millis = s.millis := by
  obtain ⟨q, f, h⟩ := State.changeDesired_form g v s
  rw [h]
  exact ⟨rfl, rfl⟩

/-- R44: what APPLY_LAYOUT answers past its authority and its claim. -/
def applyAnswer (s : State) : Answer :=
  match s.draft with
  | none => startOrDone s
  | some draft =>
    match lowestOverlap draft s.settings.shadowL with
    | some pair => refuseOverlap pair s
    | none => startOrDone (s.applyLayout draft)

theorem execApplyLayout_taken {tag : Byte} {s t : State} {a : Answer} (h : s.Admits .applyLayout)
    (hv : s.verified.getLsbD 0 = true) (hop : s.layoutOp.state ≠ .running) (ha : applyAnswer s.begin = a)
    (ht : answer Kind.applyLayout.code tag a = t) : execApplyLayout tag [] s = .next t :=
  request_answered h (Nat.zero_le _) ((congrArg (answer _ tag)
    ((if_neg (by simp [State.adminVerified, hv])).trans ((if_neg hop).trans ((if_neg (by simp)).trans ha)))).trans ht)

theorem applyAnswer_absent {s : State} (hd : s.draft = none) : applyAnswer s = startOrDone s := by
  unfold applyAnswer
  rw [hd]

theorem applyAnswer_overlap {s : State} {draft : Vector Editable 16} {pair : Fin 17 × Fin 17} (hd : s.draft = some draft)
    (ho : lowestOverlap draft s.settings.shadowL = some pair) : applyAnswer s = refuseOverlap pair s := by
  unfold applyAnswer
  rw [hd]
  dsimp only
  rw [ho]

theorem applyAnswer_installed {s : State} {draft : Vector Editable 16} (hd : s.draft = some draft)
    (ho : lowestOverlap draft s.settings.shadowL = none) : applyAnswer s = startOrDone (s.applyLayout draft) := by
  unfold applyAnswer
  rw [hd]
  dsimp only
  rw [ho]

/-- R44: how a taken APPLY_LAYOUT ends in the state `u`: DONE without a mark, STARTED over the lowest one. -/
theorem execApplyLayout_ended {tag : Byte} {s u : State} (h : s.Admits .applyLayout)
    (hv : s.verified.getLsbD 0 = true) (hop : s.layoutOp.state ≠ .running) (ha : applyAnswer s.begin = startOrDone u)
    (hu : u.millis = s.millis) :
    (lowestMarked 0 u.layout = none →
      execApplyLayout tag [] s = .next (u.replied .applyLayout tag .done []))
    ∧ ∀ k, lowestMarked 0 u.layout = some k →
      execApplyLayout tag [] s = .next
        (State.replied .applyLayout tag .started []
          { u with
            layoutWork := some ⟨k, none⟩
            layoutOp := ⟨some .applyLayout, .running, none, some k.val, some s.millis, none, false⟩ }) := by
  refine ⟨fun hmark => execApplyLayout_taken h hv hop ha (answer_startOrDone_none hmark), fun k hmark => ?_⟩
  rw [← hu]
  exact execApplyLayout_taken h hv hop ha (answer_startOrDone_some hmark)

/-- Settles O22: the conditions of R44 in their order, then the draft. -/
theorem applyLayoutInstallsTheDraft : Obligations.ApplyLayoutInstallsTheDraft := by
  intro tag s h ended
  refine ⟨fun hv => ?unverified, fun hv hop => ?busy, fun hv hop hd => ?absent,
    fun draft hd hv hop => ⟨fun i j hij => ?overlap, fun hno => ?installed⟩⟩
  case unverified => exact request_taken h (Nat.zero_le _) (if_pos (s.begin.not_adminVerified_iff.2 hv))
  case busy =>
    exact request_taken h (Nat.zero_le _) ((if_neg (by simp [State.adminVerified, hv])).trans (if_pos hop))
  case absent => exact execApplyLayout_ended h hv hop (applyAnswer_absent (s := s.begin) hd) rfl
  case overlap =>
    exact execApplyLayout_taken h hv hop (applyAnswer_overlap (s := s.begin) hd hij)
      (by unfold refuseOverlap; rw [answer_replied, be_one, be_one]; rfl)
  case installed =>
    refine ⟨applyDraft draft s.layout, closeChanged draft s.layout s.gates, rfl, fun k => ?range,
      execApplyLayout_ended h hv hop (applyAnswer_installed (s := s.begin) hd hno)
        (State.changeDesired_layout _ _ _).2⟩
    case range =>
      intro old moved changed
      have hmoved : geometryDiffers draft[k] old.edit = moved := geometryDiffers_eq _ _
      have hchanged : rangeChanged draft s.layout.edits k = true ↔ changed := by
        rw [rangeChanged_iff]
        simp only [Layout.edits_get]
        exact or_congr (by rw [← hmoved]) Iff.rfl
      refine ⟨by rw [applyDraft_get, ← hmoved], fun hc => ?_, fun hc => ?_⟩
      · rw [closeChanged_get, if_pos (hchanged.2 hc)]
      · rw [closeChanged_get, if_neg (mt hchanged.1 hc)]

/-! ### REKEY -/

/-- R132: the layout with the mark of one range. -/
def Layout.marked (l : Layout) (k : Fin 16) : Layout :=
  { l with ranges := l.ranges.set k { l.ranges[k] with rekeyPending := true } }

theorem Layout.marked_get (l : Layout) (k i : Fin 16) :
    (l.marked k).ranges[i] = if i = k then { l.ranges[k] with rekeyPending := true } else l.ranges[i] :=
  Vector.get_set_fin _ _ _ _

/-- R132: REKEY past its conditions: the mark committed with the gates closed. -/
theorem State.rekeyRange_eq (k : Fin 16) (s : State) :
    s.rekeyRange k =
      (State.commit [.layout] { s with layout := s.layout.marked k }).changeDesired (gatesWith s.gates k .closed)
        s.shadow := rfl

/-- A marked range gives a lowest marked one. -/
theorem lowestMarked_of_marked {l : Layout} {k : Fin 16} (h : l.ranges[k].rekeyPending = true) :
    ∃ j, lowestMarked 0 l = some j ∧ l.ranges[j].rekeyPending = true
      ∧ ∀ i : Fin 16, i < j → l.ranges[i].rekeyPending = false := by
  cases hj : lowestMarked 0 l with
  | none => exact absurd (h.symm.trans ((lowestMarked_none 0 l).1 hj k (Nat.zero_le _))) (by decide)
  | some j =>
    obtain ⟨_, hm, hlow⟩ := lowestMarked_some 0 l j hj
    exact ⟨j, rfl, hm, fun i hi => hlow i (Nat.zero_le _) hi⟩

/-- R46: the start of the LAYOUT operation of REKEY at the lowest mark. -/
theorem State.startLayout_rekey {u : State} {j : Fin 16} {m : Micros} (h : lowestMarked 0 u.layout = some j)
    (hm : u.millis = m) :
    u.startLayout .rekey =
      { u with
        layoutWork := some ⟨j, none⟩
        layoutOp := ⟨some .rekey, .running, none, some j.val, some m, none, false⟩ } := by
  subst hm
  unfold State.startLayout
  rw [h]
  rfl

/-- R132: what REKEY of range `k` answers. -/
def rekeyAnswer (k : Fin 16) (s : State) : Answer :=
  if !s.adminVerified then refuse .notPermitted s
  else if !s.layout.ranges[k].edit.enabled then refuse .wrongState s
  else if s.layoutOp.state = .running then refuse .busy s
  else ⟨.started, [], (s.rekeyRange k).startLayout .rekey⟩

theorem execRekey_eq {tag : Byte} {k : Fin 16} {s t : State} (h : s.Admits .rekey)
    (ht : answer Kind.rekey.code tag (rekeyAnswer k s.begin) = t) : execRekey tag [rangeByte k] s = .next t :=
  request_answered h (Nat.le_of_ble_eq_true rfl) (by
    rw [show bodyRange [rangeByte k] = some k from readRange_rangeByte k]
    exact ht)

/-- Settles O23: the conditions of R132 in their order, and the mark. -/
theorem rekeyMarksTheRange : Obligations.RekeyMarksTheRange := by
  intro tag k s h
  have hadmin (hv : s.verified.getLsbD 0 = true) : ¬(!s.begin.adminVerified) = true := by simp [State.adminVerified, hv]
  have henabled (he : s.layout.ranges[k].edit.enabled = true) : ¬(!s.layout.ranges[k].edit.enabled) = true := by
    rw [he]
    decide
  refine ⟨fun hv => ?unverified, fun hv he => ?disabled, fun hv he hop => ?busy, fun hv he hop => ?taken⟩
  case unverified =>
    exact execRekey_eq h (congrArg (answer _ tag) (if_pos (s.begin.not_adminVerified_iff.2 hv)))
  case disabled =>
    exact execRekey_eq h (congrArg (answer _ tag) ((if_neg (hadmin hv)).trans (if_pos (by rw [show s.begin.layout.ranges[k].edit.enabled = false from he]; rfl))))
  case busy =>
    exact execRekey_eq h (congrArg (answer _ tag)
      ((if_neg (hadmin hv)).trans ((if_neg (henabled he)).trans (if_pos hop))))
  case taken =>
    have hmark : (s.layout.marked k).ranges[k].rekeyPending = true := by rw [Layout.marked_get, if_pos rfl]
    obtain ⟨j, hj, hjm, hlow⟩ := lowestMarked_of_marked hmark
    refine ⟨s.layout.marked k, gatesWith s.gates k .closed, j, rfl, ?_, ?_, fun i hi => ⟨?_, ?_⟩, hjm, hlow, ?_⟩
    · rw [Layout.marked_get, if_pos rfl]
    · exact (Vector.get_set_fin _ _ _ _).trans (if_pos rfl)
    · rw [Layout.marked_get, if_neg hi]
    · exact (Vector.get_set_fin _ _ _ _).trans (if_neg hi)
    · have hstart := State.startLayout_rekey (u := s.begin.rekeyRange k) (j := j) (m := s.millis)
        ((congrArg (lowestMarked 0) (State.changeDesired_layout _ _ _).1).trans hj)
        (State.changeDesired_layout _ _ _).2
      refine execRekey_eq h ((congrArg (answer _ tag)
        ((if_neg (hadmin hv)).trans ((if_neg (henabled he)).trans ((if_neg hop).trans
          (congrArg (Answer.mk .started []) hstart))))).trans rfl)

end Sys2Proof.Machine
end

