-- ==== Sys2Proof/Proofs/Suspend.lean ====
section
/-! SUSPEND, the intent and the grants (O50). -/

namespace Sys2Proof.Machine

/-- R18: no slot in the verifications with resume-allowed on. -/
theorem State.not_resumeAuthority_iff (s : State) :
    (!s.resumeAuthority) = true ↔
      ¬∃ k : Fin 8, s.verified.getLsbD k.val = true ∧ s.cred.slots[k].resumeAllowed = true := by
  rw [not_eq_true_iff_not]
  unfold State.resumeAuthority
  rw [List.any_eq_true]
  exact exists_congr fun k => (and_iff_right (mem_allSlotIndices k)).trans Bool.and_eq_true_iff

/-- R55: the SUSPEND lock-on ranges that are not resume-eligible close. -/
theorem closeLockOn_suspend (l : Layout) (g : Vector Gates 16) :
    closeLockOn (fun e => e.lockOn.suspend && !e.resumeEligible) l g =
      Vector.ofFn fun k : Fin 16 =>
        if l.ranges[k].edit.lockOn.suspend = true ∧ l.ranges[k].edit.resumeEligible = false then Gates.closed
        else g[k] := by
  unfold closeLockOn
  refine congrArg Vector.ofFn (funext fun k => if_congr ?_ rfl rfl)
  simp

/-- R147: a taken SUSPEND. -/
theorem State.takeSuspend_eq (hold : Nat) (s : State) :
    s.takeSuspend hold =
      State.changeDesired
        (Vector.ofFn fun k : Fin 16 =>
          if s.layout.ranges[k].edit.lockOn.suspend = true ∧ s.layout.ranges[k].edit.resumeEligible = false then
            Gates.closed else s.gates[k])
        s.shadow { s with intent := some ⟨hold, s.now + 30000000⟩ } := by
  rw [← closeLockOn_suspend]
  rfl

/-- R151: the grants of one expiry go together. -/
theorem State.dropExpired_all {t : Micros} {s : State} (hne : s.grants ≠ []) (h : ∀ g ∈ s.grants, g.expiry = t) :
    s.dropExpired t =
      { s with grants := [], rootCopy := none, report := { s.report with dropCause := some .expiry } } := by
  have hnone : (s.grants.filter fun g => g.expiry ≠ t) = [] :=
    List.filter_eq_nil_iff.2 fun g hg => by simp [h g hg]
  unfold State.dropExpired State.dropGrants
  rw [hnone]
  exact if_neg (mt List.isEmpty_iff.1 hne)

/-- Settles O50: the conditions of R147, and the two expiries. -/
theorem suspendIntentAndExpiries : Obligations.SuspendIntentAndExpiries := by
  refine fun tag hold s => ⟨fun h => ?suspend, fun i hi => ?intent, fun g rest hg hrest => ?grants⟩
  case suspend =>
    refine request_answered h (Nat.le_of_ble_eq_true rfl) ?_
    refine answer_check s.begin.not_resumeAuthority_iff fun _ => answer_check Iff.rfl fun _ => ?_
    rw [answer_replied]
    dsimp only
    rw [State.takeSuspend_eq, be_one, be_one]
    rfl
  case intent =>
    change execIntentExpiry s = _
    simp only [execIntentExpiry, event, State.begin_intent, hi, Option.map_some, State.begin_atMoment?]
  case grants =>
    have hgrants : (s.reaching g.expiry).grants = g :: rest := (s.reaching_grants g.expiry).trans hg
    have hdrop := State.dropExpired_all (t := g.expiry) (s := s.reaching g.expiry)
      (by rw [hgrants]; exact List.cons_ne_nil _ _) (by rw [hgrants]; exact List.forall_mem_cons.2 ⟨rfl, hrest⟩)
    rw [State.reaching_report] at hdrop
    have hexec : execGrantExpiry s = .next ((s.reaching g.expiry).dropExpired g.expiry) := by
      simp only [execGrantExpiry, event, State.begin_grants, hg]
      rfl
    exact hexec.trans (congrArg Host.Outcome.next hdrop)

end Sys2Proof.Machine
end

