-- ==== Sys2Proof/Proofs/PurgeAndFault.lean ====
section
/-! The end of a purge pulse and what a settled slot is (O41); the key link fault (O40). -/

namespace Sys2Proof.Machine

/-! ### Slots that differ -/

/-- R66: the comparison of a range slot would send a transfer. -/
theorem chooseRange_ne_nothing_iff (want : Gates) (m : MirrorRecord) :
    chooseRange want m ≠ .nothing ↔
      if want.anyOpen = true then m.state = .empty ∨ m.gates ≠ want else m.state ≠ .empty := by
  unfold chooseRange
  by_cases hopen : want.anyOpen = true <;> by_cases hempty : m.state = .empty <;> by_cases hgates : m.gates = want <;>
    simp [hopen, hempty, hgates]

/-- R73: a range slot differs. -/
theorem State.differs_rangeSlot (k : Fin 16) (s : State) :
    s.differs (rangeSlot k) = true ↔
      (s.mirror[k].state = .loading ∨ s.mirror[k].state = .clearing
        ∨ (if s.gates[k].anyOpen = true then s.mirror[k].state = .empty ∨ s.mirror[k].gates ≠ s.gates[k]
           else s.mirror[k].state ≠ .empty)) := by
  rw [← chooseRange_ne_nothing_iff]
  unfold State.differs
  rw [slotRange_rangeSlot]
  simp only [Bool.or_eq_true, beq_iff_eq, bne_iff_ne, or_assoc]

/-- R67: the shadow slot differs. -/
theorem State.differs_shadow (s : State) :
    s.differs 16 = true ↔
      (s.mirrorShadow.state = .loading ∨ s.mirrorShadow.state = .empty ∨ s.mirrorShadow.view ≠ s.shadow
        ∨ s.mirrorShadow.length ≠ some s.settings.shadowL) := by
  change (s.mirrorShadow.state == .loading || shadowDiffers s.shadow s.settings.shadowL s.mirrorShadow) = true ↔ _
  simp only [shadowDiffers, Bool.or_eq_true, beq_iff_eq, bne_iff_ne, or_assoc]

/-- R80: a settled slot. -/
theorem State.settled_iff (j : Fin 17) (s : State) :
    s.settled j = true ↔ j ∉ s.queue ∧ (∀ f, s.inFlight = some f → f.slot ≠ j) ∧ s.differs j = false := by
  unfold State.settled
  cases s.inFlight <;> simp [and_assoc]

/-- R73: whether a slot differs does not turn on the clock or the pulse. -/
theorem State.reaching_differs (t : Micros) (k : Option Micros) (j : Fin 17) (s : State) :
    State.differs j { s.reaching t with kpurge := k } = s.differs j := by
  unfold State.differs
  simp only [State.reaching_mirror, State.reaching_gates, State.reaching_mirrorShadow, State.reaching_shadow,
    State.reaching_settings]

/-- R73, R74: the slots that join the queue. -/
def State.joining (s : State) : List (Fin 17) := allSlots.filter fun j => s.differs j && !s.queue.contains j

theorem State.mem_joining (j : Fin 17) (s : State) : j ∈ s.joining ↔ s.differs j = true ∧ j ∉ s.queue := by
  simp [State.joining, mem_allSlots]

theorem State.joining_pairwise (s : State) : s.joining.Pairwise (· < ·) := allSlots_pairwise.filter _

theorem State.enqueueDiffering_eq {s : State} (hm : s.mode = .active) (hl : s.life.lifecycle ≠ .disabled) :
    s.enqueueDiffering = { s with queue := s.queue ++ s.joining } :=
  if_neg (by simp [hm, hl])

/-- R74: the state at the fall of KPURGE, before the slots rejoin. -/
def State.pulseOver (rose : Micros) (s : State) : State := { s.reaching (rose + 20) with kpurge := none }

theorem State.pulseOver_queue (rose : Micros) (s : State) : (s.pulseOver rose).queue = s.queue := s.reaching_queue _

theorem State.pulseOver_joining (rose : Micros) (s : State) : (s.pulseOver rose).joining = s.joining :=
  List.filter_congr fun j _ => by rw [s.pulseOver_queue, State.pulseOver, s.reaching_differs _ none]

/-- Settles O41: at the fall of KPURGE the slots that differ join; what differs is what the comparison would send. -/
theorem pulseEndsAndSlotsRejoin : Obligations.PulseEndsAndSlotsRejoin := by
  refine ⟨fun rose s hk hm hl => ?fall, fun s => ⟨s.differs_rangeSlot, s.differs_shadow, fun j => s.settled_iff j⟩⟩
  have hrejoin := State.enqueueDiffering_eq (s := s.pulseOver rose) ((s.reaching_mode _).trans hm)
    (by rw [show (s.pulseOver rose).life = s.life from s.reaching_life _]; exact hl)
  rw [s.pulseOver_queue, s.pulseOver_joining] at hrejoin
  refine ⟨s.joining, ?_, s.joining_pairwise, fun j => s.mem_joining j⟩
  change execKpurgeFall s = _
  simp only [execKpurgeFall, event, State.begin_kpurge, hk, Option.map_some, State.begin_atMoment?]
  exact congrArg Host.Outcome.next hrejoin

/-! ### The key link fault -/

/-- R100, R103: an event that adds nothing to the score raises no stage, whatever the stage. -/
theorem State.takeEvidence_level (kind : TrailKind) {s : State} (hl : s.life.lifecycle.takesEvidence = true)
    (hs : s.evid.score ≤ 4095) :
    s.takeEvidence kind 0 [] =
      State.commit [.evidence]
        { s with evid := Evidence.append s.seconds kind 0 s.evid.score s.evid.stage s.evid } := by
  have htake : s.evid.take s.settings s.seconds kind 0 =
      (Evidence.append s.seconds kind 0 s.evid.score s.evid.stage s.evid, []) := by
    unfold Evidence.take
    rw [Nat.add_zero, min_eq_right hs]
    exact if_neg (lt_irrefl _)
  unfold State.takeEvidence
  rw [if_pos hl, htake]
  rfl

/-- R100: an event changes nothing where the lifecycle takes none. -/
theorem State.takeEvidence_untaken (kind : TrailKind) (w : Nat) {s : State}
    (hl : s.life.lifecycle.takesEvidence = false) : s.takeEvidence kind w [] = s := by
  unfold State.takeEvidence
  rw [if_neg (by rw [hl]; decide)]
  rfl

/-- R72, R74: the state of a key link fault before its evidence event, with what is handed on to the queue. -/
def State.faultPurged (queue : List (Fin 17)) (s : State) : State :=
  { s with
    inFlight := none, kpurge := some s.now, mirror := emptyMirror, mirrorShadow := .none, queue := queue
    rootCopy := none, gates := allClosed, shadow := .shown, verified := 0, latched := s.latched ||| 64 }

/-- R73: the fault run up by one, and STOPPED at 3. -/
def State.faultCounted (s : State) : State :=
  { s with
    faultRun := min 3 (s.faultRun + 1)
    linkState := if 2 ≤ s.faultRun then .stopped else s.linkState }

theorem State.linkFault_eq {s : State} (ha : s.mode = .active) (hk : s.kpurge = none) :
    ∃ q, s.linkFault = ((s.faultPurged q).takeEvidence .keylink 0 []).faultCounted := by
  have hpurge := State.purge_form { s with inFlight := none } hk
  rw [if_pos (show State.mode { s with inFlight := none } = .active from ha)] at hpurge
  obtain ⟨q, hq⟩ := State.closeAll_form (State.purge { s with inFlight := none }) (by rw [hpurge]) (by rw [hpurge])
  rw [hpurge] at hq
  refine ⟨q, ?_⟩
  have hfault : State.latch .keylinkFault
      { (State.purge { s with inFlight := none }).closeAll with verified := 0 } = s.faultPurged q := by
    rw [hpurge, hq]
    rfl
  unfold State.linkFault State.faultCounted
  dsimp only
  rw [hfault]
  have hrun : ∀ n : Nat, min 3 (n + 1) = 3 ↔ 2 ≤ n := by omega
  simp only [hrun]

/-- R71, R72: the two events of a key link fault, and the state in which it is met. -/
theorem exec_linkFault {f : InFlight} {s r : State} {c : Instr} (hf : s.inFlight = some f) (ha : s.mode = .active)
    (hk : s.kpurge = none)
    (hc : (c = .klAck false ∧ r = s.begin) ∨ (c = .ackTimeout ∧ r = s.reaching (f.rose + 10000))) :
    (∃ now dormancy decay, r = { s.begin with now := now, dormancyCount := dormancy, decayCount := decay })
      ∧ ∃ q, exec c s = .next ((r.faultPurged q).takeEvidence .keylink 0 []).faultCounted := by
  have hclock : ∃ now dormancy decay,
      r = { s.begin with now := now, dormancyCount := dormancy, decayCount := decay } := by
    rcases hc with ⟨_, rfl⟩ | ⟨_, rfl⟩
    · exact ⟨_, _, _, rfl⟩
    · exact ⟨_, _, _, s.reaching_eq _⟩
  have hexec : exec c s = .next r.linkFault := by
    rcases hc with ⟨rfl, rfl⟩ | ⟨rfl, rfl⟩
    · change execKlAck false s = _
      simp [execKlAck, event, hf, ha, hk]
    · change execAckTimeout s = _
      simp only [execAckTimeout, event, State.begin_inFlight, hf, Option.map_some, State.begin_atMoment?]
      rfl
  refine ⟨hclock, ?_⟩
  obtain ⟨now, dormancy, decay, hr⟩ := hclock
  obtain ⟨q, hq⟩ := State.linkFault_eq (s := r) (by rw [hr]; exact ha) (by rw [hr]; exact hk)
  exact ⟨q, by rw [hexec, hq]⟩

/-- Settles O40: both faults are one, in PROVISIONED, UNPROVISIONED and WIPING. -/
theorem linkFaultsPurgeTheEngine : Obligations.LinkFaultsPurgeTheEngine := by
  refine ⟨fun f s hf ha hk hl hs c r hc => ?provisioned, fun f s hf ha hk hl c r hc => ?other⟩ <;>
    obtain ⟨⟨now, dormancy, decay, hr⟩, q, hexec⟩ := exec_linkFault hf ha hk hc
  case provisioned =>
    rw [State.takeEvidence_level (s := r.faultPurged q) .keylink (by rw [hr]; exact congrArg _ hl)
      (by rw [hr]; exact hs)] at hexec
    subst hr
    exact ⟨_, hexec, rfl, rfl, rfl, rfl, rfl, rfl, rfl, rfl, rfl, rfl, rfl, rfl, rfl, rfl, rfl, rfl, rfl, rfl, rfl, rfl,
      rfl⟩
  case other =>
    rcases hl with hl | ⟨hl, hs⟩
    · rw [State.takeEvidence_untaken (s := r.faultPurged q) .keylink 0 (by rw [hr]; exact congrArg _ hl)] at hexec
      subst hr
      exact ⟨_, hexec, rfl, rfl, rfl, rfl, rfl, rfl, rfl, rfl, rfl, fun _ => ⟨rfl, rfl⟩,
        fun hw => absurd (hl.symm.trans hw) (by decide), rfl, rfl, rfl, rfl, rfl, rfl, rfl⟩
    · rw [State.takeEvidence_level (s := r.faultPurged q) .keylink (by rw [hr]; exact congrArg _ hl)
        (by rw [hr]; exact hs)] at hexec
      subst hr
      exact ⟨_, hexec, rfl, rfl, rfl, rfl, rfl, rfl, rfl, rfl, rfl, fun hu => absurd (hl.symm.trans hu) (by decide),
        fun _ => ⟨rfl, rfl⟩, rfl, rfl, rfl, rfl, rfl, rfl, rfl⟩

end Sys2Proof.Machine
end

