-- ==== Sys2Proof/Proofs/EraseEngine.lean ====
section
/-! The erase engine: the arbiter's grants (O42) and the steps of a cell job (O43). -/

namespace Sys2Proof.Machine

/-! ### Grants -/

/-- R121: the step that a job goes on with. -/
def Job.onward (now : Micros) (ready : Bool) (j : Job) : Job :=
  { j with
    phase := if ready = false then .waiting else if j.p ≤ j.good then .verify now else .pass now false false }

theorem State.waitForStep_eq (j : Job) (s : State) :
    s.waitForStep j = { s with job := some (j.onward s.now s.resReady) } := by
  unfold State.waitForStep Job.onward Job.nextStep
  cases s.resReady <;> rfl

/-- R120, R121: a job of at least one pass begins with a pass. -/
theorem Job.onward_fresh (owner : Owner) (cell : Fin 26) {p : Nat} (hp : 0 < p) (now : Micros) (ready : Bool) :
    (Job.fresh owner cell p).onward now ready =
      ⟨owner, cell, p, 1, 0, 0, if ready then .pass now false false else .waiting⟩ := by
  cases ready
  · rfl
  · exact congrArg _ (if_neg (not_le.2 hp))

/-- R121, R124: a job of at least one pass begins its second round with a pass. -/
theorem Job.onward_restarted {j : Job} (hp : 0 < j.p) (now : Micros) (ready : Bool) :
    Job.onward now ready { j with round := 2, good := 0, stuckRun := 0 } =
      { j with
        round := 2, good := 0, stuckRun := 0
        phase := if ready then .pass now false false else .waiting } := by
  cases ready
  · rfl
  · exact congrArg (fun p => { j with round := 2, good := 0, stuckRun := 0, phase := p }) (if_neg (not_le.2 hp))

/-- R127: without a job and with a claim the arbiter grants. -/
theorem execArbiterGrant_eq {s : State} (hj : s.job = none) :
    execArbiterGrant s = .next (if s.grantReady then s.begin.grantJob else s.begin) := by
  have hwrite : s.begin.finishWrite = s.begin :=
    finishWrite_of_not_inWrite _ (by simp [State.inWrite, hj])
  unfold execArbiterGrant event
  dsimp only
  rw [hwrite]
  rfl

theorem State.grantJob_wipe {c : Fin 26} {s : State} (hclaim : s.wipeClaim = true) (hc : s.life.nextCell = some c) :
    s.grantJob = s.waitForStep (.fresh .wipe c s.settings.p) := by
  unfold State.grantJob
  rw [if_pos hclaim, hc]

theorem State.grantJob_layout {w : LayoutWork} {s : State} (hclaim : s.wipeClaim = false)
    (hw : s.layoutWork = some w) :
    s.grantJob =
      State.waitForStep (.fresh .layout (rangeCell w.next) s.settings.p)
        { s with layoutOp := { s.layoutOp with detail := some w.next.val } } := by
  unfold State.grantJob
  rw [if_neg (by simp [hclaim])]
  simp only [hw]

/-- R136: the next cell of a journal that has one. -/
theorem LifecycleRecord.nextCell_eq {r : LifecycleRecord} {journal : Journal} {c : Fin 26}
    (h : r.journal = some journal) (hc : journal.next.val = c.val) : r.nextCell = some c := by
  unfold LifecycleRecord.nextCell
  rw [h]
  exact (dif_pos (hc ▸ c.isLt)).trans (congrArg some (Fin.ext hc))

/-- Settles O42: the wipe's next cell, else the LAYOUT operation's next range, else nothing. -/
theorem arbiterGrantsTheWipeFirst : Obligations.ArbiterGrantsTheWipeFirst := by
  intro s hm hl hj phase hp
  refine ⟨fun journal c hclaim hjournal hc => ?wipe, fun w hclaim hw => ?layout, fun hclaim hw => ?idle⟩
  case wipe =>
    have hready : s.grantReady = true := by simp [State.grantReady, hm, hl, hj, hclaim]
    have hgrant := State.grantJob_wipe (s := s.begin) hclaim (LifecycleRecord.nextCell_eq hjournal hc)
    refine (execArbiterGrant_eq hj).trans ?_
    rw [if_pos hready, hgrant, State.waitForStep_eq, State.begin_settings, Job.onward_fresh _ _ hp]
    rfl
  case layout =>
    have hready : s.grantReady = true := by simp [State.grantReady, hm, hl, hj, hw]
    have hgrant := State.grantJob_layout (s := s.begin) hclaim hw
    refine (execArbiterGrant_eq hj).trans ?_
    rw [if_pos hready, hgrant, State.waitForStep_eq, State.begin_settings, Job.onward_fresh _ _ hp]
    rfl
  case idle =>
    refine (execArbiterGrant_eq hj).trans ?_
    rw [if_neg (by simp [State.grantReady, hclaim, hw])]

/-! ### Steps of a job -/

/-- R122: an answer within its window. -/
theorem execDriverAnswer_counted {j : Job} {s : State} {t : Micros} {a : Bool} (hj : s.job = some j)
    (hp : j.phase = .pass t a false) (ht : s.now ≤ t + 1500) :
    execDriverAnswer s = .next { s.begin with job := some { j with phase := .pass t true false } } := by
  unfold execDriverAnswer event
  simp only [State.begin_job, hj, hp]
  exact congrArg _ (if_neg (not_or.2 ⟨Bool.false_ne_true, not_lt.2 ht⟩))

/-- R122: a pass that nothing answered is judged. -/
theorem execPassStuck_judged {j : Job} {s : State} {t : Micros} (hj : s.job = some j)
    (hp : j.phase = .pass t false false) :
    execPassStuck s = .next ((s.reaching (t + 1500)).judgeStuck j t) := by
  unfold execPassStuck event
  simp only [State.begin_job, hj, hp]
  rfl

/-- R122: the end of a pass that is answered or judged. -/
theorem execPassEnd_passed {j : Job} {s : State} {t : Micros} {a b : Bool} (hj : s.job = some j)
    (hp : j.phase = .pass t a b) (hab : (a || b) = true) :
    execPassEnd s = .next ((s.reaching (t + 2000)).waitForStep (j.passed a b)) := by
  unfold execPassEnd event
  simp only [State.begin_job, hj, hp]
  exact congrArg _ (if_pos hab)

/-- R124: the result of a verify. -/
theorem execVerifyResult_judged {j : Job} {s : State} {t : Micros} (reading : VerifyReading) (hj : s.job = some j)
    (hp : j.phase = .verify t) :
    execVerifyResult reading s = .next ((s.reaching (t + 500)).verifyJob j reading) := by
  unfold execVerifyResult event
  simp only [State.begin_job, hj, hp]
  rfl

/-- R124: what reads as not erased. -/
theorem State.readsErased_marred {j : Job} {write : WriteProgress} {s : State}
    (h : j.round = 1 → s.cells[j.cell] ≠ .blank) : s.readsErased j ⟨false, write⟩ = false := by
  unfold State.readsErased
  rw [Bool.false_or, Bool.and_eq_false_imp]
  exact fun hr => beq_eq_false_iff_ne.2 (h (beq_iff_eq.1 hr))

theorem State.verifyJob_erased {j : Job} {reading : VerifyReading} {s : State} (h : s.readsErased j reading = true) :
    s.verifyJob j reading = s.endJobBlank j reading.write := if_pos h

theorem State.verifyJob_marred {j : Job} {reading : VerifyReading} {s : State} (h : s.readsErased j reading = false) :
    s.verifyJob j reading =
      if j.round = 1 then s.waitForStep { j with round := 2, good := 0, stuckRun := 0 } else s.endJob j true :=
  if_neg (by rw [h]; decide)

/-- R125, R128: a job ends outright where its WRITE runs to its end, and where there is none. -/
theorem endJobBlank_outright {j : Job} {write : WriteProgress} {s : State}
    (h : write = .ended ∨ j.owner = .wipe ∨ s.wipeClaim = true) : s.endJobBlank j write = s.endJob j false := by
  rcases h with rfl | ho | hc
  · exact endJobBlank_ended j s
  · unfold State.endJobBlank
    rw [ho]
  · exact endJobBlank_claimed j write s hc

/-- R121: the fall of RES_READY. -/
theorem execResReadyFall_eq (s : State) :
    execResReadyFall s = .next
      { s.begin with
        resReady := false
        job := s.job.map fun j => { j with phase := j.phase.cutShort } } := rfl

theorem Phase.cutShort_waiting {p : Phase} (h : ∀ committed, p ≠ .write committed) : p.cutShort = .waiting := by
  cases p with
  | write c => exact absurd rfl (h c)
  | _ => rfl

/-- R121: a waiting job's step begins at the rise of RES_READY. -/
def State.wakeJob (s : State) : State :=
  match s.job with
  | none => s
  | some j => if j.phase = .waiting then s.waitForStep j else s

theorem State.wakeJob_waiting {j : Job} {s : State} (hj : s.job = some j) (hp : j.phase = .waiting) :
    s.wakeJob = s.waitForStep j := by
  unfold State.wakeJob
  rw [hj]
  exact if_pos hp

theorem State.wakeJob_standing {s : State} (h : ∀ j, s.job = some j → j.phase ≠ .waiting) : s.wakeJob = s := by
  unfold State.wakeJob
  split
  · rfl
  · next j hj => exact if_neg (h j hj)

/-- R121: outside of STARTING the rise of RES_READY is the level and the waiting step. -/
theorem execResReadyRise_low {s : State} (hr : s.resReady = false) (hm : s.mode ≠ .starting) :
    execResReadyRise s = .next (State.wakeJob { s.begin with resReady := true }) := by
  have hmode : ∀ u : State, u.mode = s.mode →
      (if u.mode = .starting ∧ u.reservoirWait.isSome then u.endStarting else u) = u :=
    fun u hu => if_neg fun h => hm (hu.symm.trans h.1)
  have hwoken : (State.wakeJob { s.begin with resReady := true }).mode = s.mode := by
    unfold State.wakeJob
    split
    · rfl
    · split
      · rw [State.waitForStep_eq]; rfl
      · rfl
  unfold execResReadyRise event
  exact congrArg _ ((if_neg (by simp [hr])).trans (hmode _ hwoken))

/-- Settles O43: each step of a job by its phase. -/
theorem cellJobStepsAreJudged : Obligations.CellJobStepsAreJudged := by
  refine ⟨fun j s hj => ⟨fun t a hp ht => ?answer, fun t hp hlt => ?stuck, fun t hp => ?good, fun t a hp => ?ended,
    fun hw => ?cut, fun c hp => ?kept, fun hr hm hp => ?woken⟩, fun s => ⟨fun hj => ?idleFall, fun hr hm hw => ?rise,
    fun hr => ?high⟩, fun j s hj => ⟨fun t hp h2 => ?third, fun t hp => ?verify⟩⟩
  case answer => exact execDriverAnswer_counted hj hp ht
  case stuck => exact (execPassStuck_judged hj hp).trans (congrArg _ (if_neg (by dsimp only; omega)))
  case good => exact (execPassEnd_passed hj hp rfl).trans (congrArg _ (State.waitForStep_eq _ _))
  case ended =>
    have hpassed : j.passed a true = j := by simp [Job.passed]
    refine (execPassEnd_passed hj hp (Bool.or_true a)).trans ?_
    rw [hpassed, State.waitForStep_eq]
    rfl
  case cut =>
    refine (execResReadyFall_eq s).trans ?_
    rw [hj, Option.map_some, Phase.cutShort_waiting hw]
  case kept =>
    obtain ⟨owner, cell, p, round, good, run, phase⟩ := j
    subst hp
    refine (execResReadyFall_eq s).trans ?_
    rw [hj]
    exact congrArg (fun x => Host.Outcome.next { s.begin with resReady := false, job := x }) hj.symm
  case woken =>
    refine (execResReadyRise_low hr hm).trans ?_
    rw [State.wakeJob_waiting (s := { s.begin with resReady := true }) hj hp, State.waitForStep_eq]
    rfl
  case idleFall =>
    refine (execResReadyFall_eq s).trans ?_
    rw [hj]
    exact congrArg (fun x => Host.Outcome.next { s.begin with resReady := false, job := x }) hj.symm
  case rise =>
    exact (execResReadyRise_low hr hm).trans
      (congrArg _ (State.wakeJob_standing (s := { s.begin with resReady := true }) hw))
  case high => exact congrArg _ (if_pos hr)
  case third =>
    refine (execPassStuck_judged hj hp).trans (congrArg _ ?_)
    unfold State.judgeStuck
    rw [h2]
    exact if_pos le_rfl
  case verify =>
    intro r
    have hexec (reading : VerifyReading) : exec (.verifyResult reading) s = .next (r.verifyJob j reading) :=
      execVerifyResult_judged reading hj hp
    have hcells : r.cells = s.cells := s.reaching_cells _
    refine ⟨fun write hw => ?erased, fun write h2 => ?faulted, fun write h1 hc => ?blank,
      fun write h1 hc hpos => ?again⟩
    case erased =>
      rw [hexec, State.verifyJob_erased rfl, endJobBlank_outright (hw.imp_right (Or.imp_right ?_))]
      exact fun h => (s.reaching_wipeClaim _).trans h
    case faulted =>
      rw [hexec, State.verifyJob_marred (State.readsErased_marred (by omega)), if_neg (by omega)]
    case blank =>
      have hb : r.cells[j.cell] = .blank := by rw [hcells]; exact hc
      rw [hexec, hexec, State.verifyJob_erased (readsErased_blank _ _ _ h1 hb), State.verifyJob_erased rfl]
    case again =>
      rw [hexec, State.verifyJob_marred (State.readsErased_marred fun _ => by rw [hcells]; exact hc), if_pos h1,
        State.waitForStep_eq, Job.onward_restarted hpos, s.reaching_resReady]

end Sys2Proof.Machine
end

