-- ==== Sys2Proof/Proofs/JobEnds.lean ====
section
/-! The ends of cell jobs: the WIPE jobs (O44) and the rekeys (O45). -/

namespace Sys2Proof.Machine

/-! ### The journal -/

theorem Journal.advance_mem (c : Fin 26) (faulted : Bool) (j : Journal) (x : Fin 26) :
    x ∈ (j.advance c faulted).faults ↔ (x ∈ j.faults ∨ (faulted = true ∧ x = c)) := by
  cases faulted
  · simp [Journal.advance]
  · simp [Journal.advance, mem_insertFault]

theorem Journal.advance_pairwise (c : Fin 26) (faulted : Bool) {j : Journal} (h : j.faults.Pairwise (· < ·)) :
    (j.advance c faulted).faults.Pairwise (· < ·) := by
  cases faulted
  · exact h
  · exact insertFault_pairwise c _ h

/-- R13: the outcome of a wipe, from the fault list of its journal. -/
def wipeOutcome (faults : List (Fin 26)) (r : OpRecord) (at_ : Millis) : OpRecord :=
  match faults with
  | [] => r.finish .complete none at_
  | c :: _ => r.finish .completeWithFaults (some c.val) at_

theorem wipeOutcome_ended (faults : List (Fin 26)) (r : OpRecord) (at_ : Millis) :
    (wipeOutcome faults r at_).state = .ended ∧ (wipeOutcome faults r at_).endedAt = some at_
      ∧ (wipeOutcome faults r at_).unseen = true := by
  cases faults <;> exact ⟨rfl, rfl, rfl⟩

/-- R13: with faults, the detail is the lowest of an ascending list. -/
theorem wipeOutcome_faults {faults : List (Fin 26)} (h : faults ≠ []) (r : OpRecord) (at_ : Millis) :
    (wipeOutcome faults r at_).outcome = some .completeWithFaults
      ∧ (faults.Pairwise (· < ·) →
        ∃ c ∈ faults, (wipeOutcome faults r at_).detail = some c.val ∧ ∀ x ∈ faults, c ≤ x) := by
  cases faults with
  | nil => exact absurd rfl h
  | cons c rest =>
    refine ⟨rfl, fun hp => ⟨c, List.mem_cons_self, rfl, List.forall_mem_cons.2 ⟨le_rfl, fun x hx => ?_⟩⟩⟩
    exact le_of_lt ((List.pairwise_cons.1 hp).1 x hx)

/-! ### WIPE jobs -/

/-- R125: the end of a WIPE job, with the indicator where it ends FAULTED. -/
theorem State.endJob_wipe {j : Job} (ho : j.owner = .wipe) (faulted : Bool) (s : State) :
    s.endJob j faulted =
      { s.endWipeJob j.cell faulted with
        latched := if faulted then (s.endWipeJob j.cell faulted).latched ||| 512
          else (s.endWipeJob j.cell faulted).latched } := by
  unfold State.endJob
  rw [ho]
  cases faulted <;> rfl

/-- R12: the cell of a job as its end leaves it. -/
def State.cellEnded (c : Fin 26) (faulted : Bool) (s : State) : State :=
  { s with cells := s.cells.set c (endedCell faulted) }

theorem State.endWipeJob_before {c : Fin 26} {journal : Journal} (faulted : Bool) {s : State}
    (hj : s.life.journal = some journal) (hc : c ≠ 25) :
    s.endWipeJob c faulted = (s.cellEnded c faulted).endWipeCell c (journal.advance c faulted) := by
  unfold State.endWipeJob
  rw [hj]
  exact if_pos (by omega)

/-- R13, R14: the last cell's end does not reach cell 0. -/
theorem State.cellEnded_root (faulted : Bool) (s : State) :
    (s.cellEnded 25 faulted).cells[(0 : Fin 26)] = s.cells[(0 : Fin 26)] :=
  (Vector.get_set_fin _ _ _ _).trans (if_neg (by decide))

theorem State.endWipeJob_disabled {journal : Journal} (faulted : Bool) {s : State}
    (hj : s.life.journal = some journal) (h0 : s.cells[(0 : Fin 26)] = .faulted) :
    s.endWipeJob 25 faulted = (s.cellEnded 25 faulted).endWipeDisabled (journal.advance 25 faulted) := by
  unfold State.endWipeJob
  rw [hj]
  exact (if_neg (by decide)).trans (if_pos ((s.cellEnded_root faulted).trans h0))

theorem State.endWipeJob_unprovisioned {journal : Journal} (faulted : Bool) {s : State}
    (hj : s.life.journal = some journal) (h0 : s.cells[(0 : Fin 26)] ≠ .faulted) :
    s.endWipeJob 25 faulted = (s.cellEnded 25 faulted).endWipeUnprovisioned (journal.advance 25 faulted) := by
  unfold State.endWipeJob
  rw [hj]
  exact (if_neg (by decide)).trans (if_neg fun h => h0 ((s.cellEnded_root faulted).symm.trans h))

/-- R13: the record of a wipe that ends in UNPROVISIONED. -/
theorem State.endWipeUnprovisioned_wipeOp (journal : Journal) (s : State) :
    (s.endWipeUnprovisioned journal).wipeOp = wipeOutcome journal.faults s.wipeOp s.millis := by
  unfold State.endWipeUnprovisioned wipeOutcome
  cases journal.faults <;> rfl

/-- Settles O44: the cells before the last, then the two ends of a wipe. -/
theorem wipeJobsEndInTheJournal : Obligations.WipeJobsEndInTheJournal := by
  rintro ⟨owner, c, p, round, good, run, phase⟩ journal faulted s ho hlife hstage
  have hj : s.life.journal = some journal := by rw [hlife]
  have hend := State.endJob_wipe ho faulted s
  dsimp only at hend
  rw [hend]
  have hmem := journal.advance_mem c faulted
  have hsorted : journal.faults.Pairwise (· < ·) → ∀ after, some (journal.advance c faulted) = some after →
      after.faults.Pairwise (· < ·) := by
    rintro hp after ⟨⟩
    exact journal.advance_pairwise _ _ hp
  rcases ne_or_eq c 25 with hc | rfl
  case inl =>
    rw [State.endWipeJob_before faulted hj hc]
    exact ⟨rfl, rfl, rfl, ⟨_, rfl, rfl, hmem⟩,
      fun _ => ⟨rfl, congrArg LifecycleRecord.lifecycle hlife, rfl, rfl, rfl, rfl, rfl⟩, fun h => absurd h hc, hsorted,
      fun h => absurd h hc⟩
  case inr =>
    by_cases h0 : s.cells[(0 : Fin 26)] = .faulted
    case pos =>
      rw [State.endWipeJob_disabled faulted hj h0]
      exact ⟨rfl, rfl, rfl, ⟨_, rfl, rfl, hmem⟩, fun h => absurd rfl h,
        fun _ h => absurd (h0.symm.trans h) (by decide), hsorted,
        fun _ _ => ⟨rfl, rfl, rfl, rfl, rfl, rfl, rfl, rfl, rfl, rfl, rfl, rfl⟩⟩
    case neg =>
      rw [State.endWipeJob_unprovisioned faulted hj h0]
      have hop := (s.cellEnded 25 faulted).endWipeUnprovisioned_wipeOp (journal.advance 25 faulted)
      generalize hafter : journal.advance 25 faulted = after at hmem hsorted hop ⊢
      obtain ⟨hstate, hat, hunseen⟩ := wipeOutcome_ended after.faults s.wipeOp s.millis
      refine ⟨rfl, rfl, rfl, ⟨_, rfl, by rw [← hafter]; rfl, hmem⟩, fun h => absurd rfl h,
        fun _ _ => ⟨rfl, rfl, rfl, rfl, rfl, rfl, rfl, rfl, rfl, rfl, (congrArg OpRecord.state hop).trans hstate,
          (congrArg OpRecord.endedAt hop).trans hat, (congrArg OpRecord.unseen hop).trans hunseen,
          fun hnone hf => ?complete, fun hsome => ?faults⟩, hsorted, fun _ h => absurd h h0⟩
      case complete =>
        have hempty : after.faults = [] := by rw [← hafter, hf]; exact hnone
        rw [hempty] at hop
        exact ⟨congrArg OpRecord.outcome hop, congrArg OpRecord.detail hop⟩
      case faults =>
        have hne : after.faults ≠ [] := by
          rcases hsome with hs | hf
          · obtain ⟨x, hx⟩ := List.exists_mem_of_ne_nil _ hs
            exact List.ne_nil_of_mem ((hmem x).2 (.inl hx))
          · exact List.ne_nil_of_mem ((hmem 25).2 (.inr ⟨hf, rfl⟩))
        obtain ⟨hout, hlow⟩ := wipeOutcome_faults hne s.wipeOp s.millis
        refine ⟨(congrArg OpRecord.outcome hop).trans hout, ?_⟩
        rintro hp after' ⟨⟩
        obtain ⟨x, hx, hdetail, hmin⟩ := hlow (hsorted hp _ rfl)
        exact ⟨x, hx, (congrArg OpRecord.detail hop).trans hdetail, hmin⟩

/-! ### The lowest mark above a range -/

theorem lowestMarked_iff (n : Nat) (l : Layout) (k : Fin 16) :
    lowestMarked n l = some k ↔
      (n ≤ k.val ∧ l.ranges[k].rekeyPending = true
        ∧ ∀ i : Fin 16, n ≤ i.val → i < k → l.ranges[i].rekeyPending = false) := by
  refine ⟨lowestMarked_some n l k, fun ⟨hn, hm, hlow⟩ => ?_⟩
  cases hj : lowestMarked n l with
  | none => exact absurd (hm.symm.trans ((lowestMarked_none n l).1 hj k hn)) (by decide)
  | some j =>
    obtain ⟨hnj, hmj, hlowj⟩ := lowestMarked_some n l j hj
    rcases lt_trichotomy j k with h | rfl | h
    · exact absurd (hmj.symm.trans (hlow j hnj h)) (by decide)
    · rfl
    · exact absurd (hm.symm.trans (hlowj k hn h)) (by decide)

/-- R129: a change of one range's record leaves the marks above it. -/
theorem lowestMarked_above (k : Fin 16) (x : RangeRecord) (l : Layout) :
    lowestMarked (k.val + 1) { l with ranges := l.ranges.set k x } = lowestMarked (k.val + 1) l := by
  unfold lowestMarked
  refine congrArg (fun p => allRanges.find? p) (funext fun i => ?_)
  by_cases h : i = k
  · have hlow : decide (k.val + 1 ≤ i.val) = false := decide_eq_false (by omega)
    rw [hlow, Bool.false_and, Bool.false_and]
  · rw [show (l.ranges.set k x)[i] = l.ranges[i] from (Vector.get_set_fin _ _ _ _).trans (if_neg h)]

/-! ### After the last commit of a range -/

/-- R128: under a wipe the operation ends SUPERSEDED. -/
theorem State.afterRange_claimed {k : Fin 16} {faulted : Bool} {s : State} (hc : s.wipeClaim = true) :
    s.afterRange k faulted =
      { s with
        job := none
        layoutWork := none
        layoutOp :=
          { s.layoutOp with
            state := .ended, outcome := some .superseded, detail := some k.val
            endedAt := some s.millis, unseen := true } } := if_pos hc

/-- R129: the operation goes on at the lowest mark above. -/
theorem State.afterRange_onward {k n : Fin 16} {w : LayoutWork} {faulted : Bool} {s : State}
    (hc : s.wipeClaim = false) (hw : s.layoutWork = some w) (hn : lowestMarked (k.val + 1) s.layout = some n) :
    s.afterRange k faulted =
      { s with
        job := none
        layoutWork := some ⟨n, w.faulted.or (if faulted then some k else none)⟩
        layoutOp := { s.layoutOp with detail := some n.val } } := by
  unfold State.afterRange
  simp only [hc, hw, hn, Bool.false_eq_true, if_false, Option.bind_some]

/-- R129: the end of the operation without a range that ended FAULTED. -/
theorem State.afterRange_complete {k : Fin 16} {w : LayoutWork} {s : State} (hc : s.wipeClaim = false)
    (hw : s.layoutWork = some w) (hn : lowestMarked (k.val + 1) s.layout = none) (hf : w.faulted = none) :
    s.afterRange k false =
      { s with
        job := none
        layoutWork := none
        layoutOp :=
          { s.layoutOp with
            state := .ended, outcome := some .complete, detail := some k.val
            endedAt := some s.millis, unseen := true } } := by
  unfold State.afterRange
  simp only [hc, hw, hn, hf, Bool.false_eq_true, if_false, Option.bind_some, Option.none_or]
  rfl

/-- R131: the end of the operation with a range that ended FAULTED. -/
theorem State.afterRange_withFaults {k f : Fin 16} {w : LayoutWork} {faulted : Bool} {s : State}
    (hc : s.wipeClaim = false) (hw : s.layoutWork = some w) (hn : lowestMarked (k.val + 1) s.layout = none)
    (hf : w.faulted.or (if faulted then some k else none) = some f) :
    s.afterRange k faulted =
      { s with
        job := none
        layoutWork := none
        layoutOp :=
          { s.layoutOp with
            state := .ended, outcome := some .completeWithFaults, detail := some f.val
            endedAt := some s.millis, unseen := true } } := by
  unfold State.afterRange
  simp only [hc, hw, hn, hf, Bool.false_eq_true, if_false, Option.bind_some]
  rfl

/-! ### The write of a range's key -/

/-- R130: a range that has its new key. -/
def RangeRecord.rekeyed (r : RangeRecord) : RangeRecord := { r with rekeyPending := false, health := .good }

/-- R131: a range whose cell ended FAULTED. -/
def RangeRecord.failed (r : RangeRecord) : RangeRecord := { r with health := .faulted }

/-- R130: the write commit of a range under a root. -/
def State.keyed (root : Bytes) (k : Fin 16) (cells : Vector Cell 26) (s : State) : State :=
  State.commit [.cells, .layout]
    { s with
      draws := s.draws + 1
      cells := cells.set (rangeCell k) (.holding (wrapKey root (Config.random32 s.draws).toList))
      layout := { s.layout with ranges := s.layout.ranges.set k s.layout.ranges[k].rekeyed } }

theorem State.writeRangeKey_eq {root : Bytes} {k : Fin 16} {s : State} (hr : s.rootCopy.or s.rootInCell = some root)
    (hb : s.cells[rangeCell k] = .blank) : s.writeRangeKey k = s.keyed root k s.cells := by
  unfold State.writeRangeKey writeKeyCell
  rw [hr]
  dsimp only
  rw [if_pos hb]
  rfl

/-- R130: the cell's own commit at the end of a LAYOUT job. -/
def State.rangeBlank (k : Fin 16) (s : State) : State :=
  State.commit [.cells] { s with cells := s.cells.set (rangeCell k) .blank }

theorem rangeCell_ne_root (k : Fin 16) : (0 : Fin 26) ≠ rangeCell k := by
  unfold rangeCell
  exact Fin.ne_of_val_ne (by simp only [Fin.val_zero]; omega)

/-- R130: the write over the cell that has just ended BLANK. -/
theorem State.writeRangeKey_rangeBlank {root : Bytes} {k : Fin 16} {s : State}
    (hr : s.rootCopy.or s.rootInCell = some root) :
    (s.rangeBlank k).writeRangeKey k = (s.rangeBlank k).keyed root k s.cells := by
  have hroot : (s.rangeBlank k).rootInCell = s.rootInCell := by
    unfold State.rootInCell
    rw [show (s.rangeBlank k).cells[(0 : Fin 26)] = s.cells[(0 : Fin 26)] from
      (Vector.get_set_fin _ _ _ _).trans (if_neg (rangeCell_ne_root k))]
  have hblank : (s.rangeBlank k).cells[rangeCell k] = .blank := (Vector.get_set_fin _ _ _ _).trans (if_pos rfl)
  rw [State.writeRangeKey_eq (s := s.rangeBlank k) (by rw [hroot]; exact hr) hblank]
  unfold State.keyed
  rw [show (s.rangeBlank k).cells = s.cells.set (rangeCell k) .blank from rfl, Vector.set_set]

/-! ### LAYOUT jobs -/

theorem cellRange_rangeCell (k : Fin 16) : cellRange (rangeCell k) = some k := by
  unfold cellRange rangeCell
  exact (dif_pos (Nat.le_add_right 10 k.val)).trans (congrArg some (Fin.ext (Nat.add_sub_cancel_left 10 k.val)))

/-- R131: the cell's state and the health of a job that ends FAULTED, in one commit. -/
def State.rangeFailed (k : Fin 16) (s : State) : State :=
  State.commit [.cells, .layout]
    { s with
      cells := s.cells.set (rangeCell k) .faulted
      layout := { s.layout with ranges := s.layout.ranges.set k s.layout.ranges[k].failed } }

theorem State.endJob_layout_faulted {j : Job} {k : Fin 16} (ho : j.owner = .layout) (hc : j.cell = rangeCell k)
    (s : State) : s.endJob j true = State.latch .eraseFault ((s.rangeFailed k).afterRange k true) := by
  unfold State.endJob
  rw [ho, hc]
  dsimp only
  rw [cellRange_rangeCell]
  rfl

theorem State.endJob_layout_blank {j : Job} {k : Fin 16} (ho : j.owner = .layout) (hc : j.cell = rangeCell k)
    (s : State) :
    s.endJob j false =
      (if s.wipeClaim then s.rangeBlank k else (s.rangeBlank k).writeRangeKey k).afterRange k false := by
  unfold State.endJob
  rw [ho, hc]
  dsimp only
  rw [cellRange_rangeCell]
  rfl

/-- R128, R129, R131: the end of a LAYOUT job that ends FAULTED. -/
theorem layoutJob_ends_faulted {j : Job} {k : Fin 16} {w : LayoutWork} {s : State} (ho : j.owner = .layout)
    (hc : j.cell = rangeCell k) (hw : s.layoutWork = some w) :
    let t := s.endJob j true
    t.cells = s.cells.set (rangeCell k) .faulted
      ∧ t.layout.ranges[k] = { s.layout.ranges[k] with health := .faulted }
      ∧ t.latched = s.latched ||| 512 ∧ t.job = none
      ∧ t.nvs = (State.commit [.cells, .layout] { s with cells := t.cells, layout := t.layout }).nvs
      ∧ (s.wipeClaim = true →
          t.layoutWork = none
            ∧ t.layoutOp =
              { s.layoutOp with
                state := .ended, outcome := some .superseded, detail := some k.val
                endedAt := some s.millis, unseen := true })
      ∧ (s.wipeClaim = false → lowestMarked (k.val + 1) s.layout = none →
          t.layoutWork = none
            ∧ t.layoutOp =
              { s.layoutOp with
                state := .ended, outcome := some .completeWithFaults, detail := some (w.faulted.getD k).val
                endedAt := some s.millis, unseen := true })
      ∧ (s.wipeClaim = false → ∀ n, lowestMarked (k.val + 1) s.layout = some n →
          t.layoutWork = some ⟨n, some (w.faulted.getD k)⟩
            ∧ t.layoutOp = { s.layoutOp with detail := some n.val }) := by
  have habove : lowestMarked (k.val + 1) (s.rangeFailed k).layout = lowestMarked (k.val + 1) s.layout :=
    lowestMarked_above k _ _
  have hlowest : w.faulted.or (if true then some k else none) = some (w.faulted.getD k) := by
    cases w.faulted <;> rfl
  have hrange : (s.rangeFailed k).layout.ranges[k] = { s.layout.ranges[k] with health := .faulted } :=
    (Vector.get_set_fin _ _ _ _).trans (if_pos rfl)
  rw [State.endJob_layout_faulted ho hc]
  cases hclaim : s.wipeClaim with
  | true =>
    rw [State.afterRange_claimed (s := s.rangeFailed k) hclaim]
    exact ⟨rfl, hrange, rfl, rfl, rfl, fun _ => ⟨rfl, rfl⟩, nofun, nofun⟩
  | false =>
    cases hn : lowestMarked (k.val + 1) s.layout with
    | none =>
      rw [State.afterRange_withFaults (s := s.rangeFailed k) hclaim hw (habove.trans hn) hlowest]
      exact ⟨rfl, hrange, rfl, rfl, rfl, nofun, fun _ _ => ⟨rfl, rfl⟩, nofun⟩
    | some n =>
      rw [State.afterRange_onward (s := s.rangeFailed k) hclaim hw (habove.trans hn), hlowest]
      refine ⟨rfl, hrange, rfl, rfl, rfl, nofun, nofun, fun _ n' hn' => ?_⟩
      cases hn'
      exact ⟨rfl, rfl⟩

/-- R129, R130: the end of a LAYOUT job that ends BLANK, its key written. -/
theorem layoutJob_ends_keyed {j : Job} {k : Fin 16} {w : LayoutWork} {root : Bytes} {s : State} (ho : j.owner = .layout)
    (hc : j.cell = rangeCell k) (hw : s.layoutWork = some w) (hclaim : s.wipeClaim = false)
    (hroot : s.rootCopy.or s.rootInCell = some root) :
    let t := s.endJob j false
    t.cells = s.cells.set (rangeCell k) (.holding (wrapKey root (Config.random32 s.draws).toList))
      ∧ t.layout.ranges[k] = { s.layout.ranges[k] with rekeyPending := false, health := .good }
      ∧ t.rootCopy = s.rootCopy ∧ t.gates = s.gates ∧ t.job = none ∧ t.latched = s.latched
      ∧ t.nvs =
        (State.commit [.cells, .layout]
          { State.commit [.cells] { s with cells := s.cells.set (rangeCell k) .blank } with
            cells := t.cells, layout := t.layout }).nvs
      ∧ (lowestMarked (k.val + 1) s.layout = none → w.faulted = none →
          t.layoutWork = none
            ∧ t.layoutOp =
              { s.layoutOp with
                state := .ended, outcome := some .complete, detail := some k.val
                endedAt := some s.millis, unseen := true })
      ∧ (∀ f, lowestMarked (k.val + 1) s.layout = none → w.faulted = some f →
          t.layoutWork = none
            ∧ t.layoutOp =
              { s.layoutOp with
                state := .ended, outcome := some .completeWithFaults, detail := some f.val
                endedAt := some s.millis, unseen := true })
      ∧ ∀ n, lowestMarked (k.val + 1) s.layout = some n →
          t.layoutWork = some ⟨n, w.faulted⟩ ∧ t.layoutOp = { s.layoutOp with detail := some n.val } := by
  have habove : lowestMarked (k.val + 1) ((s.rangeBlank k).keyed root k s.cells).layout =
      lowestMarked (k.val + 1) s.layout := lowestMarked_above k _ _
  have hrange : ((s.rangeBlank k).keyed root k s.cells).layout.ranges[k] =
      { s.layout.ranges[k] with rekeyPending := false, health := .good } :=
    (Vector.get_set_fin _ _ _ _).trans (if_pos rfl)
  rw [State.endJob_layout_blank ho hc, if_neg (by simp [hclaim]), State.writeRangeKey_rangeBlank hroot]
  cases hn : lowestMarked (k.val + 1) s.layout with
  | none =>
    cases hf : w.faulted with
    | none =>
      rw [State.afterRange_complete (s := (s.rangeBlank k).keyed root k s.cells) hclaim hw (habove.trans hn) hf]
      exact ⟨rfl, hrange, rfl, rfl, rfl, rfl, rfl, fun _ _ => ⟨rfl, rfl⟩, nofun, nofun⟩
    | some f =>
      rw [State.afterRange_withFaults (s := (s.rangeBlank k).keyed root k s.cells) hclaim hw (habove.trans hn)
        (f := f) (by rw [hf]; rfl)]
      refine ⟨rfl, hrange, rfl, rfl, rfl, rfl, rfl, nofun, fun f' _ hf' => ?_, nofun⟩
      cases hf'
      exact ⟨rfl, rfl⟩
  | some n =>
    rw [State.afterRange_onward (s := (s.rangeBlank k).keyed root k s.cells) hclaim hw (habove.trans hn)]
    refine ⟨rfl, hrange, rfl, rfl, rfl, rfl, rfl, nofun, nofun, fun n' hn' => ?_⟩
    cases hn'
    exact ⟨congrArg (fun f => some (LayoutWork.mk n f)) Option.or_none, rfl⟩

/-! ### A WRITE left standing -/

theorem State.enterWrite_committed (j : Job) (k : Fin 16) (s : State) :
    s.enterWrite j k true = { (s.rangeBlank k).writeRangeKey k with job := some { j with phase := .write true } } := by
  unfold State.enterWrite
  exact congrArg (fun u : State => { u with job := some { j with phase := .write true } }) (if_pos rfl)

theorem endJobBlank_standing {j : Job} {k : Fin 16} {s : State} (ho : j.owner = .layout) (hc : j.cell = rangeCell k)
    (hclaim : s.wipeClaim = false) :
    s.endJobBlank j .waiting = s.enterWrite j k false ∧ s.endJobBlank j .committed = s.enterWrite j k true := by
  have hlive : ¬s.wipeClaim = true := by simp [hclaim]
  unfold State.endJobBlank
  rw [ho, hc, cellRange_rangeCell]
  exact ⟨if_neg hlive, if_neg hlive⟩

/-- R130: what is left of a WRITE, with its commit where it is not yet made. -/
theorem State.finishWrite_standing {j : Job} {k : Fin 16} {committed : Bool} {s : State} (hj : s.job = some j)
    (hp : j.phase = .write committed) (hc : j.cell = rangeCell k) :
    s.finishWrite = (if committed then s else s.writeRangeKey k).afterRange k false := by
  unfold State.finishWrite
  rw [hj]
  dsimp only
  rw [hp, hc, cellRange_rangeCell]

/-- R127: an arbiter without a claim, once a WRITE is finished. -/
theorem arbiterGrant_idle {s u : State} (hfinish : s.begin.finishWrite = u) (hc : u.wipeClaim = false)
    (hw : u.layoutWork = none) : execArbiterGrant s = .next u := by
  unfold execArbiterGrant event
  dsimp only
  rw [hfinish, if_neg (by simp [State.grantReady, hc, hw])]

/-- R127, R129: an arbiter that grants the LAYOUT operation's next range, once a WRITE is finished. -/
theorem arbiterGrant_onward {s u : State} {w : LayoutWork} (hfinish : s.begin.finishWrite = u)
    (hc : u.wipeClaim = false) (hw : u.layoutWork = some w) (hj : u.job = none) (hm : u.mode ≠ .off)
    (hl : u.life.lifecycle ≠ .disabled) (hp : 0 < u.settings.p) :
    execArbiterGrant s = .next
      { u with
        job := some ⟨.layout, rangeCell w.next, u.settings.p, 1, 0, 0,
          if u.resReady then .pass u.now false false else .waiting⟩
        layoutOp := { u.layoutOp with detail := some w.next.val } } := by
  unfold execArbiterGrant event
  dsimp only
  rw [hfinish, if_pos (by simp [State.grantReady, hm, hl, hj, hw]), State.grantJob_layout hc hw, State.waitForStep_eq,
    Job.onward_fresh _ _ hp]

/-- R129, R130: what the arbiter does with a WRITE left standing, whose commit is in `v`. -/
theorem arbiterGrant_after_write {s v : State} {k : Fin 16} {w : LayoutWork}
    (hfinish : s.begin.finishWrite = v.afterRange k false) (hc : v.wipeClaim = false) (hw : v.layoutWork = some w) :
    (lowestMarked (k.val + 1) v.layout = none → w.faulted = none →
      execArbiterGrant s = .next
        { v with
          job := none
          layoutWork := none
          layoutOp :=
            { v.layoutOp with
              state := .ended, outcome := some .complete, detail := some k.val
              endedAt := some v.millis, unseen := true } })
    ∧ (∀ f, lowestMarked (k.val + 1) v.layout = none → w.faulted = some f →
      execArbiterGrant s = .next
        { v with
          job := none
          layoutWork := none
          layoutOp :=
            { v.layoutOp with
              state := .ended, outcome := some .completeWithFaults, detail := some f.val
              endedAt := some v.millis, unseen := true } })
    ∧ ∀ n, lowestMarked (k.val + 1) v.layout = some n → v.mode ≠ .off → v.life.lifecycle ≠ .disabled →
      0 < v.settings.p →
      execArbiterGrant s = .next
        { v with
          job := some ⟨.layout, rangeCell n, v.settings.p, 1, 0, 0,
            if v.resReady then .pass v.now false false else .waiting⟩
          layoutWork := some ⟨n, w.faulted⟩
          layoutOp := { v.layoutOp with detail := some n.val } } := by
  refine ⟨fun hn hf => ?complete, fun f hn hf => ?faults, fun n hn hm hl hp => ?onward⟩
  case complete =>
    exact arbiterGrant_idle (hfinish.trans (State.afterRange_complete hc hw hn hf)) hc rfl
  case faults =>
    exact arbiterGrant_idle (hfinish.trans (State.afterRange_withFaults (f := f) hc hw hn (by rw [hf]; rfl))) hc rfl
  case onward =>
    have hnext := State.afterRange_onward (faulted := false) hc hw hn
    rw [show w.faulted.or (if false then some k else none) = w.faulted from Option.or_none] at hnext
    exact arbiterGrant_onward (hfinish.trans hnext) hc rfl rfl hm hl hp

/-- Settles O45: the ends of LAYOUT jobs, a WRITE left standing, and the lowest mark. -/
theorem rekeysEndInTheRangeRecord : Obligations.RekeysEndInTheRangeRecord := by
  refine ⟨fun j k w s ho hc hw => ⟨?faulted, ?blank, ?claimed⟩, fun j k s hj ho hc hclaim => ⟨?verify, ?write⟩,
    fun n l => ⟨lowestMarked_iff n l, lowestMarked_none n l⟩⟩
  case faulted =>
    rintro t rfl
    exact layoutJob_ends_faulted ho hc hw
  case blank =>
    rintro t root hclaim hroot rfl
    exact layoutJob_ends_keyed ho hc hw hclaim hroot
  case claimed =>
    rintro t hclaim rfl
    rw [State.endJob_layout_blank ho hc, if_pos hclaim, State.afterRange_claimed (s := s.rangeBlank k) hclaim]
    exact ⟨rfl, rfl, rfl, rfl, rfl, rfl⟩
  case verify =>
    intro start hp
    have hexec (write : WriteProgress) :
        exec (.verifyResult ⟨true, write⟩) s = .next ((s.reaching (start + 500)).endJobBlank j write) :=
      (execVerifyResult_judged _ hj hp).trans (congrArg _ (State.verifyJob_erased rfl))
    obtain ⟨now, dormancy, decay, hr⟩ : ∃ now dormancy decay, s.reaching (start + 500) =
        { s.begin with now := now, dormancyCount := dormancy, decayCount := decay } := ⟨_, _, _, s.reaching_eq _⟩
    obtain ⟨hwaiting, hcommitted⟩ := endJobBlank_standing (s := s.reaching (start + 500)) ho hc
      ((s.reaching_wipeClaim _).trans hclaim)
    rw [hexec, hexec, hwaiting, hcommitted, State.enterWrite_committed]
    refine ⟨by rw [hr]; rfl, fun root hroot => congrArg Host.Outcome.next ?_⟩
    rw [State.writeRangeKey_rangeBlank (root := root) (by rw [hr]; exact hroot), hr]
    rfl
  case write =>
    intro w root committed hp hw hroot hblank u
    have hfinish := State.finishWrite_standing (s := s.begin) hj hp hc
    cases committed with
    | true => exact arbiterGrant_after_write (v := s.begin) hfinish hclaim hw
    | false =>
      have hwrite : s.begin.finishWrite = (s.begin.keyed root k s.cells).afterRange k false :=
        hfinish.trans (congrArg (State.afterRange k false) (State.writeRangeKey_eq (s := s.begin) hroot (hblank rfl)))
      obtain ⟨hcomplete, hfaults, honward⟩ :=
        arbiterGrant_after_write (s := s) (v := s.begin.keyed root k s.cells) hwrite hclaim hw
      have habove : lowestMarked (k.val + 1) (s.begin.keyed root k s.cells).layout =
          lowestMarked (k.val + 1) s.layout := lowestMarked_above k _ _
      exact ⟨fun hn => hcomplete (habove.trans hn), fun f hn => hfaults f (habove.trans hn),
        fun n hn => honward n (habove.trans hn)⟩

end Sys2Proof.Machine
end

