-- ==== Sys2Proof/Proofs/PolicyRecord.lean ====
section
/-! The policy record of section 10.7 (O30). -/

namespace Sys2Proof.Machine

/-! ### Fields of a body -/

/-- A field of a policy body. -/
def policyField (body : Bytes) (offset width : Nat) : Nat := ofBe ((body.drop offset).take width)

/-- R172: the record of a body, its fields clamped. -/
def clampedPolicy (body : Bytes) : Settings :=
  let n := policyField body
  { wBad := clamp 0 1023 (n 0 2)
    wBeacon := clamp 0 1023 (n 2 2)
    wTamper := clamp 0 1023 (n 4 2)
    wDorm := clamp 0 1023 (n 6 2)
    wForeign := clamp 0 1023 (n 8 2)
    ta := n 10 2
    tl := n 12 2
    tw := n 14 2
    h := n 16 1
    d := n 17 1
    idc := n 18 1
    scoreWipe := n 19 1 == 1
    rUser := n 20 1
    beaconOn := n 21 1 == 1
    w := clamp 2 255 (n 22 1)
    tamperCode := clamp 0 4 (n 23 1)
    dormId := n 24 1
    p := clamp 1 15 (n 25 1)
    shadowL := n 26 2
    maxHold := clamp 1 240 (n 28 1) }

/-- R115: what SET_POLICY asks of a body besides its length. -/
def policyTaken (body : Bytes) : Prop :=
  let n := policyField body
  (1 ≤ n 10 2 ∧ n 10 2 ≤ n 12 2 ∧ n 12 2 ≤ n 14 2 ∧ n 14 2 ≤ 4095 ∧ n 20 1 ≤ 16 ∧ n 26 2 % 8 = 0 ∧ n 26 2 ≤ 32768)
    ∧ n 19 1 ≤ 1 ∧ n 21 1 ≤ 1

/-- R115: a body is taken with its fields clamped, or refused whole. -/
theorem readPolicyBody_of_taken {body : Bytes} (hl : body.length = 30) (h : policyTaken body) :
    readPolicyBody body = some (clampedPolicy body) := by
  obtain ⟨⟨h1, h2, h3, h4, h5, h6, h7⟩, h8, h9⟩ := h
  refine (if_neg (not_not.2 hl)).trans <| (if_neg ?_).trans <| (if_neg ?_).trans <| (if_neg ?_).trans (if_neg ?_)
  all_goals
    unfold policyField at h1 h2 h3 h4 h5 h6 h7 h8 h9
    dsimp only
    omega

theorem readPolicyBody_of_short {body : Bytes} (hl : body.length ≠ 30) : readPolicyBody body = none := if_pos hl

theorem readPolicyBody_of_not_taken {body : Bytes} (h : ¬policyTaken body) : readPolicyBody body = none := by
  unfold policyTaken policyField at h
  unfold readPolicyBody
  dsimp only at h ⊢
  split_ifs
  · rfl
  · rfl
  · rfl
  · rfl
  · rfl
  · exact absurd (by omega) h

/-- R115: what is taken. -/
theorem readPolicyBody_eq_some {body : Bytes} {c : Settings} (h : readPolicyBody body = some c) :
    body.length = 30 ∧ policyTaken body ∧ c = clampedPolicy body := by
  have hl : body.length = 30 := by
    by_contra hl
    simp [readPolicyBody_of_short hl] at h
  have ht : policyTaken body := by
    by_contra ht
    simp [readPolicyBody_of_not_taken ht] at h
  rw [readPolicyBody_of_taken hl ht] at h
  exact ⟨hl, ht, (Option.some.inj h).symm⟩

/-- What `width` bytes can write. -/
theorem ofBe_lt (body : Bytes) : ofBe body < 256 ^ body.length := by
  induction body using List.reverseRecOn with
  | nil => exact Nat.one_pos
  | append_singleton bs b ih =>
    have hb : b.toNat < 256 := b.isLt
    rw [ofBe_append_singleton, List.length_append, List.length_singleton, Nat.pow_succ]
    omega

theorem policyField_lt (body : Bytes) (offset width : Nat) : policyField body offset width < 256 ^ width :=
  (ofBe_lt _).trans_le (Nat.pow_le_pow_right (by decide) (List.length_take_le _ _))

theorem policyField_byte {body : Bytes} {offset : Nat} {b : Byte} (h : body[offset]? = some b) :
    policyField body offset 1 = b.toNat := by
  obtain ⟨hlt, rfl⟩ := List.getElem?_eq_some_iff.1 h
  unfold policyField
  rw [List.drop_eq_getElem_cons hlt]
  exact Nat.zero_add _

/-! ### Fields of a record's own bytes -/

theorem be_two (n : Nat) : be 2 n = [BitVec.ofNat 8 (n / 256), BitVec.ofNat 8 n] := by simp [be]

theorem ofBe_two (n : Nat) : ofBe [BitVec.ofNat 8 (n / 256), BitVec.ofNat 8 n] = n % 65536 := by
  rw [← be_two]
  exact ofBe_be 2 n

theorem ofBe_one (n : Nat) : ofBe [BitVec.ofNat 8 n] = n % 256 := by
  rw [← be_one]
  exact ofBe_be 1 n

/-- Section 10.7: the bytes of a record, with any last byte. -/
theorem Settings.toBytes_last (c : Settings) (last : Byte) :
    c.toBytes.dropLast ++ [last] =
      [.ofNat 8 (c.wBad / 256), .ofNat 8 c.wBad, .ofNat 8 (c.wBeacon / 256), .ofNat 8 c.wBeacon,
        .ofNat 8 (c.wTamper / 256), .ofNat 8 c.wTamper, .ofNat 8 (c.wDorm / 256), .ofNat 8 c.wDorm,
        .ofNat 8 (c.wForeign / 256), .ofNat 8 c.wForeign, .ofNat 8 (c.ta / 256), .ofNat 8 c.ta,
        .ofNat 8 (c.tl / 256), .ofNat 8 c.tl, .ofNat 8 (c.tw / 256), .ofNat 8 c.tw, .ofNat 8 c.h, .ofNat 8 c.d,
        .ofNat 8 c.idc, flag c.scoreWipe, .ofNat 8 c.rUser, flag c.beaconOn, .ofNat 8 c.w, .ofNat 8 c.tamperCode,
        .ofNat 8 c.dormId, .ofNat 8 c.p, .ofNat 8 (c.shadowL / 256), .ofNat 8 c.shadowL, .ofNat 8 c.maxHold, last] := by
  unfold Settings.toBytes
  rw [List.dropLast_concat]
  simp only [be_two, be_one, List.cons_append, List.nil_append]

/-- Section 10.7: the fields in the bytes of a record. -/
theorem policyField_toBytes (c : Settings) (last : Byte) :
    let n := policyField (c.toBytes.dropLast ++ [last])
    n 0 2 = c.wBad % 65536 ∧ n 2 2 = c.wBeacon % 65536 ∧ n 4 2 = c.wTamper % 65536 ∧ n 6 2 = c.wDorm % 65536
      ∧ n 8 2 = c.wForeign % 65536 ∧ n 10 2 = c.ta % 65536 ∧ n 12 2 = c.tl % 65536 ∧ n 14 2 = c.tw % 65536
      ∧ n 16 1 = c.h % 256 ∧ n 17 1 = c.d % 256 ∧ n 18 1 = c.idc % 256 ∧ n 19 1 = (flag c.scoreWipe).toNat
      ∧ n 20 1 = c.rUser % 256 ∧ n 21 1 = (flag c.beaconOn).toNat ∧ n 22 1 = c.w % 256
      ∧ n 23 1 = c.tamperCode % 256 ∧ n 24 1 = c.dormId % 256 ∧ n 25 1 = c.p % 256 ∧ n 26 2 = c.shadowL % 65536
      ∧ n 28 1 = c.maxHold % 256 := by
  rw [c.toBytes_last]
  exact ⟨ofBe_two _, ofBe_two _, ofBe_two _, ofBe_two _, ofBe_two _, ofBe_two _, ofBe_two _, ofBe_two _,
    ofBe_one _, ofBe_one _, ofBe_one _, Nat.zero_add _, ofBe_one _, Nat.zero_add _, ofBe_one _, ofBe_one _,
    ofBe_one _, ofBe_one _, ofBe_two _, ofBe_one _⟩

theorem flag_toNat (b : Bool) : (flag b).toNat ≤ 1 ∧ ((flag b).toNat == 1) = b := by cases b <;> decide

/-- R172: clamping of a whole record. -/
def Settings.clamped (c : Settings) : Settings :=
  { c with
    wBad := min c.wBad 1023, wBeacon := min c.wBeacon 1023, wTamper := min c.wTamper 1023
    wDorm := min c.wDorm 1023, wForeign := min c.wForeign 1023
    w := max c.w 2, tamperCode := min c.tamperCode 4, p := max 1 (min c.p 15)
    maxHold := max 1 (min c.maxHold 240) }

/-- R115: the fields of a record are in the ranges that its bytes can write. -/
def Settings.InBytes (c : Settings) : Prop :=
  (∀ n ∈ [c.wBad, c.wBeacon, c.wTamper, c.wDorm, c.wForeign, c.ta, c.tl, c.tw, c.shadowL], n < 65536)
    ∧ ∀ n ∈ [c.h, c.d, c.idc, c.rUser, c.w, c.tamperCode, c.dormId, c.p, c.maxHold], n < 256

/-- R115: what SET_POLICY asks of the fields of a record. -/
abbrev Settings.Acceptable (c : Settings) : Prop :=
  1 ≤ c.ta ∧ c.ta ≤ c.tl ∧ c.tl ≤ c.tw ∧ c.tw ≤ 4095 ∧ c.rUser ≤ 16 ∧ c.shadowL % 8 = 0 ∧ c.shadowL ≤ 32768

/-- Section 10.7: the fields in the bytes of a record whose fields fit. -/
theorem policyField_inBytes {c : Settings} (h : c.InBytes) (last : Byte) :
    let n := policyField (c.toBytes.dropLast ++ [last])
    n 0 2 = c.wBad ∧ n 2 2 = c.wBeacon ∧ n 4 2 = c.wTamper ∧ n 6 2 = c.wDorm ∧ n 8 2 = c.wForeign ∧ n 10 2 = c.ta
      ∧ n 12 2 = c.tl ∧ n 14 2 = c.tw ∧ n 16 1 = c.h ∧ n 17 1 = c.d ∧ n 18 1 = c.idc
      ∧ n 19 1 = (flag c.scoreWipe).toNat ∧ n 20 1 = c.rUser ∧ n 21 1 = (flag c.beaconOn).toNat ∧ n 22 1 = c.w
      ∧ n 23 1 = c.tamperCode ∧ n 24 1 = c.dormId ∧ n 25 1 = c.p ∧ n 26 2 = c.shadowL ∧ n 28 1 = c.maxHold := by
  obtain ⟨hwide, hbyte⟩ := h
  simp only [List.forall_mem_cons, List.not_mem_nil, false_imp_iff, implies_true, and_true] at hwide hbyte
  obtain ⟨a1, a2, a3, a4, a5, a6, a7, a8, a9⟩ := hwide
  obtain ⟨b1, b2, b3, b4, b5, b6, b7, b8, b9⟩ := hbyte
  obtain ⟨f1, f2, f3, f4, f5, f6, f7, f8, f9, f10, f11, f12, f13, f14, f15, f16, f17, f18, f19, f20⟩ :=
    policyField_toBytes c last
  have wide {x y : Nat} (hx : x = y % 65536) (hy : y < 65536) : x = y := hx.trans (Nat.mod_eq_of_lt hy)
  have byte {x y : Nat} (hx : x = y % 256) (hy : y < 256) : x = y := hx.trans (Nat.mod_eq_of_lt hy)
  exact ⟨wide f1 a1, wide f2 a2, wide f3 a3, wide f4 a4, wide f5 a5, wide f6 a6, wide f7 a7, wide f8 a8, byte f9 b1,
    byte f10 b2, byte f11 b3, f12, byte f13 b4, f14, byte f15 b5, byte f16 b6, byte f17 b7, byte f18 b8, wide f19 a9,
    byte f20 b9⟩

theorem clamp_zero (hi n : Nat) : clamp 0 hi n = min n hi := by unfold clamp; omega

theorem clamp_one (hi n : Nat) : clamp 1 hi n = max 1 (min n hi) := by unfold clamp; omega

theorem clamp_two {n : Nat} (h : n < 256) : clamp 2 255 n = max n 2 := by unfold clamp; omega

/-- R115: the bytes of a record are read back, clamped. -/
theorem clampedPolicy_toBytes {c : Settings} (h : c.InBytes) (last : Byte) :
    clampedPolicy (c.toBytes.dropLast ++ [last]) = c.clamped := by
  obtain ⟨f1, f2, f3, f4, f5, f6, f7, f8, f9, f10, f11, f12, f13, f14, f15, f16, f17, f18, f19, f20⟩ :=
    policyField_inBytes h last
  unfold clampedPolicy
  generalize policyField (c.toBytes.dropLast ++ [last]) = n at *
  dsimp only
  rw [f1, f2, f3, f4, f5, f6, f7, f8, f9, f10, f11, f12, f13, f14, f15, f16, f17, f18, f19, f20,
    (flag_toNat c.scoreWipe).2, (flag_toNat c.beaconOn).2]
  have hw : c.w < 256 := h.2 c.w (by simp)
  rw [clamp_zero, clamp_zero, clamp_zero, clamp_zero, clamp_zero, clamp_zero, clamp_two hw, clamp_one, clamp_one]
  rfl

/-- R115: a record's bytes are taken where its fields are acceptable. -/
theorem policyTaken_toBytes {c : Settings} (h : c.InBytes) (last : Byte) :
    policyTaken (c.toBytes.dropLast ++ [last]) ↔ c.Acceptable := by
  obtain ⟨-, -, -, -, -, f6, f7, f8, -, -, -, f12, f13, f14, -, -, -, -, f19, -⟩ := policyField_inBytes h last
  unfold policyTaken
  generalize policyField (c.toBytes.dropLast ++ [last]) = n at *
  dsimp only
  rw [f6, f7, f8, f12, f13, f14, f19]
  exact and_iff_left ⟨(flag_toNat _).1, (flag_toNat _).1⟩

theorem Settings.toBytes_length (c : Settings) : c.toBytes.length = 30 := by
  unfold Settings.toBytes
  simp only [List.length_append, be_length, List.length_singleton]

theorem Settings.toBytes_zero (c : Settings) : c.toBytes.dropLast ++ [0] = c.toBytes := by
  unfold Settings.toBytes
  rw [List.dropLast_concat]

/-- R115: the bytes of a record are taken, clamped, where its fields are acceptable. -/
theorem readPolicyBody_toBytes {c : Settings} (h : c.InBytes) (last : Byte) :
    readPolicyBody (c.toBytes.dropLast ++ [last]) = if c.Acceptable then some c.clamped else none := by
  have hl : (c.toBytes.dropLast ++ [last]).length = 30 := by
    rw [List.length_append, List.length_dropLast, c.toBytes_length]
    rfl
  split
  case isTrue hacc =>
    rw [readPolicyBody_of_taken hl ((policyTaken_toBytes h last).2 hacc), clampedPolicy_toBytes h last]
  case isFalse hacc => exact readPolicyBody_of_not_taken (mt (policyTaken_toBytes h last).1 hacc)

/-- R172: what a record of clamped fields satisfies. -/
theorem clampedPolicy_ranges {body : Bytes} (ht : policyTaken body) :
    let c := clampedPolicy body
    c.wBad ≤ 1023 ∧ c.wBeacon ≤ 1023 ∧ c.wTamper ≤ 1023 ∧ c.wDorm ≤ 1023 ∧ c.wForeign ≤ 1023
      ∧ c.Acceptable ∧ c.h ≤ 255 ∧ c.d ≤ 255 ∧ c.idc ≤ 255 ∧ c.dormId ≤ 255
      ∧ 2 ≤ c.w ∧ c.w ≤ 255 ∧ c.tamperCode ≤ 4 ∧ 1 ≤ c.p ∧ c.p ≤ 15 ∧ 1 ≤ c.maxHold ∧ c.maxHold ≤ 240 := by
  have hbyte (offset : Nat) : policyField body offset 1 ≤ 255 := Nat.le_of_lt_succ (policyField_lt body offset 1)
  have hc {lo hi : Nat} (n : Nat) (h : lo ≤ hi) : lo ≤ clamp lo hi n ∧ clamp lo hi n ≤ hi := by
    unfold clamp; omega
  exact ⟨(hc _ (Nat.zero_le _)).2, (hc _ (Nat.zero_le _)).2, (hc _ (Nat.zero_le _)).2, (hc _ (Nat.zero_le _)).2,
    (hc _ (Nat.zero_le _)).2, ht.1, hbyte 16, hbyte 17, hbyte 18, hbyte 24, (hc _ (by decide)).1, (hc _ (by decide)).2,
    (hc _ (by decide)).2, (hc _ (by decide)).1, (hc _ (by decide)).2, (hc _ (by decide)).1, (hc _ (by decide)).2⟩

/-- Settles O30: what is taken is in its ranges and read back; what is read back is clamped or refused. -/
theorem policyFieldsAreClampedOrRefused : Obligations.PolicyFieldsAreClampedOrRefused := by
  refine ⟨fun body c h => ?taken, fun c last hwide hbyte => ?bytes, fun body => ⟨readPolicyBody_of_short, ?switch⟩,
    fun c => ⟨c.toBytes_length, rfl⟩⟩
  case taken =>
    obtain ⟨hl, ht, rfl⟩ := readPolicyBody_eq_some h
    have hr := clampedPolicy_ranges ht
    dsimp only at hr
    generalize clampedPolicy body = c at hr
    obtain ⟨h1, h2, h3, h4, h5, hacc, h6, h7, h8, h9, h10, h11, h12, h13, h14, h15, h16⟩ := hr
    obtain ⟨a1, a2, a3, a4, a5, a6, a7⟩ := hacc
    have hin : c.InBytes := by
      unfold Settings.InBytes
      simp only [List.forall_mem_cons, List.not_mem_nil, false_imp_iff, implies_true, and_true]
      omega
    have hfix : c.clamped = c := by
      unfold Settings.clamped
      rw [min_eq_left h1, min_eq_left h2, min_eq_left h3, min_eq_left h4, min_eq_left h5, max_eq_left h10,
        min_eq_left h12, min_eq_left h14, max_eq_right h13, min_eq_left h16, max_eq_right h15]
    have hback : readPolicyBody c.toBytes = some c := by
      rw [← c.toBytes_zero, readPolicyBody_toBytes hin, if_pos ⟨a1, a2, a3, a4, a5, a6, a7⟩, hfix]
    exact ⟨hl, h1, h2, h3, h4, h5, a1, a2, a3, a4, a5, h6, h7, h8, h9, h10, h11, h12, h13, h14, a6, a7, h15, h16, hback⟩
  case bytes => exact readPolicyBody_toBytes ⟨hwide, hbyte⟩ last
  case switch =>
    refine fun b hb hat => readPolicyBody_of_not_taken fun ⟨_, h19, h21⟩ => ?_
    rcases hat with hat | hat
    · exact absurd ((policyField_byte hat).symm.trans_le h19) (not_le.2 hb)
    · exact absurd ((policyField_byte hat).symm.trans_le h21) (not_le.2 hb)

end Sys2Proof.Machine
end

