-- ==== Sys2Proof/Proofs/Supplies.lean ====
section
/-! The returns and losses of the supplies (O49). -/

namespace Sys2Proof.Machine

/-- R142: the entry to STARTING, as RES_READY stands. -/
theorem State.enterStarting_eq (s : State) :
    s.enterStarting = if s.resReady = true then s.beginStarting.endStarting else s.beginStarting := rfl

theorem execVmainReturn_aux {s : State} (hm : s.mode = .aux) :
    execVmainReturn s = .next (State.enterStarting { s.begin with vmain := true }) := by
  simp only [execVmainReturn, event, State.begin_mode, hm]

theorem execVauxLoss_eq {s : State} (hm : s.mode ≠ .off) :
    execVauxLoss s =
      .next (if s.mode ≠ .aux ∧ s.vmain = true then { s.begin with vaux := false } else s.begin.enterOff) :=
  congrArg _ (if_neg hm)

/-- R143: a level of VMAIN in STARTING. -/
theorem State.mainInStarting_eq (good : Bool) (s : State) :
    s.mainInStarting good = if good = true ∨ s.vaux = true then { s with vmain := good } else s.enterOff := by
  unfold State.mainInStarting
  simp only [Bool.or_eq_true]

/-- R146, R1: a loss of both supplies outside of OFF. -/
theorem execFullPowerLoss_eq {cut : Option Cut} {s : State} (hm : s.mode ≠ .off) :
    execFullPowerLoss cut s = .next (State.enterOff { s with nvs := s.nvsAfterLoss cut }) :=
  congrArg _ (if_neg hm)

/-- R1: the store that stood after a write, from the writes that followed it. -/
def State.storeAfter (later : List WriteImage) (s : State) : Nvs :=
  match later with
  | [] => s.nvs
  | image :: _ => image.before

/-- R1: the write that a loss cuts. -/
theorem State.nvsAfterLoss_cut {cut : Cut} {s : State} {before after : List WriteImage} {image : WriteImage}
    (h : s.writeImages = before ++ image :: after) (hw : cut.write = before.length) :
    s.nvsAfterLoss (some cut) = cutWrite cut image (s.storeAfter after) := by
  unfold State.nvsAfterLoss
  dsimp only
  rw [h, hw, List.drop_left]
  cases after <;> rfl

/-- R168: a broken record fails its check. -/
theorem StoredSettings.broken_not_good (r : StoredSettings) : r.broken.good = false := by
  have hne (x : BitVec 16) : (x + 1 == x) = false := by
    rw [beq_eq_false_iff_ne]
    bv_omega
  unfold StoredSettings.good StoredSettings.broken
  dsimp only
  generalize r.record.check = x
  exact hne x

/-- R168: a cut write of the settings record leaves the record failing its check. -/
theorem cutWrite_settings (cut : Cut) (before after : Nvs) :
    cutWrite cut ⟨before, []⟩ after = { before with settings := after.settings.broken } := by
  unfold cutWrite
  exact if_pos rfl

/-- R1: a cut that names no write cuts nothing. -/
theorem State.nvsAfterLoss_past {cut : Cut} {s : State} (h : s.writeImages.length ≤ cut.write) :
    s.nvsAfterLoss (some cut) = s.nvs := by
  unfold State.nvsAfterLoss
  dsimp only
  rw [List.drop_eq_nil_of_le h]

/-- Settles O49: each supply event by the mode and the levels. -/
theorem suppliesComeAndGo : Obligations.SuppliesComeAndGo := by
  refine ⟨fun s => ⟨fun hm hr => ?returns, fun hm hr => ?returnsReady, fun hm hv => ?auxLost, fun hm => ?auxBack,
    fun hm good hg => ?level, fun hm => ?auxGone, fun hm => ?bothLost, rfl, rfl, rfl, rfl, rfl, rfl, rfl,
    fun first hm hv => ?mainGone, fun hm hv => ?mainGoneStarting, fun hm hv => ?auxGoneStarting,
    fun hm hv => ?auxLostStarting⟩, fun cut s hm => ⟨fun before image after hw hc => ?cut, fun hl => ?past,
    fun before after => ?settings⟩⟩
  case returns => exact (execVmainReturn_aux hm).trans (congrArg _ (if_neg (by simp [State.beginStarting, hr])))
  case returnsReady => exact (execVmainReturn_aux hm).trans (congrArg _ (if_pos hr))
  case auxLost =>
    exact (execVauxLoss_eq (by simp [hm])).trans (congrArg _ (if_pos ⟨by simp [hm], hv⟩))
  case auxBack => exact congrArg Host.Outcome.next (if_neg hm)
  case level =>
    exact congrArg Host.Outcome.next ((if_pos hm).trans ((s.begin.mainInStarting_eq good).trans (if_pos hg)))
  case auxGone => exact (execVauxLoss_eq (by simp [hm])).trans (congrArg _ (if_neg fun h => h.1 hm))
  case bothLost => exact execFullPowerLoss_eq hm
  case mainGone =>
    change execVmainLoss first s = _
    simp only [execVmainLoss, event, State.begin_mode, hm, State.begin_vaux, hv, Bool.false_eq_true, if_false]
  case mainGoneStarting =>
    refine congrArg Host.Outcome.next ((if_pos hm).trans ((s.begin.mainInStarting_eq false).trans (if_neg ?_)))
    simp [hv]
  case auxGoneStarting =>
    exact (execVauxLoss_eq (by simp [hm])).trans (congrArg _ (if_neg (by simp [hv])))
  case auxLostStarting =>
    exact (execVauxLoss_eq (by simp [hm])).trans (congrArg _ (if_pos ⟨by simp [hm], hv⟩))
  case cut => exact (execFullPowerLoss_eq hm).trans (by rw [State.nvsAfterLoss_cut hw hc]; cases after <;> rfl)
  case past => exact (execFullPowerLoss_eq hm).trans (by rw [State.nvsAfterLoss_past hl])
  case settings =>
    rw [cutWrite_settings]
    exact ⟨rfl, after.settings.broken_not_good⟩

end Sys2Proof.Machine
end

