-- ==== Sys2Proof/Proofs/ResetLine.lean ====
section
/-! The edges of RST_N (O51). -/

namespace Sys2Proof.Machine

/-! ### The derivation in flight stands apart -/

/-- A state with another derivation in flight. -/
def State.deriving (d : Option Derivation) (s : State) : State := { s with derivation := d }

theorem State.deriving_derivation (d : Option Derivation) (s : State) : (s.deriving d).derivation = d := rfl

theorem State.deriving_deriving (d e : Option Derivation) (s : State) : (s.deriving d).deriving e = s.deriving e := rfl

theorem State.deriving_self {d : Option Derivation} {s : State} (h : s.derivation = d) : s.deriving d = s := by
  rw [← h]
  rfl

/-! ### What stands apart from the desired states -/

section
variable {j : Fin 17} {s : State}

theorem State.handOn_dead (h : s.mode ≠ .active ∨ s.life.lifecycle = .disabled) : s.handOn j = s := if_pos h

theorem State.handOn_of_queued (hq : j ∈ s.queue) : s.handOn j = s := by
  unfold State.handOn
  rw [if_pos hq, ite_self]

theorem State.handOn_sent (h : ¬(s.mode ≠ .active ∨ s.life.lifecycle = .disabled)) (hq : j ∉ s.queue) {f : InFlight}
    (hf : s.inFlight = some f) (hs : f.slot = j) :
    s.handOn j = { s with inFlight := some { f with rejoin := true } } := by
  unfold State.handOn
  rw [if_neg h, if_neg hq, hf]
  exact if_pos hs

theorem State.handOn_of_joins (h : ¬(s.mode ≠ .active ∨ s.life.lifecycle = .disabled)) (hq : j ∉ s.queue)
    (hno : ∀ f, s.inFlight = some f → f.slot ≠ j) : s.handOn j = { s with queue := s.queue ++ [j] } := by
  unfold State.handOn
  rw [if_neg h, if_neg hq]
  cases hf : s.inFlight with
  | none => rfl
  | some f => exact if_neg (hno f hf)

end

/-- A change of a state that stands apart from its desired states: it neither touches what they are made of nor depends
on it. -/
structure State.Aside (φ : State → State) : Prop where
  queue (s : State) (q : List (Fin 17)) : φ { s with queue := q } = { φ s with queue := q }
  inFlight (s : State) (f : Option InFlight) : φ { s with inFlight := f } = { φ s with inFlight := f }
  rootCopy (s : State) (r : Option Bytes) : φ { s with rootCopy := r } = { φ s with rootCopy := r }
  desired (s : State) (g : Vector Gates 16) (v : View) :
    φ { s with gates := g, shadow := v } = { φ s with gates := g, shadow := v }
  keeps (s : State) : (φ s).mode = s.mode ∧ (φ s).life = s.life ∧ (φ s).queue = s.queue ∧ (φ s).inFlight = s.inFlight
    ∧ (φ s).gates = s.gates ∧ (φ s).shadow = s.shadow ∧ (φ s).rootCopy = s.rootCopy ∧ (φ s).grants = s.grants

section
variable {φ : State → State} (hφ : State.Aside φ)
include hφ

theorem State.handOn_aside (j : Fin 17) (s : State) : (φ s).handOn j = φ (s.handOn j) := by
  obtain ⟨hmode, hlife, hqueue, hflight, -⟩ := hφ.keeps s
  by_cases hdead : s.mode ≠ .active ∨ s.life.lifecycle = .disabled
  · rw [State.handOn_dead hdead, State.handOn_dead (by rw [hmode, hlife]; exact hdead)]
  by_cases hq : j ∈ s.queue
  · rw [State.handOn_of_queued hq, State.handOn_of_queued (by rw [hqueue]; exact hq)]
  have hlive : ¬((φ s).mode ≠ .active ∨ (φ s).life.lifecycle = .disabled) := by rw [hmode, hlife]; exact hdead
  have hnot : j ∉ (φ s).queue := by rw [hqueue]; exact hq
  by_cases hs : ∃ f, s.inFlight = some f ∧ f.slot = j
  · obtain ⟨f, hf, hs⟩ := hs
    rw [State.handOn_sent hdead hq hf hs, State.handOn_sent hlive hnot (hflight.trans hf) hs]
    exact (hφ.inFlight s _).symm
  · have hno : ∀ f, s.inFlight = some f → f.slot ≠ j := fun f hf hj => hs ⟨f, hf, hj⟩
    rw [State.handOn_of_joins hdead hq hno, State.handOn_of_joins hlive hnot (by rw [hflight]; exact hno), hqueue]
    exact (hφ.queue s _).symm

theorem State.handOnAll_aside (js : List (Fin 17)) (s : State) : (φ s).handOnAll js = φ (s.handOnAll js) := by
  unfold State.handOnAll
  induction js generalizing s with
  | nil => rfl
  | cons j js ih => rw [List.foldl_cons, List.foldl_cons, State.handOn_aside hφ, ih]

theorem State.dropRootIfClosed_aside (b : Bool) (s : State) :
    (φ s).dropRootIfClosed b = φ (s.dropRootIfClosed b) := by
  obtain ⟨-, -, -, -, hgates, -, hroot, hgrants⟩ := hφ.keeps s
  have hopen : (φ s).anyGateOpen = s.anyGateOpen := by unfold State.anyGateOpen; rw [hgates]
  have hdrop : (if b = true ∧ (φ s).anyGateOpen = false ∧ (φ s).grants = [] then none else (φ s).rootCopy) =
      if b = true ∧ s.anyGateOpen = false ∧ s.grants = [] then none else s.rootCopy := by
    rw [hopen, hgrants, hroot]
  refine (State.dropRootIfClosed_form b (φ s)).trans ?_
  rw [hdrop, s.dropRootIfClosed_form]
  exact (hφ.rootCopy s _).symm

/-- R48: a change of desired states does not touch what stands apart. -/
theorem State.changeDesired_aside (g : Vector Gates 16) (v : View) (s : State) :
    (φ s).changeDesired g v = φ (s.changeDesired g v) := by
  obtain ⟨-, -, -, -, hgates, hshadow, -, -⟩ := hφ.keeps s
  have hopen : (φ s).anyGateOpen = s.anyGateOpen := by unfold State.anyGateOpen; rw [hgates]
  unfold State.changeDesired
  rw [hgates, hshadow, hopen, ← hφ.desired, State.dropRootIfClosed_aside hφ, State.handOnAll_aside hφ]

end

theorem State.deriving_aside (d : Option Derivation) : State.Aside (State.deriving d) :=
  ⟨fun _ _ => rfl, fun _ _ => rfl, fun _ _ => rfl, fun _ _ _ => rfl,
    fun _ => ⟨rfl, rfl, rfl, rfl, rfl, rfl, rfl, rfl⟩⟩

/-- R48: a change of desired states does not touch the derivation in flight. -/
theorem State.changeDesired_deriving (d : Option Derivation) (g : Vector Gates 16) (v : View) (s : State) :
    (s.deriving d).changeDesired g v = (s.changeDesired g v).deriving d :=
  State.changeDesired_aside (State.deriving_aside d) g v s

/-! ### The effects of the falling edge -/

/-- R53, R148, R157: what the falling edge forgets. -/
def State.forgetReset (s : State) : State :=
  { s with draft := none, verified := 0, intent := none, reply := none, frameFault := false, masks := 0 }

/-- R53: the gates after the falling edge. -/
def State.resetGates (s : State) : Vector Gates 16 := closeLockOn (fun e => e.lockOn.reset) s.layout s.gates

/-- The effects of the falling edge of RST_N before it abandons a derivation. -/
def State.resetStates (s : State) : State :=
  (s.changeDesired s.resetGates .shown).forgetReset.emptySilentMirror.restartLink

theorem State.resetEffects_eq (s : State) : s.resetEffects = s.resetStates.abandonDerivation := rfl

/-- R79: the mirror of a silent part starts EMPTY. -/
theorem State.emptySilentMirror_eq (s : State) :
    s.emptySilentMirror =
      { s with
        mirror := if s.life.lifecycle = .disabled then emptyMirror else s.mirror
        mirrorShadow := if s.life.lifecycle = .disabled then .none else s.mirrorShadow } := by
  unfold State.emptySilentMirror
  split <;> rfl

/-- R73: the slots that a link which runs again takes up. -/
def State.retaken (s : State) : List (Fin 17) :=
  if s.linkState = .stopped ∧ s.life.lifecycle ≠ .disabled then s.joining else []

theorem State.restartLink_eq {s : State} (hm : s.mode = .active) :
    s.restartLink = { s with faultRun := 0, linkState := .running, queue := s.queue ++ s.retaken } := by
  unfold State.restartLink State.retaken
  cases hlink : s.linkState with
  | running =>
    rw [if_neg (by decide), if_neg (by simp), List.append_nil, ← hlink]
  | stopped =>
    by_cases hl : s.life.lifecycle = .disabled
    · rw [if_pos rfl, if_neg (by simp [hl]), List.append_nil]
      exact if_pos (.inr hl)
    · rw [if_pos rfl, if_pos ⟨rfl, hl⟩]
      exact State.enqueueDiffering_eq (s := { s with linkState := .running, faultRun := 0 }) hm hl

theorem State.forgetMirror_deriving (d : Option Derivation) (s : State) :
    (s.deriving d).forgetReset.emptySilentMirror = s.forgetReset.emptySilentMirror.deriving d := by
  rw [State.emptySilentMirror_eq, State.emptySilentMirror_eq]
  rfl

theorem State.restartLink_deriving (d : Option Derivation) {s : State} (hm : s.mode = .active) :
    (s.deriving d).restartLink = s.restartLink.deriving d := by
  rw [State.restartLink_eq hm, State.restartLink_eq (s := s.deriving d) hm]
  rfl

/-- The effects but the abandoning do not touch the derivation in flight. -/
theorem State.resetStates_deriving (d : Option Derivation) {s : State} (hm : s.mode = .active) :
    (s.deriving d).resetStates = s.resetStates.deriving d := by
  have hgates : (s.deriving d).resetGates = s.resetGates := rfl
  have hmode : (s.changeDesired s.resetGates .shown).forgetReset.emptySilentMirror.mode = .active := by
    obtain ⟨q, f, h⟩ := s.changeDesired_form s.resetGates .shown
    rw [h, State.emptySilentMirror_eq]
    exact hm
  unfold State.resetStates
  rw [hgates, s.changeDesired_deriving, State.forgetMirror_deriving, State.restartLink_deriving d hmode]

theorem State.abandonDerivation_none {s : State} (h : s.derivation = none) : s.abandonDerivation = s := by
  unfold State.abandonDerivation
  rw [h]

/-! ### The edges -/

/-- The state at a falling edge of RST_N. -/
def State.lineFallen (s : State) : State := { s.begin with rstLow := true }

theorem execRstN_active {s : State} (hm : s.mode = .active) (hlow : s.rstLow = false) :
    execRstN s = .next s.lineFallen.resetStates.abandonDerivation := by
  unfold execRstN event
  dsimp only
  rw [if_neg (by simp [hlow]), if_pos (show s.begin.mode = .active from hm), State.resetEffects_eq]
  rfl

/-- R53, R73, R79: the falling edge without a derivation in flight. -/
theorem State.resetStates_form {g : Vector Gates 16} {s : State} (hm : s.mode = .active) (hg : s.resetGates = g) :
    ∃ new : List (Fin 17),
      let u := s.changeDesired g .shown
      let v : State :=
        { u with
          draft := none, verified := 0, intent := none, reply := none, frameFault := false, masks := 0
          faultRun := 0
          linkState := .running
          mirror := if s.life.lifecycle = .disabled then emptyMirror else s.mirror
          mirrorShadow := if s.life.lifecycle = .disabled then .none else s.mirrorShadow
          queue := u.queue ++ new }
      s.resetStates = v
        ∧ (s.linkState = .running ∨ s.life.lifecycle = .disabled → new = [])
        ∧ (s.linkState = .stopped → s.life.lifecycle ≠ .disabled →
          new.Pairwise (· < ·) ∧ ∀ j, j ∈ new ↔ (v.differs j = true ∧ j ∉ u.queue)) := by
  subst hg
  unfold State.resetStates
  obtain ⟨q, f, h⟩ := s.changeDesired_form s.resetGates .shown
  rw [h, State.emptySilentMirror_eq]
  refine ⟨_, State.restartLink_eq hm, fun hr => if_neg ?_, fun hstopped hl => ?_⟩
  · rintro ⟨hstopped, hl⟩
    exact hr.elim (fun hrun => by cases hrun.symm.trans hstopped) hl
  · rw [State.retaken, if_pos ⟨hstopped, hl⟩]
    exact ⟨State.joining_pairwise _, fun j => State.mem_joining j _⟩

theorem State.resetStates_derivation {d : Option Derivation} {s : State} (hm : s.mode = .active)
    (hd : s.derivation = d) : s.resetStates.derivation = d := by
  rw [← State.deriving_self hd, State.resetStates_deriving d hm]
  exact State.deriving_derivation d _

/-- R25: the falling edge with a derivation in flight is the edge without it, and then the abandoning. -/
theorem State.resetStates_abandoned {d : Derivation} {s : State} (hm : s.mode = .active) (hd : s.derivation = some d) :
    (s.deriving none).resetStates.abandonDerivation = s.resetStates.deriving none
      ∧ s.resetStates.abandonDerivation = ((s.resetStates.deriving none).deriving (some d)).abandonDerivation := by
  have hkept : (s.resetStates.deriving none).deriving (some d) = s.resetStates :=
    (State.deriving_deriving _ _ _).trans (State.deriving_self (State.resetStates_derivation hm hd))
  refine ⟨?_, by rw [hkept]⟩
  rw [State.resetStates_deriving none hm]
  exact State.abandonDerivation_none (State.deriving_derivation _ _)

/-- R25, R24: a derivation abandoned. -/
theorem State.abandonDerivation_eq {d : Derivation} {s : State} (h : s.derivation = some d) :
    s.abandonDerivation =
      if d.work.counted then (s.deriving none).failureResolution.endCred .aborted
      else (s.deriving none).endCred .aborted := by
  unfold State.abandonDerivation
  rw [h]
  rfl

/-- Settles O51: the edges by the mode and the level, and the abandoning of a derivation. -/
theorem resetLineActsInActive : Obligations.ResetLineActsInActive := by
  refine ⟨fun s => ⟨fun hm hlow hd => ?falls, fun d hm hlow hd => ?abandons, fun hm hlow => ?other,
    fun hlow => ⟨congrArg Host.Outcome.next (if_pos hlow), congrArg Host.Outcome.next (if_pos hlow)⟩,
    fun hlow => congrArg Host.Outcome.next (if_neg (by simp [hlow]))⟩, fun d s hd => ?derivation⟩
  case falls =>
    obtain ⟨new, hstates, hnone, hnew⟩ := State.resetStates_form (s := s.lineFallen)
      (g := s.resetGates) hm rfl
    refine ⟨s.resetGates, new, fun k => ?_, ?_⟩
    · simp [State.resetGates, closeLockOn]
    · intro u v
      refine ⟨?_, hnone, hnew⟩
      change execRstN s = _
      rw [execRstN_active hm hlow, State.abandonDerivation_none (State.resetStates_derivation (s := s.lineFallen) hm hd)]
      exact congrArg Host.Outcome.next hstates
  case abandons =>
    obtain ⟨hbare, hwhole⟩ := State.resetStates_abandoned (s := s.lineFallen) hm hd
    refine ⟨_, (execRstN_active (s := { s with derivation := none }) hm hlow).trans (congrArg Host.Outcome.next hbare), ?_⟩
    exact (execRstN_active hm hlow).trans (congrArg Host.Outcome.next hwhole)
  case other => exact congrArg Host.Outcome.next ((if_neg (by simp [hlow])).trans (if_neg hm))
  case derivation =>
    intro r u
    rw [State.abandonDerivation_eq hd]
    split
    · exact State.failedAttempt_eq .aborted (s.deriving none) rfl
    · rfl

end Sys2Proof.Machine
end

