-- ==== Sys2Proof/Proofs/LossOfVmain.lean ====
section
/-! The loss of VMAIN in ACTIVE (O48). -/

namespace Sys2Proof.Machine

/-! ### A dark engine stays dark -/

/-- R76: in AUX the engine has no power: its mirror is EMPTY and nothing is queued, sent or pulsed. -/
def State.Dark (vaux : Bool) (s : State) : Prop :=
  s.mode = .aux ∧ s.vmain = false ∧ s.vaux = vaux ∧ s.mirror = emptyMirror ∧ s.mirrorShadow = .none ∧ s.queue = []
    ∧ s.inFlight = none ∧ s.kpurge = none

section
variable {v : Bool} {s : State}

/-- A change of none of these. -/
theorem State.Dark.of_eq {t : State} (h : s.Dark v) (hm : t.mode = s.mode) (hmain : t.vmain = s.vmain)
    (haux : t.vaux = s.vaux) (hmirror : t.mirror = s.mirror) (hshadow : t.mirrorShadow = s.mirrorShadow)
    (hq : t.queue = s.queue) (hf : t.inFlight = s.inFlight) (hk : t.kpurge = s.kpurge) : t.Dark v := by
  unfold State.Dark
  rw [hm, hmain, haux, hmirror, hshadow, hq, hf, hk]
  exact h

theorem State.Dark.purge (h : s.Dark v) : s.purge.Dark v := by
  obtain ⟨hm, hmain, haux, -, -, -, -, hk⟩ := h
  rw [State.purge_form s hk]
  exact ⟨hm, hmain, haux, rfl, rfl, rfl, rfl, if_neg (by rw [hm]; decide)⟩

theorem State.Dark.changeDesired (h : s.Dark v) (g : Vector Gates 16) (w : View) : (s.changeDesired g w).Dark v := by
  have hmode : s.mode ≠ .active := by rw [h.1]; decide
  unfold State.changeDesired
  rw [State.handOnAll_still _ _ (.inl (by rw [State.dropRootIfClosed_form]; exact hmode)), State.dropRootIfClosed_form]
  exact h.of_eq rfl rfl rfl rfl rfl rfl rfl rfl

theorem State.Dark.withdrawSuspend (h : s.Dark v) : s.withdrawSuspend.Dark v := by
  rw [State.withdrawSuspend_form]
  exact h.of_eq rfl rfl rfl rfl rfl rfl rfl rfl

theorem State.Dark.shutDown (h : s.Dark v) (ve : BitVec 8) (d : Micros) : (s.shutDown ve d).Dark v := by
  have hclosed : State.Dark v { s.purge.closeAll with verified := ve, decayCount := d } :=
    (h.purge.changeDesired allClosed .shown).of_eq rfl rfl rfl rfl rfl rfl rfl rfl
  exact hclosed.withdrawSuspend

theorem State.Dark.enterStages (h : s.Dark v) (levels : List Stage) : (levels.foldl State.enterStage s).Dark v := by
  refine List.foldlRecOn (motive := State.Dark v) levels _ h fun u hu l _ => ?_
  cases l with
  | calm | wipe => exact hu
  | alert => exact hu.withdrawSuspend
  | lockdown => exact hu.shutDown 0 0

theorem State.Dark.abandonInWipe (h : s.Dark v) : s.abandonInWipe.Dark v := by
  obtain ⟨c, e, n, w, b, l, o, hform, -⟩ := s.abandonInWipe_form
  rw [hform]
  exact h.of_eq rfl rfl rfl rfl rfl rfl rfl rfl

theorem State.Dark.wipeStartActions (h : s.Dark v) : s.wipeStartActions.Dark v := by
  have hshut := h.shutDown 0 s.purge.closeAll.decayCount
  rw [State.wipeStartActions_eq]
  generalize s.shutDown 0 s.purge.closeAll.decayCount = u at hshut ⊢
  obtain ⟨w, o, j, hform, -⟩ := State.supersedeLayout_job
    { u with
      window := u.window.stopWaiting, dormancyCount := 0, decayCount := 0
      wipeOp := .start .wipe none u.millis, wipeClaim := true }
  rw [hform]
  exact State.Dark.abandonInWipe (hshut.of_eq rfl rfl rfl rfl rfl rfl rfl rfl)

theorem State.Dark.settleRise (h : s.Dark v) (levels : List Stage) (extra : List SetId) :
    (s.settleRise levels extra).Dark v := by
  have hwipe : State.Dark v ((s.wipeStartCommit extra).latch .stageRise) :=
    h.of_eq rfl rfl rfl rfl rfl rfl rfl rfl
  have hrise : State.Dark v ((s.commit (extra ++ [.evidence])).latch .stageRise) :=
    h.of_eq rfl rfl rfl rfl rfl rfl rfl rfl
  unfold State.settleRise
  split
  · exact (hwipe.enterStages levels).wipeStartActions
  split
  · exact h.of_eq rfl rfl rfl rfl rfl rfl rfl rfl
  · exact hrise.enterStages levels

theorem State.Dark.takeEvidence (h : s.Dark v) (kind : TrailKind) (w : Nat) (extra : List SetId) :
    (s.takeEvidence kind w extra).Dark v := by
  unfold State.takeEvidence
  split
  · obtain ⟨e, levels⟩ := s.evid.take s.settings s.seconds kind w
    have hscore : State.Dark v { s with evid := e } := h.of_eq rfl rfl rfl rfl rfl rfl rfl rfl
    exact hscore.settleRise levels extra
  split
  · exact h
  · exact h.of_eq rfl rfl rfl rfl rfl rfl rfl rfl

theorem State.Dark.attemptFailed (h : s.Dark v) (o : OpOutcome) (c : Nat) (now : Millis) (op : OpRecord) :
    (s.attemptFailed o c now op).Dark v := h.of_eq rfl rfl rfl rfl rfl rfl rfl rfl

theorem State.Dark.abandonDerivation (h : s.Dark v) : s.abandonDerivation.Dark v := by
  cases hd : s.derivation with
  | none => rwa [State.abandonDerivation_none hd]
  | some d =>
    rw [State.abandonDerivation_eq hd]
    split
    · rw [State.failedAttempt_eq .aborted (s.deriving none) rfl]
      have hclear : State.Dark v { s.deriving none with cred := { (s.deriving none).cred with openAttempt := false } } :=
        h.of_eq rfl rfl rfl rfl rfl rfl rfl rfl
      exact (hclear.takeEvidence _ _ _).attemptFailed _ _ _ _
    · exact h.of_eq rfl rfl rfl rfl rfl rfl rfl rfl

end

/-! ### The grant-taking -/

theorem State.takeGrants_of_intent {i : Intent} {s : State} (h : s.intent = some i) :
    s.takeGrants =
      { s with
        intent := none
        grants := s.grantsFor i
        gates := allClosed
        rootCopy := if (s.grantsFor i).isEmpty then none else s.rootCopy
        report := { s.report with taken := (s.grantsFor i).length, dropCause := none } } := by
  unfold State.takeGrants
  rw [h]

theorem State.takeGrants_of_none {s : State} (h : s.intent = none) :
    s.takeGrants =
      { s with
        gates := closeLockOn (fun e => e.lockOn.power) s.layout s.gates
        rootCopy := none
        report := { s.report with taken := 0, dropCause := none } } := by
  unfold State.takeGrants
  rw [h]

theorem State.takeGrants_deriving (d : Option Derivation) (s : State) :
    (s.deriving d).takeGrants = s.takeGrants.deriving d := by
  cases h : s.intent with
  | none => rw [State.takeGrants_of_none h, State.takeGrants_of_none (s := s.deriving d) h]; rfl
  | some i => rw [State.takeGrants_of_intent h, State.takeGrants_of_intent (s := s.deriving d) h]; rfl

theorem State.takeGrants_begin (s : State) :
    s.takeGrants = { s.begin.takeGrants with writeImages := s.writeImages } := by
  cases h : s.intent with
  | none => rw [State.takeGrants_of_none h, State.takeGrants_of_none (s := s.begin) h]; rfl
  | some i => rw [State.takeGrants_of_intent h, State.takeGrants_of_intent (s := s.begin) h]; rfl

/-- R149: the grants of an intent. -/
theorem State.mem_grantsFor (i : Intent) (s : State) (g : Grant) :
    g ∈ s.grantsFor i ↔ g.gates = s.gates[g.range] ∧ s.gates[g.range].anyOpen = true
      ∧ s.layout.ranges[g.range].edit.resumeEligible = true ∧ g.expiry = s.now + i.hold * Config.minute := by
  unfold State.grantsFor
  rw [List.mem_filterMap]
  constructor
  · rintro ⟨k, -, hk⟩
    split at hk
    · next hopen => cases hk; exact ⟨rfl, hopen.1, hopen.2, rfl⟩
    · cases hk
  · rintro ⟨hgates, hopen, helig, hexp⟩
    refine ⟨g.range, mem_allRanges _, ?_⟩
    rw [if_pos ⟨hopen, helig⟩, ← hgates, ← hexp]

/-! ### The loss -/

theorem execVmainLoss_active {first : Bool} {s : State} (hm : s.mode = .active) (hv : s.vaux = true) :
    execVmainLoss first s = .next
      (if first then s.unpowered.abandonDerivation.takeGrants.forgetActive
       else s.unpowered.takeGrants.forgetActive.abandonDerivation) := by
  rw [← State.loseMain_eq]
  unfold execVmainLoss event
  dsimp only
  rw [State.begin_mode, hm, State.begin_vaux, hv]
  rfl

theorem State.takeGrants_forgetActive_derivation (s : State) :
    s.takeGrants.forgetActive.derivation = s.derivation := s.takeGrants_derivation

/-- R144: without a derivation in flight the order of the two does not matter. -/
theorem execVmainLoss_idle {first : Bool} {s : State} (hm : s.mode = .active) (hv : s.vaux = true)
    (hd : s.derivation = none) : execVmainLoss first s = .next s.unpowered.takeGrants.forgetActive := by
  rw [execVmainLoss_active hm hv]
  cases first with
  | true => rw [if_pos rfl, State.abandonDerivation_none (s := s.unpowered) hd]
  | false =>
    rw [if_neg (by decide), State.abandonDerivation_none (s.unpowered.takeGrants_forgetActive_derivation.trans hd)]

theorem State.lost_deriving (d : Option Derivation) (s : State) :
    (s.deriving d).unpowered.takeGrants.forgetActive = s.unpowered.takeGrants.forgetActive.deriving d :=
  congrArg State.forgetActive (State.takeGrants_deriving d s.unpowered)

/-- A dark state that is called ACTIVE is unpowered back to itself. -/
theorem State.Dark.unpowered {v : Bool} {s : State} (h : s.Dark v) : State.unpowered { s with mode := .active } = s.begin := by
  obtain ⟨hm, hmain, -, hmirror, hshadow, hq, hf, hk⟩ := h
  unfold State.unpowered State.emptyEngine State.begin
  rw [← hm, ← hmain, ← hmirror, ← hshadow, ← hq, ← hf, ← hk]

/-- Settles O48: the loss without a derivation in flight, and with one by which comes first. -/
theorem lossOfVmainEntersAux : Obligations.LossOfVmainEntersAux := by
  refine ⟨fun first s hm hv hd => ⟨_, execVmainLoss_idle hm hv hd, ?idle⟩,
    fun d s hm hv hd => ⟨⟨_, execVmainLoss_idle (s := s.deriving none) hm hv rfl, ?after⟩, ?before⟩⟩
  case idle =>
    cases hi : s.intent with
    | none =>
      rw [State.takeGrants_of_none (s := s.unpowered) hi]
      refine ⟨rfl, rfl, hi, nofun, fun _ => ⟨rfl, fun k => ?_⟩, rfl, rfl, rfl, rfl, rfl, rfl, rfl, rfl, rfl, rfl, rfl, rfl,
        rfl, rfl, rfl, rfl, rfl, rfl, rfl, rfl, rfl, rfl, rfl, rfl, rfl, rfl, rfl, rfl, rfl⟩
      exact (Vector.getElem_ofFn _)
    | some i =>
      rw [State.takeGrants_of_intent (s := s.unpowered) hi]
      refine ⟨rfl, rfl, rfl, fun i' hi' => ?_, nofun, rfl, ?_, rfl, rfl, rfl, rfl, rfl, rfl, rfl, rfl, rfl, rfl,
        rfl, rfl, rfl, rfl, rfl, rfl, rfl, rfl, rfl, rfl, rfl, rfl, rfl, rfl, rfl, rfl, rfl⟩
      · cases hi'
        exact ⟨rfl, s.unpowered.mem_grantsFor i⟩
      · change (if (s.unpowered.grantsFor i).isEmpty then none else s.rootCopy) =
          if (some i).isSome ∧ s.unpowered.grantsFor i ≠ [] then s.rootCopy else none
        cases s.unpowered.grantsFor i <;> rfl
  case after =>
    refine (execVmainLoss_active hm hv).trans (congrArg Host.Outcome.next ?_)
    rw [if_neg (by decide), State.lost_deriving]
    exact congrArg State.abandonDerivation 
      (State.deriving_self ((State.takeGrants_forgetActive_derivation s.unpowered).trans hd)).symm
  case before =>
    intro a
    have hdark : a.Dark true := State.Dark.abandonDerivation ⟨rfl, rfl, hv, rfl, rfl, rfl, rfl, rfl⟩
    have hvaux : a.vaux = true := by obtain ⟨-, -, h, -⟩ := hdark; exact h
    refine ⟨_, execVmainLoss_idle (s := { a with mode := .active }) rfl hvaux
      (State.abandonDerivation_subsides s.unpowered).2, ?_⟩
    refine (execVmainLoss_active hm hv).trans (congrArg Host.Outcome.next ?_)
    rw [hdark.unpowered]
    exact congrArg State.forgetActive a.takeGrants_begin

end Sys2Proof.Machine
end

