-- ==== Sys2Proof/Proofs/Evidence.lean ====
section
/-! The evidence score and the stage (O31). -/

namespace Sys2Proof.Machine

/-! ### The score, the stage and the trail -/

/-- R104: the STAGE entries of the levels entered. -/
def Evidence.enterLevels (time score : Nat) (levels : List Stage) (e : Evidence) : Evidence :=
  levels.foldl (fun e l => e.append time .stage 0 score l) e

/-- The STAGE entries carry the score, which they leave. -/
theorem Evidence.enterLevels_score (time score : Nat) (levels : List Stage) (e : Evidence) (h : e.score = score) :
    levels.foldl (fun e l => e.append time .stage 0 e.score l) e = e.enterLevels time score levels := by
  induction levels generalizing e with
  | nil => rfl
  | cons l levels ih =>
    subst h
    exact ih (e.append time .stage 0 e.score l) rfl

/-- R101: an event that adds to the score raises the stage by R103. -/
theorem Evidence.take_risen {c : Settings} {time : Nat} {kind : TrailKind} {w : Nat} {e : Evidence}
    (h : e.score < min 4095 (e.score + w)) :
    let score := min 4095 (e.score + w)
    let stage := evaluate c score e.stage
    let own := Evidence.append time kind w score e.stage { e with score := score }
    e.take c time kind w =
      (Evidence.enterLevels time score (passed e.stage stage) { own with stage := stage }, passed e.stage stage) := by
  refine (if_pos h).trans ?_
  unfold Evidence.rise
  exact Prod.ext (Evidence.enterLevels_score time _ _ _ rfl) rfl

/-- R101: an event that adds nothing leaves the stage. -/
theorem Evidence.take_level {c : Settings} {time : Nat} {kind : TrailKind} {w : Nat} {e : Evidence}
    (h : ¬e.score < min 4095 (e.score + w)) :
    e.take c time kind w =
      (Evidence.append time kind w (min 4095 (e.score + w)) e.stage { e with score := min 4095 (e.score + w) }, []) :=
  if_neg h

/-- R104: the levels passed lie above the one and up to the other. -/
theorem mem_passed (old new l : Stage) : l ∈ passed old new ↔ old.code < l.code ∧ l.code ≤ new.code := by
  have hlevel : old.code < l.code → l ∈ [Stage.alert, .lockdown, .wipe] := by
    cases l with
    | calm => exact fun h => absurd h (Nat.not_lt_zero _)
    | alert | lockdown | wipe => simp
  unfold passed
  rw [List.mem_filter, Bool.and_eq_true, decide_eq_true_iff, decide_eq_true_iff]
  exact and_iff_right_of_imp fun h => hlevel h.1

theorem passed_pairwise (old new : Stage) : (passed old new).Pairwise (fun x y => x.code < y.code) :=
  List.Pairwise.filter _ (by decide)

/-! ### The effects of a rise -/

theorem State.settleRise_wipe {levels : List Stage} (h : levels.contains .wipe = true) (extra : List SetId) (s : State) :
    s.settleRise levels extra =
      (levels.foldl State.enterStage ((s.wipeStartCommit extra).latch .stageRise)).wipeStartActions := if_pos h

theorem State.settleRise_below {levels : List Stage} (h : levels.contains .wipe = false) (hne : levels.isEmpty = false)
    (extra : List SetId) (s : State) :
    s.settleRise levels extra =
      levels.foldl State.enterStage ((s.commit (extra ++ [.evidence])).latch .stageRise) :=
  (if_neg (by rw [h]; decide)).trans (if_neg (by rw [hne]; decide))

theorem State.settleRise_nil (extra : List SetId) (s : State) : s.settleRise [] extra = s.commit (extra ++ [.evidence]) :=
  rfl

theorem State.takeEvidence_taken {kind : TrailKind} {w : Nat} {extra : List SetId} {s : State} {levels : List Stage}
    (hl : s.life.lifecycle.takesEvidence = true) (h : (s.evid.take s.settings s.seconds kind w).2 = levels) :
    s.takeEvidence kind w extra =
      State.settleRise levels extra { s with evid := (s.evid.take s.settings s.seconds kind w).1 } := by
  unfold State.takeEvidence
  rw [if_pos hl, ← h]

theorem State.takeEvidence_declined {kind : TrailKind} {w : Nat} {extra : List SetId} {s : State}
    (hl : s.life.lifecycle.takesEvidence = false) :
    s.takeEvidence kind w extra = if extra = [] then s else s.commit extra := by
  unfold State.takeEvidence
  rw [if_neg (by rw [hl]; decide)]
  simp only [List.isEmpty_iff]

/-- R118: the trail of 24 entries loses its oldest. -/
theorem Evidence.append_trail (time : Nat) (kind : TrailKind) (w score : Nat) (stage : Stage) (e : Evidence) :
    ((e.append time kind w score stage).trail =
      (if 24 ≤ e.trail.length then e.trail.drop (e.trail.length - 23) else e.trail) ++
        [⟨match e.trail.getLast? with
          | none => time
          | some newest => max time newest.time, kind, w, score, stage⟩]) := by
  unfold Evidence.append
  cases e.trail.getLast? <;> rfl

/-- Settles O31: the score and the stage, the levels, the effects by the levels entered, and the trail. -/
theorem evidenceRaisesScoreAndStage : Obligations.EvidenceRaisesScoreAndStage := by
  refine ⟨fun c time kind w e => ?score, fun old new l => ⟨mem_passed old new l, passed_pairwise old new⟩,
    fun kind w extra s => ?effects, fun time kind w score stage e => ?trail⟩
  case score =>
    intro score stage own
    by_cases h : e.score < score
    · have hstage : stage = evaluate c score e.stage := if_pos h
      rw [Evidence.take_risen h, hstage]
      exact ⟨rfl, rfl⟩
    · have hstage : stage = e.stage := if_neg h
      rw [Evidence.take_level h, hstage, passed_self]
      exact ⟨rfl, rfl⟩
  case effects =>
    intro e u raised wipe wiped
    refine ⟨fun hl => State.takeEvidence_declined ?_, fun hl => ?taken, s.withdrawSuspend_form⟩
    · rcases hl with hl | hl <;> rw [hl] <;> rfl
    case taken =>
      have htakes : s.life.lifecycle.takesEvidence = true := by rcases hl with hl | hl <;> rw [hl] <;> rfl
      have htaken {levels : List Stage} (h : e.2 = levels) :
          s.takeEvidence kind w extra = State.settleRise levels extra { s with evid := e.1 } :=
        State.takeEvidence_taken htakes h
      exact ⟨fun h => htaken h, fun h => (htaken h).trans (State.settleRise_below rfl rfl _ _),
        fun h => (htaken h).trans (State.settleRise_below rfl rfl _ _),
        fun h => (htaken h).trans (State.settleRise_below rfl rfl _ _),
        fun h => (htaken h).trans (State.settleRise_wipe rfl _ _),
        fun h => (htaken h).trans (State.settleRise_wipe rfl _ _),
        fun h => (htaken h).trans (State.settleRise_wipe rfl _ _)⟩
  case trail =>
    refine ⟨fun hl => ?_, fun hl => ?_, rfl, rfl, rfl⟩
    · rw [Evidence.append_trail, if_neg (not_le.2 hl)] <;> rfl
    · rw [Evidence.append_trail, if_pos hl.ge, hl, List.drop_one] <;> rfl

end Sys2Proof.Machine
end

