-- ==== Sys2Proof/Proofs/Comparison.lean ====
section
/-! The comparison of a head slot (O38). -/

namespace Sys2Proof.Machine

/-! ### What a comparison chooses -/

section
variable {want : Gates} {m : MirrorRecord}

theorem chooseRange_absent (ho : want.anyOpen = false) (he : m.state = .empty) : chooseRange want m = .nothing :=
  (if_neg (by simp [ho])).trans (if_pos he)

theorem chooseRange_unwanted (ho : want.anyOpen = false) (he : m.state ≠ .empty) : chooseRange want m = .clear :=
  (if_neg (by simp [ho])).trans (if_neg he)

theorem chooseRange_missing (ho : want.anyOpen = true) (he : m.state = .empty) : chooseRange want m = .load :=
  (if_pos ho).trans (if_pos he)

theorem chooseRange_held (ho : want.anyOpen = true) (he : m.state ≠ .empty) :
    chooseRange want m = if m.gates = want then .nothing else .gates := (if_pos ho).trans (if_neg he)

end

section
variable {k : Fin 16} {s : State}

theorem State.compareRange_nothing (h : chooseRange (s.wantGates k) s.mirror[k] = .nothing) : s.compareRange k = s := by
  unfold State.compareRange
  rw [h]

theorem State.compareRange_load (h : chooseRange (s.wantGates k) s.mirror[k] = .load) :
    s.compareRange k = s.buildLoad k := by
  unfold State.compareRange
  rw [h]

theorem State.compareRange_gates (h : chooseRange (s.wantGates k) s.mirror[k] = .gates) :
    s.compareRange k = s.send (rangeSlot k) (.gates k (s.wantGates k)) := by
  unfold State.compareRange
  rw [h]

theorem State.compareRange_clear (h : chooseRange (s.wantGates k) s.mirror[k] = .clear) :
    s.compareRange k = (s.markMirror k .clearing).send (rangeSlot k) (.clear k) := by
  unfold State.compareRange
  rw [h]

theorem State.wantGates_free (h : s.restricted = false) : s.wantGates k = s.gates[k] := if_neg (by simp [h])

theorem State.wantGates_restricted (h : s.restricted = true) : s.wantGates k = .closed := if_pos h

theorem State.wantView_free (h : s.restricted = false) : s.wantView = s.shadow := if_neg (by simp [h])

theorem State.wantView_restricted (h : s.restricted = true) : s.wantView = .shown := if_pos h

/-- R69: a LOAD whose key unwraps. -/
theorem State.buildLoad_of_key {root key : Bytes} (hr : s.rootCopy.or s.rootInCell = some root)
    (hk : s.cells[rangeCell k] = .holding (wrapKey root key)) :
    s.buildLoad k =
      { s with
        rootCopy := some root
        mirror := s.mirror.set k { s.mirror[k] with state := .loading }
        inFlight := some ⟨rangeSlot k,
          .load k key (s.wantGates k) s.layout.ranges[k].edit.response (s.loadExtent k), s.now, false⟩ } := by
  have hunwrap : ((s.rootCopy.or s.rootInCell).bind fun r => unwrapKey r s.cells[rangeCell k]) = some key := by
    rw [hr, hk]
    exact if_pos rfl
  unfold State.buildLoad
  dsimp only
  rw [hunwrap, hr]
  rfl

/-- R7, R69: a LOAD whose key does not unwrap. -/
theorem State.buildLoad_of_none (hr : ∀ root ∈ s.rootCopy.or s.rootInCell, unwrapKey root s.cells[rangeCell k] = none) :
    s.buildLoad k = State.unwrapFailed k { s with rootCopy := s.rootCopy.or s.rootInCell } := by
  have hunwrap : ((s.rootCopy.or s.rootInCell).bind fun r => unwrapKey r s.cells[rangeCell k]) = none :=
    Option.bind_eq_none_iff.2 hr
  unfold State.buildLoad
  dsimp only
  rw [hunwrap]

end

/-! ### A failed unwrap -/

theorem eq_sixteen_of_slotRange {j : Fin 17} (h : slotRange j = none) : j = 16 := by
  unfold slotRange at h
  split at h
  · cases h
  · next hj => exact Fin.ext (by change j.val = 16; omega)

/-- R48: where one open range closes, its slot alone joins the queue. -/
theorem State.changeDesired_close {k : Fin 16} {s : State} (hm : s.mode = .active) (hl : s.life.lifecycle ≠ .disabled)
    (hf : s.inFlight = none) (hopen : s.gates[k].anyOpen = true) (hq : rangeSlot k ∉ s.queue) :
    (s.changeDesired (gatesWith s.gates k .closed) s.shadow).queue = s.queue ++ [rangeSlot k] := by
  obtain ⟨-, -, hon, hranges, hshadow, -⟩ := desiredStatesAreHandedOn (gatesWith s.gates k .closed) s.shadow s
  obtain ⟨-, ⟨new, hqueue, hsorted, hnew⟩, -⟩ := hon hm hl
  have hchanged (i : Fin 16) : s.gates[i] ≠ (gatesWith s.gates k .closed)[i] ↔ i = k := by
    rw [show (gatesWith s.gates k .closed)[i] = if i = k then .closed else s.gates[i] from Vector.get_set_fin _ _ _ _]
    by_cases hi : i = k
    · subst hi
      rw [if_pos rfl]
      exact iff_of_true (fun h => by rw [h] at hopen; cases hopen) rfl
    · rw [if_neg hi]
      exact iff_of_false (fun h => h rfl) hi
  have hmem (j : Fin 17) : j ∈ new ↔ j ∈ [rangeSlot k] := by
    rw [hnew, List.mem_singleton]
    cases hj : slotRange j with
    | none =>
      rw [eq_sixteen_of_slotRange hj]
      exact iff_of_false (fun h => hshadow.1 h.1 rfl) (rangeSlot_ne_shadow k).symm
    | some i =>
      rw [eq_rangeSlot_of_slotRange hj]
      refine ⟨fun h => congrArg rangeSlot ((hchanged i).1 ((hranges i).1 h.1)), fun h => ?_⟩
      cases rangeSlot_injective h
      exact ⟨(hranges _).2 ((hchanged _).2 rfl), hq, fun f h => by cases hf.symm.trans h⟩
  have hsingle : new = [rangeSlot k] := List.perm_singleton.1
    ((List.perm_ext_iff_of_nodup (hsorted.imp ne_of_lt) (List.nodup_singleton _)).2 hmem)
  rw [hqueue, hsingle]

/-- R7, R69: the commit of a failed unwrap. -/
def State.markFaulted (k : Fin 16) (s : State) : State :=
  State.commit [.layout]
    { s with
      layout :=
        { s.layout with ranges := s.layout.ranges.set k { s.layout.ranges[k] with health := .faulted } } }

/-- R7, R69: a failed unwrap closes an open range, whose slot joins the queue. -/
theorem State.unwrapFailed_form {k : Fin 16} {s : State} (hm : s.mode = .active) (hl : s.life.lifecycle ≠ .disabled)
    (hf : s.inFlight = none) (hopen : s.gates[k].anyOpen = true) (hq : rangeSlot k ∉ s.queue) :
    ∃ root, s.unwrapFailed k =
      { s.markFaulted k with
        gates := gatesWith s.gates k .closed
        queue := s.queue ++ [rangeSlot k]
        inFlight := none
        rootCopy := root } := by
  have heq : s.unwrapFailed k = (s.markFaulted k).changeDesired (gatesWith s.gates k .closed) s.shadow := rfl
  have hqueue := State.changeDesired_close (s := s.markFaulted k) hm hl hf hopen hq
  have hflight := State.changeDesired_inFlight_none (gatesWith s.gates k .closed) s.shadow (s.markFaulted k) hf
  obtain ⟨q, f, h⟩ := State.changeDesired_form (gatesWith s.gates k .closed) s.shadow (s.markFaulted k)
  have hq' : q = s.queue ++ [rangeSlot k] := (congrArg State.queue h).symm.trans hqueue
  have hf' : f = none := (congrArg State.inFlight h).symm.trans hflight
  rw [heq, h, hq', hf']
  exact ⟨_, rfl⟩

/-- R67: the comparison of slot 16. -/
theorem State.compareShadow_empty {s : State} (h : s.mirrorShadow.state = .empty) :
    s.compareShadow =
      { s with
        mirrorShadow := { s.mirrorShadow with state := .loading }
        inFlight := some ⟨16, .shadow s.wantView s.settings.shadowL, s.now, false⟩ } := by
  have hdiffers : shadowDiffers s.wantView s.settings.shadowL s.mirrorShadow = true := by simp [shadowDiffers, h]
  unfold State.compareShadow
  rw [if_pos hdiffers]
  dsimp only
  rw [if_pos h]
  rfl

theorem State.compareShadow_held {s : State} (h : s.mirrorShadow.state ≠ .empty) :
    s.compareShadow =
      if s.mirrorShadow.view = s.wantView ∧ s.mirrorShadow.length = some s.settings.shadowL then s
      else { s with inFlight := some ⟨16, .shadow s.wantView s.settings.shadowL, s.now, false⟩ } := by
  have hdiffers : shadowDiffers s.wantView s.settings.shadowL s.mirrorShadow = true ↔
      ¬(s.mirrorShadow.view = s.wantView ∧ s.mirrorShadow.length = some s.settings.shadowL) := by
    simp only [shadowDiffers, Bool.or_eq_true, beq_iff_eq, bne_iff_ne, h, false_or]
    tauto
  unfold State.compareShadow
  by_cases heq : s.mirrorShadow.view = s.wantView ∧ s.mirrorShadow.length = some s.settings.shadowL
  · rw [if_neg (mt hdiffers.1 (not_not.2 heq)), if_pos heq]
  · rw [if_pos (hdiffers.2 heq), if_neg heq]
    dsimp only
    rw [if_neg h]
    rfl

/-! ### The head slot -/

/-- R65: the state in which the head slot has left the queue. -/
def State.headLeft (rest : List (Fin 17)) (s : State) : State := { s.begin with queue := rest }

theorem execSyncCompare_ready {j : Fin 17} {rest : List (Fin 17)} {s : State} (hq : s.queue = j :: rest)
    (hr : s.syncReady = true) : execSyncCompare s = .next ((s.headLeft rest).compareSlot j) := by
  unfold execSyncCompare event
  dsimp only
  rw [State.begin_queue, hq]
  exact congrArg Host.Outcome.next (if_pos hr)

theorem execSyncCompare_waiting {s : State} (h : s.queue = [] ∨ s.syncReady = false) :
    execSyncCompare s = .next s.begin := by
  unfold execSyncCompare event
  dsimp only
  rw [State.begin_queue]
  cases hq : s.queue with
  | nil => rfl
  | cons j rest =>
    have hnot : s.begin.syncReady = false := h.resolve_left (by rw [hq]; exact List.cons_ne_nil _ _)
    exact congrArg Host.Outcome.next (if_neg (by rw [hnot]; decide))

theorem State.syncReady_iff (s : State) :
    s.syncReady = true ↔ s.mode = .active ∧ s.inFlight = none ∧ s.kpurge = none ∧ s.linkState = .running
      ∧ s.life.lifecycle ≠ .disabled ∧ s.queue ≠ [] := by
  simp [State.syncReady, and_assoc]

theorem execSyncCompare_range {k : Fin 16} {rest : List (Fin 17)} {s : State} (hq : s.queue = rangeSlot k :: rest)
    (hr : s.syncReady = true) : execSyncCompare s = .next ((s.headLeft rest).compareRange k) := by
  rw [execSyncCompare_ready hq hr]
  unfold State.compareSlot
  rw [slotRange_rangeSlot]

theorem execSyncCompare_shadow {rest : List (Fin 17)} {s : State} (hq : s.queue = 16 :: rest)
    (hr : s.syncReady = true) : execSyncCompare s = .next (s.headLeft rest).compareShadow :=
  execSyncCompare_ready hq hr

/-! ### The extent of a LOAD -/

theorem mem_insertSpan (x y : Span) (l : List Span) : y ∈ insertSpan x l ↔ y = x ∨ y ∈ l := by
  induction l with
  | nil => simp [insertSpan]
  | cons a l ih =>
    unfold insertSpan
    split
    · exact List.mem_cons
    · rw [List.mem_cons, ih, List.mem_cons]
      tauto

theorem insertSpan_pairwise {x : Span} {l : List Span} (h : l.Pairwise fun x y => x.start ≤ y.start) :
    (insertSpan x l).Pairwise fun x y => x.start ≤ y.start := by
  induction l with
  | nil => exact List.pairwise_singleton _ _
  | cons a l ih =>
    obtain ⟨ha, hl⟩ := List.pairwise_cons.1 h
    unfold insertSpan
    split
    · next hlt =>
      exact List.pairwise_cons.2 ⟨List.forall_mem_cons.2 ⟨hlt.le, fun y hy => hlt.le.trans (ha y hy)⟩, h⟩
    · next hge =>
      refine List.pairwise_cons.2 ⟨fun y hy => ?_, ih hl⟩
      rcases (mem_insertSpan x y l).1 hy with rfl | hy
      · exact not_lt.1 hge
      · exact ha y hy

theorem foldr_insertSpan (l : List Span) :
    (l.foldr insertSpan []).Pairwise (fun x y => x.start ≤ y.start) ∧ ∀ x, x ∈ l.foldr insertSpan [] ↔ x ∈ l := by
  induction l with
  | nil => exact ⟨List.Pairwise.nil, fun x => Iff.rfl⟩
  | cons a l ih =>
    refine ⟨insertSpan_pairwise ih.1, fun x => ?_⟩
    rw [List.foldr_cons, mem_insertSpan, ih.2, List.mem_cons]

/-- R48: the spans of the enabled ranges. -/
theorem Layout.mem_spans (l : Layout) (x : Span) :
    x ∈ l.spans ↔ ∃ i : Fin 16, i ≠ 0 ∧ l.ranges[i].edit.enabled = true ∧ l.ranges[i].edit.extent = some x := by
  unfold Layout.spans
  rw [(foldr_insertSpan _).2, List.mem_filterMap]
  refine exists_congr fun i => (and_iff_right (mem_allRanges i)).trans ?_
  split
  · next h => exact ⟨fun hx => ⟨h.1, h.2, hx⟩, fun hx => hx.2.2⟩
  · next h => exact ⟨nofun, fun hx => absurd ⟨hx.1, hx.2.1⟩ h⟩

/-- Settles O38: the table of R66 and R67, free and restricted, the failed unwrap, and the extent of a LOAD. -/
theorem headSlotIsComparedAndSent : Obligations.HeadSlotIsComparedAndSent := by
  refine ⟨fun j rest s hq hm hf hk hl hfree => ?free, fun k rest s hq hnot hm hf hk hl hfree hopen he hno => ?failed,
    fun j rest s hq hm hf hk hl hd hres => ?restricted, fun s h => ?waits, fun k s => ?extent⟩
  case free =>
    intro r sent
    have hlive : s.life.lifecycle ≠ .disabled := fun h => by
      have := s.restricted_iff.2 (.inr (.inr (.inr h)))
      rw [hfree] at this
      cases this
    have hready : s.syncReady = true := s.syncReady_iff.2 ⟨hm, hf, hk, hl, hlive, by rw [hq]; exact List.cons_ne_nil _ _⟩
    have hrfree : (s.headLeft rest).restricted = false := hfree
    refine ⟨?range, ?shadow⟩
    case range =>
      rintro k rfl m
      have hwant : (s.headLeft rest).wantGates k = s.gates[k] := State.wantGates_free hrfree
      have hexec : exec .syncCompare s = .next ((s.headLeft rest).compareRange k) := execSyncCompare_range hq hready
      refine ⟨fun ho he => ?absent, fun ho he => ?unwanted, fun ho he => ?held, fun ho he root key hroot hkey => ?load⟩
      case absent => rw [hexec, State.compareRange_nothing (by rw [hwant]; exact chooseRange_absent ho he)]; rfl
      case unwanted =>
        have hne : m.state ≠ .empty := by rw [he]; decide
        rw [hexec, State.compareRange_clear (by rw [hwant]; exact chooseRange_unwanted ho hne)]
        rfl
      case held =>
        have hne : m.state ≠ .empty := by rw [he]; decide
        have hchoice : chooseRange ((s.headLeft rest).wantGates k) (s.headLeft rest).mirror[k] =
            if m.gates = s.gates[k] then .nothing else .gates := by
          rw [hwant]
          exact chooseRange_held ho hne
        rw [hexec]
        by_cases heq : m.gates = s.gates[k]
        · rw [if_pos heq, State.compareRange_nothing (hchoice.trans (if_pos heq))]
          rfl
        · rw [if_neg heq, State.compareRange_gates (hchoice.trans (if_neg heq)), hwant]
          rfl
      case load =>
        rw [hexec, State.compareRange_load (by rw [hwant]; exact chooseRange_missing ho he),
          State.buildLoad_of_key (s := s.headLeft rest) hroot hkey, hwant]
        rfl
    case shadow =>
      rintro rfl m t
      have hview : (s.headLeft rest).wantView = s.shadow := State.wantView_free hrfree
      have hexec : exec .syncCompare s = .next (s.headLeft rest).compareShadow := execSyncCompare_shadow hq hready
      refine ⟨fun he => ?_, fun he => ?_⟩
      · rw [hexec, State.compareShadow_empty (s := s.headLeft rest) he, hview]
        rfl
      · rw [hexec, State.compareShadow_held (s := s.headLeft rest) (fun h => by cases he.symm.trans h), hview]
        rfl
  case failed =>
    have hlive : s.life.lifecycle ≠ .disabled := fun h => by
      have := s.restricted_iff.2 (.inr (.inr (.inr h)))
      rw [hfree] at this
      cases this
    have hready : s.syncReady = true := s.syncReady_iff.2 ⟨hm, hf, hk, hl, hlive, by rw [hq]; exact List.cons_ne_nil _ _⟩
    have hwant : (s.headLeft rest).wantGates k = s.gates[k] := State.wantGates_free (s := s.headLeft rest) hfree
    have hexec : exec .syncCompare s = .next ((s.headLeft rest).compareRange k) := execSyncCompare_range hq hready
    rw [State.compareRange_load (by rw [hwant]; exact chooseRange_missing hopen he),
      State.buildLoad_of_none (s := s.headLeft rest) hno] at hexec
    obtain ⟨root, hform⟩ := State.unwrapFailed_form (k := k)
      (s := { s.headLeft rest with rootCopy := s.rootCopy.or s.rootInCell }) hm hlive hf hopen hnot
    refine ⟨_, hexec.trans (congrArg Host.Outcome.next hform), rfl, rfl, rfl, ?_, ?_, fun i hi => ⟨?_, ?_⟩, rfl, rfl, rfl,
      rfl, rfl, rfl, rfl⟩
    · exact (Vector.get_set_fin _ _ _ _).trans (if_pos rfl)
    · exact (Vector.get_set_fin _ _ _ _).trans (if_pos rfl)
    · exact (Vector.get_set_fin _ _ _ _).trans (if_neg hi)
    · exact (Vector.get_set_fin _ _ _ _).trans (if_neg hi)
  case restricted =>
    intro r sent
    have hready : s.syncReady = true := s.syncReady_iff.2 ⟨hm, hf, hk, hl, hd, by rw [hq]; exact List.cons_ne_nil _ _⟩
    have hrestricted : (s.headLeft rest).restricted = true :=
      s.restricted_iff.2 (hres.imp_right (Or.imp_right .inl))
    refine ⟨?range, ?shadow⟩
    case range =>
      rintro k rfl
      have hwant : (s.headLeft rest).wantGates k = .closed := State.wantGates_restricted hrestricted
      have hexec : exec .syncCompare s = .next ((s.headLeft rest).compareRange k) := execSyncCompare_range hq hready
      rw [hexec]
      by_cases he : s.mirror[k].state = .empty
      · rw [if_pos he, State.compareRange_nothing (by rw [hwant]; exact chooseRange_absent rfl he)]
        rfl
      · rw [if_neg he, State.compareRange_clear (by rw [hwant]; exact chooseRange_unwanted rfl he)]
        rfl
    case shadow =>
      rintro rfl m t
      have hview : (s.headLeft rest).wantView = .shown := State.wantView_restricted hrestricted
      have hexec : exec .syncCompare s = .next (s.headLeft rest).compareShadow := execSyncCompare_shadow hq hready
      refine ⟨fun he => ?_, fun he => ?_⟩
      · rw [hexec, State.compareShadow_empty (s := s.headLeft rest) he, hview]
        rfl
      · rw [hexec, State.compareShadow_held (s := s.headLeft rest) he, hview]
        rfl
  case waits =>
    refine execSyncCompare_waiting (Classical.or_iff_not_imp_left.2 fun hq => ?_)
    rw [← Bool.not_eq_true, s.syncReady_iff]
    rintro ⟨hm, hf, hk, hl, hd, -⟩
    rcases h with h | h | h | h | h | h
    · exact hq h
    · exact h hm
    · exact h hf
    · exact h hk
    · cases hl.symm.trans h
    · exact hd h
  case extent =>
    refine ⟨fun h => if_pos h, fun h x hx => ?_, (foldr_insertSpan _).1, s.layout.mem_spans⟩
    refine (if_neg h).trans ?_
    rw [hx]
    rfl

end Sys2Proof.Machine
end

