-- ==== Sys2Proof/Proofs/SetPolicy.lean ====
section
/-! SET_POLICY (O29). -/

namespace Sys2Proof.Machine

/-! ### What a new policy does to each block -/

/-- R86: the beacon watch under a new policy. -/
def beaconAfter (old c : Settings) (now : Micros) : Option BeaconWatch → Option BeaconWatch
  | none => if c.beaconOn = true ∧ old.beaconOn = false then some ⟨none, now, none, now + c.w * 1000000⟩ else none
  | some b =>
    if c.beaconOn = false then none else some (if c.w = old.w then b else { b with deadline := now + c.w * 1000000 })

theorem State.beaconPolicy_off {old : Settings} {s : State} (hm : s.mode = .active) (hb : s.beacon = none) :
    s.beaconPolicy old = { s with beacon := beaconAfter old s.settings s.now none } := by
  have hruns : s.mode.tamperRuns = true := by rw [hm]; rfl
  unfold State.beaconPolicy beaconAfter
  rw [hb]
  dsimp only
  by_cases hon : s.settings.beaconOn = true ∧ old.beaconOn = false
  · rw [if_pos hon, if_pos ⟨hon.1, by rw [hon.2]; rfl, hruns⟩]
    rfl
  · rw [if_neg hon, if_neg fun h => hon ⟨h.1, by simpa using h.2.1⟩, ← hb]

theorem State.beaconPolicy_on {old : Settings} {b : BeaconWatch} {s : State} (hb : s.beacon = some b) :
    s.beaconPolicy old = { s with beacon := beaconAfter old s.settings s.now (some b) } := by
  unfold State.beaconPolicy beaconAfter
  rw [hb]
  dsimp only
  by_cases hoff : s.settings.beaconOn = false
  · rw [if_pos hoff, if_pos (by rw [hoff]; rfl)]
  · rw [if_neg hoff, if_neg (by simpa using hoff)]
    by_cases hw : s.settings.w = old.w
    · rw [if_pos hw, if_neg (not_not.2 hw), ← hb]
    · rw [if_neg hw, if_pos hw]
      rfl

theorem State.beaconPolicy_eq {old : Settings} {s : State} (hm : s.mode = .active) :
    s.beaconPolicy old = { s with beacon := beaconAfter old s.settings s.now s.beacon } := by
  cases hb : s.beacon with
  | none => exact State.beaconPolicy_off hm hb
  | some b => exact State.beaconPolicy_on hb

/-- R89: the tamper watch under a new policy. -/
def tamperAfter (old c : Settings) (tampOpen : Bool) (now : Micros) (x : TamperState) : TamperState :=
  if c.tamperCode = old.tamperCode then x
  else if c.tamperCode = 0 then .off
  else if old.tamperCode = 0 then (if tampOpen then .opening now else .armed)
  else x.retime now

theorem State.tamperPolicy_eq (old : Settings) (s : State) :
    s.tamperPolicy old = { s with tamper := tamperAfter old s.settings s.tampOpen s.now s.tamper } := by
  unfold State.tamperPolicy tamperAfter
  dsimp only
  rw [show TamperState.armed.read s.tampOpen s.now = if s.tampOpen then .opening s.now else .armed from rfl]
  split_ifs <;> rfl

theorem State.dormancyPolicy_eq (old : Settings) (s : State) :
    s.dormancyPolicy old =
      { s with dormancyCount := if s.settings.dormId = old.dormId then s.dormancyCount else 0 } := by
  unfold State.dormancyPolicy
  split_ifs <;> rfl

theorem State.decayPolicy_eq (old : Settings) (s : State) :
    s.decayPolicy old = { s with decayCount := if s.settings.idc = old.idc then s.decayCount else 0 } := by
  unfold State.decayPolicy
  split_ifs <;> rfl

/-- R115: what a taken policy does before the hand-on of slot 16 and the new evaluation. -/
def State.policyBlocks (c : Settings) (s : State) : State :=
  { s.writeSettings c with
    beacon := beaconAfter s.settings c s.now s.beacon
    tamper := tamperAfter s.settings c s.tampOpen s.now s.tamper
    dormancyCount := if c.dormId = s.settings.dormId then s.dormancyCount else 0
    decayCount := if c.idc = s.settings.idc then s.decayCount else 0 }

/-- R115, R59: what a taken policy does before the new evaluation. -/
def State.policyTakes (c : Settings) (s : State) : State := (s.policyBlocks c).shadowPolicy s.settings

theorem State.setPolicy_eq {c : Settings} {s : State} (hm : s.mode = .active) :
    s.setPolicy c = (s.policyTakes c).reevaluate := by
  unfold State.setPolicy State.policyTakes
  dsimp only
  rw [State.beaconPolicy_eq (s := s.writeSettings c) hm, State.tamperPolicy_eq, State.dormancyPolicy_eq,
    State.decayPolicy_eq]
  rfl

/-- R59, R64: a changed L hands slot 16 on. -/
theorem State.handOn_sixteen {s : State} (hm : s.mode = .active) (hl : s.life.lifecycle ≠ .disabled) :
    (16 ∈ s.queue → s.handOn 16 = s)
    ∧ (16 ∉ s.queue → ∀ f, s.inFlight = some f → f.slot = 16 →
        s.handOn 16 = { s with inFlight := some { f with rejoin := true } })
    ∧ (16 ∉ s.queue → (∀ f, s.inFlight = some f → f.slot ≠ 16) → s.handOn 16 = { s with queue := s.queue ++ [16] }) := by
  have hlive : ¬(s.mode ≠ .active ∨ s.life.lifecycle = .disabled) := by simp [hm, hl]
  exact ⟨State.handOn_of_queued, fun hq f hf hs => State.handOn_sent hlive hq hf hs, State.handOn_of_joins hlive⟩

/-- R115, R59: the state of a taken policy before the new evaluation, and what joins the queue. -/
theorem State.policyTakes_form {c : Settings} {s : State} (hm : s.mode = .active) (hl : s.life.lifecycle ≠ .disabled) :
    let u := s.policyTakes c
    u = { s.policyBlocks c with queue := u.queue, inFlight := u.inFlight }
      ∧ (c.shadowL = s.settings.shadowL → u.queue = s.queue ∧ u.inFlight = s.inFlight)
      ∧ (c.shadowL ≠ s.settings.shadowL →
        (16 ∈ s.queue → u.queue = s.queue ∧ u.inFlight = s.inFlight)
        ∧ (16 ∉ s.queue → ∀ f, s.inFlight = some f → f.slot = 16 →
          u.queue = s.queue ∧ u.inFlight = some { f with rejoin := true })
        ∧ (16 ∉ s.queue → (∀ f, s.inFlight = some f → f.slot ≠ 16) →
          u.queue = s.queue ++ [16] ∧ u.inFlight = s.inFlight)) := by
  intro u
  by_cases hsame : c.shadowL = s.settings.shadowL
  · have hu : u = s.policyBlocks c := if_pos hsame
    rw [hu]
    exact ⟨rfl, fun _ => ⟨rfl, rfl⟩, fun h => absurd hsame h⟩
  · have hu : u = (s.policyBlocks c).handOn 16 := if_neg hsame
    obtain ⟨hqueued, hsent, hjoins⟩ := State.handOn_sixteen (s := s.policyBlocks c) hm hl
    refine ⟨?_, fun h => absurd h hsame, fun _ => ⟨fun hq => ?_, fun hq f hf hs => ?_, fun hq hno => ?_⟩⟩
    · obtain ⟨q, f, h⟩ := (s.policyBlocks c).handOn_form 16
      rw [hu, h]
    · rw [hu, hqueued hq]
      exact ⟨rfl, rfl⟩
    · rw [hu, hsent hq f hf hs]
      exact ⟨rfl, rfl⟩
    · rw [hu, hjoins hq hno]
      exact ⟨rfl, rfl⟩

/-! ### The new evaluation -/

/-- R103: the table only raises the stage. -/
theorem passed_evaluate_ne_nil {c : Settings} {score : Nat} {stage : Stage} (h : evaluate c score stage ≠ stage) :
    passed stage (evaluate c score stage) ≠ [] := by
  have hrises : stage.code < (evaluate c score stage).code := by
    revert h
    unfold evaluate
    split_ifs with hwipe htw htl hta
    · exact fun h => absurd hwipe.symm h
    · intro _
      cases stage with
      | wipe => exact absurd rfl hwipe
      | calm | alert | lockdown => decide
    · intro h
      cases stage with
      | wipe => exact absurd rfl hwipe
      | lockdown => exact absurd rfl h
      | calm | alert => decide
    · intro _
      rw [hta.2]
      decide
    · exact fun h => absurd rfl h
  exact List.ne_nil_of_mem ((mem_passed _ _ _).2 ⟨hrises, le_rfl⟩)

/-- R116: the evaluation that raises the stage. -/
theorem State.reevaluate_rises {s : State} (h : evaluate s.settings s.evid.score s.evid.stage ≠ s.evid.stage) :
    let stage := evaluate s.settings s.evid.score s.evid.stage
    s.reevaluate =
      State.settleRise (passed s.evid.stage stage) []
        { s with
          evid :=
            Evidence.enterLevels s.seconds s.evid.score (passed s.evid.stage stage) { s.evid with stage := stage } } := by
  intro stage
  have hrise : s.evid.rise s.settings s.seconds =
      (Evidence.enterLevels s.seconds s.evid.score (passed s.evid.stage stage) { s.evid with stage := stage },
        passed s.evid.stage stage) := Prod.ext (Evidence.enterLevels_score _ _ _ _ rfl) rfl
  unfold State.reevaluate
  rw [hrise]
  exact if_pos (passed_evaluate_ne_nil h)

/-- R116, R105: the evaluation that does not. -/
theorem State.reevaluate_stays {s : State} (h : evaluate s.settings s.evid.score s.evid.stage = s.evid.stage) :
    s.reevaluate =
      if s.evid.fall s.settings s.seconds = s.evid then s
      else State.commit [.evidence] { s with evid := s.evid.fall s.settings s.seconds } := by
  have hnone : (s.evid.rise s.settings s.seconds).2 = [] := by
    change passed s.evid.stage (evaluate s.settings s.evid.score s.evid.stage) = []
    rw [h, passed_self]
  exact if_neg (not_not.2 hnone)

theorem State.reevaluate_keeps {s : State} (h : evaluate s.settings s.evid.score s.evid.stage = s.evid.stage)
    (hf : ¬(s.evid.stage = .alert ∧ (s.evid.score = 0 ∨ s.evid.score + s.settings.h < s.settings.ta))) :
    s.reevaluate = s := (State.reevaluate_stays h).trans (if_pos (if_neg hf))

theorem State.reevaluate_falls {s : State} (h : evaluate s.settings s.evid.score s.evid.stage = s.evid.stage)
    (ha : s.evid.stage = .alert) (hf : s.evid.score = 0 ∨ s.evid.score + s.settings.h < s.settings.ta) :
    s.reevaluate = State.commit [.evidence]
      { s with evid := Evidence.append s.seconds .stage 0 s.evid.score .calm { s.evid with stage := .calm } } := by
  have hfall : s.evid.fall s.settings s.seconds =
      Evidence.append s.seconds .stage 0 s.evid.score .calm { s.evid with stage := .calm } := if_pos ⟨ha, hf⟩
  rw [State.reevaluate_stays h, hfall]
  refine if_neg fun heq => ?_
  cases ha.symm.trans (congrArg Evidence.stage heq).symm

/-! ### The request -/

/-- R115, R59: what SET_POLICY answers of a body that reads as `c`. -/
def policyAnswer (c : Settings) (s : State) : Answer :=
  match if s.life.lifecycle = .provisioned then lowestUnderShadow s.layout.edits c.shadowL else none with
  | some k => refuseOverlap (k, shadowSlot) s
  | none => ⟨.done, [], s.setPolicy c⟩

theorem policyAnswer_taken {c : Settings} {s : State}
    (h : s.life.lifecycle ≠ .provisioned ∨ lowestUnderShadow s.layout.edits c.shadowL = none) :
    policyAnswer c s = ⟨.done, [], s.setPolicy c⟩ := by
  have hnone : (if s.life.lifecycle = .provisioned then lowestUnderShadow s.layout.edits c.shadowL else none) = none := by
    rcases h with hp | hu
    · exact if_neg hp
    · rw [hu, ite_self]
  unfold policyAnswer
  rw [hnone]

theorem policyAnswer_overlap {c : Settings} {k : Fin 17} {s : State} (hp : s.life.lifecycle = .provisioned)
    (hk : lowestUnderShadow s.layout.edits c.shadowL = some k) :
    policyAnswer c s = refuseOverlap (k, shadowSlot) s := by
  unfold policyAnswer
  rw [if_pos hp, hk]

theorem execSetPolicy_taken {tag : Byte} {c : Settings} {s t : State} (h : s.Admits .setPolicy)
    (hc : readPolicyBody c.toBytes = some c)
    (hv : s.life.lifecycle = .unprovisioned ∨ s.verified.getLsbD 0 = true) (hs : s.evid.stage ≠ .lockdown)
    (ht : answer Kind.setPolicy.code tag (policyAnswer c s.begin) = t) : execSetPolicy tag c.toBytes s = .next t := by
  refine request_answered h (by rw [c.toBytes_length]; decide) ?_
  rw [if_neg (show ¬(s.begin.life.lifecycle = .provisioned ∧ (!s.begin.adminVerified) = true) from fun hp => ?_),
    if_neg (show ¬s.begin.evid.stage = .lockdown from hs), hc]
  · exact ht
  · rcases hv with hv | hv
    · cases hv.symm.trans hp.1
    · exact absurd (hv.symm.trans (s.begin.not_adminVerified_iff.1 hp.2)) (by decide)

/-- R116: in CALM, where the new record leaves the stage, a taken policy changes no evidence. -/
theorem State.policyTakes_keeps {c : Settings} {s : State} (hm : s.mode = .active) (hl : s.life.lifecycle ≠ .disabled)
    (hs : s.evid.stage = .calm) (he : evaluate c s.evid.score .calm = .calm) :
    (s.policyTakes c).reevaluate = s.policyTakes c := by
  obtain ⟨hu, -⟩ := State.policyTakes_form (c := c) hm hl
  have hsettings : (s.policyTakes c).settings = c := (congrArg State.settings hu :)
  have hevid : (s.policyTakes c).evid = s.evid := (congrArg State.evid hu :)
  refine State.reevaluate_keeps ?_ fun h => ?_
  · rw [hsettings, hevid, hs]
    exact he
  · rw [hevid, hs] at h
    cases h.1

/-- R168: a record with its check is good. -/
theorem storedSettings_good (c : Settings) : StoredSettings.good ⟨c, c.check⟩ = true := by
  unfold StoredSettings.good
  dsimp only
  generalize c.check = x
  exact beq_self_eq_true x

/-- Settles O29: the refusals in their order, the blocks under the new record, and the new evaluation. -/
theorem setPolicyWritesTheRecord : Obligations.SetPolicyWritesTheRecord := by
  intro tag c s h hc
  obtain ⟨hm, hr, hadmits⟩ := h
  have hlive : s.life.lifecycle ≠ .disabled := fun hd => by rw [hd] at hadmits; cases hadmits
  have h : s.Admits .setPolicy := ⟨hm, hr, hadmits⟩
  have hl : c.toBytes.length ≤ 240 := by rw [c.toBytes_length]; decide
  have hclear : s.life.lifecycle = .unprovisioned ∨
      (s.verified.getLsbD 0 = true ∧ lowestUnderShadow s.layout.edits c.shadowL = none) → s.evid.stage ≠ .lockdown →
      exec (.setPolicy tag c.toBytes) s =
        .next ((s.begin.policyTakes c).reevaluate.replied .setPolicy tag .done []) := fun hv hs => by
    refine execSetPolicy_taken h hc (hv.imp_right And.left) hs ?_
    rw [policyAnswer_taken (s := s.begin) (hv.imp (fun hu hp => by cases hu.symm.trans hp) And.right),
      State.setPolicy_eq (s := s.begin) hm, answer_replied]
  refine ⟨fun hp hv => ?unverified, fun _ hs => ?lockdown, fun hv hs he => ?calm, fun hp hv hs k hk => ?overlap,
    fun hv hs => ⟨s.begin.policyTakes c, hclear hv hs, ?takes⟩, ?evaluation⟩
  case unverified =>
    exact request_taken h hl (if_pos ⟨hp, s.begin.not_adminVerified_iff.2 hv⟩)
  case lockdown =>
    refine request_taken h hl ?_
    rw [if_pos (show s.begin.evid.stage = .lockdown from hs), ite_self]
    rfl
  case calm =>
    have hkeeps := State.policyTakes_keeps (s := s.begin) hm hlive hs he
    refine ⟨_, (hclear hv (by rw [hs]; decide)).trans (by rw [hkeeps]), ?_⟩
    obtain ⟨hu, -⟩ := State.policyTakes_form (c := c) (s := s.begin) hm hlive
    rw [hu]
    refine ⟨rfl, rfl, storedSettings_good c, rfl, rfl, rfl, rfl, rfl, rfl, rfl, rfl, rfl, rfl, rfl, _, rfl, rfl⟩
  case overlap =>
    refine execSetPolicy_taken h hc (.inr hv) hs ?_
    rw [policyAnswer_overlap (s := s.begin) hp hk, answer_replied]
    unfold refuseOverlap
    rw [be_one, be_one]
    rfl
  case takes => exact State.policyTakes_form (s := s.begin) hm hlive
  case evaluation =>
    intro e stage
    refine ⟨fun hs hf => State.reevaluate_keeps hs hf, fun hs ha hf => State.reevaluate_falls hs ha hf, fun hs => ?_⟩
    exact State.reevaluate_rises hs

end Sys2Proof.Machine
end

