-- ==== Sys2Proof/Proofs/StageEffects.lean ====
section
/-! What a wipe start and an entry to LOCKDOWN leave (O11). -/

namespace Sys2Proof.Machine

/-! ### Access withdrawn -/

/-- R150: the report of a drop of every grant at a rise. -/
def State.riseReport (s : State) : ResumeReport :=
  if s.grants = [] then s.report else { s.report with dropCause := some .stageRise }

/-- R52, R64: a closing that finds nothing queued or sent queues exactly the slots that it changes. -/
theorem State.closeAll_empty {s : State} (hq : s.queue = []) (hf : s.inFlight = none) (hr : s.rootCopy = none) :
    s.closeAll =
      { s with
        gates := allClosed, shadow := .shown
        queue :=
          if s.mode = .active ∧ s.life.lifecycle ≠ .disabled then changedSlots s.gates allClosed s.shadow .shown
          else [] } := by
  obtain ⟨q, h⟩ := State.closeAll_form s hf hr
  have hqueue : q = s.closeAll.queue := (congrArg State.queue h).symm
  rw [h, hqueue]
  refine congrArg (fun q => { s with gates := allClosed, shadow := .shown, queue := q }) ?_
  obtain ⟨-, -, hon, -, -, -, hstill, -⟩ := desiredStatesAreHandedOn allClosed .shown s
  split
  · next hlive =>
    obtain ⟨-, ⟨new, hnew, hsorted, hmem⟩, -⟩ := hon hlive.1 hlive.2
    have hchanged := changedSlots_pairwise s.gates allClosed s.shadow .shown
    have hperm : new.Perm (changedSlots s.gates allClosed s.shadow .shown) :=
      (List.perm_ext_iff_of_nodup (hsorted.imp ne_of_lt) (hchanged.imp ne_of_lt)).2 fun j => by
        rw [hmem, hq, hf]
        exact and_iff_left ⟨List.not_mem_nil, nofun⟩
    refine hnew.trans ?_
    rw [hq, List.nil_append]
    exact hperm.eq_of_pairwise (fun a b _ _ hab hba => absurd (hab.trans hba) (lt_irrefl _)) hsorted hchanged
  · next hdead =>
    exact (hstill (by tauto)).1.trans hq

/-- R52, R74, R108: access withdrawn with KPURGE low. -/
theorem State.shutDown_low {ve : BitVec 8} {d : Micros} {s : State} (hk : s.kpurge = none) :
    s.shutDown ve d =
      { s with
        gates := allClosed, shadow := .shown, verified := ve, grants := [], intent := none
        mirror := emptyMirror, mirrorShadow := .none, inFlight := none, rootCopy := none
        kpurge := if s.mode = .active then some s.now else none
        queue :=
          if s.mode = .active ∧ s.life.lifecycle ≠ .disabled then changedSlots s.gates allClosed s.shadow .shown else []
        decayCount := d
        report := s.riseReport } := by
  have hpurge := s.purge_form hk
  have hclose := State.closeAll_empty (s := s.purge) (by rw [hpurge]) (by rw [hpurge]) (by rw [hpurge])
  unfold State.shutDown
  rw [State.withdrawSuspend_form, hclose, hpurge]
  dsimp only
  rw [ite_self]
  rfl

/-- R52, R74, R108: access withdrawn while KPURGE is high. -/
theorem State.shutDown_high {ve : BitVec 8} {d : Micros} {s : State} (hk : s.kpurge.isSome = true) :
    ∃ f r new, s.shutDown ve d =
      { s with
        gates := allClosed, shadow := .shown, verified := ve, grants := [], intent := none
        inFlight := f, rootCopy := r, queue := s.queue ++ new, decayCount := d, report := s.riseReport } := by
  obtain ⟨q, f, h⟩ := s.changeDesired_form allClosed .shown
  obtain ⟨-, -, hon, -, -, -, hstill, -⟩ := desiredStatesAreHandedOn allClosed .shown s
  have hqueue : ∃ new, q = s.queue ++ new := by
    have hq : q = (s.changeDesired allClosed .shown).queue := (congrArg State.queue h).symm
    by_cases hlive : s.mode = .active ∧ s.life.lifecycle ≠ .disabled
    · obtain ⟨-, ⟨new, hnew, -⟩, -⟩ := hon hlive.1 hlive.2
      exact ⟨new, hq.trans hnew⟩
    · exact ⟨[], by rw [hq, (hstill (by tauto)).1, List.append_nil]⟩
  obtain ⟨new, rfl⟩ := hqueue
  unfold State.shutDown State.closeAll
  rw [State.purge_high s hk, State.withdrawSuspend_form, h]
  exact ⟨_, _, new, rfl⟩

/-- What an access withdrawn leaves, whatever KPURGE. -/
theorem State.shutDown_form (ve : BitVec 8) (d : Micros) (s : State) :
    ∃ k f m ms r q, s.shutDown ve d =
      { s with
        gates := allClosed, shadow := .shown, verified := ve, grants := [], intent := none
        mirror := m, mirrorShadow := ms, inFlight := f, rootCopy := r, kpurge := k, queue := q
        decayCount := d, report := s.riseReport } := by
  cases hk : s.kpurge with
  | none => exact ⟨_, _, _, _, _, _, State.shutDown_low hk⟩
  | some t =>
    obtain ⟨f, r, new, h⟩ := State.shutDown_high (ve := ve) (d := d) (s := s) (by rw [hk]; rfl)
    exact ⟨_, _, _, _, _, _, h⟩

/-! ### The LAYOUT operation at a wipe start -/

theorem State.inWrite_iff (s : State) :
    s.inWrite = true ↔ ∃ j committed, s.job = some j ∧ j.phase = .write committed := by
  unfold State.inWrite
  cases s.job with
  | none => simp
  | some j => cases hp : j.phase <;> simp [hp]

/-- R128: a LAYOUT operation ended SUPERSEDED at the range it would have worked next. -/
def State.supersededAt (w : LayoutWork) (s : State) : OpRecord :=
  { s.layoutOp with
    state := .ended, outcome := some .superseded, detail := some w.next.val
    endedAt := some s.millis, unseen := true }

theorem State.supersedeLayout_idle {s : State} (h : s.layoutWork = none) : s.supersedeLayout = s := by
  unfold State.supersedeLayout
  rw [h]

theorem State.supersedeLayout_write {w : LayoutWork} {s : State} (h : s.layoutWork = some w) (hw : s.inWrite = true) :
    s.supersedeLayout = { s with job := none, layoutWork := none, layoutOp := s.supersededAt w } := by
  unfold State.supersedeLayout
  rw [h]
  exact if_pos hw

theorem State.supersedeLayout_erasing {j : Job} {s : State} (hj : s.job = some j) (ho : j.owner = .layout)
    (hw : s.inWrite = false) : s.supersedeLayout = s := by
  unfold State.supersedeLayout
  cases s.layoutWork with
  | none => rfl
  | some w =>
    rw [hj]
    exact (if_neg (by rw [hw]; decide)).trans (if_pos (by simp [ho]))

theorem State.supersedeLayout_unclaimed {w : LayoutWork} {s : State} (h : s.layoutWork = some w) (hj : s.job = none) :
    s.supersedeLayout = { s with layoutWork := none, layoutOp := s.supersededAt w } := by
  have hw : s.inWrite = false := by unfold State.inWrite; rw [hj]
  unfold State.supersedeLayout
  rw [h, hj]
  exact (if_neg (by rw [hw]; decide)).trans (if_neg (by simp))

/-! ### A derivation abandoned by a wipe start -/

/-- R26, R37: the CREDENTIAL record of a derivation that a wipe start abandons. -/
def State.credSuperseded (s : State) : OpRecord :=
  { s.credOp with state := .ended, outcome := some .superseded, endedAt := some s.millis, unseen := true }

theorem State.abandonInWipe_none {s : State} (h : s.derivation = none) : s.abandonInWipe = s := by
  unfold State.abandonInWipe
  rw [h]

theorem State.abandonInWipe_uncounted {d : Derivation} {s : State} (h : s.derivation = some d)
    (hc : d.work.counted = false) :
    s.abandonInWipe = { s with derivation := none, credOp := s.credSuperseded } := by
  unfold State.abandonInWipe
  rw [h]
  exact if_neg (by rw [hc]; decide)

/-- R26, R24, R29: a counted one is settled by a failure resolution taken in WIPING. -/
theorem State.abandonInWipe_counted {d : Derivation} {s : State} (h : s.derivation = some d)
    (hc : d.work.counted = true) (hs : s.evid.stage = .wipe) :
    let w := s.settings.wBad * min s.cred.failures 8
    let score := min 4095 (s.evid.score + w)
    s.abandonInWipe =
      { State.commit [.credentials, .evidence]
          { s with
            derivation := none
            cred := { s.cred with openAttempt := false }
            evid := Evidence.append s.seconds .badSecret w score .wipe { s.evid with score := score } } with
        backoff := deadlineAfter s.cred.failures s.millis s.backoff
        latched := s.latched ||| 1
        credOp := s.credSuperseded } := by
  intro w score
  have htake : s.evid.take s.settings s.seconds .badSecret w =
      (Evidence.append s.seconds .badSecret w score .wipe { s.evid with score := score }, []) := by
    rw [Evidence.take_quiet _ _ _ _ _ (by rw [hs]; rfl), hs]
    exact congrArg (fun e => (e, [])) (congrArg (Evidence.append s.seconds .badSecret w score .wipe) (by rw [← hs]))
  have hrecord : State.recordInWipe .badSecret w [.credentials]
      { s with derivation := none, cred := { s.cred with openAttempt := false } } =
      State.commit [.credentials, .evidence]
        { s with
          derivation := none
          cred := { s.cred with openAttempt := false }
          evid := Evidence.append s.seconds .badSecret w score .wipe { s.evid with score := score } } := by
    unfold State.recordInWipe
    exact congrArg (fun e => State.commit [.credentials, .evidence]
      { s with derivation := none, cred := { s.cred with openAttempt := false }, evid := e }) (congrArg Prod.fst htake)
  have heq : s.abandonInWipe =
      (((State.recordInWipe .badSecret w [.credentials]
        { s with derivation := none, cred := { s.cred with openAttempt := false } }).setBackoff.latch
          .badSecret).endCred .superseded) := by
    unfold State.abandonInWipe
    rw [h]
    exact if_pos hc
  rw [heq, hrecord, State.setBackoff_form]
  rfl

/-! ### The wipe start -/

/-- R10: the state of the wipe-start commit, its rise latched. -/
def State.wipeCommitted (s : State) : State := (s.wipeStartCommit []).latch .stageRise

/-- R10, R94: the wipe claimed. -/
def State.wipeClaimed (s : State) : State :=
  { s with
    window := s.window.stopWaiting, dormancyCount := 0, decayCount := 0
    wipeOp := .start .wipe none s.millis, wipeClaim := true }

theorem State.startWipe_eq (s : State) :
    ∃ d, s.startWipe = (s.wipeCommitted.shutDown 0 d).wipeClaimed.supersedeLayout.abandonInWipe := by
  unfold State.startWipe
  rw [State.wipeStartActions_eq]
  exact ⟨_, rfl⟩

/-- R26: what a wipe start has done before it abandons a derivation. -/
theorem State.startWipe_abandons (s : State) :
    ∃ v : State, s.startWipe = v.abandonInWipe ∧ v.derivation = s.derivation ∧ v.cred = s.cred
      ∧ v.evid = s.wipeCommitted.evid ∧ v.nvs = s.wipeCommitted.nvs ∧ v.backoff = s.backoff ∧ v.credOp = s.credOp
      ∧ v.latched = s.latched ||| 32 ∧ v.now = s.now ∧ v.settings = s.settings ∧ v.life = s.wipeCommitted.life
      ∧ v.cells = s.cells ∧ v.layout = s.layout ∧ v.binding = s.binding := by
  obtain ⟨dec, heq⟩ := s.startWipe_eq
  obtain ⟨k, f, m, ms, r, q, hshut⟩ := State.shutDown_form 0 dec s.wipeCommitted
  obtain ⟨w, o, j, hsup, -⟩ := State.supersedeLayout_form (s.wipeCommitted.shutDown 0 dec).wipeClaimed
  refine ⟨_, heq, ?_⟩
  rw [hsup, hshut]
  exact ⟨rfl, rfl, rfl, rfl, rfl, rfl, rfl, rfl, rfl, rfl, rfl, rfl, rfl⟩

/-- R1: what a commit leaves in the store turns on the store, the clock and the records alone. -/
theorem State.commit_nvs_congr (sets : List SetId) {s u : State} (hn : s.nvs = u.nvs) (ht : s.now = u.now)
    (hlife : s.life = u.life) (hcells : s.cells = u.cells) (hcred : s.cred = u.cred) (hlayout : s.layout = u.layout)
    (hbinding : s.binding = u.binding) (hevid : s.evid = u.evid) : (s.commit sets).nvs = (u.commit sets).nvs := by
  unfold State.commit State.seconds
  dsimp only
  rw [hn, ht, hlife, hcells, hcred, hlayout, hbinding, hevid]

/-- R128: what a wipe start does to the LAYOUT operation. -/
theorem State.startWipe_supersedes (s : State) :
    ∃ v : State, v.job = s.job ∧ v.layoutWork = s.layoutWork ∧ v.layoutOp = s.layoutOp ∧ v.now = s.now
      ∧ s.startWipe.job = v.supersedeLayout.job ∧ s.startWipe.layoutWork = v.supersedeLayout.layoutWork
      ∧ s.startWipe.layoutOp = v.supersedeLayout.layoutOp := by
  obtain ⟨dec, heq⟩ := s.startWipe_eq
  obtain ⟨k, f, m, ms, r, q, hshut⟩ := State.shutDown_form 0 dec s.wipeCommitted
  obtain ⟨c, e, n, wi, b, l, o, hab, -⟩ := (s.wipeCommitted.shutDown 0 dec).wipeClaimed.supersedeLayout.abandonInWipe_form
  refine ⟨(s.wipeCommitted.shutDown 0 dec).wipeClaimed, ?_, ?_, ?_, ?_, ?_, ?_, ?_⟩
  · rw [hshut]; rfl
  · rw [hshut]; rfl
  · rw [hshut]; rfl
  · rw [hshut]; rfl
  · rw [heq, hab]
  · rw [heq, hab]
  · rw [heq, hab]

/-- R52, R74: what access withdrawn at a wipe start leaves to the end of it. -/
theorem State.startWipe_withdraws (s : State) :
    ∃ (dec : Micros) (u : State), u = s.wipeCommitted.shutDown 0 dec ∧ s.startWipe.kpurge = u.kpurge
      ∧ s.startWipe.mirror = u.mirror ∧ s.startWipe.mirrorShadow = u.mirrorShadow ∧ s.startWipe.gates = u.gates
      ∧ s.startWipe.shadow = u.shadow ∧ s.startWipe.verified = u.verified ∧ s.startWipe.grants = u.grants
      ∧ s.startWipe.intent = u.intent ∧ s.startWipe.queue = u.queue ∧ s.startWipe.report = u.report
      ∧ s.startWipe.decayCount = 0 := by
  obtain ⟨dec, heq⟩ := s.startWipe_eq
  refine ⟨dec, _, rfl, ?_⟩
  generalize s.wipeCommitted.shutDown 0 dec = u at heq ⊢
  obtain ⟨w, o, j, hsup, -⟩ := u.wipeClaimed.supersedeLayout_form
  obtain ⟨c, e, n, wi, b, l, op, hab, -⟩ := u.wipeClaimed.supersedeLayout.abandonInWipe_form
  rw [heq, hab, hsup]
  exact ⟨rfl, rfl, rfl, rfl, rfl, rfl, rfl, rfl, rfl, rfl, rfl⟩

/-- Settles O11: the wipe start in PROVISIONED, its derivation, LOCKDOWN, and a cause while KPURGE is high. -/
theorem stageEffectsWithdrawAccess : Obligations.StageEffectsWithdrawAccess := by
  refine ⟨fun s hl hs hk => ?wipe, fun s hl hs => ?derivation, fun s hk => ?lockdown, fun s hk t ht => ?high⟩
  case wipe =>
    have hqueue : s.startWipe.queue =
        if s.mode = .active then changedSlots s.gates allClosed s.shadow .shown else [] := by
      obtain ⟨dec, u, rfl, -, -, -, -, -, -, -, -, h, -, -⟩ := s.startWipe_withdraws
      rw [h, State.shutDown_low (s := s.wipeCommitted) hk]
      exact if_congr (and_iff_left nofun) rfl rfl
    have hreport : s.startWipe.report = s.riseReport := by
      obtain ⟨dec, u, rfl, -, -, -, -, -, -, -, -, -, h, -⟩ := s.startWipe_withdraws
      rw [h, State.shutDown_low (s := s.wipeCommitted) hk]
      rfl
    obtain ⟨v, hvj, hvw, hvo, hvn, hj, hw, ho⟩ := s.startWipe_supersedes
    have hended (w : LayoutWork) : v.supersededAt w =
        { s.layoutOp with
          state := .ended, outcome := some .superseded, detail := some w.next.val
          endedAt := some s.millis, unseen := true } := by
      unfold State.supersededAt State.millis
      rw [hvo, hvn]
    obtain ⟨q, r, rep, lw, lo, jb, c, e, n, wi, b, l, o, hform, hr, hjob, hevid, hstage⟩ :=
      State.wipeStartActions_form s.wipeCommitted hk
    change s.startWipe = _ at hform
    rw [hform] at hqueue hreport hj hw ho ⊢
    refine ⟨rfl, hstage rfl, hevid, rfl, rfl, rfl, rfl, rfl, rfl, rfl, rfl, rfl, hr, rfl, rfl, rfl, rfl, rfl, rfl, rfl, rfl,
      rfl, rfl, rfl, fun hno => hjob (.inl ?_), fun j hsj ho' hno => ?_, ?_, fun j committed w hsj hp hsw => ?_, hqueue,
      hreport, fun w hsj hsw => ?_, fun hsw => ?_⟩
    · rw [← Bool.not_eq_true, State.inWrite_iff]
      rintro ⟨j, committed, hsj, hp⟩
      exact hno j committed hsj hp
    · have hstill : v.inWrite = false := by
        rw [← Bool.not_eq_true, State.inWrite_iff]
        rintro ⟨j', committed, hsj', hp⟩
        rw [hvj, hsj] at hsj'
        cases hsj'
        exact hno committed hp
      rw [State.supersedeLayout_erasing (hvj.trans hsj) ho' hstill] at hw ho
      exact ⟨hw.trans hvw, ho.trans hvo⟩
    · change s.window.stopWaiting = _
      cases s.window <;> rfl
    · rw [State.supersedeLayout_write (hvw.trans hsw) (v.inWrite_iff.2 ⟨j, committed, hvj.trans hsj, hp⟩)] at hj hw ho
      exact ⟨hj, hw, ho.trans (hended w)⟩
    · rw [State.supersedeLayout_unclaimed (hvw.trans hsw) (hvj.trans hsj)] at hw ho
      exact ⟨hw, ho.trans (hended w)⟩
    · rw [State.supersedeLayout_idle (hvw.trans hsw)] at hw ho
      exact ⟨hw.trans (hvw.trans hsw), ho.trans hvo⟩
  case derivation =>
    obtain ⟨v, heq, hd, hcred, hevid, hnvs, hback, hop, hlatch, hnow, hset, hlife, hcells, hlayout, hbinding⟩ :=
      s.startWipe_abandons
    have hmillis : v.millis = s.millis := by unfold State.millis; rw [hnow]
    have hseconds : v.seconds = s.seconds := by unfold State.seconds; rw [hnow]
    have hsuper : v.credSuperseded =
        { s.credOp with state := .ended, outcome := some .superseded, endedAt := some s.millis, unseen := true } := by
      unfold State.credSuperseded
      rw [hop, hmillis]
    rw [heq]
    refine ⟨fun hnone => ?_, fun d hsome hc => ?_, fun d hsome hc => ?_⟩
    · rw [State.abandonInWipe_none (hd.trans hnone)]
      exact ⟨hnvs, hcred, hback, hop, hlatch⟩
    · rw [State.abandonInWipe_uncounted (hd.trans hsome) hc]
      exact ⟨hnvs, hevid, hcred, hback, hsuper, hlatch⟩
    · intro c w score
      have hrecord : Evidence.append v.seconds .badSecret (v.settings.wBad * min v.cred.failures 8)
          (min 4095 (v.evid.score + v.settings.wBad * min v.cred.failures 8)) .wipe
          { v.evid with score := min 4095 (v.evid.score + v.settings.wBad * min v.cred.failures 8) } =
        Evidence.append s.seconds .badSecret w score .wipe { s.wipeCommitted.evid with score := score } := by
        rw [hset, hcred, hevid, hseconds]
        rfl
      rw [State.abandonInWipe_counted (hd.trans hsome) hc (by rw [hevid]; rfl)]
      refine ⟨congrArg (fun c : CredentialTable => { c with openAttempt := false }) hcred, hrecord, ?_, ?_, hsuper,
        congrArg (· ||| 1) hlatch⟩
      · exact State.commit_nvs_congr [.credentials, .evidence] hnvs hnow hlife hcells rfl hlayout hbinding rfl
      · refine (show _ = deadlineAfter v.cred.failures v.millis v.backoff from rfl).trans ?_
        rw [hcred, hmillis, hback]
        rfl
  case lockdown =>
    rw [show s.enterLockdown = s.shutDown 0 0 from rfl, State.shutDown_low hk]
    exact ⟨rfl, rfl, rfl, rfl, rfl, rfl, rfl, rfl, rfl, rfl, rfl, rfl, rfl, rfl⟩
  case high =>
    rcases ht with rfl | rfl
    · obtain ⟨dec, u, hu, h1, h2, h3, h4, h5, h6, h7, h8, h9, -, h11⟩ := s.startWipe_withdraws
      obtain ⟨f, r, new, hshut⟩ := State.shutDown_high (ve := 0) (d := dec) (s := s.wipeCommitted) hk
      rw [h1, h2, h3, h4, h5, h6, h7, h8, h9, hu, hshut]
      exact ⟨rfl, rfl, rfl, rfl, rfl, rfl, rfl, rfl, h11, new, rfl⟩
    · obtain ⟨f, r, new, hshut⟩ := State.shutDown_high (ve := 0) (d := 0) hk
      rw [show s.enterLockdown = s.shutDown 0 0 from rfl, hshut]
      exact ⟨rfl, rfl, rfl, rfl, rfl, rfl, rfl, rfl, rfl, new, rfl⟩

end Sys2Proof.Machine
end

