-- ==== Sys2Proof/Proofs/Starting.lean ====
section
/-! The end of STARTING and the entry to ACTIVE (O47). -/

namespace Sys2Proof.Machine

/-! ### The watches at an entry -/

/-- R83: the beacon watch at an entry to ACTIVE or AUX. -/
def State.beaconAnew (s : State) : Option BeaconWatch :=
  if s.settings.beaconOn = true then some ⟨none, s.now, none, s.now + s.settings.w * 1000000⟩ else none

/-- R88: the tamper watch at an entry to ACTIVE or AUX. -/
def State.tamperAnew (s : State) : TamperState := (s.tamper.retime s.now).read s.tampOpen s.now

theorem State.tamperAnew_eq (s : State) :
    s.tamperAnew =
      (match s.tamper with
        | .off => .off
        | .armed => if s.tampOpen = true then .opening s.now else .armed
        | .opening _ => if s.tampOpen = true then .opening s.now else .armed
        | .tripped => if s.tampOpen = true then .tripped else .closing s.now
        | .closing _ => if s.tampOpen = true then .tripped else .closing s.now) := by
  unfold State.tamperAnew
  cases s.tamper <;> rfl

theorem State.startBeacon_eq (s : State) : s.startBeacon = { s with beacon := s.beaconAnew } := rfl

theorem State.resumeTamper_eq {s : State} (h : s.mode.tamperRuns = true) :
    s.resumeTamper = { s with tamper := s.tamperAnew } := if_pos h

theorem State.enterAux_eq (s : State) :
    s.enterAux = { s with mode := .aux, beacon := s.beaconAnew, tamper := s.tamperAnew } :=
  State.resumeTamper_eq (s := State.startBeacon { s with mode := .aux }) rfl

/-! ### The grants consumed -/

theorem reopen_cons (l : Layout) (x : Grant) (rest : List Grant) (g : Vector Gates 16) :
    reopen l (x :: rest) g = reopen l rest (if l.ranges[x.range].usable then gatesWith g x.range x.gates else g) := rfl

theorem reopen_other {l : Layout} {grants : List Grant} {k : Fin 16} (h : ∀ x ∈ grants, x.range ≠ k)
    (g : Vector Gates 16) : (reopen l grants g)[k] = g[k] := by
  induction grants generalizing g with
  | nil => rfl
  | cons x rest ih =>
    obtain ⟨hx, hrest⟩ := List.forall_mem_cons.1 h
    rw [reopen_cons, ih hrest]
    split
    · exact (Vector.get_set_fin _ _ _ _).trans (if_neg hx.symm)
    · rfl

theorem reopen_granted {l : Layout} {grants : List Grant} {x : Grant} (hnodup : (grants.map Grant.range).Nodup)
    (hx : x ∈ grants) (g : Vector Gates 16) :
    (reopen l grants g)[x.range] = if l.ranges[x.range].usable = true then x.gates else g[x.range] := by
  induction grants generalizing g with
  | nil => cases hx
  | cons y rest ih =>
    obtain ⟨hy, hrest⟩ := List.nodup_cons.1 hnodup
    rw [reopen_cons]
    rcases List.mem_cons.1 hx with rfl | hx
    · rw [reopen_other (fun z hz hzy => hy (List.mem_map.2 ⟨z, hz, hzy⟩))]
      split
      · exact (Vector.get_set_fin _ _ _ _).trans (if_pos rfl)
      · rfl
    · have hne : x.range ≠ y.range := fun h => hy (List.mem_map.2 ⟨x, hx, h⟩)
      rw [ih hrest hx]
      refine if_congr Iff.rfl rfl ?_
      split
      · exact (Vector.get_set_fin _ _ _ _).trans (if_neg hne)
      · rfl

/-- R152: the ranges of the grants consumed. -/
def consumedRanges (grants : List Grant) : BitVec 16 := grants.foldl (fun set x => set ||| single 16 x.range.val) 0

theorem consumedRanges_getLsbD (grants : List Grant) (k : Fin 16) :
    (consumedRanges grants).getLsbD k.val = decide (∃ g ∈ grants, g.range = k) := by
  have hstep (grants : List Grant) (set : BitVec 16) :
      (grants.foldl (fun set x => set ||| single 16 x.range.val) set).getLsbD k.val =
        (set.getLsbD k.val || decide (∃ g ∈ grants, g.range = k)) := by
    induction grants generalizing set with
    | nil => simp
    | cons x rest ih =>
      rw [List.foldl_cons, ih, BitVec.getLsbD_or, single_getLsbD, Bool.or_assoc]
      refine congrArg (set.getLsbD k.val || ·) ?_
      rw [← Bool.decide_or]
      exact decide_eq_decide.2 (by rw [List.exists_mem_cons_iff, eq_comm])
  refine (hstep grants 0).trans ?_
  simp

/-- R56, R152, R153: the state with its grants consumed, before a gate is reopened. -/
def State.consumed (s : State) : State :=
  { s with
    grants := [], satisfied := !s.grants.isEmpty
    report := { s.report with consumed := consumedRanges s.grants } }

theorem State.consumeGrants_eq (s : State) :
    s.consumeGrants =
      if s.grants = [] then s.consumed else s.consumed.changeDesired (reopen s.layout s.grants s.gates) .hidden := by
  exact if_congr List.isEmpty_iff rfl rfl

/-! ### The entry to ACTIVE -/

/-- R30, R73, R91: the part ACTIVE, before its grants are consumed. -/
def State.activated (s : State) : State :=
  State.setBackoff { s with mode := .active, linkState := .running, faultRun := 0, dormancyCount := 0, backoff := none }

theorem State.activated_eq (s : State) :
    s.activated =
      { s with
        mode := .active, linkState := .running, faultRun := 0, dormancyCount := 0
        backoff := (backoffDelay s.cred.failures).map (s.millis + ·) } := by
  unfold State.activated State.setBackoff
  dsimp only
  cases backoffDelay s.cred.failures <;> rfl

/-- The entry to ACTIVE but for a RST_N found low. -/
def State.entered (s : State) : State :=
  s.activated.consumeGrants.enqueueDiffering.startBeacon.resumeTamper.openWindow

theorem State.enterActive_eq (s : State) :
    s.enterActive = if s.entered.rstLow then s.entered.resetEffects else s.entered := rfl

/-- R94: the report window of an entry to ACTIVE. -/
def State.windowAnew (s : State) : ReportWindow :=
  if s.life.lifecycle = .provisioned ∧ s.binding.isSome = true then .waiting (s.now + 60000000) else .none

/-- R83, R88, R94: the watches and the window at an entry to ACTIVE. -/
theorem State.startWatches_eq {s : State} (h : s.mode.tamperRuns = true) :
    s.startBeacon.resumeTamper.openWindow =
      { s with beacon := s.beaconAnew, tamper := s.tamperAnew, window := s.windowAnew } := by
  rw [State.resumeTamper_eq (s := s.startBeacon) h]
  rfl

theorem State.enqueueDiffering_form (s : State) : ∃ q, s.enqueueDiffering = { s with queue := q } := by
  unfold State.enqueueDiffering
  split <;> exact ⟨_, rfl⟩

/-- R56: the gates and the view after the grants are consumed. -/
theorem State.consumeGrants_form (s : State) :
    ∃ q f r, s.consumeGrants =
      { s.consumed with
        gates := if s.grants = [] then s.gates else reopen s.layout s.grants s.gates
        shadow := if s.grants = [] then s.shadow else .hidden
        queue := q, inFlight := f, rootCopy := r } := by
  rw [State.consumeGrants_eq]
  by_cases h : s.grants = []
  · rw [if_pos h, if_pos h, if_pos h]
    exact ⟨_, _, _, rfl⟩
  · rw [if_neg h, if_neg h, if_neg h]
    obtain ⟨q, f, hform⟩ := s.consumed.changeDesired_form (reopen s.layout s.grants s.gates) .hidden
    exact ⟨_, _, _, hform⟩

/-- R30, R73, R83, R88, R91, R94, R152: the entry to ACTIVE with RST_N high. -/
theorem State.entered_form (s : State) :
    ∃ q f r, s.entered =
      { s.consumed with
        mode := .active, linkState := .running, faultRun := 0, dormancyCount := 0
        backoff := (backoffDelay s.cred.failures).map (s.millis + ·)
        gates := if s.grants = [] then s.gates else reopen s.layout s.grants s.gates
        shadow := if s.grants = [] then s.shadow else .hidden
        queue := q, inFlight := f, rootCopy := r
        beacon := s.beaconAnew, tamper := s.tamperAnew, window := s.windowAnew } := by
  obtain ⟨q, f, r, hgrants⟩ := s.activated.consumeGrants_form
  obtain ⟨q', hq⟩ := s.activated.consumeGrants.enqueueDiffering_form
  have hqueued : s.activated.consumeGrants.enqueueDiffering =
      { s.consumed with
        mode := .active, linkState := .running, faultRun := 0, dormancyCount := 0
        backoff := (backoffDelay s.cred.failures).map (s.millis + ·)
        gates := if s.grants = [] then s.gates else reopen s.layout s.grants s.gates
        shadow := if s.grants = [] then s.shadow else .hidden
        queue := q', inFlight := f, rootCopy := r } := by
    rw [hq, hgrants, State.activated_eq]
    rfl
  refine ⟨q', f, r, ?_⟩
  unfold State.entered
  rw [State.startWatches_eq (by rw [hqueued]; rfl), hqueued]
  rfl

/-! ### The queue at the entry -/

theorem State.consumeGrants_queue {s : State} (hm : s.mode = .active) (hl : s.life.lifecycle ≠ .disabled)
    (hq : s.queue = []) (hf : s.inFlight = none) :
    s.consumeGrants.queue.Nodup
      ∧ ∀ k : Fin 16, rangeSlot k ∈ s.consumeGrants.queue ↔ s.consumeGrants.gates[k] ≠ s.gates[k] := by
  rw [State.consumeGrants_eq]
  by_cases h : s.grants = []
  · rw [if_pos h, show s.consumed.queue = [] from hq]
    exact ⟨List.nodup_nil, fun k => iff_of_false List.not_mem_nil fun hne => hne rfl⟩
  · rw [if_neg h]
    obtain ⟨hgates, -, hon, hranges, -⟩ :=
      desiredStatesAreHandedOn (reopen s.layout s.grants s.gates) .hidden s.consumed
    obtain ⟨-, ⟨new, hqueue, hsorted, hmem⟩, -⟩ := hon hm hl
    rw [hqueue, show s.consumed.queue = [] from hq, List.nil_append, hgates]
    refine ⟨hsorted.imp ne_of_lt, fun k => ?_⟩
    rw [hmem, show s.consumed.queue = [] from hq, show s.consumed.inFlight = none from hf]
    exact (and_iff_left ⟨List.not_mem_nil, nofun⟩).trans ((hranges k).trans ne_comm)

/-- R77: the queue at the entry to ACTIVE of an engine taken as empty. -/
theorem State.entered_queue {s : State} (hl : s.life.lifecycle ≠ .disabled) (hq : s.queue = []) (hf : s.inFlight = none)
    (hmirror : s.mirror = emptyMirror) (hshadow : s.mirrorShadow = .none) :
    (16 : Fin 17) ∈ s.entered.queue ∧ s.entered.queue.Nodup
      ∧ ∀ k : Fin 16, rangeSlot k ∈ s.entered.queue ↔
        (s.entered.gates[k].anyOpen = true ∨ s.entered.gates[k] ≠ s.gates[k]) := by
  obtain ⟨q, f, r, hform⟩ := s.activated.consumeGrants_form
  obtain ⟨hnodup, hqueued⟩ := State.consumeGrants_queue (s := s.activated) (by rw [State.activated_eq])
    (by rw [State.activated_eq]; exact hl) (by rw [State.activated_eq]; exact hq) (by rw [State.activated_eq]; exact hf)
  have hfacts : s.activated.consumeGrants.mode = .active ∧ s.activated.consumeGrants.life = s.life
      ∧ s.activated.consumeGrants.mirror = s.mirror ∧ s.activated.consumeGrants.mirrorShadow = s.mirrorShadow
      ∧ s.activated.gates = s.gates := by
    rw [hform, State.activated_eq]
    exact ⟨rfl, rfl, rfl, rfl, rfl⟩
  have hentered : s.entered = (s.activated.consumeGrants.enqueueDiffering).startBeacon.resumeTamper.openWindow := rfl
  generalize s.activated.consumeGrants = c at hnodup hqueued hfacts hentered
  obtain ⟨hm, hlife, hcm, hcs, hgates⟩ := hfacts
  rw [hgates] at hqueued
  have hjoined := State.enqueueDiffering_eq (s := c) hm (by rw [hlife]; exact hl)
  have hwatches := State.startWatches_eq (s := c.enqueueDiffering) (by rw [hjoined]; exact congrArg _ hm)
  rw [hentered, hwatches, hjoined]
  have hshadowDiffers : c.differs 16 = true := c.differs_shadow.2 (.inr (.inl (by rw [hcs, hshadow]; rfl)))
  have hrangeDiffers (k : Fin 16) : c.differs (rangeSlot k) = true ↔ c.gates[k].anyOpen = true := by
    rw [c.differs_rangeSlot, hcm, hmirror, emptyMirror_get]
    simp [MirrorRecord.none]
  refine ⟨?_, ?_, fun k => ?_⟩
  · by_cases h : 16 ∈ c.queue
    · exact List.mem_append_left _ h
    · exact List.mem_append_right _ ((c.mem_joining 16).2 ⟨hshadowDiffers, h⟩)
  · refine List.nodup_append.2 ⟨hnodup, c.joining_pairwise.imp ne_of_lt, fun a ha b hb hab => ?_⟩
    exact ((c.mem_joining b).1 hb).2 (hab ▸ ha)
  · refine (List.mem_append.trans ?_)
    rw [c.mem_joining, hrangeDiffers, hqueued]
    tauto

/-! ### A RST_N that is low at the entry -/

/-- A state with RST_N at a level. -/
def State.lineAt (low : Bool) (s : State) : State := { s with rstLow := low }

theorem State.lineAt_aside (low : Bool) : State.Aside (State.lineAt low) :=
  ⟨fun _ _ => rfl, fun _ _ => rfl, fun _ _ => rfl, fun _ _ _ => rfl,
    fun _ => ⟨rfl, rfl, rfl, rfl, rfl, rfl, rfl, rfl⟩⟩

theorem State.consumeGrants_lineAt (low : Bool) (s : State) :
    (s.lineAt low).consumeGrants = s.consumeGrants.lineAt low := by
  rw [State.consumeGrants_eq, State.consumeGrants_eq]
  by_cases h : s.grants = []
  · rw [if_pos h, if_pos (show (s.lineAt low).grants = [] from h)]
    rfl
  · rw [if_neg h, if_neg (show ¬(s.lineAt low).grants = [] from h)]
    exact State.changeDesired_aside (State.lineAt_aside low) _ _ s.consumed

theorem State.enqueueDiffering_lineAt (low : Bool) (s : State) :
    (s.lineAt low).enqueueDiffering = s.enqueueDiffering.lineAt low := by
  unfold State.enqueueDiffering
  by_cases h : s.mode ≠ .active ∨ s.life.lifecycle = .disabled
  · rw [if_pos h, if_pos (show (s.lineAt low).mode ≠ .active ∨ (s.lineAt low).life.lifecycle = .disabled from h)]
  · rw [if_neg h, if_neg (show ¬((s.lineAt low).mode ≠ .active ∨ (s.lineAt low).life.lifecycle = .disabled) from h)]
    rfl

theorem State.activated_lineAt (low : Bool) (s : State) : (s.lineAt low).activated = s.activated.lineAt low := by
  rw [State.activated_eq, State.activated_eq]
  rfl

/-- The entry to ACTIVE does not depend on RST_N but by the falling edge it ends with. -/
theorem State.entered_lineAt (low : Bool) (s : State) : (s.lineAt low).entered = s.entered.lineAt low := by
  have hruns : s.activated.consumeGrants.enqueueDiffering.mode.tamperRuns = true := by
    obtain ⟨q, f, r, hgrants⟩ := s.activated.consumeGrants_form
    obtain ⟨q', hq⟩ := s.activated.consumeGrants.enqueueDiffering_form
    rw [hq, hgrants, State.activated_eq]
    rfl
  unfold State.entered
  rw [State.activated_lineAt, State.consumeGrants_lineAt, State.enqueueDiffering_lineAt, State.startWatches_eq hruns,
    State.startWatches_eq (s := State.lineAt low _) hruns]
  rfl

/-! ### The end of STARTING -/

theorem execReservoirTimeout_eq {s : State} {t : Micros} (h : s.reservoirWait = some t) :
    execReservoirTimeout s =
      .next (State.endStarting { s.reaching (t + 80000) with latched := s.latched ||| 256 }) := by
  have hlatch : (s.reaching (t + 80000)).latch .reservoirShort =
      { s.reaching (t + 80000) with latched := s.latched ||| 256 } := by
    unfold State.latch
    rw [State.reaching_latched]
    rfl
  rw [← hlatch]
  simp only [execReservoirTimeout, event, State.begin_reservoirWait, h, Option.map_some, State.begin_atMoment?]
  rfl

/-- R121, R142: in STARTING the rise of RES_READY is the level, the waiting step, and the end of the wait. -/
theorem execResReadyRise_starting {s : State} {t : Micros} (hm : s.mode = .starting) (hw : s.reservoirWait = some t)
    (hr : s.resReady = false) :
    execResReadyRise s = .next (State.wakeJob { s.begin with resReady := true }).endStarting := by
  have hwoken : (State.wakeJob { s.begin with resReady := true }).mode = s.mode
      ∧ (State.wakeJob { s.begin with resReady := true }).reservoirWait = s.reservoirWait := by
    unfold State.wakeJob
    split
    · exact ⟨rfl, rfl⟩
    · split
      · rw [State.waitForStep_eq]; exact ⟨rfl, rfl⟩
      · exact ⟨rfl, rfl⟩
  obtain ⟨hmode, hwait⟩ := hwoken
  unfold execResReadyRise event
  refine congrArg Host.Outcome.next ((if_neg (by rw [State.begin_resReady, hr]; decide)).trans (if_pos ?_))
  exact ⟨hmode.trans hm, congrArg Option.isSome (hwait.trans hw)⟩

theorem State.endStarting_eq (s : State) :
    s.endStarting =
      if s.vmain = true then State.enterActive { s with reservoirWait := none }
      else State.enterAux { s with reservoirWait := none } := rfl

theorem State.restartLink_mode (s : State) : s.restartLink.mode = s.mode := by
  unfold State.restartLink
  split
  · obtain ⟨q, h⟩ := State.enqueueDiffering_form { s with linkState := .running, faultRun := 0 }
    rw [h]
  · rfl

theorem State.resetEffects_mode (s : State) : s.resetEffects.mode = s.mode := by
  obtain ⟨q, f, h⟩ := s.changeDesired_form s.resetGates .shown
  obtain ⟨⟨hmode, -⟩, -⟩ := s.resetStates.abandonDerivation_subsides
  rw [State.resetEffects_eq, hmode, State.resetStates, State.restartLink_mode, State.emptySilentMirror_eq, h]
  rfl

theorem State.entered_rstLow (s : State) : s.entered.rstLow = s.rstLow := by
  obtain ⟨q, f, r, h⟩ := s.entered_form
  rw [h]
  rfl

theorem State.enterActive_high {s : State} (h : s.rstLow = false) : s.enterActive = s.entered := by
  rw [State.enterActive_eq, State.entered_rstLow, h, if_neg Bool.false_ne_true]

theorem State.enterActive_low {s : State} (h : s.rstLow = true) : s.enterActive = s.entered.resetEffects := by
  rw [State.enterActive_eq, State.entered_rstLow, h, if_pos rfl]

theorem State.enterActive_mode (s : State) : s.enterActive.mode = .active := by
  obtain ⟨q, f, r, h⟩ := s.entered_form
  have hmode : s.entered.mode = .active := by rw [h]
  rw [State.enterActive_eq]
  split
  · exact (State.resetEffects_mode _).trans hmode
  · exact hmode

/-- Settles O47: the end of the wait, the watches, the grants consumed, the entry to ACTIVE, and RST_N low at it. -/
theorem startingEndsAndActiveBegins : Obligations.StartingEndsAndActiveBegins := by
  refine ⟨fun t s hm hw => ⟨?timeout, fun hj hr => ?rise, fun hv => ?active, fun hv => ?aux⟩, fun s => s.endStarting_eq,
    fun s t ht => ?watches, fun l grants g k hnodup => ⟨fun x hx hk => ?granted, fun h => reopen_other h g⟩,
    fun s hm hlow hq hf hmirror hshadow hl => ?entry, fun t j s hm hw hr hj hp => ?woken, fun s hlow => ?low⟩
  case timeout => exact execReservoirTimeout_eq hw
  case rise =>
    refine (execResReadyRise_starting hm hw hr).trans (congrArg (fun u => Host.Outcome.next (State.endStarting u)) ?_)
    exact State.wakeJob_standing fun j h => by cases hj.symm.trans h
  case active =>
    rw [State.endStarting_eq, if_pos hv]
    exact State.enterActive_mode _
  case aux =>
    rw [State.endStarting_eq, if_neg (by rw [hv]; decide), State.enterAux_eq]
    exact ⟨rfl, rfl, rfl⟩
  case watches =>
    rcases ht with rfl | ⟨rfl, hlow⟩
    · rw [State.enterAux_eq]
      exact ⟨rfl, s.tamperAnew_eq, fun _ => rfl⟩
    · refine ⟨?_, ?_, fun h => by rw [h, State.enterAux_eq]⟩
      · obtain ⟨q, f, r, h⟩ := s.entered_form
        rw [State.enterActive_high hlow, h]
        rfl
      · obtain ⟨q, f, r, h⟩ := s.entered_form
        rw [State.enterActive_high hlow, h]
        exact s.tamperAnew_eq
  case granted =>
    subst hk
    exact (reopen_granted hnodup hx g).trans (if_congr (RangeRecord.usable_iff _) rfl rfl)
  case entry =>
    intro t
    obtain ⟨hshown, hnodup, hranges⟩ := State.entered_queue hl hq hf hmirror hshadow
    obtain ⟨q, f, r, h⟩ := s.entered_form
    have ht : t = s.entered := State.enterActive_high hlow
    rw [ht]
    rw [h] at hshown hnodup hranges ⊢
    exact ⟨rfl, rfl, rfl, rfl, rfl, rfl, rfl, rfl, fun hg => ⟨if_pos hg, if_pos hg⟩, fun hg => ⟨if_neg hg, if_neg hg⟩,
      consumedRanges_getLsbD s.grants, hshown, hnodup, hranges, rfl, rfl, rfl, rfl, rfl, rfl⟩
  case woken =>
    refine (execResReadyRise_starting hm hw hr).trans (congrArg (fun u => Host.Outcome.next (State.endStarting u)) ?_)
    rw [State.wakeJob_waiting (s := { s.begin with resReady := true }) hj hp, State.waitForStep_eq]
    rfl
  case low =>
    have hself : s.lineAt true = s := by rw [← hlow]; rfl
    have hentered : State.enterActive { s with rstLow := false } = s.entered.lineAt false :=
      (State.enterActive_high (s := s.lineAt false) rfl).trans (State.entered_lineAt false s)
    rw [State.enterActive_low hlow, hentered]
    refine congrArg State.resetEffects ?_
    conv_lhs => rw [← hself, State.entered_lineAt]
    rfl

end Sys2Proof.Machine
end

