-- ==== Sys2Proof/Proofs/TwoCopies.lean ====
section
/-! One record set in its two copies: where it stands, and what a commit, a cut and a rejection leave of it (R1). -/

namespace Sys2Proof.Machine

section OneSet
variable {α : Type}

/-! ### Where a set stands -/

/-- Some copy of the set is good, and a restore first takes the one with number `q`, list `l` and content `x` (R1). -/
def TwoCopies.Stands (t : TwoCopies α) (q : BitVec 32) (l : List (SetId × BitVec 32)) (x : α) : Prop :=
  t.anyGood = true ∧ t.higher = q ∧ t.takenList = l ∧ t.taken = x

theorem TwoCopies.anyGood_of_get {t : TwoCopies α} {i : CopyId} (h : (t.get i).good = true) : t.anyGood = true := by
  cases i
  case a => exact Bool.or_eq_true_iff.2 (.inl h)
  case b => exact Bool.or_eq_true_iff.2 (.inr h)

/-- R1: the copy a restore first takes, where one is good, is the one a commit leaves alone. -/
theorem TwoCopies.first_eq_of_anyGood {t : TwoCopies α} (h : t.anyGood = true) : t.first = otherCopy t.target := by
  obtain ⟨⟨sa, ga, la, xa⟩, ⟨sb, gb, lb, xb⟩⟩ := t
  have hg : ga = true ∨ gb = true := by simpa [TwoCopies.anyGood] using h
  by_cases hs : sa < sb
  · cases ga <;> cases gb <;> simp [TwoCopies.first, TwoCopies.target, otherCopy, hs] at hg ⊢
  · have hn : ¬sa.toNat < sb.toNat := fun hlt => hs hlt
    cases ga <;> cases gb <;> simp [TwoCopies.first, TwoCopies.target, otherCopy, BitVec.lt_def, hn] at hg ⊢

/-- R1: the set stands at the number of the copy a restore first takes. -/
theorem TwoCopies.higher_eq_of_anyGood {t : TwoCopies α} (h : t.anyGood = true) : t.higher = (t.get t.first).seq := by
  obtain ⟨⟨sa, ga, la, xa⟩, ⟨sb, gb, lb, xb⟩⟩ := t
  by_cases hs : sa < sb <;> cases ga <;> cases gb <;>
    simp_all [TwoCopies.anyGood, TwoCopies.first, TwoCopies.higher, TwoCopies.get]

theorem TwoCopies.stands_of_anyGood {t : TwoCopies α} (h : t.anyGood = true) :
    t.Stands t.higher t.takenList t.taken := ⟨h, rfl, rfl, rfl⟩

/-- R1: a set stands where the good copy that a restore first takes says. -/
theorem TwoCopies.stands_of_first {t : TwoCopies α} {i : CopyId} (hi : t.first = i) (h : (t.get i).good = true) :
    t.Stands (t.get i).seq (t.get i).commits (t.get i).content := by
  have hg : t.anyGood = true := TwoCopies.anyGood_of_get h
  subst hi
  exact ⟨hg, t.higher_eq_of_anyGood hg, (t.takenList_of_good hg).2, rfl⟩

/-- R1: the copy that a commit leaves alone is good and carries the number, the list and the content in force. -/
theorem TwoCopies.kept {t : TwoCopies α} (h : t.anyGood = true) :
    (t.get (otherCopy t.target)).good = true ∧ (t.get (otherCopy t.target)).seq = t.higher
      ∧ (t.get (otherCopy t.target)).commits = t.takenList ∧ (t.get (otherCopy t.target)).content = t.taken := by
  rw [← t.first_eq_of_anyGood h]
  exact ⟨(t.takenList_of_good h).1, (t.higher_eq_of_anyGood h).symm, (t.takenList_of_good h).2.symm, rfl⟩

@[simp] theorem otherCopy_otherCopy (i : CopyId) : otherCopy (otherCopy i) = i := by cases i <;> rfl

/-! ### One copy replaced -/

/-- R1: a good copy with a number above the other's is the one taken. -/
theorem TwoCopies.first_put_of_above {t : TwoCopies α} {c : Copy α} {i : CopyId} (hc : c.good = true)
    (h : (t.get (otherCopy i)).seq < c.seq) : (t.put c i).first = i := by
  cases i
  case a =>
    have hn : ¬c.seq < t.b.seq := fun hlt => absurd (BitVec.lt_trans h hlt) (BitVec.lt_irrefl _)
    simp [TwoCopies.first, TwoCopies.put, hc, hn]
  case b =>
    have hl : t.a.seq < c.seq := h
    simp [TwoCopies.first, TwoCopies.put, hc, hl]

/-- R1: a failing copy, or one with a number below the other's, is not taken beside a good one. -/
theorem TwoCopies.first_put_of_below {t : TwoCopies α} {c : Copy α} {i : CopyId}
    (hg : (t.get (otherCopy i)).good = true) (h : c.good = false ∨ c.seq < (t.get (otherCopy i)).seq) :
    (t.put c i).first = otherCopy i := by
  cases i
  case a =>
    have hgb : t.b.good = true := hg
    rcases h with h | h
    · simp [TwoCopies.first, TwoCopies.put, otherCopy, hgb, h]
    · have hl : c.seq < t.b.seq := h
      simp [TwoCopies.first, TwoCopies.put, otherCopy, hgb, hl]
  case b =>
    have hga : t.a.good = true := hg
    rcases h with h | h
    · simp [TwoCopies.first, TwoCopies.put, otherCopy, hga, h]
    · have hn : ¬t.a.seq < c.seq := fun hlt => absurd (BitVec.lt_trans h hlt) (BitVec.lt_irrefl _)
      simp [TwoCopies.first, TwoCopies.put, otherCopy, hga, hn]

/-- R1: with the copy a commit writes failing, or numbered below, the set stands as it did. -/
theorem TwoCopies.stands_put_target {t : TwoCopies α} {c : Copy α} (h : t.anyGood = true)
    (hc : c.good = false ∨ c.seq < t.higher) : (t.put c t.target).Stands t.higher t.takenList t.taken := by
  obtain ⟨hgood, hseq, hlist, htaken⟩ := t.kept h
  have hfirst := TwoCopies.first_put_of_below (c := c) hgood (by rwa [hseq])
  have hs := TwoCopies.stands_of_first hfirst (by rwa [TwoCopies.get_put_other])
  rwa [TwoCopies.get_put_other, hseq, hlist, htaken] at hs

theorem TwoCopies.cut_stands {t : TwoCopies α} (h : t.anyGood = true) : t.cut.Stands t.higher t.takenList t.taken :=
  TwoCopies.stands_put_target h (.inl rfl)

/-! ### The numbers -/

theorem lt_succ_of_not_top {q : BitVec 32} (h : q ≠ 4294967295) : q < q + 1 := by bv_omega

theorem TwoCopies.atTop_iff (t : TwoCopies α) : t.atTop = true ↔ t.higher = 4294967295 := beq_iff_eq

theorem TwoCopies.twice_iff {t : TwoCopies α} (h : t.anyGood = true) : t.twice = true ↔ t.higher = 4294967295 := by
  unfold TwoCopies.twice
  rw [h, ← t.atTop_iff]
  simp

/-! ### A commit of the set -/

/-- R1: the copy that a commit writes. -/
def TwoCopies.newCopy (t : TwoCopies α) (l : List (SetId × BitVec 32)) (x : α) : Copy α := ⟨t.nextSeq, true, l, x⟩

theorem TwoCopies.write_late {t : TwoCopies α} (h : t.anyGood = true) (ht : t.higher = 4294967295)
    (l : List (SetId × BitVec 32)) (x : α) : t.write l x = ⟨t.newCopy l x, t.newCopy l x⟩ := if_pos ((t.twice_iff h).2 ht)

theorem TwoCopies.write_once {t : TwoCopies α} (h : t.anyGood = true) (ht : t.higher ≠ 4294967295)
    (l : List (SetId × BitVec 32)) (x : α) : t.write l x = t.put (t.newCopy l x) t.target :=
  if_neg (mt (t.twice_iff h).1 ht)

/-- R1: the copy a commit writes first holds the new content. -/
theorem TwoCopies.get_write_target {t : TwoCopies α} (h : t.anyGood = true) (l : List (SetId × BitVec 32)) (x : α) :
    (t.write l x).get t.target = t.newCopy l x := by
  by_cases ht : t.higher = 4294967295
  · rw [t.write_late h ht]
    cases t.target <;> rfl
  · rw [t.write_once h ht, TwoCopies.get_put]

/-- R1: completed, the set stands at the next number, with the commit's list and the new content. -/
theorem TwoCopies.write_stands {t : TwoCopies α} (h : t.anyGood = true) (l : List (SetId × BitVec 32)) (x : α) :
    (t.write l x).Stands t.nextSeq l x := by
  by_cases ht : t.higher = 4294967295
  · rw [t.write_late h ht]
    have hfirst : (⟨t.newCopy l x, t.newCopy l x⟩ : TwoCopies α).first = .a := by
      simp [TwoCopies.first, TwoCopies.newCopy, BitVec.lt_irrefl]
    exact TwoCopies.stands_of_first hfirst rfl
  · rw [t.write_once h ht]
    have hfirst := TwoCopies.first_put_of_above (t := t) (c := t.newCopy l x) (i := t.target) rfl
      (by rw [(t.kept h).2.1]; exact lt_succ_of_not_top ht)
    have hs := TwoCopies.stands_of_first hfirst (by rw [TwoCopies.get_put]; rfl)
    rwa [TwoCopies.get_put] at hs

/-- R1: with its first writing alone completed, a set at 2^32 − 1 stands as it did; another stands as after the
commit. -/
theorem TwoCopies.firstWriting_late {t : TwoCopies α} (h : t.anyGood = true) (ht : t.higher = 4294967295)
    (l : List (SetId × BitVec 32)) (x : α) :
    (t.put ((t.write l x).get t.target) t.target).Stands t.higher t.takenList t.taken := by
  refine TwoCopies.stands_put_target h (.inr ?_)
  rw [t.get_write_target h]
  change t.higher + 1 < t.higher
  rw [ht]
  decide

theorem TwoCopies.firstWriting_once {t : TwoCopies α} (h : t.anyGood = true) (ht : t.higher ≠ 4294967295)
    (l : List (SetId × BitVec 32)) (x : α) : t.put ((t.write l x).get t.target) t.target = t.write l x := by
  rw [t.get_write_target h, t.write_once h ht]

/-- R1: cut in its second writing, a set at 2^32 − 1 stands as after the commit: the copy written first is whole. -/
theorem TwoCopies.secondWriting_late {t : TwoCopies α} (h : t.anyGood = true) (l : List (SetId × BitVec 32)) (x : α) :
    ((t.write l x).put ((t.write l x).get (otherCopy t.target)).broken (otherCopy t.target)).Stands t.nextSeq l x := by
  have hg : ((t.write l x).get (otherCopy (otherCopy t.target))).good = true := by
    rw [otherCopy_otherCopy, t.get_write_target h]
    rfl
  have hfirst := TwoCopies.first_put_of_below (c := ((t.write l x).get (otherCopy t.target)).broken) hg (.inl rfl)
  have hs := TwoCopies.stands_of_first hfirst (by rwa [TwoCopies.get_put_other])
  rw [TwoCopies.get_put_other, otherCopy_otherCopy, t.get_write_target h] at hs
  exact hs

/-! ### A set with one good copy -/

/-- One copy of the set is good, and it holds `x`. -/
def TwoCopies.Sole (t : TwoCopies α) (x : α) : Prop :=
  ∃ i, (t.get i).good = true ∧ (t.get i).content = x ∧ (t.get (otherCopy i)).good = false

theorem TwoCopies.Sole.first {t : TwoCopies α} {i : CopyId} (hg : (t.get i).good = true)
    (hb : (t.get (otherCopy i)).good = false) : t.first = i := by
  cases i
  case a =>
    have ha : t.a.good = true := hg
    have hbb : t.b.good = false := hb
    simp [TwoCopies.first, ha, hbb]
  case b =>
    have ha : t.b.good = true := hg
    have hbb : t.a.good = false := hb
    simp [TwoCopies.first, ha, hbb]

/-- R1: a restore takes the one good copy. -/
theorem TwoCopies.Sole.taken {t : TwoCopies α} {x : α} (h : t.Sole x) : t.taken = x := by
  obtain ⟨i, hg, hx, hb⟩ := h
  rw [TwoCopies.taken, TwoCopies.Sole.first hg hb, hx]

/-- Log entry 8: a set that holds one good copy keeps that copy. -/
theorem TwoCopies.Sole.rejectBeside {t : TwoCopies α} {x : α} (h : t.Sole x) : t.rejectBeside.Sole x := by
  obtain ⟨i, hg, hx, hb⟩ := h
  have hfirst := TwoCopies.Sole.first hg hb
  refine ⟨i, ?_⟩
  rw [TwoCopies.rejectBeside, hfirst, if_neg (by rw [hb]; decide), TwoCopies.get_put, TwoCopies.get_put_other]
  exact ⟨hg, hx, hb⟩

/-- R1: a copy being written when power failed leaves the one in force alone. -/
theorem TwoCopies.cut_sole {t : TwoCopies α} (h : t.anyGood = true) : t.cut.Sole t.taken := by
  obtain ⟨hgood, -, -, htaken⟩ := t.kept h
  refine ⟨otherCopy t.target, ?_⟩
  rw [TwoCopies.cut, TwoCopies.get_put_other, otherCopy_otherCopy, TwoCopies.get_put]
  exact ⟨hgood, htaken, rfl⟩

/-! ### The rejection of a cut commit's copy -/

/-- R1, log entry 8: after the rejection of the copy a commit wrote, the one good copy is the one from before. -/
theorem TwoCopies.reject_write {t : TwoCopies α} (h : t.anyGood = true) (ht : t.higher ≠ 4294967295)
    (l : List (SetId × BitVec 32)) (x : α) :
    (t.write l x).reject.Sole t.taken ∧ (t.write l x).reject.Stands t.higher [] t.taken
      ∧ (t.write l x).rejectBeside = (t.write l x).reject := by
  obtain ⟨hgood, hseq, -, htaken⟩ := t.kept h
  have hfirst : (t.write l x).first = t.target := by
    rw [t.write_once h ht]
    exact TwoCopies.first_put_of_above rfl (by rw [hseq]; exact lt_succ_of_not_top ht)
  have hother : (t.write l x).get (otherCopy t.target) = t.get (otherCopy t.target) := by
    rw [t.write_once h ht, TwoCopies.get_put_other]
  set r := (t.write l x).reject with hr
  have hrdef : r = ((t.write l x).fail t.target).put (t.get (otherCopy t.target)).listed (otherCopy t.target) := by
    rw [hr, TwoCopies.reject, hfirst, hother]
  have hkept : r.get (otherCopy t.target) = (t.get (otherCopy t.target)).listed := by
    rw [hrdef, TwoCopies.get_put]
  have hbad : (r.get t.target).good = false := by
    have hget : r.get (otherCopy (otherCopy t.target)) = ((t.write l x).fail t.target).get (otherCopy (otherCopy t.target)) := by
      rw [hrdef, TwoCopies.get_put_other]
    rw [otherCopy_otherCopy] at hget
    rw [hget, TwoCopies.get_fail_good]
  have hrgood : (r.get (otherCopy t.target)).good = true := by rw [hkept, Copy.listed_good, hgood]
  refine ⟨⟨otherCopy t.target, hrgood, ?_, by rw [otherCopy_otherCopy, hbad]⟩, ?_, ?_⟩
  · rw [hkept, Copy.listed_content, htaken]
  · have hs := TwoCopies.stands_of_first (TwoCopies.Sole.first hrgood (by rw [otherCopy_otherCopy, hbad])) hrgood
    rwa [hkept, Copy.listed_seq, Copy.listed_commits, Copy.listed_content, hseq, htaken] at hs
  · rw [TwoCopies.rejectBeside, hfirst, hother, if_pos hgood]

/-! ### A cut commit of the set -/

/-- R1: what a cut in its first writings leaves of one set that it had to write: the set as after the commit where it was
completed below 2^32 − 1, else the set as it stood. -/
theorem TwoCopies.firstWriting_stands {t : TwoCopies α} (h : t.anyGood = true) (l : List (SetId × BitVec 32)) (x : α)
    (cut : Cut) (id : SetId) (hf : ¬(id ∈ cut.completed ∧ t.higher ≠ 4294967295)) :
    (firstWriting cut id t (t.write l x)).Stands t.higher t.takenList t.taken := by
  unfold firstWriting
  by_cases hc : id ∈ cut.completed
  · have ht : t.higher = 4294967295 := by
      by_contra ht
      exact hf ⟨hc, ht⟩
    rw [if_pos (List.contains_iff_mem.2 hc)]
    exact t.firstWriting_late h ht l x
  · rw [if_neg (mt List.contains_iff_mem.1 hc)]
    split
    · exact t.cut_stands h
    · exact t.stands_of_anyGood h

theorem TwoCopies.firstWriting_completed {t : TwoCopies α} (h : t.anyGood = true) (l : List (SetId × BitVec 32)) (x : α)
    {cut : Cut} {id : SetId} (hc : id ∈ cut.completed) (ht : t.higher ≠ 4294967295) :
    firstWriting cut id t (t.write l x) = t.write l x := by
  rw [firstWriting, if_pos (List.contains_iff_mem.2 hc), t.firstWriting_once h ht]

theorem TwoCopies.firstWriting_failing {t after : TwoCopies α} {cut : Cut} {id : SetId} (hc : id ∉ cut.completed)
    (hf : cut.failing = some id) : firstWriting cut id t after = t.cut := by
  rw [firstWriting, if_neg (mt List.contains_iff_mem.1 hc), if_pos (beq_iff_eq.2 hf)]

theorem TwoCopies.firstWriting_uncompleted {t after : TwoCopies α} {cut : Cut} {id : SetId} (hc : id ∉ cut.completed) :
    firstWriting cut id t after = t ∨ firstWriting cut id t after = t.cut := by
  rw [firstWriting, if_neg (mt List.contains_iff_mem.1 hc)]
  split
  · exact .inr rfl
  · exact .inl rfl

/-- R1: cut in its second writings, every set stands as after the commit. -/
theorem TwoCopies.secondWriting_stands {t : TwoCopies α} (h : t.anyGood = true) (l : List (SetId × BitVec 32)) (x : α)
    (rewritten : List SetId) (id : SetId) :
    (secondWriting rewritten id t (t.write l x)).Stands t.nextSeq l x := by
  unfold secondWriting
  split
  · exact t.secondWriting_late h l x
  · exact t.write_stands h l x

end OneSet

end Sys2Proof.Machine
end

