-- ==== Sys2Proof/Proofs/Commits.lean ====
section
/-! A commit of several sets is atomic (O60): the six sets are spoken of by their name, and a store in which some of the
written sets stand at their new number and the rest as before is what every cut leaves. -/

namespace Sys2Proof.Machine

/-! ### The sets by name -/

/-- What a set holds. -/
def SetContent : SetId → Type
  | .lifecycle => LifecycleRecord
  | .cells => Vector Cell 26
  | .credentials => CredentialTable
  | .layout => Layout
  | .binding => Option Bytes
  | .evidence => Evidence

/-- The copies of a set. -/
def Nvs.set (n : Nvs) : (id : SetId) → TwoCopies (SetContent id)
  | .lifecycle => n.lifecycle
  | .cells => n.cells
  | .credentials => n.credentials
  | .layout => n.layout
  | .binding => n.binding
  | .evidence => n.evidence

/-- The working content of a set. -/
def State.held (s : State) : (id : SetId) → SetContent id
  | .lifecycle => s.life
  | .cells => s.cells
  | .credentials => s.cred
  | .layout => s.layout
  | .binding => s.binding
  | .evidence => s.evid

theorem Nvs.anyGood_eq (n : Nvs) (id : SetId) : n.anyGood id = (n.set id).anyGood := by cases id <;> rfl
theorem Nvs.takenSeq_eq (n : Nvs) (id : SetId) : n.takenSeq id = (n.set id).higher := by cases id <;> rfl
theorem Nvs.takenCommits_eq (n : Nvs) (id : SetId) : n.takenCommits id = (n.set id).takenList := by cases id <;> rfl

/-- R1: a restore settles each set by itself. -/
theorem Nvs.settled_set (n : Nvs) (id : SetId) :
    n.settled.set id =
      if n.rejected id then (if id = .lifecycle then (n.set id).reject else (n.set id).rejectBeside) else n.set id := by
  cases id <;> rfl

/-- R1: what a restore takes, from what it takes of each set. -/
theorem Nvs.contents_eq (n : Nvs) (f : ∀ id : SetId, SetContent id) (h : ∀ id, (n.settled.set id).taken = f id) :
    n.contents = ⟨f .lifecycle, f .cells, f .credentials, f .layout, f .binding, f .evidence⟩ := by
  rw [← h .lifecycle, ← h .cells, ← h .credentials, ← h .layout, ← h .binding, ← h .evidence]
  rfl

/-- R1: the list of a commit. -/
def Nvs.commitList (n : Nvs) (sets : List SetId) : List (SetId × BitVec 32) := sets.map fun id => (id, n.nextSeq id)

theorem Nvs.mem_commitList {n : Nvs} {sets : List SetId} {id : SetId} {k : BitVec 32} :
    (id, k) ∈ n.commitList sets ↔ id ∈ sets ∧ k = n.nextSeq id := by
  simp only [Nvs.commitList, List.mem_map, Prod.mk.injEq]
  constructor
  · rintro ⟨id', hid, rfl, rfl⟩
    exact ⟨hid, rfl⟩
  · rintro ⟨hid, rfl⟩
    exact ⟨id, hid, rfl, rfl⟩

/-- R1: a commit writes each of its sets. -/
theorem State.commit_set (sets : List SetId) (s : State) (id : SetId) :
    (s.commit sets).nvs.set id =
      if id ∈ sets then (s.nvs.set id).write (s.nvs.commitList sets) (s.held id) else s.nvs.set id := by
  cases id <;> rfl

/-- R1: a cut treats each set by itself. -/
theorem cutWrite_set (cut : Cut) {n : Nvs} {sets : List SetId} (hsets : sets ≠ []) (after : Nvs) (id : SetId) :
    (cutWrite cut ⟨n, sets⟩ after).set id = cutSet cut sets id (n.set id) (after.set id) := by
  unfold cutWrite
  dsimp only
  rw [if_neg (by simpa [List.isEmpty_iff] using hsets)]
  cases id <;> rfl

/-! ### The lists -/

/-- R1: what a commit list shows, by the sets it names. -/
theorem Nvs.cutList_iff (n : Nvs) (l : List (SetId × BitVec 32)) :
    n.cutList l = true ↔ ∃ id k, (id, k) ∈ l ∧ stoodBefore (n.takenSeq id) k = true := by
  simp [Nvs.cutList]

/-- R1: a number that a list of a whole store names is neither above the set's, at its number or the next, nor that of
a commit to come. -/
theorem stoodBefore_of_listed {q k : BitVec 32} (hle : k ≤ q) (hlow : 3 ≤ k ∨ q < 4294967293) :
    stoodBefore q k = false ∧ stoodBefore (q + 1) k = false ∧ k ≠ q + 1 := by
  have hno : ∀ r, r = q ∨ r = q + 1 → ¬(r = k - 1 ∨ r = k - 2) := by
    rintro r (rfl | rfl) <;> rcases hlow with hlow | hlow <;> bv_omega
  refine ⟨Bool.eq_false_iff.2 fun h => hno q (.inl rfl) ((stoodBefore_iff _ _).1 h),
    Bool.eq_false_iff.2 fun h => hno (q + 1) (.inr rfl) ((stoodBefore_iff _ _).1 h), ?_⟩
  rcases hlow with hlow | hlow <;> bv_omega

theorem stoodBefore_next (q : BitVec 32) : stoodBefore q (q + 1) = true ∧ stoodBefore (q + 1) (q + 1) = false := by
  constructor
  · exact (stoodBefore_iff _ _).2 (.inl (by bv_omega))
  · refine Bool.eq_false_iff.2 fun h => ?_
    rcases (stoodBefore_iff _ _).1 h with h | h <;> bv_omega

theorem Nvs.Whole.listed {n : Nvs} (h : n.Whole) {j id : SetId} {k : BitVec 32} (hm : (id, k) ∈ n.takenCommits j) :
    stoodBefore (n.takenSeq id) k = false ∧ stoodBefore (n.nextSeq id) k = false ∧ k ≠ n.nextSeq id := by
  obtain ⟨hle, hlow⟩ := (h j).2 _ hm
  exact stoodBefore_of_listed hle hlow

/-! ### A store between two commits -/

/-- R1: in `m`, every set of `fresh`, all of them sets of a commit of `sets`, stands at its new number with the commit's
list and the new content; every other set stands as in the store the commit found. -/
structure State.Between (s : State) (sets fresh : List SetId) (m : Nvs) : Prop where
  sub : ∀ id ∈ fresh, id ∈ sets
  new : ∀ id ∈ fresh, (m.set id).Stands (s.nvs.nextSeq id) (s.nvs.commitList sets) (s.held id)
  old : ∀ id ∉ fresh, (m.set id).Stands (s.nvs.takenSeq id) (s.nvs.takenCommits id) (s.nvs.set id).taken

namespace State.Between
variable {s : State} {sets fresh : List SetId} {m : Nvs}

theorem anyGood (h : s.Between sets fresh m) (id : SetId) : m.anyGood id = true := by
  rw [m.anyGood_eq]
  by_cases hid : id ∈ fresh
  · exact (h.new id hid).1
  · exact (h.old id hid).1

theorem takenSeq_new (h : s.Between sets fresh m) {id : SetId} (hid : id ∈ fresh) :
    m.takenSeq id = s.nvs.nextSeq id := (m.takenSeq_eq id).trans (h.new id hid).2.1

theorem takenSeq_old (h : s.Between sets fresh m) {id : SetId} (hid : id ∉ fresh) :
    m.takenSeq id = s.nvs.takenSeq id := (m.takenSeq_eq id).trans (h.old id hid).2.1

theorem takenCommits_new (h : s.Between sets fresh m) {id : SetId} (hid : id ∈ fresh) :
    m.takenCommits id = s.nvs.commitList sets := (m.takenCommits_eq id).trans (h.new id hid).2.2.1

theorem takenCommits_old (h : s.Between sets fresh m) {id : SetId} (hid : id ∉ fresh) :
    m.takenCommits id = s.nvs.takenCommits id := (m.takenCommits_eq id).trans (h.old id hid).2.2.1

/-- R1: no list from before the commit shows a cut. -/
theorem cutList_old (h : s.Between sets fresh m) (hw : s.nvs.Whole) (j : SetId) :
    m.cutList (s.nvs.takenCommits j) = false := by
  refine Bool.eq_false_iff.2 fun hcut => ?_
  obtain ⟨id, k, hm, hst⟩ := (m.cutList_iff _).1 hcut
  obtain ⟨hq, hq1, -⟩ := hw.listed hm
  by_cases hid : id ∈ fresh
  · rw [h.takenSeq_new hid, hq1] at hst
    cases hst
  · rw [h.takenSeq_old hid, hq] at hst
    cases hst

/-- R1: the commit's list shows a cut exactly where one of its sets has not got its number. -/
theorem cutList_new (h : s.Between sets fresh m) :
    m.cutList (s.nvs.commitList sets) = true ↔ ∃ id ∈ sets, id ∉ fresh := by
  rw [m.cutList_iff]
  constructor
  · rintro ⟨id, k, hm, hst⟩
    obtain ⟨hid, rfl⟩ := Nvs.mem_commitList.1 hm
    refine ⟨id, hid, fun hf => ?_⟩
    rw [h.takenSeq_new hf, Nvs.nextSeq, (stoodBefore_next _).2] at hst
    cases hst
  · rintro ⟨id, hid, hf⟩
    refine ⟨id, _, Nvs.mem_commitList.2 ⟨hid, rfl⟩, ?_⟩
    rw [h.takenSeq_old hf]
    exact (stoodBefore_next _).1

/-- R1: a restore rejects the fresh sets, where the commit was cut, and no other. -/
theorem rejected_iff (h : s.Between sets fresh m) (hw : s.nvs.Whole) (id : SetId) :
    m.rejected id = true ↔ id ∈ fresh ∧ ∃ j ∈ sets, j ∉ fresh := by
  rw [m.rejected_iff]
  constructor
  · rintro ⟨j, -, hcut, hm⟩
    by_cases hj : j ∈ fresh
    · rw [h.takenCommits_new hj] at hcut hm
      refine ⟨?_, h.cutList_new.1 hcut⟩
      by_contra hid
      rw [h.takenSeq_old hid] at hm
      have hne := (Nvs.mem_commitList.1 hm).2
      unfold Nvs.nextSeq at hne
      bv_omega
    · rw [h.takenCommits_old hj, h.cutList_old hw] at hcut
      cases hcut
  · rintro ⟨hid, hcut⟩
    refine ⟨id, h.anyGood id, ?_, ?_⟩
    · rw [h.takenCommits_new hid]
      exact h.cutList_new.2 hcut
    · rw [h.takenCommits_new hid, h.takenSeq_new hid]
      exact Nvs.mem_commitList.2 ⟨h.sub id hid, rfl⟩

/-- R1: where every set of the commit is fresh, a restore keeps every copy it took. -/
theorem settled_of_complete (h : s.Between sets fresh m) (hw : s.nvs.Whole) (hall : ∀ id ∈ sets, id ∈ fresh) :
    m.settled = m := by
  have hno : ∀ id, m.rejected id = false := fun id => Bool.eq_false_iff.2 fun hr => by
    obtain ⟨-, j, hj, hjf⟩ := (h.rejected_iff hw id).1 hr
    exact hjf (hall j hj)
  unfold Nvs.settled
  simp only [hno, Bool.false_eq_true, if_false]

/-- R1: then it reads new in every set of the commit and old in every other. -/
theorem contents_of_complete (h : s.Between sets fresh m) (hw : s.nvs.Whole) (hall : ∀ id ∈ sets, id ∈ fresh) :
    m.contents =
      { life := if SetId.lifecycle ∈ sets then s.life else s.nvs.lifecycle.taken
        cells := if SetId.cells ∈ sets then s.cells else s.nvs.cells.taken
        cred := if SetId.credentials ∈ sets then s.cred else s.nvs.credentials.taken
        layout := if SetId.layout ∈ sets then s.layout else s.nvs.layout.taken
        binding := if SetId.binding ∈ sets then s.binding else s.nvs.binding.taken
        evid := if SetId.evidence ∈ sets then s.evid else s.nvs.evidence.taken } := by
  refine m.contents_eq (fun id => if id ∈ sets then s.held id else (s.nvs.set id).taken) fun id => ?_
  rw [h.settled_of_complete hw hall]
  by_cases hid : id ∈ sets
  · rw [if_pos hid]
    exact (h.new id (hall id hid)).2.2.2
  · rw [if_neg hid]
    exact (h.old id (fun hf => hid (h.sub id hf))).2.2.2

/-- R1: where a set of the commit is not fresh, and a fresh set's other copy is the one from before, the restored sets
stand at their old numbers with their old contents. -/
theorem settled_of_cut (h : s.Between sets fresh m) (hw : s.nvs.Whole) (hcut : ∃ j ∈ sets, j ∉ fresh)
    (hset : ∀ id ∈ fresh, m.set id = (s.nvs.set id).write (s.nvs.commitList sets) (s.held id)
      ∧ s.nvs.takenSeq id ≠ 4294967295) (id : SetId) :
    ∃ l, (l = [] ∨ l = s.nvs.takenCommits id)
      ∧ (m.settled.set id).Stands (s.nvs.takenSeq id) l (s.nvs.set id).taken := by
  rw [m.settled_set]
  by_cases hid : id ∈ fresh
  · obtain ⟨hwrite, hq⟩ := hset id hid
    rw [s.nvs.takenSeq_eq] at hq
    have hgood : (s.nvs.set id).anyGood = true := (s.nvs.anyGood_eq id).symm.trans (hw id).1
    obtain ⟨-, hstands, hbeside⟩ := TwoCopies.reject_write hgood hq (s.nvs.commitList sets) (s.held id)
    rw [if_pos ((h.rejected_iff hw id).2 ⟨hid, hcut⟩), hwrite, hbeside, ite_self, s.nvs.takenSeq_eq]
    exact ⟨[], .inl rfl, hstands⟩
  · rw [if_neg fun hr => hid ((h.rejected_iff hw id).1 hr).1]
    exact ⟨_, .inr rfl, h.old id hid⟩

end State.Between

/-! ### What a commit and its cuts leave -/

section Commit
variable {s : State} (hw : s.nvs.Whole) (sets : List SetId)
include hw

theorem Nvs.Whole.set_anyGood (id : SetId) : (s.nvs.set id).anyGood = true :=
  (s.nvs.anyGood_eq id).symm.trans (hw id).1

theorem Nvs.Whole.set_stands (id : SetId) :
    (s.nvs.set id).Stands (s.nvs.takenSeq id) (s.nvs.takenCommits id) (s.nvs.set id).taken := by
  rw [s.nvs.takenSeq_eq, s.nvs.takenCommits_eq]
  exact (s.nvs.set id).stands_of_anyGood (Nvs.Whole.set_anyGood hw id)

/-- R1: one set of a commit, completed. -/
theorem Nvs.Whole.write_stands (id : SetId) :
    ((s.nvs.set id).write (s.nvs.commitList sets) (s.held id)).Stands (s.nvs.nextSeq id) (s.nvs.commitList sets)
      (s.held id) := by
  have h := (s.nvs.set id).write_stands (Nvs.Whole.set_anyGood hw id) (s.nvs.commitList sets) (s.held id)
  rwa [TwoCopies.nextSeq, ← s.nvs.takenSeq_eq] at h

theorem State.between_refl : s.Between [] [] s.nvs where
  sub := fun _ h => h
  new := fun _ h => absurd h List.not_mem_nil
  old := fun id _ => Nvs.Whole.set_stands hw id

theorem State.between_commit : s.Between sets sets (s.commit sets).nvs where
  sub := fun _ h => h
  new := fun id hid => by
    rw [s.commit_set, if_pos hid]
    exact Nvs.Whole.write_stands hw sets id
  old := fun id hid => by
    rw [s.commit_set, if_neg hid]
    exact Nvs.Whole.set_stands hw id

/-- The sets of a cut commit that stand at their new number though it was cut in its first writings. -/
def State.freshSets (s : State) (sets : List SetId) (cut : Cut) : List SetId :=
  sets.filter fun id => cut.completed.contains id && s.nvs.takenSeq id != 4294967295

omit hw in
theorem State.mem_freshSets {cut : Cut} {id : SetId} :
    id ∈ s.freshSets sets cut ↔ id ∈ sets ∧ id ∈ cut.completed ∧ s.nvs.takenSeq id ≠ 4294967295 := by
  simp [State.freshSets]

omit hw in
/-- R1: a cut in the first writings. -/
theorem cutSet_first {α : Type} {cut : Cut} {id : SetId} {before after : TwoCopies α} (hid : id ∈ sets)
    (hfirst : cut.rewritten = none ∨ ∃ j ∈ sets, j ∉ cut.completed) :
    cutSet cut sets id before after = firstWriting cut id before after := by
  unfold cutSet
  rw [if_neg (by simpa using hid)]
  rcases hr : cut.rewritten with _ | l
  · rfl
  · obtain ⟨j, hj, hjc⟩ := hfirst.resolve_left (by rw [hr]; exact Option.some_ne_none l)
    refine if_neg fun hall => hjc ?_
    exact List.contains_iff_mem.1 (List.all_eq_true.1 hall j hj)

omit hw in
theorem cutSet_second {α : Type} {cut : Cut} {id : SetId} {before after : TwoCopies α} {l : List SetId} (hid : id ∈ sets)
    (hr : cut.rewritten = some l) (hall : ∀ j ∈ sets, j ∈ cut.completed) :
    cutSet cut sets id before after = secondWriting l id before after := by
  unfold cutSet
  rw [if_neg (by simpa using hid), hr]
  exact if_pos (List.all_eq_true.2 fun j hj => List.contains_iff_mem.2 (hall j hj))

omit hw in
theorem cutSet_other {α : Type} {cut : Cut} {id : SetId} {before after : TwoCopies α} (hid : id ∉ sets) :
    cutSet cut sets id before after = before := if_pos (by simpa using hid)

/-- R1: what a cut in the first writings leaves. -/
theorem State.between_firstWriting (hne : sets ≠ []) {cut : Cut}
    (hfirst : cut.rewritten = none ∨ ∃ j ∈ sets, j ∉ cut.completed) :
    s.Between sets (s.freshSets sets cut) (cutWrite cut ⟨s.nvs, sets⟩ (s.commit sets).nvs)
      ∧ ∀ id ∈ s.freshSets sets cut, (cutWrite cut ⟨s.nvs, sets⟩ (s.commit sets).nvs).set id
          = (s.nvs.set id).write (s.nvs.commitList sets) (s.held id) ∧ s.nvs.takenSeq id ≠ 4294967295 := by
  have hset : ∀ id ∈ s.freshSets sets cut, (cutWrite cut ⟨s.nvs, sets⟩ (s.commit sets).nvs).set id
      = (s.nvs.set id).write (s.nvs.commitList sets) (s.held id) := fun id hid => by
    obtain ⟨hs, hc, hq⟩ := (State.mem_freshSets sets).1 hid
    rw [s.nvs.takenSeq_eq] at hq
    rw [cutWrite_set cut hne, cutSet_first sets hs hfirst, s.commit_set, if_pos hs,
      TwoCopies.firstWriting_completed (Nvs.Whole.set_anyGood hw id) _ _ hc hq]
  refine ⟨⟨fun id hid => ((State.mem_freshSets sets).1 hid).1, fun id hid => ?_, fun id hid => ?_⟩,
    fun id hid => ⟨hset id hid, ((State.mem_freshSets sets).1 hid).2.2⟩⟩
  · rw [hset id hid]
    exact Nvs.Whole.write_stands hw sets id
  · rw [cutWrite_set cut hne]
    by_cases hs : id ∈ sets
    · rw [cutSet_first sets hs hfirst, s.commit_set, if_pos hs, s.nvs.takenSeq_eq, s.nvs.takenCommits_eq]
      refine TwoCopies.firstWriting_stands (Nvs.Whole.set_anyGood hw id) _ _ cut id fun hc => ?_
      rw [← s.nvs.takenSeq_eq] at hc
      exact hid ((State.mem_freshSets sets).2 ⟨hs, hc⟩)
    · rw [cutSet_other sets hs]
      exact Nvs.Whole.set_stands hw id

/-- R1: what a cut in the second writings leaves. -/
theorem State.between_secondWriting (hne : sets ≠ []) {cut : Cut} {l : List SetId} (hr : cut.rewritten = some l)
    (hall : ∀ j ∈ sets, j ∈ cut.completed) :
    s.Between sets sets (cutWrite cut ⟨s.nvs, sets⟩ (s.commit sets).nvs) where
  sub := fun _ h => h
  new := fun id hid => by
    rw [cutWrite_set cut hne, cutSet_second sets hid hr hall, s.commit_set, if_pos hid]
    have h := TwoCopies.secondWriting_stands (Nvs.Whole.set_anyGood hw id) (s.nvs.commitList sets) (s.held id) l id
    rwa [TwoCopies.nextSeq, ← s.nvs.takenSeq_eq] at h
  old := fun id hid => by
    rw [cutWrite_set cut hne, cutSet_other sets hid]
    exact Nvs.Whole.set_stands hw id

/-- R1: a restore takes from a whole store what its sets hold. -/
theorem Nvs.Whole.settled_eq : s.nvs.settled = s.nvs :=
  (State.between_refl hw).settled_of_complete hw fun _ h => h

/-- R1: a cut of which the commit's list tells reads old. -/
theorem State.Between.contents_of_cut {fresh : List SetId} {m : Nvs} (h : s.Between sets fresh m)
    (hcut : ∃ j ∈ sets, j ∉ fresh)
    (hset : ∀ id ∈ fresh, m.set id = (s.nvs.set id).write (s.nvs.commitList sets) (s.held id)
      ∧ s.nvs.takenSeq id ≠ 4294967295) : m.contents = s.nvs.contents := by
  have hold : s.nvs.contents = _ := s.nvs.contents_eq (fun id => (s.nvs.set id).taken) fun id => by
    rw [Nvs.Whole.settled_eq hw]
  rw [hold]
  refine m.contents_eq (fun id => (s.nvs.set id).taken) fun id => ?_
  obtain ⟨l, -, hstands⟩ := h.settled_of_cut hw hcut hset id
  exact hstands.2.2.2

/-- R1: far from the last numbers, a store between two commits is whole where no set is rejected. -/
theorem State.Between.whole {m : Nvs} (h : s.Between sets sets m) (hearly : ∀ id ∈ sets, s.nvs.takenSeq id < 4294967000) :
    m.Whole := by
  have hseq : ∀ id, m.takenSeq id = s.nvs.takenSeq id
      ∨ (m.takenSeq id = s.nvs.takenSeq id + 1 ∧ s.nvs.takenSeq id < 4294967000) := fun id => by
    by_cases hid : id ∈ sets
    · exact .inr ⟨h.takenSeq_new hid, hearly id hid⟩
    · exact .inl (h.takenSeq_old hid)
  refine fun id => ⟨h.anyGood id, ?_⟩
  rintro ⟨j, k⟩ hm
  by_cases hid : id ∈ sets
  · rw [h.takenCommits_new hid] at hm
    obtain ⟨hj, rfl⟩ := Nvs.mem_commitList.1 hm
    have hlt := hearly j hj
    dsimp only
    rw [h.takenSeq_new hj, Nvs.nextSeq]
    exact ⟨BitVec.le_refl _, .inr (by bv_omega)⟩
  · rw [h.takenCommits_old hid] at hm
    obtain ⟨hle, hlow⟩ := (hw id).2 _ hm
    dsimp only at hle hlow ⊢
    rcases hseq j with hj | ⟨hj, hlt⟩ <;> rw [hj]
    · exact ⟨hle, hlow⟩
    · exact ⟨by bv_omega, .inr (by bv_omega)⟩

/-- R1: a store whose sets stand at the numbers of a whole one, with their lists or with none, is whole. -/
theorem Nvs.whole_of_stands {m : Nvs}
    (h : ∀ id, ∃ l, (l = [] ∨ l = s.nvs.takenCommits id)
      ∧ (m.set id).Stands (s.nvs.takenSeq id) l (s.nvs.set id).taken) : m.Whole := by
  have hseq : ∀ id, m.takenSeq id = s.nvs.takenSeq id := fun id => by
    obtain ⟨l, -, -, hq, -⟩ := h id
    rw [m.takenSeq_eq, hq]
  intro id
  obtain ⟨l, hl, hgood, -, hlist, -⟩ := h id
  rw [m.anyGood_eq, m.takenCommits_eq, hlist]
  refine ⟨hgood, fun x hx => ?_⟩
  rw [hseq]
  rcases hl with rfl | rfl
  · cases hx
  · exact (hw id).2 x hx

end Commit

end Sys2Proof.Machine
end

