-- ==== Sys2Proof/Proofs/AtomicCommits.lean ====
section
/-! A commit of several sets is atomic, also where a copy of the lifecycle record fails its check besides (O60). -/

namespace Sys2Proof.Machine

/-! ### A copy of the lifecycle record that is found failing -/

/-- Log entry 10: damage is found in the lifecycle record and in the settings alone. -/
theorem damaged_set (d : StoreDamage) (n : Nvs) {id : SetId} (h : id ≠ .lifecycle) :
    (damaged d n).set id = n.set id := by
  cases id
  case lifecycle => exact absurd rfl h
  all_goals rfl

theorem damaged_takenSeq (d : StoreDamage) (n : Nvs) {id : SetId} (h : id ≠ .lifecycle) :
    (damaged d n).takenSeq id = n.takenSeq id := by
  rw [(damaged d n).takenSeq_eq, damaged_set d n h, n.takenSeq_eq]

theorem damaged_takenCommits (d : StoreDamage) (n : Nvs) {id : SetId} (h : id ≠ .lifecycle) :
    (damaged d n).takenCommits id = n.takenCommits id := by
  rw [(damaged d n).takenCommits_eq, damaged_set d n h, n.takenCommits_eq]

theorem damaged_anyGood (d : StoreDamage) (n : Nvs) {id : SetId} (h : id ≠ .lifecycle) :
    (damaged d n).anyGood id = n.anyGood id := by
  rw [(damaged d n).anyGood_eq, damaged_set d n h, n.anyGood_eq]

/-- The number of the set is always one of its copies'. -/
theorem TwoCopies.higher_mem {α : Type} (t : TwoCopies α) : t.higher = t.a.seq ∨ t.higher = t.b.seq := by
  unfold TwoCopies.higher
  split_ifs <;> simp

/-- Log entry 39: a failing copy keeps its number or takes that of the copy beside it. -/
theorem TwoCopies.fail_seq {α : Type} (t : TwoCopies α) (i : CopyId) :
    ((t.fail i).get i).seq = (t.get i).seq ∨ ((t.fail i).get i).seq = (t.get (otherCopy i)).seq := by
  unfold TwoCopies.fail
  dsimp only
  rw [TwoCopies.get_put]
  split
  · exact .inr rfl
  · exact .inl rfl

theorem TwoCopies.found_higher_mem {α : Type} (t : TwoCopies α) (x y : Bool) :
    (t.found x y).higher = t.a.seq ∨ (t.found x y).higher = t.b.seq := by
  have hfail : ∀ i, (t.fail i).higher = t.a.seq ∨ (t.fail i).higher = t.b.seq := by
    intro i
    have hseq := t.fail_seq i
    have hi := (t.fail i).higher_mem
    cases i
    case a => exact hi.elim (fun h => h ▸ hseq) fun h => .inr h
    case b => exact hi.elim (fun h => .inl h) fun h => h ▸ hseq.symm
  cases x <;> cases y
  · exact t.higher_mem
  · exact hfail .b
  · exact hfail .a
  · exact TwoCopies.higher_mem ⟨t.a.broken, t.b.broken⟩

/-- A cut copy keeps its number. -/
theorem TwoCopies.cut_seq {α : Type} (t : TwoCopies α) : t.cut.a.seq = t.a.seq ∧ t.cut.b.seq = t.b.seq := by
  unfold TwoCopies.cut
  cases t.target <;> exact ⟨rfl, rfl⟩

theorem TwoCopies.higher_of_both_good {α : Type} {t : TwoCopies α} (ha : t.a.good = true) (hb : t.b.good = true) :
    t.higher = if t.a.seq < t.b.seq then t.b.seq else t.a.seq := by
  unfold TwoCopies.higher
  rw [ha, hb]
  exact if_pos rfl

theorem eq_pred_of_near {a b : BitVec 32} (hlt : a < b) (hb : b ≠ 4294967295) (h : a = b ∨ a = b + 1 ∨ b = a + 1) :
    a = b - 1 := by
  rcases h with h | h | h
  · exact absurd (h ▸ hlt) (BitVec.lt_irrefl _)
  · exact absurd (BitVec.lt_trans hlt (h ▸ lt_succ_of_not_top hb)) (BitVec.lt_irrefl _)
  · rw [h, BitVec.add_sub_cancel]

/-- R1: of two good copies from commits next to each other, both carry the set's number or the one before. -/
theorem TwoCopies.seq_near {α : Type} {t : TwoCopies α} (ha : t.a.good = true) (hb : t.b.good = true)
    (ht : t.higher ≠ 4294967295)
    (hnear : t.a.seq = t.b.seq ∨ t.a.seq = t.b.seq + 1 ∨ t.b.seq = t.a.seq + 1) :
    (t.a.seq = t.higher ∨ t.a.seq = t.higher - 1) ∧ (t.b.seq = t.higher ∨ t.b.seq = t.higher - 1) := by
  rw [TwoCopies.higher_of_both_good ha hb] at ht ⊢
  by_cases hlt : t.a.seq < t.b.seq
  · rw [if_pos hlt] at ht ⊢
    exact ⟨.inr (eq_pred_of_near hlt ht (by tauto)), .inl rfl⟩
  · rw [if_neg hlt] at ht ⊢
    refine ⟨.inl rfl, ?_⟩
    rcases hnear with h | h | h
    · exact .inl h.symm
    · exact .inr (by rw [h, BitVec.add_sub_cancel])
    · exact absurd (by rw [h]; exact lt_succ_of_not_top ht) hlt

/-- R1, log entry 8: whichever copy of such a set fails, and be it the one a cut commit was writing, the set still stands
before the number that the commit's list gives it. -/
theorem TwoCopies.stoodBefore_found {α : Type} {t u : TwoCopies α} (ha : t.a.good = true) (hb : t.b.good = true)
    (ht : t.higher ≠ 4294967295)
    (hnear : t.a.seq = t.b.seq ∨ t.a.seq = t.b.seq + 1 ∨ t.b.seq = t.a.seq + 1) (hu : u = t ∨ u = t.cut) (x y : Bool) :
    stoodBefore (u.found x y).higher (t.higher + 1) = true := by
  obtain ⟨hna, hnb⟩ := TwoCopies.seq_near ha hb ht hnear
  have hua : u.a.seq = t.a.seq ∧ u.b.seq = t.b.seq := by
    rcases hu with rfl | rfl
    · exact ⟨rfl, rfl⟩
    · exact t.cut_seq
  have hmem : (u.found x y).higher = t.higher ∨ (u.found x y).higher = t.higher - 1 := by
    rcases u.found_higher_mem x y with h | h
    · rw [h, hua.1]
      exact hna
    · rw [h, hua.2]
      exact hnb
  rw [stoodBefore_iff]
  rcases hmem with h | h <;> rw [h]
  · exact .inl (by bv_omega)
  · exact .inr (by bv_omega)

/-- R1: of two good copies, none is left where both fail, and then the set's number stays. -/
theorem TwoCopies.found_higher_of_lost {α : Type} {t : TwoCopies α} (ha : t.a.good = true) (hb : t.b.good = true)
    {x y : Bool} (hlost : (t.found x y).anyGood = false) : (t.found x y).higher = t.higher := by
  cases x <;> cases y
  case true.true => exact (TwoCopies.higher_of_both_good ha hb).symm
  case true.false => simp [TwoCopies.found, TwoCopies.anyGood, TwoCopies.fail, TwoCopies.put, hb] at hlost
  case false.true => simp [TwoCopies.found, TwoCopies.anyGood, TwoCopies.fail, TwoCopies.put, ha] at hlost
  case false.false => simp [TwoCopies.found, TwoCopies.anyGood, ha] at hlost

/-- R1: after a commit below 2^32 − 1 both copies are good. -/
theorem TwoCopies.write_both_good {α : Type} {t : TwoCopies α} (h : t.anyGood = true) (ht : t.higher ≠ 4294967295)
    (l : List (SetId × BitVec 32)) (x : α) : (t.write l x).a.good = true ∧ (t.write l x).b.good = true := by
  have hkept := (t.kept h).1
  rw [t.write_once h ht]
  generalize t.target = i at hkept
  cases i
  · exact ⟨rfl, hkept⟩
  · exact ⟨hkept, rfl⟩

/-- R1: a set of one good copy is not lost by a restore. -/
theorem Nvs.settled_evidence_sole {n : Nvs} {e : Evidence} (h : n.evidence.Sole e) : n.settled.evidence.Sole e := by
  change (if n.rejected .evidence then n.evidence.rejectBeside else n.evidence).Sole e
  split
  · exact h.rejectBeside
  · exact h

/-- R1: the settings record is no set of the store. -/
theorem Nvs.Whole.withSettings {n : Nvs} (h : n.Whole) (c : StoredSettings) : ({ n with settings := c } : Nvs).Whole := by
  have hseq : ∀ id, ({ n with settings := c } : Nvs).takenSeq id = n.takenSeq id := fun id => by cases id <;> rfl
  have hlist : ∀ id, ({ n with settings := c } : Nvs).takenCommits id = n.takenCommits id := fun id => by
    cases id <;> rfl
  have hgood : ∀ id, ({ n with settings := c } : Nvs).anyGood id = n.anyGood id := fun id => by cases id <;> rfl
  intro id
  simp only [hseq, hlist, hgood]
  exact h id

section Cut
variable {s : State} (hw : s.nvs.Whole) (sets : List SetId)
include hw

/-- R1: the evidence that a cut commit of the lifecycle record wrote is rejected, whatever copy of the lifecycle record
fails its check. -/
theorem State.evidence_rejected {cut : Cut} {d : StoreDamage} (hlate : ∀ id ∈ sets, s.nvs.takenSeq id ≠ 4294967295)
    (hevid : SetId.evidence ∈ sets) (hcomp : SetId.evidence ∈ cut.completed) (hcut : ∃ id ∈ sets, id ∉ cut.completed)
    (ha : s.nvs.lifecycle.a.good = true) (hb : s.nvs.lifecycle.b.good = true)
    (hnear : s.nvs.lifecycle.a.seq = s.nvs.lifecycle.b.seq ∨ s.nvs.lifecycle.a.seq = s.nvs.lifecycle.b.seq + 1
      ∨ s.nvs.lifecycle.b.seq = s.nvs.lifecycle.a.seq + 1) :
    (damaged d (cutWrite cut ⟨s.nvs, sets⟩ (s.commit sets).nvs)).rejected .evidence = true := by
  have hne : sets ≠ [] := List.ne_nil_of_mem hevid
  obtain ⟨hbet, -⟩ := State.between_firstWriting hw sets hne (.inr hcut)
  have hset := fun id => cutWrite_set cut (n := s.nvs) hne (s.commit sets).nvs id
  set m := cutWrite cut ⟨s.nvs, sets⟩ (s.commit sets).nvs
  have hfresh : SetId.evidence ∈ s.freshSets sets cut :=
    (State.mem_freshSets sets).2 ⟨hevid, hcomp, hlate _ hevid⟩
  have hne' : SetId.evidence ≠ .lifecycle := by decide
  rw [Nvs.rejected_iff]
  refine ⟨.evidence, ?_, ?_, ?_⟩
  · rw [damaged_anyGood d m hne']
    exact hbet.anyGood _
  · rw [damaged_takenCommits d m hne', hbet.takenCommits_new hfresh, Nvs.cutList_iff]
    obtain ⟨j, hj, hjc⟩ := hcut
    refine ⟨j, _, Nvs.mem_commitList.2 ⟨hj, rfl⟩, ?_⟩
    by_cases hl : j = .lifecycle
    · subst hl
      have hu : m.lifecycle = s.nvs.lifecycle ∨ m.lifecycle = s.nvs.lifecycle.cut := by
        have hm := hset .lifecycle
        rw [cutSet_first sets hj (.inr ⟨_, hj, hjc⟩)] at hm
        rcases TwoCopies.firstWriting_uncompleted (t := s.nvs.set .lifecycle)
          (after := (s.commit sets).nvs.set .lifecycle) hjc with h | h
        · exact .inl (hm.trans h)
        · exact .inr (hm.trans h)
      exact TwoCopies.stoodBefore_found ha hb (hlate _ hj) hnear hu d.lifecycleA d.lifecycleB
    · rw [damaged_takenSeq d m hl, hbet.takenSeq_old fun hf => hjc ((State.mem_freshSets sets).1 hf).2.1]
      exact (stoodBefore_next _).1
  · rw [damaged_takenCommits d m hne', damaged_takenSeq d m hne', hbet.takenCommits_new hfresh,
      hbet.takenSeq_new hfresh]
    exact Nvs.mem_commitList.2 ⟨hevid, rfl⟩

/-- R1: after the restore that finds the cut, the one good copy of the evidence is the one from before. -/
theorem State.evidence_sole_after_cut {cut : Cut} {d : StoreDamage}
    (hlate : ∀ id ∈ sets, s.nvs.takenSeq id ≠ 4294967295) (hevid : SetId.evidence ∈ sets)
    (hwriting : SetId.evidence ∈ cut.completed ∨ cut.failing = some .evidence) (hcut : ∃ id ∈ sets, id ∉ cut.completed)
    (ha : s.nvs.lifecycle.a.good = true) (hb : s.nvs.lifecycle.b.good = true)
    (hnear : s.nvs.lifecycle.a.seq = s.nvs.lifecycle.b.seq ∨ s.nvs.lifecycle.a.seq = s.nvs.lifecycle.b.seq + 1
      ∨ s.nvs.lifecycle.b.seq = s.nvs.lifecycle.a.seq + 1) :
    (damaged d (cutWrite cut ⟨s.nvs, sets⟩ (s.commit sets).nvs)).settled.evidence.Sole s.nvs.evidence.taken := by
  have hne : sets ≠ [] := List.ne_nil_of_mem hevid
  have hgood : s.nvs.evidence.anyGood = true := Nvs.Whole.set_anyGood hw .evidence
  have hset : (cutWrite cut ⟨s.nvs, sets⟩ (s.commit sets).nvs).evidence
      = firstWriting cut .evidence s.nvs.evidence ((s.commit sets).nvs.evidence) :=
    (cutWrite_set cut (n := s.nvs) hne (s.commit sets).nvs .evidence).trans (cutSet_first sets hevid (.inr hcut))
  by_cases hcomp : SetId.evidence ∈ cut.completed
  · have hrej := State.evidence_rejected hw sets (d := d) hlate hevid hcomp hcut ha hb hnear
    obtain ⟨hsole, -, hbeside⟩ := TwoCopies.reject_write hgood (hlate _ hevid) (s.nvs.commitList sets) s.evid
    have hwrite : (s.commit sets).nvs.evidence = s.nvs.evidence.write (s.nvs.commitList sets) s.evid := if_pos hevid
    rw [hwrite, TwoCopies.firstWriting_completed hgood _ _ hcomp (hlate _ hevid)] at hset
    change (if (damaged d (cutWrite cut ⟨s.nvs, sets⟩ (s.commit sets).nvs)).rejected .evidence then
      (cutWrite cut ⟨s.nvs, sets⟩ (s.commit sets).nvs).evidence.rejectBeside else
      (cutWrite cut ⟨s.nvs, sets⟩ (s.commit sets).nvs).evidence).Sole _
    rw [if_pos hrej, hset, hbeside]
    exact hsole
  · refine Nvs.settled_evidence_sole ?_
    change (cutWrite cut ⟨s.nvs, sets⟩ (s.commit sets).nvs).evidence.Sole _
    rw [hset, TwoCopies.firstWriting_failing hcomp (hwriting.resolve_left hcomp)]
    exact TwoCopies.cut_sole hgood

/-- R1, R16, log entry 39: a completed commit is not rejected in a set it wrote, though the lifecycle record is lost. -/
theorem State.commit_kept_of_lost (hearly : ∀ id ∈ sets, s.nvs.takenSeq id < 4294967000) {d : StoreDamage}
    (hlost : (damaged d (s.commit sets).nvs).lifecycle.anyGood = false) {id : SetId} (hid : id ∈ sets) : (damaged d (s.commit sets).nvs).rejected id = false := by
  have hbet := State.between_commit hw sets
  have hlife := s.commit_set sets .lifecycle
  set m := (s.commit sets).nvs
  have hnum : ∀ j ∈ sets, (damaged d m).takenSeq j = s.nvs.nextSeq j := fun j hj => by
    by_cases hl : j = .lifecycle
    · subst hl
      have hgood : s.nvs.lifecycle.anyGood = true := Nvs.Whole.set_anyGood hw .lifecycle
      have hlow : s.nvs.lifecycle.higher ≠ 4294967295 := by
        have hlt : s.nvs.lifecycle.higher < 4294967000 := hearly _ hj
        bv_omega
      obtain ⟨hwa, hwb⟩ := TwoCopies.write_both_good hgood hlow (s.nvs.commitList sets) s.life
      rw [if_pos hj] at hlife
      have hl' : m.lifecycle = s.nvs.lifecycle.write (s.nvs.commitList sets) s.life := hlife
      rw [← hl'] at hwa hwb
      rw [← hbet.takenSeq_new hj]
      exact TwoCopies.found_higher_of_lost hwa hwb hlost
    · rw [damaged_takenSeq d m hl, hbet.takenSeq_new hj]
  refine Bool.eq_false_iff.2 fun hrej => ?_
  obtain ⟨j, hgood, hcut, hm⟩ := (Nvs.rejected_iff _ id).1 hrej
  have hl : j ≠ .lifecycle := by
    rintro rfl
    exact absurd (hgood.symm.trans hlost) (by decide)
  rw [damaged_takenCommits d m hl] at hcut hm
  rw [hnum id hid] at hm
  by_cases hj : j ∈ sets
  · rw [hbet.takenCommits_new hj] at hcut
    obtain ⟨i, k, hik, hst⟩ := (Nvs.cutList_iff _ _).1 hcut
    obtain ⟨hi, rfl⟩ := Nvs.mem_commitList.1 hik
    rw [hnum i hi, Nvs.nextSeq, (stoodBefore_next _).2] at hst
    cases hst
  · rw [hbet.takenCommits_old hj] at hm
    exact (hw.listed hm).2.2 rfl

/-- R1, R16: then a restore takes the new content of each such set. -/
theorem State.commit_taken_of_lost (hearly : ∀ id ∈ sets, s.nvs.takenSeq id < 4294967000) {d : StoreDamage}
    (hlost : (damaged d (s.commit sets).nvs).lifecycle.anyGood = false) {id : SetId} (hid : id ∈ sets)
    (hne : id ≠ .lifecycle) : ((damaged d (s.commit sets).nvs).settled.set id).taken = s.held id := by
  rw [Nvs.settled_set, State.commit_kept_of_lost hw sets hearly hlost hid, damaged_set _ _ hne]
  exact ((State.between_commit hw sets).new id hid).2.2.2

/-- R1: a whole store's contents, set by set. -/
theorem Nvs.Whole.contents_eq : s.nvs.contents = ⟨s.nvs.lifecycle.taken, s.nvs.cells.taken, s.nvs.credentials.taken,
    s.nvs.layout.taken, s.nvs.binding.taken, s.nvs.evidence.taken⟩ :=
  s.nvs.contents_eq (fun id => (s.nvs.set id).taken) fun id => by rw [Nvs.Whole.settled_eq hw]

/-- R1: cut late enough, every set of the commit stands at its new number. -/
theorem State.cutWrite_completed (hsets : sets ≠ []) {cut : Cut} (hall : ∀ id ∈ sets, id ∈ cut.completed)
    (hreach : (∀ id ∈ sets, s.nvs.takenSeq id ≠ 4294967295) ∨ cut.rewritten ≠ none) :
    s.Between sets sets (cutWrite cut ⟨s.nvs, sets⟩ (s.commit sets).nvs) := by
  rcases hr : cut.rewritten with _ | l
  · have hlate := hreach.resolve_right fun h => h hr
    have hfresh : s.freshSets sets cut = sets :=
      List.filter_eq_self.2 fun id hid => by
        rw [Bool.and_eq_true, List.contains_iff_mem, bne_iff_ne]
        exact ⟨hall id hid, hlate id hid⟩
    have h := (State.between_firstWriting hw sets hsets (.inl hr)).1
    rwa [hfresh] at h
  · exact State.between_secondWriting hw sets hsets hr hall

/-- R1: cut before its first writings were completed, or at 2^32 − 1 before a second writing, no set reads new. -/
theorem State.cutWrite_cut (hsets : sets ≠ []) {cut : Cut}
    (hfirst : cut.rewritten = none ∨ ∃ j ∈ sets, j ∉ cut.completed)
    (hcut : ∃ j ∈ sets, j ∉ s.freshSets sets cut) :
    (cutWrite cut ⟨s.nvs, sets⟩ (s.commit sets).nvs).contents = s.nvs.contents
      ∧ (cutWrite cut ⟨s.nvs, sets⟩ (s.commit sets).nvs).settled.Whole := by
  obtain ⟨hbet, hset⟩ := State.between_firstWriting hw sets hsets hfirst
  exact ⟨State.Between.contents_of_cut hw sets hbet hcut hset,
    Nvs.whole_of_stands hw (State.Between.settled_of_cut hbet hw hcut hset)⟩

/-- R1: far from the last numbers, a restore settles what any cut leaves into a whole store. -/
theorem State.cutWrite_settled_whole (hearly : ∀ id ∈ sets, s.nvs.takenSeq id < 4294967000) (cut : Cut) :
    (cutWrite cut ⟨s.nvs, sets⟩ (s.commit sets).nvs).settled.Whole := by
  have hlate : ∀ id ∈ sets, s.nvs.takenSeq id ≠ 4294967295 := fun id hid => by
    have hlt := hearly id hid
    bv_omega
  rcases eq_or_ne sets [] with rfl | hsets
  · rw [cutWrite_settings]
    have hm := hw.withSettings (s.commit []).nvs.settings.broken
    rw [Nvs.Whole.settled_eq (s := { s with nvs := { s.nvs with settings := (s.commit []).nvs.settings.broken } }) hm]
    exact hm
  · by_cases hall : ∀ id ∈ sets, id ∈ cut.completed
    · have hbet := State.cutWrite_completed hw sets hsets hall (.inl hlate)
      rw [hbet.settled_of_complete hw fun _ h => h]
      exact State.Between.whole hw sets hbet hearly
    · push Not at hall
      obtain ⟨j, hj, hjc⟩ := hall
      exact (State.cutWrite_cut hw sets hsets (.inr ⟨j, hj, hjc⟩)
        ⟨j, hj, fun hf => hjc ((State.mem_freshSets sets).1 hf).2.1⟩).2

end Cut

/-- Settles O60. -/
theorem commitsAreAtomic : Obligations.CommitsAreAtomic := by
  intro sets cut s hw
  dsimp only
  have hlate_iff : (¬∃ id ∈ sets, s.nvs.takenSeq id = 4294967295) ↔ ∀ id ∈ sets, s.nvs.takenSeq id ≠ 4294967295 := by
    simp
  have hbet := State.between_commit hw sets
  refine ⟨?_, rfl, ?uncompleted, ?late, ?completed, ?whole, ?damage, ?lost⟩
  · rw [Nvs.Whole.contents_eq hw]
    exact hbet.contents_of_complete hw fun _ h => h
  case uncompleted =>
    rintro ⟨j, hj, hjc⟩
    exact (State.cutWrite_cut hw sets (List.ne_nil_of_mem hj) (.inr ⟨j, hj, hjc⟩)
      ⟨j, hj, fun hf => hjc ((State.mem_freshSets sets).1 hf).2.1⟩).1
  case late =>
    rintro ⟨j, hj, hq⟩ hr
    exact (State.cutWrite_cut hw sets (List.ne_nil_of_mem hj) (.inl hr)
      ⟨j, hj, fun hf => ((State.mem_freshSets sets).1 hf).2.2 hq⟩).1
  case completed =>
    intro hsets hall hreach
    rw [hlate_iff] at hreach
    rw [(State.cutWrite_completed hw sets hsets hall hreach).contents_of_complete hw fun _ h => h,
      hbet.contents_of_complete hw fun _ h => h]
  case whole => exact fun hearly =>
    ⟨State.Between.whole hw sets hbet hearly, State.cutWrite_settled_whole hw sets hearly cut⟩
  case damage =>
    intro d d' hlate _ hevid hwriting hcut ha hb hnear
    have hsole := State.evidence_sole_after_cut hw sets (d := d) (hlate_iff.1 hlate) hevid hwriting hcut ha hb hnear
    rw [Nvs.Whole.contents_eq hw]
    refine ⟨hsole.taken, ?_⟩
    have hsecond : (damaged d' (damaged d (cutWrite cut ⟨s.nvs, sets⟩ (s.commit sets).nvs)).settled).evidence.Sole
        s.nvs.evidence.taken := hsole
    exact (Nvs.settled_evidence_sole hsecond).taken
  case lost =>
    intro d hearly hlost
    have htaken := fun id hid (hne : id ≠ .lifecycle) => State.commit_taken_of_lost hw sets hearly hlost (id := id) hid hne
    exact ⟨fun h => htaken .cells h (by decide), fun h => htaken .credentials h (by decide),
      fun h => htaken .layout h (by decide), fun h => htaken .binding h (by decide),
      fun h => htaken .evidence h (by decide)⟩

end Sys2Proof.Machine
end

