-- ==== Sys2Proof/Proofs/Restoring.lean ====
section
/-! What the restore stages do to a part in which every gate is closed and nothing is under way (R140): the layer for
the obligation about a power-on (O46). -/

namespace Sys2Proof.Machine

/-! ### A dim part -/

/-- R57, R140: STARTING before any access: gates closed, the engine empty, nothing granted, counted or under way. -/
structure State.Dim (s : State) : Prop where
  mode : s.mode = .starting
  gates : s.gates = allClosed
  shadow : s.shadow = .shown
  mirror : s.mirror = emptyMirror
  mirrorShadow : s.mirrorShadow = .none
  queue : s.queue = []
  inFlight : s.inFlight = none
  kpurge : s.kpurge = none
  rootCopy : s.rootCopy = none
  verified : s.verified = 0
  derivation : s.derivation = none
  grants : s.grants = []
  intent : s.intent = none
  window : s.window = .none
  dormancyCount : s.dormancyCount = 0
  decayCount : s.decayCount = 0
  backoff : s.backoff = none

/-- R15, R16, R116: what a restore and a new evaluation can change of a state: the lifecycle and evidence records, the
open-attempt marker, the store but for its settings, the latched indicators but for SETTINGS_DEFAULTED, and the erase
work. -/
def State.Restores (u t : State) : Prop :=
  ∃ r e o n w l op c lop lw j,
    t = { u with
      life := r, evid := e, cred := { u.cred with openAttempt := o }, nvs := n, writeImages := w, latched := l
      wipeOp := op, wipeClaim := c, layoutOp := lop, layoutWork := lw, job := j }
    ∧ n.settings = u.nvs.settings ∧ l.getLsbD 7 = u.latched.getLsbD 7

theorem State.Restores.refl (s : State) : s.Restores s := ⟨_, _, _, _, _, _, _, _, _, _, _, rfl, rfl, rfl⟩

theorem State.Restores.trans {s t u : State} (h : s.Restores t) (h' : t.Restores u) : s.Restores u := by
  obtain ⟨r, e, o, n, w, l, op, c, lop, lw, j, rfl, hn, hl⟩ := h
  obtain ⟨r', e', o', n', w', l', op', c', lop', lw', j', rfl, hn', hl'⟩ := h'
  exact ⟨r', e', o', n', w', l', op', c', lop', lw', j', rfl, hn'.trans hn, hl'.trans hl⟩

theorem State.Restores.dim {s t : State} (h : s.Restores t) (hs : s.Dim) : t.Dim := by
  obtain ⟨r, e, o, n, w, l, op, c, lop, lw, j, rfl, -, -⟩ := h
  obtain ⟨h1, h2, h3, h4, h5, h6, h7, h8, h9, h10, h11, h12, h13, h14, h15, h16, h17⟩ := hs
  exact ⟨h1, h2, h3, h4, h5, h6, h7, h8, h9, h10, h11, h12, h13, h14, h15, h16, h17⟩

theorem State.commit_restores (sets : List SetId) (s : State) : s.Restores (s.commit sets) :=
  ⟨_, _, _, _, _, _, _, _, _, _, _, rfl, rfl, rfl⟩

/-- The indicators that a restore or an evaluation latches leave SETTINGS_DEFAULTED. -/
theorem State.latch_restores {i : Indicator} (h : (single 10 i.code).getLsbD 7 = false) (s : State) :
    s.Restores (s.latch i) := by
  refine ⟨_, _, _, _, _, _, _, _, _, _, _, rfl, rfl, ?_⟩
  rw [BitVec.getLsbD_or, h, Bool.or_false]

section Dim
variable {s : State} (h : s.Dim)
include h

theorem State.Dim.purge : s.purge = s := by
  have hkpurge : (if s.mode = .active then some s.now else none) = none := if_neg (by rw [h.mode]; decide)
  rw [State.purge_form s h.kpurge, hkpurge]
  have hself : ∀ k f m v q r, s.kpurge = k → s.inFlight = f → s.mirror = m → s.mirrorShadow = v → s.queue = q →
      s.rootCopy = r →
      ({ s with kpurge := k, inFlight := f, mirror := m, mirrorShadow := v, queue := q, rootCopy := r } : State) = s := by
    rintro _ _ _ _ _ _ rfl rfl rfl rfl rfl rfl
    rfl
  exact hself _ _ _ _ _ _ h.kpurge h.inFlight h.mirror h.mirrorShadow h.queue h.rootCopy

theorem State.Dim.closeAll : s.closeAll = s := by
  have hmode : s.mode ≠ .active := by rw [h.mode]; decide
  unfold State.closeAll State.changeDesired
  rw [State.handOnAll_still _ _ (.inl (by rw [State.dropRootIfClosed_form]; exact hmode)), State.dropRootIfClosed_form]
  dsimp only
  rw [h.rootCopy, ite_self]
  have hself : ∀ g v r, s.gates = g → s.shadow = v → s.rootCopy = r →
      ({ s with gates := g, shadow := v, rootCopy := r } : State) = s := by
    rintro _ _ _ rfl rfl rfl
    rfl
  exact hself _ _ _ h.gates h.shadow h.rootCopy

theorem State.Dim.withdrawSuspend : s.withdrawSuspend = s := by
  rw [State.withdrawSuspend_form, if_pos h.grants, if_pos h.grants]
  have hself : ∀ g i, s.grants = g → s.intent = i → ({ s with grants := g, intent := i } : State) = s := by
    rintro _ _ rfl rfl
    rfl
  exact hself _ _ h.grants h.intent

/-- R107, R108: nothing is left for a level to withdraw. -/
theorem State.Dim.shutDown : s.shutDown 0 0 = s := by
  have hself : ∀ v d, s.verified = v → s.decayCount = d → ({ s with verified := v, decayCount := d } : State) = s := by
    rintro _ _ rfl rfl
    rfl
  unfold State.shutDown
  rw [h.purge, h.closeAll, hself _ _ h.verified h.decayCount, h.withdrawSuspend]

theorem State.Dim.enterStages (levels : List Stage) : levels.foldl State.enterStage s = s := by
  induction levels with
  | nil => rfl
  | cons l levels ih =>
    have hlevel : s.enterStage l = s := by
      cases l with
      | calm | wipe => rfl
      | alert => exact h.withdrawSuspend
      | lockdown => exact h.shutDown
    rw [List.foldl_cons, hlevel, ih]

/-- R10: a wipe start leaves the claim and the operation of the wipe. -/
theorem State.Dim.wipeStartActions :
    s.wipeStartActions =
      State.supersedeLayout { s with wipeOp := .start .wipe none s.millis, wipeClaim := true } := by
  have hdecay : s.purge.closeAll.decayCount = 0 := by rw [h.purge, h.closeAll, h.decayCount]
  have hwindow : s.window.stopWaiting = .none := by rw [h.window]; rfl
  have hself : ∀ w d c, s.window = w → s.dormancyCount = d → s.decayCount = c →
      ({ s with
        window := w, dormancyCount := d, decayCount := c
        wipeOp := .start .wipe none s.millis, wipeClaim := true } : State)
      = { s with wipeOp := .start .wipe none s.millis, wipeClaim := true } := by
    rintro _ _ _ rfl rfl rfl
    rfl
  rw [State.wipeStartActions_eq, hdecay, h.shutDown, hwindow, hself _ _ _ h.window h.dormancyCount h.decayCount]
  obtain ⟨w, o, j, hform, -⟩ :=
    State.supersedeLayout_job { s with wipeOp := .start .wipe none s.millis, wipeClaim := true }
  rw [hform]
  unfold State.abandonInWipe
  rw [show State.derivation { s with
    wipeOp := .start .wipe none s.millis, wipeClaim := true, layoutWork := w, layoutOp := o, job := j } = none from
    h.derivation]

end Dim

/-! ### A rise in a dim part -/

/-- R10: the wipe start of a dim part. -/
def State.wiped (extra : List SetId) (s : State) : State :=
  State.supersedeLayout
    { (s.wipeStartCommit extra).latch .stageRise with wipeOp := .start .wipe none s.millis, wipeClaim := true }

theorem State.wipeStartCommit_restores (extra : List SetId) (s : State) :
    s.Restores ((s.wipeStartCommit extra).latch .stageRise) := by
  have hcommit : s.Restores (s.wipeStartCommit extra) := ⟨_, _, _, _, _, _, _, _, _, _, _, rfl, rfl, rfl⟩
  exact hcommit.trans (State.latch_restores (by decide) _)

theorem State.Dim.settleRise {s : State} (h : s.Dim) (levels : List Stage) (extra : List SetId) :
    s.settleRise levels extra =
      if levels.contains .wipe then s.wiped extra
      else if levels.isEmpty then s.commit (extra ++ [.evidence])
      else (s.commit (extra ++ [.evidence])).latch .stageRise := by
  have hwipe : ((s.wipeStartCommit extra).latch .stageRise).Dim := (s.wipeStartCommit_restores extra).dim h
  have hrise : ((s.commit (extra ++ [.evidence])).latch .stageRise).Dim :=
    ((s.commit_restores _).trans (State.latch_restores (by decide) _)).dim h
  unfold State.settleRise
  rw [hwipe.enterStages, hwipe.wipeStartActions, hrise.enterStages]
  rfl

theorem State.supersedeLayout_restores (s : State) : s.Restores s.supersedeLayout := by
  obtain ⟨w, o, j, hform, -⟩ := s.supersedeLayout_job
  rw [hform]
  exact ⟨_, _, _, _, _, _, _, _, _, _, _, rfl, rfl, rfl⟩

theorem State.wiped_restores (extra : List SetId) (s : State) : s.Restores (s.wiped extra) := by
  have hclaim (u : State) (op : OpRecord) : u.Restores { u with wipeOp := op, wipeClaim := true } :=
    ⟨_, _, _, _, _, _, _, _, _, _, _, rfl, rfl, rfl⟩
  exact ((s.wipeStartCommit_restores extra).trans (hclaim _ _)).trans (State.supersedeLayout_restores _)

theorem State.wiped_claim (extra : List SetId) (s : State) : (s.wiped extra).wipeClaim = true := by
  unfold State.wiped
  generalize (s.wipeStartCommit extra).latch .stageRise = u
  obtain ⟨w, o, j, hform, -⟩ := State.supersedeLayout_job
    { u with wipeOp := .start .wipe none s.millis, wipeClaim := true }
  rw [hform]

theorem State.Dim.settleRise_restores {s : State} (h : s.Dim) (levels : List Stage) (extra : List SetId) :
    s.Restores (s.settleRise levels extra) := by
  rw [h.settleRise]
  split
  · exact s.wiped_restores extra
  split
  · exact s.commit_restores _
  · exact (s.commit_restores _).trans (State.latch_restores (by decide) _)

/-- R127: the wipe has its claim where the rise started one; else the work stays as it was. -/
theorem State.Dim.settleRise_work {s : State} (h : s.Dim) (levels : List Stage) (extra : List SetId) :
    (s.settleRise levels extra).wipeClaim = true ∨ (s.settleRise levels extra).wipeClaim = s.wipeClaim
      ∧ (s.settleRise levels extra).layoutWork = s.layoutWork ∧ (s.settleRise levels extra).job = s.job := by
  rw [h.settleRise]
  split
  · exact .inl (s.wiped_claim extra)
  split
  · exact .inr ⟨rfl, rfl, rfl⟩
  · exact .inr ⟨rfl, rfl, rfl⟩

theorem State.withEvid_restores (e : Evidence) (s : State) : s.Restores { s with evid := e } :=
  ⟨_, _, _, _, _, _, _, _, _, _, _, rfl, rfl, rfl⟩

theorem State.Dim.withEvid {s : State} (h : s.Dim) (e : Evidence) : ({ s with evid := e } : State).Dim :=
  (s.withEvid_restores e).dim h

theorem State.Dim.takeEvidence_restores {s : State} (h : s.Dim) (kind : TrailKind) (w : Nat) (extra : List SetId) :
    s.Restores (s.takeEvidence kind w extra) := by
  unfold State.takeEvidence
  split
  · obtain ⟨e, levels⟩ := s.evid.take s.settings s.seconds kind w
    exact (s.withEvid_restores e).trans ((h.withEvid e).settleRise_restores levels extra)
  split
  · exact State.Restores.refl s
  · exact s.commit_restores extra

theorem State.Dim.reevaluate_restores {s : State} (h : s.Dim) : s.Restores s.reevaluate := by
  unfold State.reevaluate
  dsimp only
  split
  · exact (s.withEvid_restores _).trans ((h.withEvid _).settleRise_restores _ _)
  split
  · exact State.Restores.refl s
  · exact (s.withEvid_restores _).trans (State.commit_restores _ _)

theorem State.Dim.reevaluate_work {s : State} (h : s.Dim) :
    s.reevaluate.wipeClaim = true ∨ s.reevaluate.wipeClaim = s.wipeClaim
      ∧ s.reevaluate.layoutWork = s.layoutWork ∧ s.reevaluate.job = s.job := by
  unfold State.reevaluate
  dsimp only
  split
  · exact (h.withEvid _).settleRise_work _ _
  split
  · exact .inr ⟨rfl, rfl, rfl⟩
  · exact .inr ⟨rfl, rfl, rfl⟩

/-! ### The marker and the work -/

/-- R28: a marker that is clear is left, and one that is set is a failure resolution without a deadline. -/
theorem State.resolveMarker_clear {s : State} (h : s.cred.openAttempt = false) : s.resolveMarker = s :=
  if_neg (by rw [h]; decide)

/-- The event of the failure resolution that settles a marker. -/
def State.markerEvent (s : State) : State :=
  State.takeEvidence .badSecret (s.settings.wBad * min s.cred.failures 8) [.credentials]
    { s with cred := { s.cred with openAttempt := false } }

theorem State.resolveMarker_set {s : State} (h : s.cred.openAttempt = true) :
    s.resolveMarker = { s.markerEvent with backoff := none, latched := s.markerEvent.latched ||| 1 } := by
  unfold State.resolveMarker
  rw [if_pos h, s.failureResolution_eq]
  rfl

theorem State.Dim.markerEvent_restores {s : State} (h : s.Dim) : s.Restores s.markerEvent := by
  have hclear : s.Restores { s with cred := { s.cred with openAttempt := false } } :=
    ⟨_, _, _, _, _, _, _, _, _, _, _, rfl, rfl, rfl⟩
  exact hclear.trans ((hclear.dim h).takeEvidence_restores _ _ _)

theorem State.Dim.resolveMarker_restores {s : State} (h : s.Dim) : s.Restores s.resolveMarker := by
  cases ho : s.cred.openAttempt with
  | false =>
    rw [State.resolveMarker_clear ho]
    exact State.Restores.refl s
  | true =>
    rw [State.resolveMarker_set ho]
    have hevent := h.markerEvent_restores
    have hnone := (hevent.dim h).backoff
    generalize s.markerEvent = u at hevent hnone
    have hlatch : u.Restores { u with backoff := none, latched := u.latched ||| 1 } := by
      rw [← hnone]
      refine ⟨_, _, _, _, _, _, _, _, _, _, _, rfl, rfl, ?_⟩
      rw [BitVec.getLsbD_or]
      exact (Bool.or_false _)
    exact hevent.trans hlatch

theorem State.startLayout_restores (kind : OpKind) (s : State) : s.Restores (s.startLayout kind) := by
  unfold State.startLayout
  split
  · exact State.Restores.refl s
  · exact ⟨_, _, _, _, _, _, _, _, _, _, _, rfl, rfl, rfl⟩

theorem State.resumeWipe_restores (s : State) : s.Restores s.resumeWipe :=
  ⟨_, _, _, _, _, _, _, _, _, _, _, rfl, rfl, rfl⟩

theorem State.Dim.restoreActions_restores {s : State} (h : s.Dim) : s.Restores s.restoreActions := by
  unfold State.restoreActions
  split
  · exact State.Restores.refl s
  · dsimp only
    split
    · exact h.resolveMarker_restores.trans (State.startLayout_restores _ _)
    · exact h.resolveMarker_restores
  · exact s.resumeWipe_restores.trans ((s.resumeWipe_restores.dim h).resolveMarker_restores)
  · exact State.Restores.refl s

theorem State.grantJob_restores (s : State) : s.Restores s.grantJob := by
  unfold State.grantJob
  split
  · split
    · exact ⟨_, _, _, _, _, _, _, _, _, _, _, rfl, rfl, rfl⟩
    · exact State.Restores.refl s
  · split
    · exact ⟨_, _, _, _, _, _, _, _, _, _, _, rfl, rfl, rfl⟩
    · exact State.Restores.refl s

theorem State.grantIfReady_restores (s : State) : s.Restores s.grantIfReady := by
  unfold State.grantIfReady
  split
  · exact s.grantJob_restores
  · exact State.Restores.refl s

theorem State.lifecycleLost_restores (s : State) : s.Restores s.lifecycleLost := by
  have hsettle (u : State) (p : Bool) (hu : s.Restores u) :
      s.Restores (if p then (u.commit [.lifecycle, .evidence]).latch .stageRise
        else u.commit [.lifecycle, .evidence]) := by
    split
    · exact hu.trans ((State.commit_restores _ _).trans (State.latch_restores (by decide) _))
    · exact hu.trans (State.commit_restores _ _)
  have hrecords (r : LifecycleRecord) (e : Evidence) : s.Restores { s with life := r, evid := e } :=
    ⟨_, _, _, _, _, _, _, _, _, _, _, rfl, rfl, rfl⟩
  unfold State.lifecycleLost
  dsimp only
  refine hsettle _ _ ?_
  split
  · exact hrecords _ _
  split
  · exact hrecords _ _
  · exact hrecords _ _

/-! ### The stages of a power-on in order -/

/-- R140: the settings, the tamper watch and the sets restored. -/
def State.setsRestored (vmain vaux : Bool) (d : StoreDamage) (s : State) : State :=
  (s.poweredUp vmain vaux d).restoreSettings.startTamper.restoreSets

/-- R140: what a restore leaves before it acts. -/
def State.recordsRestored (vmain vaux : Bool) (d : StoreDamage) (s : State) : State :=
  (s.poweredUp vmain vaux d).restoreSettings.startTamper.restoreRecords

/-- R140: the restore and its first grant and evaluation. -/
def State.restarted (vmain vaux : Bool) (d : StoreDamage) (s : State) : State :=
  (s.recordsRestored vmain vaux d).restoreActions.grantIfReady.reevaluate

theorem State.recordsRestored_eq (vmain vaux : Bool) (d : StoreDamage) (s : State) :
    s.recordsRestored vmain vaux d =
      if (s.setsRestored vmain vaux d).nvs.lifecycle.anyGood then s.setsRestored vmain vaux d
      else (s.setsRestored vmain vaux d).lifecycleLost := rfl

theorem State.powerOn_eq (vmain vaux : Bool) (r : Restore) (s : State) :
    s.powerOn vmain vaux r =
      (r.held.foldl State.answerHeld (s.restarted vmain vaux r.damage).beginStarting).endIfReady := rfl

theorem execPowerOn_off {vmain vaux : Bool} {r : Restore} {s : State} (hm : s.mode = .off) (hv : vmain ∨ vaux) :
    exec (.powerOn vmain vaux r) s = .next (s.begin.powerOn vmain vaux r) :=
  congrArg Host.Outcome.next (if_pos ⟨hm, hv⟩)

/-- R168: whether the settings record that a power-on finds passes its check. -/
theorem damaged_settings_good (d : StoreDamage) (n : Nvs) :
    (damaged d n).settings.good = (n.settings.good && !d.settings) := by
  change (if d.settings then n.settings.broken else n.settings).good = _
  cases d.settings with
  | false => exact (Bool.and_true _).symm
  | true =>
    have hbroken : n.settings.broken.good = false := by
      unfold StoredSettings.good StoredSettings.broken
      generalize n.settings.record.check = c
      exact beq_eq_false_iff_ne.2 (by bv_omega)
    rw [Bool.not_true, Bool.and_false]
    exact hbroken

theorem State.restoreSettings_good {s : State} (h : s.nvs.settings.good = true) :
    s.restoreSettings = { s with settings := s.nvs.settings.record } := if_pos h

theorem State.restoreSettings_bad {s : State} (h : s.nvs.settings.good = false) :
    s.restoreSettings =
      { s with
        settings := Settings.defaults
        nvs := { s.nvs with settings := ⟨Settings.defaults, Settings.defaults.check⟩, seconds := s.seconds }
        writeImages := s.writeImages ++ [⟨s.nvs, []⟩]
        latched := s.latched ||| 128
        policyDefaulted := true } := if_neg (by rw [h]; decide)

/-- R140: the settings restored change nothing else of a powered-up part. -/
theorem State.restoreSettings_form (s : State) : ∃ c n w l p,
    s.restoreSettings = { s with settings := c, nvs := n, writeImages := w, latched := l, policyDefaulted := p }
      ∧ n = { s.nvs with settings := n.settings, seconds := n.seconds } := by
  cases h : s.nvs.settings.good with
  | true =>
    rw [State.restoreSettings_good h]
    exact ⟨_, _, _, _, _, rfl, rfl⟩
  | false =>
    rw [State.restoreSettings_bad h]
    exact ⟨_, _, _, _, _, rfl, rfl⟩

theorem State.setsRestored_dim (vmain vaux : Bool) (d : StoreDamage) (s : State) :
    (s.setsRestored vmain vaux d).Dim := by
  obtain ⟨c, n, w, l, p, h, -⟩ := (s.poweredUp vmain vaux d).restoreSettings_form
  unfold State.setsRestored
  rw [h]
  exact ⟨rfl, rfl, rfl, rfl, rfl, rfl, rfl, rfl, rfl, rfl, rfl, rfl, rfl, rfl, rfl, rfl, rfl⟩

theorem State.recordsRestored_restores (vmain vaux : Bool) (d : StoreDamage) (s : State) :
    (s.setsRestored vmain vaux d).Restores (s.recordsRestored vmain vaux d) := by
  rw [State.recordsRestored_eq]
  split
  · exact State.Restores.refl _
  · exact State.lifecycleLost_restores _

theorem State.restarted_restores (vmain vaux : Bool) (d : StoreDamage) (s : State) :
    (s.setsRestored vmain vaux d).Restores (s.restarted vmain vaux d) := by
  have hdim := s.setsRestored_dim vmain vaux d
  have hrecords := s.recordsRestored_restores vmain vaux d
  have hactions := (hrecords.dim hdim).restoreActions_restores
  have hgranted := (hrecords.trans hactions).trans (State.grantIfReady_restores _)
  exact hgranted.trans (hgranted.dim hdim).reevaluate_restores

end Sys2Proof.Machine
end

