-- ==== Sys2Proof/Proofs/RestoredWork.lean ====
section
/-! What a power-on leaves where its restore raises no stage: the marker settled, the erase work that begins, and the end
of STARTING (O46). -/

namespace Sys2Proof.Machine

/-! ### A restore without a rise -/

/-- R28, R24: a marker settled by an event that raises no stage. -/
theorem State.resolveMarker_quiet {s : State} (ho : s.cred.openAttempt = true)
    (hl : s.life.lifecycle.takesEvidence = true) :
    let w := s.settings.wBad * min s.cred.failures 8
    let score := min 4095 (s.evid.score + w)
    evaluate s.settings score s.evid.stage = s.evid.stage →
    s.resolveMarker =
      { State.commit [.credentials, .evidence]
          { s with
            cred := { s.cred with openAttempt := false }
            evid := Evidence.append s.seconds .badSecret w score s.evid.stage { s.evid with score := score } } with
        backoff := none, latched := s.latched ||| 1 } := by
  intro w score heval
  have hevent : s.markerEvent =
      State.commit [.credentials, .evidence]
          { s with
            cred := { s.cred with openAttempt := false }
            evid := Evidence.append s.seconds .badSecret w score s.evid.stage { s.evid with score := score } } :=
    State.takeEvidence_quiet .badSecret w [.credentials] { s with cred := { s.cred with openAttempt := false } } hl heval
  rw [State.resolveMarker_set ho, hevent]
  rfl

/-- R15: the start of the LAYOUT operation. -/
theorem State.startLayout_form (kind : OpKind) (s : State) :
    ∃ o w, s.startLayout kind = { s with layoutOp := o, layoutWork := w } := by
  unfold State.startLayout
  split
  · exact ⟨_, _, rfl⟩
  · exact ⟨_, _, rfl⟩

/-- R127: a grant is a job and, of the LAYOUT operation, its detail. -/
theorem State.grantIfReady_form (s : State) :
    ∃ o j, s.grantIfReady = { s with layoutOp := o, job := j } := by
  unfold State.grantIfReady State.grantJob
  split
  · split
    · split
      · exact ⟨_, _, rfl⟩
      · exact ⟨_, _, rfl⟩
    · split
      · exact ⟨_, _, rfl⟩
      · exact ⟨_, _, rfl⟩
  · exact ⟨_, _, rfl⟩

theorem State.grantIfReady_none {s : State} (hc : s.wipeClaim = false) (hw : s.layoutWork = none) :
    s.grantIfReady = s := by
  refine if_neg ?_
  simp [State.grantReady, hc, hw]

theorem State.grantIfReady_wipe {s : State} (hm : s.mode = .starting) (hl : s.life.lifecycle ≠ .disabled)
    (hj : s.job = none) (hc : s.wipeClaim = true) {c : Fin 26} (hn : s.life.nextCell = some c) :
    s.grantIfReady = { s with job := some ((Job.fresh .wipe c s.settings.p).onward s.now s.resReady) } := by
  have hready : s.grantReady = true := by simp [State.grantReady, hm, hl, hj, hc]
  rw [State.grantIfReady, if_pos hready, State.grantJob_wipe hc hn, State.waitForStep_eq]

theorem State.grantIfReady_layout {s : State} (hm : s.mode = .starting) (hl : s.life.lifecycle ≠ .disabled)
    (hj : s.job = none) (hc : s.wipeClaim = false) {w : LayoutWork} (hw : s.layoutWork = some w) :
    s.grantIfReady =
      { s with
        layoutOp := { s.layoutOp with detail := some w.next.val }
        job := some ((Job.fresh .layout (rangeCell w.next) s.settings.p).onward s.now s.resReady) } := by
  have hready : s.grantReady = true := by simp [State.grantReady, hm, hl, hj, hc, hw]
  rw [State.grantIfReady, if_pos hready, State.grantJob_layout hc hw, State.waitForStep_eq]

theorem Job.onward_low (owner : Owner) (cell : Fin 26) (p : Nat) (now : Micros) :
    (Job.fresh owner cell p).onward now false = ⟨owner, cell, p, 1, 0, 0, .waiting⟩ := rfl

/-- No erase work stands. -/
def State.WorkIdle (s : State) : Prop :=
  s.wipeClaim = false ∧ s.layoutWork = none ∧ s.job = none ∧ s.layoutOp = .idle

/-- R15: a restore has nothing to do in UNPROVISIONED or DISABLED. -/
theorem State.restoreActions_unprovisioned {s : State}
    (h : s.life.lifecycle = .unprovisioned ∨ s.life.lifecycle = .disabled) :
    s.restoreActions = s := by
  unfold State.restoreActions
  rcases h with h | h <;> rw [h]

theorem State.restoreActions_provisioned {s : State} (h : s.life.lifecycle = .provisioned)
    (hm : s.resolveMarker.life = s.life) : s.restoreActions = s.resolveMarker.startLayout .startup := by
  unfold State.restoreActions
  rw [h]
  exact if_pos (by rw [hm, h])

theorem State.restoreActions_wiping {s : State} (h : s.life.lifecycle = .wiping) :
    s.restoreActions = s.resumeWipe.resolveMarker := by
  unfold State.restoreActions
  rw [h]

/-- The record of the wipe resumed (R15). -/
theorem State.resumeWipe_wipeOp {s : State} {journal : Journal} (h : s.life.journal = some journal) :
    s.resumeWipe.wipeOp =
      ⟨some .wipe, .running, none, if journal.next.val = 0 then none else some (journal.next.val - 1), some s.millis,
        none, false⟩ := by
  unfold State.resumeWipe
  rw [h]
  rfl

/-- R15, R127: the work that begins with a clear marker, by the lifecycle state. -/
theorem State.workRestored_clear {s : State} (hm : s.mode = .starting) (hidle : s.WorkIdle)
    (hmark : s.cred.openAttempt = false ∨ s.life.lifecycle = .unprovisioned ∨ s.life.lifecycle = .disabled) :
    let t := s.restoreActions.grantIfReady
    t.life = s.life ∧ t.evid = s.evid ∧ t.latched = s.latched ∧ t.settings = s.settings
      ∧ t.wipeClaim = decide (s.life.lifecycle = .wiping)
      ∧ (t.life.lifecycle = .provisioned →
        (lowestMarked 0 s.layout = none → t.layoutWork = none ∧ t.layoutOp = .idle)
        ∧ ∀ k, lowestMarked 0 s.layout = some k →
          t.layoutWork = some ⟨k, none⟩
            ∧ t.layoutOp = ⟨some .startup, .running, none, some k.val, some s.millis, none, false⟩
            ∧ t.job = some ((Job.fresh .layout (rangeCell k) s.settings.p).onward s.now s.resReady))
      ∧ (t.life.lifecycle = .wiping → t.layoutWork = none ∧ t.layoutOp = .idle
        ∧ ∀ journal, t.life.journal = some journal →
          t.wipeOp = ⟨some .wipe, .running, none,
              if journal.next.val = 0 then none else some (journal.next.val - 1), some s.millis, none, false⟩
            ∧ ∀ c : Fin 26, journal.next.val = c.val →
              t.job = some ((Job.fresh .wipe c s.settings.p).onward s.now s.resReady)) := by
  intro t
  obtain ⟨hclaim, hwork, hjob, hop⟩ := hidle
  have hstill (hl : s.life.lifecycle = .unprovisioned ∨ s.life.lifecycle = .disabled) : t = s := by
    change s.restoreActions.grantIfReady = s
    rw [State.restoreActions_unprovisioned hl, State.grantIfReady_none hclaim hwork]
  cases hl : s.life.lifecycle with
  | unprovisioned | disabled =>
    rw [hstill (by simp [hl])]
    exact ⟨rfl, rfl, rfl, rfl, hclaim, fun h => absurd (hl.symm.trans h) (by decide),
      fun h => absurd (hl.symm.trans h) (by decide)⟩
  | provisioned =>
    have hclear := State.resolveMarker_clear (hmark.resolve_right (by simp [hl]))
    have ht : t = (s.startLayout .startup).grantIfReady := by
      change s.restoreActions.grantIfReady = _
      rw [State.restoreActions_provisioned hl (by rw [hclear]), hclear]
    cases hk : lowestMarked 0 s.layout with
    | none =>
      have hnone : t = s := by
        rw [ht, State.startLayout, hk]
        exact State.grantIfReady_none hclaim hwork
      rw [hnone]
      exact ⟨rfl, rfl, rfl, rfl, hclaim, fun _ => ⟨fun _ => ⟨hwork, hop⟩, fun k h => by cases h⟩,
        fun h => absurd (hl.symm.trans h) (by decide)⟩
    | some k =>
      have hstart : s.startLayout .startup =
          { s with layoutOp := .start .startup (some k.val) s.millis, layoutWork := some ⟨k, none⟩ } := by
        rw [State.startLayout, hk]
      have hsome := State.grantIfReady_layout (s := { s with
        layoutOp := .start .startup (some k.val) s.millis, layoutWork := some ⟨k, none⟩ })
        hm (show s.life.lifecycle ≠ .disabled by rw [hl]; decide) hjob hclaim rfl
      rw [ht, hstart, hsome]
      refine ⟨rfl, rfl, rfl, rfl, hclaim, fun _ => ⟨fun h => (by cases h), fun k' h => ?_⟩,
        fun h => absurd (hl.symm.trans h) (by decide)⟩
      obtain rfl := Option.some.inj h
      exact ⟨rfl, rfl, rfl⟩
  | wiping =>
    have hclear : s.resumeWipe.resolveMarker = s.resumeWipe :=
      State.resolveMarker_clear (hmark.resolve_right (by simp [hl]))
    have ht : t = s.resumeWipe.grantIfReady := by
      change s.restoreActions.grantIfReady = _
      rw [State.restoreActions_wiping hl, hclear]
    have hnot : s.life.lifecycle ≠ .disabled := by rw [hl]; decide
    cases hn : s.life.nextCell with
    | none =>
      have hnone : t = s.resumeWipe := by
        rw [ht, State.grantIfReady]
        split
        · unfold State.grantJob
          rw [show s.resumeWipe.life.nextCell = none from hn, if_pos (show s.resumeWipe.wipeClaim = true from rfl)]
        · rfl
      rw [hnone]
      refine ⟨rfl, rfl, rfl, rfl, rfl, fun h => absurd (hl.symm.trans h) (by decide), fun _ => ⟨hwork, hop,
        fun journal hj => ⟨State.resumeWipe_wipeOp hj, fun c hc => ?_⟩⟩⟩
      cases hn.symm.trans (LifecycleRecord.nextCell_eq hj hc)
    | some c =>
      have hsome : t = _ := ht.trans (State.grantIfReady_wipe (s := s.resumeWipe) hm hnot hjob rfl hn)
      rw [hsome]
      refine ⟨rfl, rfl, rfl, rfl, rfl, fun h => absurd (hl.symm.trans h) (by decide), fun _ => ⟨hwork, hop,
        fun journal hj => ⟨State.resumeWipe_wipeOp hj, fun c' hc => ?_⟩⟩⟩
      obtain rfl := Option.some.inj (hn.symm.trans (LifecycleRecord.nextCell_eq hj hc))
      rfl

/-- R15, R28: what begins with a marker that is settled without a rise leaves the settled marker's state but for the
erase work. -/
theorem State.workRestored_set {s : State} (ho : s.cred.openAttempt = true)
    (hl : s.life.lifecycle = .provisioned ∨ s.life.lifecycle = .wiping) :
    let w := s.settings.wBad * min s.cred.failures 8
    let score := min 4095 (s.evid.score + w)
    evaluate s.settings score s.evid.stage = s.evid.stage →
    ∃ op lop lw j,
      s.restoreActions.grantIfReady =
        { State.commit [.credentials, .evidence]
            { s with
              cred := { s.cred with openAttempt := false }
              evid := Evidence.append s.seconds .badSecret w score s.evid.stage { s.evid with score := score } } with
          backoff := none, latched := s.latched ||| 1, wipeOp := op
          wipeClaim := if s.life.lifecycle = .wiping then true else s.wipeClaim
          layoutOp := lop, layoutWork := lw, job := j } := by
  intro w score heval
  rcases hl with hl | hl
  · have hq := State.resolveMarker_quiet ho (by rw [hl]; rfl) heval
    rw [State.restoreActions_provisioned hl (by rw [hq]; rfl), hq, if_neg (by rw [hl]; decide)]
    obtain ⟨o, w, h⟩ := State.startLayout_form .startup (State.resolveMarker s)
    rw [hq] at h
    rw [h]
    obtain ⟨o', j, h'⟩ := State.grantIfReady_form { State.resolveMarker s with layoutOp := o, layoutWork := w }
    rw [hq] at h'
    exact ⟨_, _, _, _, h'⟩
  · have hq := State.resolveMarker_quiet (s := s.resumeWipe) ho (by rw [show s.resumeWipe.life = s.life from rfl, hl]; rfl)
      heval
    rw [State.restoreActions_wiping hl, if_pos hl]
    obtain ⟨o, j, h⟩ := State.grantIfReady_form s.resumeWipe.resolveMarker
    rw [hq] at h
    rw [hq]
    exact ⟨_, _, _, _, h⟩

/-! ### What the end of STARTING leaves -/

/-- The restored records, the settings and what shows of their restore stay. -/
def State.KeepsRestored (s t : State) : Prop :=
  t.cells = s.cells ∧ t.evid = s.evid ∧ t.nvs = s.nvs ∧ t.life = s.life ∧ t.wipeClaim = s.wipeClaim
    ∧ t.latched = s.latched ∧ t.now = s.now ∧ t.settings = s.settings ∧ t.policyDefaulted = s.policyDefaulted

theorem State.KeepsRestored.trans {s t u : State} (h : s.KeepsRestored t) (h' : t.KeepsRestored u) :
    s.KeepsRestored u := by
  obtain ⟨h1, h2, h3, h4, h5, h6, h7, h8, h9⟩ := h
  obtain ⟨k1, k2, k3, k4, k5, k6, k7, k8, k9⟩ := h'
  exact ⟨k1.trans h1, k2.trans h2, k3.trans h3, k4.trans h4, k5.trans h5, k6.trans h6, k7.trans h7, k8.trans h8,
    k9.trans h9⟩

theorem State.keepsRestored_reset {s : State} (hm : s.mode = .active) (hd : s.derivation = none) :
    s.KeepsRestored s.resetEffects := by
  obtain ⟨new, hform, -⟩ := State.resetStates_form (g := s.resetGates) hm rfl
  obtain ⟨q, f, hdesired⟩ := s.changeDesired_form s.resetGates .shown
  rw [State.resetEffects_eq, State.abandonDerivation_none (State.resetStates_derivation hm hd), hform, hdesired]
  exact ⟨rfl, rfl, rfl, rfl, rfl, rfl, rfl, rfl, rfl⟩

theorem State.keepsRestored_endStarting {s : State} (hd : s.derivation = none) : s.KeepsRestored s.endStarting := by
  have hactive (u : State) (hu : u.derivation = none) : u.KeepsRestored u.enterActive := by
    obtain ⟨q, f, r, hform⟩ := u.entered_form
    have hentered : u.KeepsRestored u.entered := by
      rw [hform]
      exact ⟨rfl, rfl, rfl, rfl, rfl, rfl, rfl, rfl, rfl⟩
    rw [State.enterActive_eq]
    split
    · refine hentered.trans (State.keepsRestored_reset ?_ ?_)
      · rw [hform]
      · rw [hform]
        exact hu
    · exact hentered
  rw [State.endStarting_eq]
  split
  · exact hactive { s with reservoirWait := none } hd
  · rw [State.enterAux_eq]
    exact ⟨rfl, rfl, rfl, rfl, rfl, rfl, rfl, rfl, rfl⟩

/-- R156, R142: neither the held frames nor the end of the wait change what was restored. -/
theorem State.powerOn_keepsRestored (vmain vaux : Bool) (r : Restore) (s : State) :
    (s.restarted vmain vaux r.damage).KeepsRestored (s.powerOn vmain vaux r) := by
  have hd := ((s.restarted_restores vmain vaux r.damage).dim (s.setsRestored_dim vmain vaux r.damage)).derivation
  rw [State.powerOn_eq]
  obtain ⟨reply, fault, hheld⟩ := foldl_answerHeld_form r.held (s.restarted vmain vaux r.damage).beginStarting
  rw [hheld]
  generalize s.restarted vmain vaux r.damage = u at hd ⊢
  have hheld : u.KeepsRestored { u.beginStarting with reply := reply, frameFault := fault } :=
    ⟨rfl, rfl, rfl, rfl, rfl, rfl, rfl, rfl, rfl⟩
  refine hheld.trans ?_
  unfold State.endIfReady
  split
  · exact State.keepsRestored_endStarting hd
  · exact ⟨rfl, rfl, rfl, rfl, rfl, rfl, rfl, rfl, rfl⟩

end Sys2Proof.Machine
end

