-- ==== Sys2Proof/Proofs/HeldFrames.lean ====
section
/-! The frames held through the restore stages, and a power-on that finds RES_READY true (O46). -/

namespace Sys2Proof.Machine

/-! ### Held frames -/

theorem State.answerHeld_request {s : State} {f : Frame} {code tag : Byte} {body : Bytes} (hm : s.mode = .starting)
    (hlow : s.rstLow = false) (hf : judgeFrame f = .request code tag body) :
    s.answerHeld f =
      match kindOf code with
      | none => answer code tag (refuse .unknownKind s)
      | some k => answer code tag (checkOrder k (readOnly body (if k = .identify then identifyBody else statusBody)) s) := by
  have hjudges : s.judgesFrames = true := by simp [State.judgesFrames, hm, hlow]
  unfold State.answerHeld
  rw [hjudges, hf]
  rfl

theorem Lifecycle.admits_summaries (l : Lifecycle) : l.admits .identify = true ∧ l.admits .status = true := by
  cases l <;> decide

/-- R156, R159: in STARTING a request is answered NOT_READY but for IDENTIFY and STATUS. -/
theorem State.answerHeld_kind {s : State} {f : Frame} {tag : Byte} {body : Bytes} {k : Kind} (hm : s.mode = .starting)
    (hlow : s.rstLow = false) (hf : judgeFrame f = .request k.code tag body) :
    s.answerHeld f =
      if k ≠ .identify ∧ k ≠ .status then s.replied k tag .notReady []
      else if body ≠ [] then s.replied k tag .badValue []
      else if k = .identify then s.replied k tag .done (identifyBody s)
      else s.replied k tag .done (statusBody s) := by
  rw [State.answerHeld_request hm hlow hf, kindOf_code]
  dsimp only
  unfold checkOrder
  by_cases hready : k ≠ .identify ∧ k ≠ .status
  · rw [if_pos ⟨hm, hready⟩, if_pos hready]
    rfl
  · have hadmits : s.life.lifecycle.admits k = true := by
      obtain ⟨hi, hs⟩ := s.life.lifecycle.admits_summaries
      by_cases hk : k = .identify
      · rw [hk, hi]
      · have hstatus : k = .status := by
          by_contra hne
          exact hready ⟨hk, hne⟩
        rw [hstatus, hs]
    rw [if_neg fun h => hready h.2, if_neg hready, if_pos hadmits]
    unfold readOnly
    by_cases hbody : body ≠ []
    · rw [if_pos hbody, if_pos hbody]
      rfl
    · rw [if_neg hbody, if_neg hbody]
      by_cases hk : k = .identify
      · rw [if_pos hk, if_pos hk]
        rfl
      · rw [if_neg hk, if_neg hk]
        rfl

/-- R154, R157: what is disregarded. -/
theorem State.answerHeld_low {s : State} (hlow : s.rstLow = true) (f : Frame) : s.answerHeld f = s := by
  have hjudges : s.judgesFrames = false := by simp [State.judgesFrames, hlow]
  unfold State.answerHeld
  rw [hjudges]
  rfl

theorem State.answerHeld_silent {f : Frame} (hf : judgeFrame f = .empty ∨ judgeFrame f = .read) (s : State) :
    s.answerHeld f = s := by
  unfold State.answerHeld
  rcases hf with hf | hf <;> rw [hf] <;> exact ite_self s

theorem State.answerHeld_fault {s : State} {f : Frame} (hm : s.mode = .starting) (hlow : s.rstLow = false)
    (hf : judgeFrame f = .fault) : s.answerHeld f = s.frameFaultReply := by
  have hjudges : s.judgesFrames = true := by simp [State.judgesFrames, hm, hlow]
  unfold State.answerHeld
  rw [hjudges, hf]
  rfl

/-! ### RES_READY true -/

/-- The state with RES_READY true, the step of a waiting job begun (R121). -/
def State.readied (s : State) : State :=
  { s with
    resReady := true
    job := s.job.map fun j => { j with phase := if j.p ≤ j.good then .verify s.now else .pass s.now false false } }

theorem State.readied_dim {s : State} (h : s.Dim) : s.readied.Dim := by
  obtain ⟨h1, h2, h3, h4, h5, h6, h7, h8, h9, h10, h11, h12, h13, h14, h15, h16, h17⟩ := h
  exact ⟨h1, h2, h3, h4, h5, h6, h7, h8, h9, h10, h11, h12, h13, h14, h15, h16, h17⟩

/-- No job stands but one that waits. -/
def State.Waits (s : State) : Prop := ∀ j ∈ s.job, j.phase = .waiting

theorem State.Waits.inWrite {s : State} (h : s.Waits) : s.inWrite = false := by
  unfold State.inWrite
  cases hj : s.job with
  | none => rfl
  | some j => simp [h j hj]

theorem State.readied_inWrite (s : State) : s.readied.inWrite = false := by
  unfold State.inWrite State.readied
  cases s.job with
  | none => rfl
  | some j =>
    dsimp only [Option.map_some]
    by_cases hp : j.p ≤ j.good
    · rw [if_pos hp]
    · rw [if_neg hp]

theorem State.supersedeLayout_readied {s : State} (h : s.Waits) :
    s.readied.supersedeLayout = s.supersedeLayout.readied := by
  have howner : s.readied.job.map (·.owner == .layout) = s.job.map (·.owner == .layout) := by
    unfold State.readied
    cases s.job <;> rfl
  unfold State.supersedeLayout
  rw [show s.readied.layoutWork = s.layoutWork from rfl, s.readied_inWrite, h.inWrite, howner]
  cases s.layoutWork with
  | none => rfl
  | some w =>
    dsimp only
    rw [if_neg Bool.false_ne_true, if_neg Bool.false_ne_true]
    by_cases hl : ((s.job.map (·.owner == .layout)).getD false) = true
    · rw [if_pos hl, if_pos hl]
    · rw [if_neg hl, if_neg hl]
      rfl

theorem State.wiped_readied {s : State} (h : s.Waits) (extra : List SetId) :
    s.readied.wiped extra = (s.wiped extra).readied :=
  State.supersedeLayout_readied (s := { (s.wipeStartCommit extra).latch .stageRise with
    wipeOp := .start .wipe none s.millis, wipeClaim := true }) h

theorem State.settleRise_readied {s : State} (hs : s.Dim) (h : s.Waits) (levels : List Stage) (extra : List SetId) :
    s.readied.settleRise levels extra = (s.settleRise levels extra).readied := by
  rw [hs.settleRise, (State.readied_dim hs).settleRise, State.wiped_readied h]
  split
  · rfl
  split
  · rfl
  · rfl

theorem State.takeEvidence_readied {s : State} (hs : s.Dim) (h : s.Waits) (kind : TrailKind) (w : Nat)
    (extra : List SetId) : s.readied.takeEvidence kind w extra = (s.takeEvidence kind w extra).readied := by
  unfold State.takeEvidence
  rw [show s.readied.life = s.life from rfl]
  split
  · rw [show s.readied.evid.take s.readied.settings s.readied.seconds kind w
      = s.evid.take s.settings s.seconds kind w from rfl]
    obtain ⟨e, levels⟩ := s.evid.take s.settings s.seconds kind w
    exact State.settleRise_readied (s := { s with evid := e }) (hs.withEvid e) h levels extra
  split
  · rfl
  · rfl

theorem State.reevaluate_readied {s : State} (hs : s.Dim) (h : s.Waits) : s.readied.reevaluate = s.reevaluate.readied := by
  unfold State.reevaluate
  rw [show s.readied.evid = s.evid from rfl, show s.readied.settings = s.settings from rfl,
    show s.readied.seconds = s.seconds from rfl]
  dsimp only
  split
  · exact State.settleRise_readied (s := { s with evid := (s.evid.rise s.settings s.seconds).1 }) (hs.withEvid _) h _ _
  split
  · rfl
  · rfl

theorem State.resolveMarker_readied {s : State} (hs : s.Dim) (h : s.Waits) :
    s.readied.resolveMarker = s.resolveMarker.readied := by
  cases ho : s.cred.openAttempt with
  | false => rw [State.resolveMarker_clear ho, State.resolveMarker_clear (s := s.readied) ho]
  | true =>
    have hclear : State.Dim { s with cred := { s.cred with openAttempt := false } } :=
      State.Restores.dim (s := s) ⟨_, _, _, _, _, _, _, _, _, _, _, rfl, rfl, rfl⟩ hs
    have hevent : s.readied.markerEvent = s.markerEvent.readied := State.takeEvidence_readied hclear h _ _ _
    rw [State.resolveMarker_set ho, State.resolveMarker_set (s := s.readied) ho, hevent]
    rfl

/-! ### The job through the restore -/

theorem State.settleRise_job {s : State} (hs : s.Dim) (h : s.Waits) (levels : List Stage) (extra : List SetId) :
    (s.settleRise levels extra).job = s.job := by
  rw [hs.settleRise]
  split
  · have hwaits : State.Waits { (s.wipeStartCommit extra).latch .stageRise with
        wipeOp := .start .wipe none s.millis, wipeClaim := true } := h
    obtain ⟨w, o, j, hform, hj⟩ := State.supersedeLayout_form { (s.wipeStartCommit extra).latch .stageRise with
      wipeOp := .start .wipe none s.millis, wipeClaim := true }
    unfold State.wiped
    rw [hform]
    exact hj (.inl hwaits.inWrite)
  split
  · rfl
  · rfl

theorem State.resolveMarker_job {s : State} (hs : s.Dim) (h : s.Waits) : s.resolveMarker.job = s.job := by
  cases ho : s.cred.openAttempt with
  | false => rw [State.resolveMarker_clear ho]
  | true =>
    have hclear : State.Dim { s with cred := { s.cred with openAttempt := false } } :=
      State.Restores.dim (s := s) ⟨_, _, _, _, _, _, _, _, _, _, _, rfl, rfl, rfl⟩ hs
    rw [State.resolveMarker_set ho]
    change s.markerEvent.job = s.job
    unfold State.markerEvent State.takeEvidence
    split
    · exact State.settleRise_job (hclear.withEvid _) h _ _
    split
    · rfl
    · rfl

/-- R127: no job stands before the first grant. -/
theorem State.restoreActions_job {s : State} (hs : s.Dim) (h : s.job = none) : s.restoreActions.job = none := by
  have hwaits (u : State) (hu : u.job = none) : u.Waits := fun j hj => by cases hu.symm.trans hj
  unfold State.restoreActions
  split
  · exact h
  · have hjob : s.resolveMarker.job = none := (State.resolveMarker_job hs (hwaits s h)).trans h
    dsimp only
    split
    · obtain ⟨o, w, hform⟩ := State.startLayout_form .startup s.resolveMarker
      rw [hform]
      exact hjob
    · exact hjob
  · exact (State.resolveMarker_job (s.resumeWipe_restores.dim hs) (hwaits s.resumeWipe h)).trans h
  · exact h

theorem State.startLayout_readied (kind : OpKind) (s : State) :
    s.readied.startLayout kind = (s.startLayout kind).readied := by
  unfold State.startLayout
  rw [show s.readied.layout = s.layout from rfl]
  split
  · rfl
  · rfl

theorem State.restoreActions_readied {s : State} (hs : s.Dim) (h : s.job = none) :
    s.readied.restoreActions = s.restoreActions.readied := by
  have hwaits : s.Waits := fun j hj => by cases h.symm.trans hj
  have hmarker := State.resolveMarker_readied hs hwaits
  unfold State.restoreActions
  rw [show s.readied.life = s.life from rfl, hmarker]
  split
  · rfl
  · dsimp only
    rw [show s.resolveMarker.readied.life = s.resolveMarker.life from rfl, State.startLayout_readied]
    split
    · rfl
    · rfl
  · exact State.resolveMarker_readied (s := s.resumeWipe) (s.resumeWipe_restores.dim hs) hwaits
  · rfl

/-- R121, R127: a job granted while RES_READY is true begins its first step. -/
theorem State.grantIfReady_readied {s : State} (hj : s.job = none) (hr : s.resReady = false) :
    s.readied.grantIfReady = s.grantIfReady.readied := by
  have hjob : s.readied.job = none := by
    unfold State.readied
    rw [hj]
    rfl
  have hready : s.readied.grantReady = s.grantReady := by
    unfold State.grantReady
    rw [hj, hjob]
    rfl
  unfold State.grantIfReady State.grantJob
  simp only [hready, State.waitForStep_eq, hr]
  split
  · rw [show s.readied.wipeClaim = s.wipeClaim from rfl, show s.readied.life = s.life from rfl,
      show s.readied.layoutWork = s.layoutWork from rfl]
    split
    · cases s.life.nextCell with
      | none => rfl
      | some c => rfl
    · cases s.layoutWork with
      | none => rfl
      | some w => rfl
  · rfl

theorem State.grantIfReady_waits {s : State} (hj : s.job = none) (hr : s.resReady = false) : s.grantIfReady.Waits := by
  have hnone : s.Waits := fun j h => by cases hj.symm.trans h
  have hlow (u : State) (o : Owner) (c : Fin 26) (hu : u.resReady = false) :
      (u.waitForStep (.fresh o c u.settings.p)).Waits := by
    rw [State.waitForStep_eq, hu]
    rintro j ⟨⟩
    rfl
  unfold State.grantIfReady State.grantJob
  split
  · split
    · split
      · exact hlow s _ _ hr
      · exact hnone
    · split
      · exact hlow { s with layoutOp := _ } _ _ hr
      · exact hnone
  · exact hnone

/-! ### The power-on -/

theorem State.setsRestored_readied (vmain vaux : Bool) (d : StoreDamage) (s : State) :
    State.setsRestored vmain vaux d { s with resReady := true }
      = (State.setsRestored vmain vaux d { s with resReady := false }).readied := by
  have hpowered : State.poweredUp vmain vaux d { s with resReady := true }
      = (State.poweredUp vmain vaux d { s with resReady := false }).readied := rfl
  have hsettings (u : State) : u.readied.restoreSettings = u.restoreSettings.readied := by
    unfold State.restoreSettings
    rw [show u.readied.nvs = u.nvs from rfl]
    split
    · rfl
    · rfl
  have hsets (u : State) : u.readied.startTamper.restoreSets = u.startTamper.restoreSets.readied := rfl
  unfold State.setsRestored
  rw [hpowered, hsettings, hsets]

theorem State.lifecycleLost_readied (s : State) : s.readied.lifecycleLost = s.lifecycleLost.readied := by
  unfold State.lifecycleLost
  rw [show s.readied.evid = s.evid from rfl, show s.readied.cells = s.cells from rfl]
  dsimp only
  split_ifs <;> rfl

theorem State.recordsRestored_readied (vmain vaux : Bool) (d : StoreDamage) (s : State) :
    State.recordsRestored vmain vaux d { s with resReady := true }
      = (State.recordsRestored vmain vaux d { s with resReady := false }).readied := by
  rw [State.recordsRestored_eq, State.recordsRestored_eq, State.setsRestored_readied, State.lifecycleLost_readied]
  exact (apply_ite State.readied _ _ _).symm

/-- R140: neither the settings nor the sets carry erase work. -/
theorem State.setsRestored_idle (vmain vaux : Bool) (d : StoreDamage) (s : State) :
    (s.setsRestored vmain vaux d).WorkIdle ∧ (s.setsRestored vmain vaux d).resReady = s.resReady := by
  have hpowered : (s.poweredUp vmain vaux d).WorkIdle ∧ (s.poweredUp vmain vaux d).resReady = s.resReady :=
    ⟨⟨rfl, rfl, rfl, rfl⟩, rfl⟩
  have hkept (u : State) : (u.restoreSettings.startTamper.restoreSets.WorkIdle ↔ u.WorkIdle)
      ∧ u.restoreSettings.startTamper.restoreSets.resReady = u.resReady := by
    obtain ⟨c, n, w, l, p, h, -⟩ := u.restoreSettings_form
    rw [h]
    exact ⟨Iff.rfl, rfl⟩
  exact ⟨(hkept _).1.2 hpowered.1, (hkept _).2.trans hpowered.2⟩

/-- What stands before a restore acts: no erase work, and the level of RES_READY. -/
theorem State.recordsRestored_idle (vmain vaux : Bool) (d : StoreDamage) (s : State) :
    (s.recordsRestored vmain vaux d).WorkIdle ∧ (s.recordsRestored vmain vaux d).resReady = s.resReady := by
  have hsets := s.setsRestored_idle vmain vaux d
  rw [State.recordsRestored_eq]
  generalize s.setsRestored vmain vaux d = u at hsets ⊢
  split
  · exact hsets
  · obtain ⟨r, e, l, hform, -⟩ := u.lifecycleLost_form
    rw [hform]
    exact hsets

theorem State.recordsRestored_dim (vmain vaux : Bool) (d : StoreDamage) (s : State) :
    (s.recordsRestored vmain vaux d).Dim :=
  (s.recordsRestored_restores vmain vaux d).dim (s.setsRestored_dim vmain vaux d)

/-- R142, R121: with RES_READY true a restore does the same and begins the first step of the job it grants. -/
theorem State.restarted_readied (vmain vaux : Bool) (d : StoreDamage) (s : State) :
    State.restarted vmain vaux d { s with resReady := true }
      = (State.restarted vmain vaux d { s with resReady := false }).readied := by
  have hrecords := State.recordsRestored_readied vmain vaux d s
  have hdim := State.recordsRestored_dim vmain vaux d { s with resReady := false }
  obtain ⟨⟨-, -, hjob, -⟩, hlow⟩ := State.recordsRestored_idle vmain vaux d { s with resReady := false }
  unfold State.restarted
  rw [hrecords]
  generalize State.recordsRestored vmain vaux d { s with resReady := false } = u at hdim hjob hlow
  have hactions := hdim.restoreActions_restores
  have hjob' := State.restoreActions_job hdim hjob
  have hlow' : u.restoreActions.resReady = false := by
    obtain ⟨r, e, o, n, w, l, op, c, lop, lw, j, hform, -⟩ := hactions
    rw [hform]
    exact hlow
  rw [State.restoreActions_readied hdim hjob, State.grantIfReady_readied hjob' hlow',
    State.reevaluate_readied ((State.grantIfReady_restores _).dim (hactions.dim hdim))
      (State.grantIfReady_waits hjob' hlow')]

theorem State.powerOn_low {s : State} (hr : s.resReady = false) (vmain vaux : Bool) (r : Restore) :
    s.powerOn vmain vaux r = r.held.foldl State.answerHeld (s.restarted vmain vaux r.damage).beginStarting := by
  have hlow : (s.restarted vmain vaux r.damage).resReady = false := by
    have hrestores := s.restarted_restores vmain vaux r.damage
    have hsets := (s.setsRestored_idle vmain vaux r.damage).2.trans hr
    generalize s.setsRestored vmain vaux r.damage = u at hrestores hsets
    obtain ⟨r', e, o, n, w, l, op, c, lop, lw, j, hform, -⟩ := hrestores
    rw [hform]
    exact hsets
  rw [State.powerOn_eq]
  generalize s.restarted vmain vaux r.damage = u at hlow ⊢
  obtain ⟨reply, fault, hheld⟩ := foldl_answerHeld_form r.held u.beginStarting
  rw [hheld]
  exact endIfReady_of_not_ready _ hlow

theorem State.powerOn_high (vmain vaux : Bool) (r : Restore) (s : State) :
    State.powerOn vmain vaux r { s with resReady := true } =
      State.endStarting (r.held.foldl State.answerHeld
        (State.beginStarting (State.restarted vmain vaux r.damage { s with resReady := false })).readied) := by
  rw [State.powerOn_eq, State.restarted_readied]
  generalize State.restarted vmain vaux r.damage { s with resReady := false } = u
  obtain ⟨reply, fault, hheld⟩ := foldl_answerHeld_form r.held u.beginStarting.readied
  rw [show u.readied.beginStarting = u.beginStarting.readied from rfl, hheld]
  exact endIfReady_of_ready _ rfl

end Sys2Proof.Machine
end

