-- ==== Sys2Proof/Proofs/PowerOn.lean ====
section
/-! A power-on from OFF (O46). -/

namespace Sys2Proof.Machine

/-! ### The sets restored -/

/-- R1, R168: the settings record and the counter play no part in the choice of copies. -/
theorem Nvs.settled_withSettings (n : Nvs) (c : StoredSettings) (t : Nat) :
    ({ n with settings := c, seconds := t } : Nvs).settled = { n.settled with settings := c, seconds := t } := rfl

/-- R1: what a restore takes of each set. -/
theorem State.setsRestored_sets (vmain vaux : Bool) (d : StoreDamage) (s : State) :
    let n := (damaged d s.nvs).settled
    let u := s.setsRestored vmain vaux d
    u.life = n.lifecycle.taken ∧ u.cells = n.cells.taken ∧ u.cred = n.credentials.taken ∧ u.evid = n.evidence.taken
      ∧ u.nvs.lifecycle = n.lifecycle := by
  intro n u
  obtain ⟨c, n', w, l, p, h, hn⟩ := (s.poweredUp vmain vaux d).restoreSettings_form
  have hsettled : n'.settled = { n with settings := n'.settings, seconds := n'.seconds } := by
    rw [hn]
    exact Nvs.settled_withSettings _ _ _
  have hu (v : State) (m : Nvs) (hv : v.nvs.settled = m) :
      v.startTamper.restoreSets.life = m.lifecycle.taken ∧ v.startTamper.restoreSets.cells = m.cells.taken
        ∧ v.startTamper.restoreSets.cred = m.credentials.taken ∧ v.startTamper.restoreSets.evid = m.evidence.taken
        ∧ v.startTamper.restoreSets.nvs.lifecycle = m.lifecycle := by
    subst hv
    exact ⟨rfl, rfl, rfl, rfl, rfl⟩
  have hsets := hu (s.poweredUp vmain vaux d).restoreSettings _
    ((congrArg (fun v : State => v.nvs.settled) h).trans hsettled)
  exact hsets

/-- R168: the settings restored, and what shows of it. -/
theorem State.setsRestored_settings (vmain vaux : Bool) (d : StoreDamage) (s : State) :
    let good := s.nvs.settings.good && !d.settings
    let u := s.setsRestored vmain vaux d
    u.settings = (if good then s.nvs.settings.record else .defaults) ∧ u.nvs.settings = ⟨u.settings, u.settings.check⟩
      ∧ u.policyDefaulted = !good ∧ u.latched.getLsbD 7 = !good := by
  intro good u
  have hgood : (damaged d s.nvs).settings.good = good := damaged_settings_good d s.nvs
  have hkept (v : State) : v.startTamper.restoreSets.settings = v.settings
      ∧ v.startTamper.restoreSets.nvs.settings = v.nvs.settings
      ∧ v.startTamper.restoreSets.policyDefaulted = v.policyDefaulted
      ∧ v.startTamper.restoreSets.latched = v.latched := ⟨rfl, rfl, rfl, rfl⟩
  obtain ⟨hsettings, hstored, hdefaulted, hlatched⟩ := hkept (s.poweredUp vmain vaux d).restoreSettings
  change u.settings = _ at hsettings
  change u.nvs.settings = _ at hstored
  change u.policyDefaulted = _ at hdefaulted
  change u.latched = _ at hlatched
  rw [hstored, hsettings, hdefaulted, hlatched]
  have hpowered : (s.poweredUp vmain vaux d).nvs = damaged d s.nvs ∧ (s.poweredUp vmain vaux d).latched = 0
      ∧ (s.poweredUp vmain vaux d).policyDefaulted = false := ⟨rfl, rfl, rfl⟩
  obtain ⟨hnvs, hzero, hclear⟩ := hpowered
  generalize s.poweredUp vmain vaux d = v at hnvs hzero hclear
  cases hg : good with
  | true =>
    rw [hg] at hgood
    rw [State.restoreSettings_good (by rw [hnvs]; exact hgood), if_pos rfl]
    refine ⟨?_, ?_, hclear, ?_⟩
    · rw [hnvs]
      exact damaged_record d s.nvs
    · rw [hnvs]
      have hcheck : (damaged d s.nvs).settings.check = (damaged d s.nvs).settings.record.check := beq_iff_eq.1 hgood
      exact congrArg (StoredSettings.mk _) hcheck
    · rw [hzero]
      rfl
  | false =>
    rw [hg] at hgood
    rw [State.restoreSettings_bad (by rw [hnvs]; exact hgood), if_neg Bool.false_ne_true]
    refine ⟨rfl, rfl, rfl, ?_⟩
    rw [hzero]
    exact (by decide : (0 ||| 128 : BitVec 10).getLsbD 7 = true)

/-- R1, R168, R88: a store that a restore leaves as it stands, restored. -/
def State.plainlyRestored (vmain vaux : Bool) (s : State) : State :=
  { s.poweredUp vmain vaux ⟨false, false, false⟩ with
    nvs := s.nvs, settings := s.nvs.settings.record
    tamper := if s.nvs.settings.record.tamperCode = 0 then .off else .armed
    life := s.nvs.lifecycle.taken, cells := s.nvs.cells.taken, cred := s.nvs.credentials.taken
    layout := s.nvs.layout.taken, binding := s.nvs.binding.taken, evid := s.nvs.evidence.taken }

theorem State.recordsRestored_plain {s : State} (hgood : s.nvs.settings.good = true)
    (hlife : s.nvs.lifecycle.anyGood = true) (hsettled : s.nvs.settled = s.nvs) (vmain vaux : Bool) :
    s.recordsRestored vmain vaux ⟨false, false, false⟩ = s.plainlyRestored vmain vaux := by
  have hnvs : (s.poweredUp vmain vaux ⟨false, false, false⟩).nvs = s.nvs := rfl
  have hsets (v : State) (hv : v.nvs = s.nvs) :
      State.restoreSets (State.startTamper { v with settings := v.nvs.settings.record }) =
        { v with
          nvs := s.nvs, settings := s.nvs.settings.record
          tamper := if s.nvs.settings.record.tamperCode = 0 then .off else .armed
          life := s.nvs.lifecycle.taken, cells := s.nvs.cells.taken, cred := s.nvs.credentials.taken
          layout := s.nvs.layout.taken, binding := s.nvs.binding.taken, evid := s.nvs.evidence.taken } := by
    unfold State.restoreSets State.startTamper
    dsimp only
    rw [hv, hsettled]
  have hrestored : s.setsRestored vmain vaux ⟨false, false, false⟩ = s.plainlyRestored vmain vaux := by
    unfold State.setsRestored
    rw [State.restoreSettings_good (by rw [hnvs]; exact hgood)]
    exact hsets _ hnvs
  rw [State.recordsRestored_eq, hrestored]
  exact if_pos hlife

/-! ### The erase work after a restore -/

/-- R127: without a claim no job is granted. -/
theorem State.restarted_idle (vmain vaux : Bool) (d : StoreDamage) (s : State) :
    (s.restarted vmain vaux d).wipeClaim = false → (s.restarted vmain vaux d).layoutWork = none →
      (s.restarted vmain vaux d).job = none := by
  have hdim := s.recordsRestored_dim vmain vaux d
  obtain ⟨⟨-, -, hjob, -⟩, -⟩ := s.recordsRestored_idle vmain vaux d
  unfold State.restarted
  generalize s.recordsRestored vmain vaux d = u at hdim hjob
  have hnone := State.restoreActions_job hdim hjob
  have hdim' := hdim.restoreActions_restores.dim hdim
  generalize u.restoreActions = v at hnone hdim'
  intro hclaim hwork
  obtain ⟨o, j, hform⟩ := v.grantIfReady_form
  have hkept : v.grantIfReady.wipeClaim = v.wipeClaim ∧ v.grantIfReady.layoutWork = v.layoutWork := by
    rw [hform]
    exact ⟨rfl, rfl⟩
  rcases ((State.grantIfReady_restores v).dim hdim').reevaluate_work with hc | ⟨hc, hw, hj⟩
  · cases hclaim.symm.trans hc
  · rw [hj, State.grantIfReady_none (hkept.1.symm.trans (hc.symm.trans hclaim))
      (hkept.2.symm.trans (hw.symm.trans hwork))]
    exact hnone

/-- R15, R116: where the restored score raises no stage, a restore with a clear marker ends with the work it began. -/
theorem State.restarted_clear {vmain vaux : Bool} {d : StoreDamage} {s u : State}
    (hu : s.recordsRestored vmain vaux d = u)
    (hmark : u.cred.openAttempt = false ∨ u.life.lifecycle = .unprovisioned ∨ u.life.lifecycle = .disabled)
    (heval : evaluate u.settings u.evid.score u.evid.stage = u.evid.stage) (halert : u.evid.stage ≠ .alert) :
    s.restarted vmain vaux d = u.restoreActions.grantIfReady := by
  have hdim := s.recordsRestored_dim vmain vaux d
  obtain ⟨hidle, -⟩ := s.recordsRestored_idle vmain vaux d
  unfold State.restarted
  rw [hu] at hdim hidle ⊢
  obtain ⟨-, hevid, -, hsettings, -⟩ := State.workRestored_clear hdim.mode hidle hmark
  refine State.reevaluate_keeps ?_ fun h => ?_
  · rw [hevid, hsettings]
    exact heval
  · rw [hevid] at h
    exact halert h.1

/-! ### The lifecycle record lost -/

/-- R16: the lifecycle record of a part that lost its own. -/
def lostLife (cells : Vector Cell 26) : LifecycleRecord :=
  if cells[(0 : Fin 26)] ≠ .faulted then ⟨.wiping, some ⟨0, []⟩⟩
  else if anyHolding cells then ⟨.wiping, some ⟨1, [0]⟩⟩
  else ⟨.disabled, some ⟨26, faultedCells cells⟩⟩

/-- R16: its evidence. -/
def lostEvidence (cells : Vector Cell 26) (time : Nat) (e : Evidence) : Evidence :=
  if (lostLife cells).lifecycle = .wiping then Evidence.append time .wipeStart 0 e.score .wipe { e with stage := .wipe }
  else { e with stage := .wipe }

theorem lostLife_lifecycle (cells : Vector Cell 26) :
    (lostLife cells).lifecycle = .wiping ∨ (lostLife cells).lifecycle = .disabled := by
  unfold lostLife
  split
  · exact .inl rfl
  split
  · exact .inl rfl
  · exact .inr rfl

theorem lostEvidence_stage (cells : Vector Cell 26) (time : Nat) (e : Evidence) :
    (lostEvidence cells time e).stage = .wipe := by
  unfold lostEvidence
  split <;> rfl

theorem State.lifecycleLost_eq (s : State) :
    s.lifecycleLost =
      { State.commit [.lifecycle, .evidence]
          { s with life := lostLife s.cells, evid := lostEvidence s.cells s.seconds s.evid } with
        latched := if s.evid.stage ≠ .wipe then s.latched ||| 32 else s.latched } := by
  have hsettle (r : LifecycleRecord) (e : Evidence) :
      (if s.evid.stage != .wipe then (State.commit [.lifecycle, .evidence] { s with life := r, evid := e }).latch .stageRise
        else State.commit [.lifecycle, .evidence] { s with life := r, evid := e })
      = { State.commit [.lifecycle, .evidence] { s with life := r, evid := e } with
          latched := if s.evid.stage ≠ .wipe then s.latched ||| 32 else s.latched } := by
    by_cases h : s.evid.stage = .wipe
    · rw [if_neg (by simp [h]), if_neg (not_not.2 h)]
      rfl
    · rw [if_pos (by simp [h]), if_pos h]
      rfl
  unfold State.lifecycleLost lostEvidence lostLife
  dsimp only
  by_cases hroot : s.cells[(0 : Fin 26)] ≠ .faulted
  · rw [if_pos hroot, if_pos hroot]
    exact hsettle _ _
  · rw [if_neg hroot, if_neg hroot]
    by_cases hheld : anyHolding s.cells = true
    · rw [if_pos hheld, if_pos hheld]
      exact hsettle _ _
    · rw [if_neg hheld, if_neg hheld]
      exact hsettle _ _

/-- R16: some cell still holds. -/
theorem anyHolding_iff (cells : Vector Cell 26) :
    anyHolding cells = true ↔ ∃ (c : Fin 26) (x : CellContent), cells[c] = .holding x := by
  unfold anyHolding
  rw [List.any_eq_true]
  constructor
  · rintro ⟨x, hx, hheld⟩
    obtain ⟨i, hi, rfl⟩ := Vector.mem_iff_getElem.1 (Vector.mem_toList_iff.1 hx)
    cases hc : cells[i] with
    | holding y => exact ⟨⟨i, hi⟩, y, hc⟩
    | blank | faulted => simp [hc] at hheld
  · rintro ⟨c, x, hc⟩
    refine ⟨cells[c], Vector.mem_toList_iff.2 (Vector.getElem_mem c.isLt), ?_⟩
    rw [hc]

theorem State.commit_lifecycle_other {sets : List SetId} (h : SetId.lifecycle ∉ sets) (s : State) :
    (s.commit sets).nvs.lifecycle = s.nvs.lifecycle := if_neg h

/-- R15, R16, R28: a restore of a part at WIPE leaves its records, but for what a marker that it settles adds. -/
theorem State.workRestored_wiped {v : State} (hm : v.mode = .starting) (hidle : v.WorkIdle)
    (hl : v.life.lifecycle = .wiping ∨ v.life.lifecycle = .disabled) (hstage : v.evid.stage = .wipe) :
    let t := v.restoreActions.grantIfReady
    t.life = v.life ∧ t.cells = v.cells ∧ t.nvs.lifecycle = v.nvs.lifecycle ∧ t.settings = v.settings ∧ t.now = v.now
      ∧ t.wipeClaim = decide (v.life.lifecycle = .wiping) ∧ t.evid.stage = .wipe
      ∧ (v.cred.openAttempt = false → t.evid = v.evid)
      ∧ (v.latched.getLsbD 5 = true → t.latched.getLsbD 5 = true) := by
  intro t
  by_cases hmark : v.cred.openAttempt = false ∨ v.life.lifecycle = .unprovisioned ∨ v.life.lifecycle = .disabled
  · obtain ⟨hlife, hevid, hlatched, hsettings, hclaim, -⟩ := State.workRestored_clear hm hidle hmark
    have hkept : t.cells = v.cells ∧ t.nvs = v.nvs ∧ t.now = v.now := by
      change v.restoreActions.grantIfReady.cells = _ ∧ v.restoreActions.grantIfReady.nvs = _
        ∧ v.restoreActions.grantIfReady.now = _
      obtain ⟨o, j, hform⟩ := v.restoreActions.grantIfReady_form
      rw [hform]
      by_cases hw : v.life.lifecycle = .wiping
      · have hclear : v.resumeWipe.resolveMarker = v.resumeWipe :=
          State.resolveMarker_clear (hmark.resolve_right (by simp [hw]))
        rw [State.restoreActions_wiping hw, hclear]
        exact ⟨rfl, rfl, rfl⟩
      · rw [State.restoreActions_unprovisioned (.inr (hl.resolve_left hw))]
        exact ⟨rfl, rfl, rfl⟩
    obtain ⟨hcells, hnvs, hnow⟩ := hkept
    exact ⟨hlife, hcells, congrArg Nvs.lifecycle hnvs, hsettings, hnow, hclaim,
      (congrArg Evidence.stage hevid).trans hstage, fun _ => hevid, fun h => by rw [show t.latched = v.latched from hlatched]; exact h⟩
  · push Not at hmark
    obtain ⟨ho, -, hnot⟩ := hmark
    have ho' : v.cred.openAttempt = true := by simpa using ho
    have hw : v.life.lifecycle = .wiping := hl.resolve_right hnot
    obtain ⟨op, lop, lw, j, hform⟩ := State.workRestored_set ho' (.inr hw) (by rw [hstage]; exact if_pos rfl)
    have ht : t = _ := hform
    rw [ht, if_pos hw]
    refine ⟨rfl, rfl, ?_, rfl, rfl, by simp [hw], hstage, fun h => absurd h ho, fun h => ?_⟩
    · exact State.commit_lifecycle_other (sets := [.credentials, .evidence]) (by decide) _
    · change (v.latched ||| 1).getLsbD 5 = true
      rw [BitVec.getLsbD_or, h, Bool.true_or]

/-- R16: a commit over two failing copies writes both. -/
theorem TwoCopies.write_lost {α : Type} {t : TwoCopies α} (h : t.anyGood = false) (l : List (SetId × BitVec 32)) (x : α) :
    (t.write l x).taken = x ∧ (t.write l x).anyGood = true := by
  have htwice : t.twice = true := by
    unfold TwoCopies.twice
    rw [h]
    exact Bool.or_true _
  have hwrite : t.write l x = ⟨t.newCopy l x, t.newCopy l x⟩ := if_pos htwice
  rw [hwrite]
  refine ⟨?_, rfl⟩
  unfold TwoCopies.taken
  cases (⟨t.newCopy l x, t.newCopy l x⟩ : TwoCopies α).first <;> rfl

end Sys2Proof.Machine
end

