-- ==== Sys2Proof/Proofs/PowerOnObligation.lean ====
section
/-! The obligation about a power-on (O46), assembled from what a restore leaves. -/

namespace Sys2Proof.Machine

/-! ### With the lifecycle record lost -/

theorem State.commit_lifecycle_mem {sets : List SetId} (h : SetId.lifecycle ∈ sets) (s : State) :
    (s.commit sets).nvs.lifecycle = s.nvs.lifecycle.write (s.nvs.commitList sets) s.life := if_pos h

/-- R16: what a restore leaves of a part that lost its lifecycle record. -/
theorem State.restarted_lost {vmain vaux : Bool} {d : StoreDamage} {s u : State} (hu : s.setsRestored vmain vaux d = u)
    (hlost : u.nvs.lifecycle.anyGood = false) :
    let x := s.restarted vmain vaux d
    x.cells = u.cells ∧ x.life = lostLife u.cells ∧ x.nvs.lifecycle.taken = x.life ∧ x.nvs.lifecycle.anyGood = true
      ∧ x.evid.stage = .wipe ∧ x.now = u.now ∧ x.wipeClaim = decide (x.life.lifecycle = .wiping)
      ∧ (u.cred.openAttempt = false → x.evid = lostEvidence u.cells u.seconds u.evid)
      ∧ (u.evid.stage ≠ .wipe → x.latched.getLsbD 5 = true) := by
  intro x
  have hrecords : s.recordsRestored vmain vaux d = u.lifecycleLost := by
    rw [State.recordsRestored_eq, hu, if_neg (by rw [hlost]; decide)]
  have hdim := s.recordsRestored_dim vmain vaux d
  obtain ⟨hidle, -⟩ := s.recordsRestored_idle vmain vaux d
  have hx : x = (s.recordsRestored vmain vaux d).restoreActions.grantIfReady.reevaluate := rfl
  rw [hrecords] at hdim hidle hx
  have hv := u.lifecycleLost_eq
  obtain ⟨hcells, hlife, hlifecycle, hnow, hevid, hcred, hlatched⟩ :
      u.lifecycleLost.cells = u.cells ∧ u.lifecycleLost.life = lostLife u.cells
        ∧ (∃ l, u.lifecycleLost.nvs.lifecycle = u.nvs.lifecycle.write l (lostLife u.cells))
        ∧ u.lifecycleLost.now = u.now ∧ u.lifecycleLost.evid = lostEvidence u.cells u.seconds u.evid
        ∧ u.lifecycleLost.cred = u.cred
        ∧ u.lifecycleLost.latched = if u.evid.stage ≠ .wipe then u.latched ||| 32 else u.latched := by
    rw [hv]
    exact ⟨rfl, rfl, ⟨_, State.commit_lifecycle_mem (sets := [.lifecycle, .evidence]) (by decide) _⟩, rfl, rfl, rfl, rfl⟩
  clear hv
  generalize u.lifecycleLost = v at *
  have hstage : v.evid.stage = .wipe := by rw [hevid, lostEvidence_stage]
  obtain ⟨hl, hc, hn, -, ht, hclaim, hs, hclear, hlatch⟩ :=
    State.workRestored_wiped hdim.mode hidle (by rw [hlife]; exact lostLife_lifecycle u.cells) hstage
  have hkeeps : x = v.restoreActions.grantIfReady := by
    rw [hx]
    refine State.reevaluate_keeps ?_ fun h => ?_
    · rw [hs]
      exact if_pos rfl
    · cases hs.symm.trans h.1
  rw [hkeeps]
  obtain ⟨l, hwrite⟩ := hlifecycle
  obtain ⟨htaken, hgood⟩ := TwoCopies.write_lost hlost l (lostLife u.cells)
  refine ⟨hc.trans hcells, hl.trans hlife, ?_, ?_, hs, ht.trans hnow, ?_, fun ho => ?_, fun hne => ?_⟩
  · rw [hn, hwrite, htaken, hl, hlife]
  · rw [hn, hwrite, hgood]
  · rw [hclaim, hl]
  · rw [hclear (by rw [hcred]; exact ho), hevid]
  · refine hlatch ?_
    rw [hlatched, if_pos hne, BitVec.getLsbD_or]
    exact Bool.or_true _

/-- R1: a commit of credentials and evidence turns on the store, the clock and these two records. -/
theorem State.commit_credEvid_nvs {s u : State} (hn : s.nvs = u.nvs) (ht : s.now = u.now) (hc : s.cred = u.cred)
    (he : s.evid = u.evid) :
    (s.commit [.credentials, .evidence]).nvs = (u.commit [.credentials, .evidence]).nvs := by
  have hcommit (v : State) : (v.commit [.credentials, .evidence]).nvs =
      { v.nvs with
        credentials := v.nvs.credentials.write (v.nvs.commitList [.credentials, .evidence]) v.cred
        evidence := v.nvs.evidence.write (v.nvs.commitList [.credentials, .evidence]) v.evid
        seconds := min (v.now / Config.second) Config.topSeconds } := rfl
  rw [hcommit, hcommit, hn, ht, hc, he]

section PowerOn
variable {vmain vaux : Bool} {s : State} (hm : s.mode = .off) (hv : vmain ∨ vaux)
include hm hv

theorem powerOn_of_lost (d : StoreDamage) (held : List Frame) :
    let n := (damaged d s.nvs).settled
    let cells := n.cells.taken
    n.lifecycle.anyGood = false →
    ∃ t : State, exec (.powerOn vmain vaux ⟨d, held⟩) s = .next t
      ∧ t.cells = cells ∧ t.evid.stage = .wipe ∧ t.nvs.lifecycle.taken = t.life ∧ t.nvs.lifecycle.anyGood = true
      ∧ (cells[(0 : Fin 26)] ≠ .faulted → t.life = ⟨.wiping, some ⟨0, []⟩⟩)
      ∧ (cells[(0 : Fin 26)] = .faulted → (∃ (c : Fin 26) (x : CellContent), cells[c] = .holding x) →
        t.life = ⟨.wiping, some ⟨1, [0]⟩⟩)
      ∧ (cells[(0 : Fin 26)] = .faulted → (¬∃ (c : Fin 26) (x : CellContent), cells[c] = .holding x) →
        t.life = ⟨.disabled, some ⟨26, (List.finRange 26).filter fun c => cells[c] = .faulted⟩⟩)
      ∧ t.wipeClaim = decide (t.life.lifecycle = .wiping)
      ∧ (n.credentials.taken.openAttempt = false →
        t.evid =
          if t.life.lifecycle = .wiping then
            Evidence.append t.seconds .wipeStart 0 n.evidence.taken.score .wipe
              { n.evidence.taken with stage := .wipe }
          else { n.evidence.taken with stage := .wipe })
      ∧ (n.evidence.taken.stage ≠ .wipe → t.latched.getLsbD 5 = true) := by
  intro n cells hlost
  obtain ⟨-, hcells, hcred, hevid, hlifecycle⟩ := s.begin.setsRestored_sets vmain vaux d
  obtain ⟨xc, xe, xn, xl, xw, xlatch, xnow, -, -⟩ := s.begin.powerOn_keepsRestored vmain vaux ⟨d, held⟩
  have hrestarted := State.restarted_lost (s := s.begin) (vmain := vmain) (vaux := vaux) (d := d) rfl
  refine ⟨_, execPowerOn_off hm hv, ?_⟩
  dsimp only at xc xe xn xl xw xlatch xnow hrestarted
  generalize s.begin.powerOn vmain vaux ⟨d, held⟩ = t at *
  generalize s.begin.restarted vmain vaux d = x at *
  generalize s.begin.setsRestored vmain vaux d = u at *
  replace hcells : u.cells = cells := hcells
  replace hcred : u.cred = n.credentials.taken := hcred
  replace hevid : u.evid = n.evidence.taken := hevid
  replace hlifecycle : u.nvs.lifecycle = n.lifecycle := hlifecycle
  obtain ⟨rc, rl, rt, rg, rs, rnow, rw', re, rlatch⟩ := hrestarted (by rw [hlifecycle]; exact hlost)
  have hseconds : t.seconds = u.seconds :=
    congrArg (fun t => min (t / Config.second) Config.topSeconds) (xnow.trans rnow)
  have hlife : t.life = lostLife cells := xl.trans (rl.trans (congrArg lostLife hcells))
  rw [hcells, hcred, hevid, ← hseconds] at re
  rw [hevid] at rlatch
  rw [hcells] at rc
  rw [xe, xn, xw, xlatch]
  refine ⟨xc.trans rc, rs, rt.trans xl.symm, rg, fun h => ?_, fun h hh => ?_, fun h hh => ?_, ?_, fun ho => ?_, rlatch⟩
  · rw [hlife, lostLife, if_pos h]
  · rw [hlife, lostLife, if_neg (not_not.2 h), if_pos ((anyHolding_iff cells).2 hh)]
  · rw [hlife, lostLife, if_neg (not_not.2 h), if_neg (mt (anyHolding_iff cells).1 hh)]
    rfl
  · rw [rw', xl]
  · rw [re ho, hlife]
    rfl

/-! ### The settings and RES_READY -/

theorem powerOn_settings (r : Restore) :
    let good := s.nvs.settings.good && !r.damage.settings
    ∃ t : State, exec (.powerOn vmain vaux r) s = .next t
      ∧ t.settings = (if good then s.nvs.settings.record else .defaults)
      ∧ t.nvs.settings = ⟨t.settings, t.settings.check⟩ ∧ t.nvs.settings.good = true
      ∧ t.policyDefaulted = !good ∧ t.latched.getLsbD 7 = !good := by
  intro good
  obtain ⟨hsettings, hstored, hdefaulted, hlatched⟩ := s.begin.setsRestored_settings vmain vaux r.damage
  obtain ⟨-, -, xn, -, -, xlatch, -, xs, xp⟩ := s.begin.powerOn_keepsRestored vmain vaux r
  have hrestores := s.begin.restarted_restores vmain vaux r.damage
  refine ⟨_, execPowerOn_off hm hv, ?_⟩
  generalize s.begin.setsRestored vmain vaux r.damage = u at *
  generalize s.begin.powerOn vmain vaux r = t at *
  obtain ⟨r', e, o, n, w, l, op, c, lop, lw, j, hform, hn, hl⟩ := hrestores
  rw [hform] at xn xlatch xs xp
  have hset : t.settings = u.settings := xs
  have hnvs : t.nvs.settings = ⟨t.settings, t.settings.check⟩ := by
    rw [hset, ← hstored, ← hn]
    exact congrArg Nvs.settings xn
  refine ⟨hset.trans hsettings, hnvs, ?_, xp.trans hdefaulted, ?_⟩
  · rw [hnvs]
    exact storedSettings_good _
  · rw [xlatch]
    exact hl.trans hlatched

theorem powerOn_resReady (d : StoreDamage) (held : List Frame) (u : State)
    (hu : exec (.powerOn vmain vaux ⟨d, []⟩) { s with resReady := false } = .next u) :
    (s.resReady = false → exec (.powerOn vmain vaux ⟨d, held⟩) s = .next (held.foldl State.answerHeld u))
    ∧ (s.resReady = true → exec (.powerOn vmain vaux ⟨d, held⟩) s = .next
      (State.endStarting
        (held.foldl State.answerHeld
          { u with
            resReady := true
            job := u.job.map fun j =>
              { j with phase := if j.p ≤ j.good then .verify u.now else .pass u.now false false } }))) := by
  rw [execPowerOn_off (s := { s with resReady := false }) hm hv,
    State.powerOn_low (s := State.begin { s with resReady := false }) rfl] at hu
  obtain rfl := Host.Outcome.next.inj hu
  have hlevel (b : Bool) (h : s.resReady = b) : s.begin = { s.begin with resReady := b } := by
    subst h
    rfl
  refine ⟨fun h => ?_, fun h => ?_⟩
  · rw [execPowerOn_off hm hv, State.powerOn_low (s := s.begin) h, hlevel false h]
    rfl
  · rw [execPowerOn_off hm hv, hlevel true h, State.powerOn_high]
    rfl

/-! ### A store that a restore leaves as it stands -/

section Plain
variable (hr : s.resReady = false) (hgood : s.nvs.settings.good = true) (hlife : s.nvs.lifecycle.anyGood = true)
  (hsettled : s.nvs.settled = s.nvs)
include hr hgood hlife hsettled

/-- R140: the state that such a power-on leaves, and what it restored. -/
theorem powerOn_plain :
    exec (.powerOn vmain vaux ⟨⟨false, false, false⟩, []⟩) s =
        .next (s.begin.restarted vmain vaux ⟨false, false, false⟩).beginStarting
      ∧ s.begin.recordsRestored vmain vaux ⟨false, false, false⟩ = s.begin.plainlyRestored vmain vaux := by
  refine ⟨?_, State.recordsRestored_plain (s := s.begin) hgood hlife hsettled vmain vaux⟩
  rw [execPowerOn_off hm hv, State.powerOn_low (s := s.begin) hr]
  rfl

theorem powerOn_restores :
    ∃ t : State, exec (.powerOn vmain vaux ⟨⟨false, false, false⟩, []⟩) s = .next t
      ∧ t.mode = .starting ∧ t.vmain = vmain ∧ t.vaux = vaux ∧ t.now = s.nvs.seconds * 1000000
      ∧ t.reservoirWait = some t.now
      ∧ t.settings = s.nvs.settings.record
      ∧ t.cells = s.nvs.cells.taken ∧ t.layout = s.nvs.layout.taken ∧ t.binding = s.nvs.binding.taken
      ∧ t.gates = allClosed ∧ t.shadow = .shown ∧ t.mirror = emptyMirror ∧ t.mirrorShadow = .none
      ∧ t.queue = [] ∧ t.inFlight = none ∧ t.kpurge = none ∧ t.rootCopy = none ∧ t.verified = 0
      ∧ t.draft = none ∧ t.derivation = none ∧ t.grants = [] ∧ t.intent = none ∧ t.backoff = none
      ∧ (t.wipeClaim = false → t.layoutWork = none → t.job = none) ∧ t.report = ⟨0, none, 0⟩ ∧ t.masks = 0
      ∧ t.reply = none ∧ t.beacon = none ∧ t.window = .none
      ∧ t.tamper = (if s.nvs.settings.record.tamperCode = 0 then .off else .armed)
      ∧ t.credOp = .idle ∧ t.policyDefaulted = false
      ∧ t.cred = { s.nvs.credentials.taken with openAttempt := t.cred.openAttempt }
      ∧ ((s.nvs.credentials.taken.openAttempt = false ∨ s.nvs.lifecycle.taken.lifecycle = .unprovisioned
            ∨ s.nvs.lifecycle.taken.lifecycle = .disabled) →
          evaluate t.settings s.nvs.evidence.taken.score s.nvs.evidence.taken.stage
            = s.nvs.evidence.taken.stage → s.nvs.evidence.taken.stage ≠ .alert →
          t.life = s.nvs.lifecycle.taken ∧ t.evid = s.nvs.evidence.taken ∧ t.latched = 0
            ∧ t.wipeClaim = decide (s.nvs.lifecycle.taken.lifecycle = .wiping)
            ∧ (t.life.lifecycle = .provisioned →
              (lowestMarked 0 t.layout = none → t.layoutWork = none ∧ t.layoutOp = .idle)
              ∧ ∀ k, lowestMarked 0 t.layout = some k →
                t.layoutWork = some ⟨k, none⟩
                  ∧ t.layoutOp = ⟨some .startup, .running, none, some k.val, some t.millis, none, false⟩
                  ∧ t.job = some ⟨.layout, rangeCell k, t.settings.p, 1, 0, 0, .waiting⟩)
            ∧ (t.life.lifecycle = .wiping → t.layoutWork = none ∧ t.layoutOp = .idle
              ∧ ∀ journal, t.life.journal = some journal →
                t.wipeOp = ⟨some .wipe, .running, none,
                    if journal.next.val = 0 then none else some (journal.next.val - 1), some t.millis, none, false⟩
                  ∧ ∀ c : Fin 26, journal.next.val = c.val →
                    t.job = some ⟨.wipe, c, t.settings.p, 1, 0, 0, .waiting⟩)) := by
  obtain ⟨hexec, hrecords⟩ := powerOn_plain hm hv hr hgood hlife hsettled
  have hidle := s.begin.restarted_idle vmain vaux ⟨false, false, false⟩
  have hclear := State.restarted_clear hrecords
  have hdim := s.begin.recordsRestored_dim vmain vaux ⟨false, false, false⟩
  obtain ⟨hwork, hlow⟩ := s.begin.recordsRestored_idle vmain vaux ⟨false, false, false⟩
  have hrestores : (s.begin.recordsRestored vmain vaux ⟨false, false, false⟩).Restores
      (s.begin.restarted vmain vaux ⟨false, false, false⟩) := by
    have hgranted := hdim.restoreActions_restores.trans (State.grantIfReady_restores _)
    exact hgranted.trans (hgranted.dim hdim).reevaluate_restores
  rw [hrecords] at hdim hwork hlow hrestores
  have hlow' : (s.begin.plainlyRestored vmain vaux).resReady = false := hlow.trans hr
  have hquiet := State.workRestored_clear hdim.mode hwork
  rw [hlow'] at hquiet
  refine ⟨_, hexec, ?_⟩
  generalize s.begin.restarted vmain vaux ⟨false, false, false⟩ = x at hidle hclear hrestores ⊢
  have hfinal : (s.nvs.credentials.taken.openAttempt = false ∨ s.nvs.lifecycle.taken.lifecycle = .unprovisioned
            ∨ s.nvs.lifecycle.taken.lifecycle = .disabled) →
      evaluate s.nvs.settings.record s.nvs.evidence.taken.score s.nvs.evidence.taken.stage
            = s.nvs.evidence.taken.stage → s.nvs.evidence.taken.stage ≠ .alert →
      x = (s.begin.plainlyRestored vmain vaux).restoreActions.grantIfReady := hclear
  obtain ⟨r, e, o, n, w, l, op, c, lop, lw, j, hform, -⟩ := hrestores
  have hnow : (s.begin.plainlyRestored vmain vaux).now = s.nvs.seconds * 1000000 := rfl
  have hwork' := fun hmark heval halert => hfinal hmark heval halert ▸ hquiet hmark
  subst hform
  refine ⟨rfl, rfl, rfl, hnow, rfl, rfl, rfl, rfl, rfl, rfl, rfl, rfl, rfl, rfl, rfl, rfl, rfl, rfl, rfl, rfl, rfl, rfl, rfl,
    hidle, rfl, rfl, rfl, rfl, rfl, rfl, rfl, rfl, rfl, fun hmark heval halert => ?_⟩
  obtain ⟨hl, he, hlatched, -, hclaim, hlayoutWork, hwipeWork⟩ := hwork' hmark heval halert
  exact ⟨hl, he, hlatched, hclaim, hlayoutWork, hwipeWork⟩

theorem powerOn_settles_marker
    (hl : s.nvs.lifecycle.taken.lifecycle = .provisioned ∨ s.nvs.lifecycle.taken.lifecycle = .wiping)
    (ho : s.nvs.credentials.taken.openAttempt = true) :
    let c := s.nvs.settings.record
    let e := s.nvs.evidence.taken
    let w := c.wBad * min s.nvs.credentials.taken.failures 8
    let score := min 4095 (e.score + w)
    evaluate c score e.stage = e.stage → e.stage ≠ .alert →
    ∃ t : State, exec (.powerOn vmain vaux ⟨⟨false, false, false⟩, []⟩) s = .next t
      ∧ t.cred = { s.nvs.credentials.taken with openAttempt := false }
      ∧ t.evid = Evidence.append t.seconds .badSecret w score e.stage { e with score := score }
      ∧ t.backoff = none ∧ t.latched = 1 ∧ t.credOp = .idle ∧ t.life = s.nvs.lifecycle.taken
      ∧ t.nvs =
        (State.commit [.credentials, .evidence]
          { s with now := t.now, cred := t.cred, evid := t.evid }).nvs := by
  intro c e w score heval halert
  obtain ⟨hexec, hrecords⟩ := powerOn_plain hm hv hr hgood hlife hsettled
  obtain ⟨op, lop, lw, j, hform⟩ :=
    State.workRestored_set (s := s.begin.plainlyRestored vmain vaux) ho hl heval
  have hstays : s.begin.restarted vmain vaux ⟨false, false, false⟩
      = (s.begin.plainlyRestored vmain vaux).restoreActions.grantIfReady := by
    unfold State.restarted
    rw [hrecords, hform]
    exact State.reevaluate_keeps heval fun h => halert h.1
  rw [hstays, hform] at hexec
  exact ⟨_, hexec, rfl, rfl, rfl, (by decide : (0 ||| 1 : BitVec 10) = 1), rfl, rfl,
    State.commit_credEvid_nvs rfl rfl rfl rfl⟩

end Plain

end PowerOn

/-- R28: the marker settled. -/
theorem State.resolveMarker_eq (s : State) :
    (s.cred.openAttempt = false → s.resolveMarker = s)
    ∧ (s.cred.openAttempt = true →
      let u :=
        State.takeEvidence .badSecret (s.settings.wBad * min s.cred.failures 8) [.credentials]
          { s with cred := { s.cred with openAttempt := false } }
      s.resolveMarker = { u with backoff := none, latched := u.latched ||| 1 }) :=
  ⟨State.resolveMarker_clear, State.resolveMarker_set⟩

/-- Settles O46: the restore of a whole store, the marker, a lost lifecycle record, RES_READY, the held frames and the
settings. -/
theorem powerOnRestoresTheStore : Obligations.PowerOnRestoresTheStore := by
  refine ⟨fun vmain vaux s hm hv hr hgood hlife hsettled => powerOn_restores hm hv hr hgood hlife hsettled,
    fun vmain vaux s hm hv hr hgood hlife hsettled hl ho => powerOn_settles_marker hm hv hr hgood hlife hsettled hl ho,
    State.resolveMarker_eq, fun vmain vaux d held s hm hv => powerOn_of_lost hm hv d held,
    fun vmain vaux d held s u hm hv hu => powerOn_resReady hm hv d held u hu, fun f s hm => ?held,
    fun vmain vaux r s hm hv => powerOn_settings hm hv r, fun s => State.restoreSettings_bad⟩
  refine ⟨fun hlow => State.answerHeld_low hlow f, fun hf => State.answerHeld_silent hf s, fun hlow =>
    ⟨fun hf => State.answerHeld_fault hm hlow hf, fun code tag body hf => ⟨fun hnone => ?_, fun k hk => ?_⟩⟩⟩
  · rw [State.answerHeld_request hm hlow hf, (kindOf_eq_none code).2 hnone]
    rfl
  · subst hk
    exact State.answerHeld_kind hm hlow hf

end Sys2Proof.Machine
end
